-- ==== Sys2Proof/Word.lean ====
section
/-! DEFINITION. The word types: bytes, the 64-bit cells in which every XLEN-bit quantity is held, register
numbers, and the two values of `Cfg.XLEN` (00_scope.md R7, R8). -/

namespace Sys2Proof

/-- A byte of memory is 8 bits (20_memory.md R70). -/
abbrev Byte := BitVec 8

/-- A cell wide enough for an XLEN-bit value; with XLEN=32 the value is its low half. -/
abbrev Word := BitVec 64

/-- A 5-bit register number (10_state.md R30). -/
abbrev Reg := BitVec 5

/-- `Cfg.XLEN`, the width of an x register and of the pc (00_scope.md R7). -/
inductive Xlen where
  /-- XLEN = 32. -/
  | rv32
  /-- XLEN = 64. -/
  | rv64
  deriving DecidableEq, Repr

/-- XLEN in bits. -/
def Xlen.bits : Xlen → Nat
  | .rv32 => 32
  | .rv64 => 64

/-- XLEN/8, the size of a shadow-stack entry (46_cfi.md R321). -/
def Xlen.bytes : Xlen → Nat
  | .rv32 => 4
  | .rv64 => 8

end Sys2Proof
end

