-- ==== Sys2Proof/Config.lean ====
section
/-! DEFINITION. The configuration record `Cfg` (00_scope.md R7) and the free values: constants without a body that
stand for the values the spec leaves to a draw (10_state.md R55, 93_implementation_defined.md part 1). -/

namespace Sys2Proof

/-- Which extensions the hart implements (00_scope.md R2, R7 `ext`). -/
structure Exts where
  zifencei : Bool
  zicsr : Bool
  zicntr : Bool
  zihpm : Bool
  m : Bool
  zmmul : Bool
  zicond : Bool
  zilsd : Bool
  zclsd : Bool
  ziccif : Bool
  ziccrse : Bool
  ziccamoa : Bool
  ziccamoc : Bool
  zicclsm : Bool
  zic64b : Bool
  zimop : Bool
  zcmop : Bool
  zicfilp : Bool
  zicfiss : Bool
  zihintntl : Bool
  zihintpause : Bool
  zicbom : Bool
  zicboz : Bool
  zicbop : Bool
  zca : Bool
  zaamo : Bool
  deriving DecidableEq, Repr

/-- The configuration of a hart (00_scope.md R7). ILEN is 32 (D1) and data is little-endian (D3). -/
structure Cfg where
  /-- XLEN. -/
  xlen : Xlen
  /-- The implemented extensions. -/
  ext : Exts
  /-- Misaligned loads and stores to main memory succeed (true whenever Zicclsm is implemented). -/
  misalignedOK : Bool
  /-- log2 of `cbomBlock` (64 bytes whenever Zic64b is implemented). -/
  cbomLog : Nat
  /-- log2 of `cbozBlock` (64 bytes whenever Zic64b is implemented). -/
  cbozLog : Nat
  /-- `hpmImplemented` with `hpmWidth`: pairs of a counter index in 3..31 and its width in 1..64. -/
  hpmCounters : List (Nat × Nat)
  /-- An unimplemented hpmcounter raises illegal-instruction (true) or reads zero (false). -/
  hpmUnimplFaults : Bool
  /-- S-mode exists. -/
  sModeImplemented : Bool
  /-- UXLEN or SXLEN may be 32, so bit 2 of ssp is writable (10_state.md R45). -/
  sxlenMayBe32 : Bool
  /-- pc after reset. -/
  resetPc : Word
  /-- A misaligned SSAMOSWAP raises store/AMO access-fault rather than address-misaligned. -/
  misalignedAmoIsAccessFault : Bool
  /-- An agent outside the hart's coherent set writes memory. -/
  hasNonCoherentAgents : Bool
  deriving DecidableEq, Repr

/-- Every extension of 00_scope.md R2 with Zca and Zaamo: the ISA string of R3 for XLEN=32. -/
def Exts.all : Exts :=
  { zifencei := true, zicsr := true, zicntr := true, zihpm := true, m := true, zmmul := true,
    zicond := true, zilsd := true, zclsd := true, ziccif := true, ziccrse := true, ziccamoa := true,
    ziccamoc := true, zicclsm := true, zic64b := true, zimop := true, zcmop := true, zicfilp := true,
    zicfiss := true, zihintntl := true, zihintpause := true, zicbom := true, zicboz := true,
    zicbop := true, zca := true, zaamo := true }

/-- The configuration of the machine after reset: RV32 with every extension of R3.
DESIGN CHOICE (log 1, 2): the spec fixes no configuration. -/
def Cfg.reset : Cfg :=
  { xlen := .rv32, ext := Exts.all, misalignedOK := true, cbomLog := 6, cbozLog := 6,
    hpmCounters := (List.range 29).map fun k => (k + 3, 64), hpmUnimplFaults := false,
    sModeImplemented := true, sxlenMayBe32 := true, resetPc := 0x1000,
    misalignedAmoIsAccessFault := false, hasNonCoherentAgents := false }

/-- The same configuration at another XLEN; Zilsd and Zclsd exist only when XLEN=32 (00_scope.md R4). -/
def Cfg.withXlen (c : Cfg) (x : Xlen) : Cfg :=
  match x with
  | .rv32 => { c with xlen := .rv32 }
  | .rv64 => { c with xlen := .rv64, ext := { c.ext with zilsd := false, zclsd := false } }

/-- The places where a step draws a value that the spec leaves open; each names its row of
93_implementation_defined.md part 1 or its rule. -/
inductive Site where
  /-- Which state of the `k`-th fetched unit a fetch sees (row 31, 20_memory.md R102). -/
  | fetchUnit (k : Nat)
  /-- Which content of the byte at `addr` a fetch sees (rows 4 and 31). -/
  | fetchByte (addr : Nat)
  /-- Which member of `may` a load of the byte at `addr` returns (48_cmo.md R380). -/
  | loadByte (addr : Nat)
  /-- The trap value of illegal-instruction and virtual-instruction (row 34). -/
  | illegalValue
  /-- The trap value of a breakpoint, the pc or 0 (60_exceptions.md R459). -/
  | breakpointValue
  /-- How a pair access that faults is cut into parts (row 24). -/
  | pairCut
  /-- The position of the `k`-th part of a pair access in the order of the parts (row 24). -/
  | pairOrder (k : Nat)
  /-- Whether the `k`-th register of a trapping pair load has been written (row 25). -/
  | pairWritten (k : Nat)
  /-- Whether a clean or an invalidate is performed as a flush (row 7). -/
  | flushInstead
  /-- Whether a block that only a fetch may access is permitted to a management CBO (row 2). -/
  | fetchOnlyBlock
  deriving DecidableEq, Repr

/-- The draw made at a site of the step number `tick`: any number. -/
opaque Config.choice (tick : Nat) (site : Site) : Nat

/-- The power-on content of the byte at an address: any byte (10_state.md R57). -/
opaque Config.initialByte (addr : Nat) : Byte

/-- The byte a non-coherent agent supplies to a load of an invalid copy: any byte (48_cmo.md R380). -/
opaque Config.foreignByte (tick : Nat) (addr : Nat) : Byte

/-- How far cycle has advanced since its last read: any amount (10_state.md R42). -/
opaque Config.cycleAdvance (tick : Nat) : BitVec 64

/-- What the real-time clock shows: any value (10_state.md R43). -/
opaque Config.clock (tick : Nat) : BitVec 64

/-- The value an implemented hpmcounter shows, before its width is applied: any value (10_state.md R46). -/
opaque Config.hpmDraw (tick : Nat) (n : Nat) : BitVec 64

end Sys2Proof
end

