-- ==== Sys2Proof/Syntax.lean ====
section
/-! DEFINITION. The instructions: one constructor per row of spec/opcode_table.json. Operands are the raw fields of
the encoding (30_encoding.md R121 to R125), so that no bit of a word is lost: `imm` of a branch is `imm[12:1]`, of
JAL `imm[20:1]`, of C.J `offset[11:1]`, of a C.LDSP or C.SDSP `uimm[8:3]`, of a C.LD or C.SD `uimm[7:3]`, of a prefetch
`imm[11:5]`, of C.ADDI16SP `nzimm[9:4]`, of the CI forms `imm[5:0]`. -/

namespace Sys2Proof

/-- An instruction of the hart. -/
inductive Instr where
  -- Zifencei (40_zifencei.md)
  /-- FENCE.I, R161. -/
  | fenceI (funct12 : BitVec 12) (rs1 : Reg) (rd : Reg)
  -- Zicsr (41_zicsr_counters.md)
  /-- CSRRW, R171. -/
  | csrrw (rd : Reg) (rs1 : Reg) (csr : BitVec 12)
  /-- CSRRS, R172. -/
  | csrrs (rd : Reg) (rs1 : Reg) (csr : BitVec 12)
  /-- CSRRC, R173. -/
  | csrrc (rd : Reg) (rs1 : Reg) (csr : BitVec 12)
  /-- CSRRWI, R174. -/
  | csrrwi (rd : Reg) (uimm : BitVec 5) (csr : BitVec 12)
  /-- CSRRSI, R175. -/
  | csrrsi (rd : Reg) (uimm : BitVec 5) (csr : BitVec 12)
  /-- CSRRCI, R176. -/
  | csrrci (rd : Reg) (uimm : BitVec 5) (csr : BitVec 12)
  -- M and Zmmul (42_m_zmmul.md)
  /-- MUL, R221. -/
  | mul (rd : Reg) (rs1 : Reg) (rs2 : Reg)
  /-- MULH, R222. -/
  | mulh (rd : Reg) (rs1 : Reg) (rs2 : Reg)
  /-- MULHSU, R223. -/
  | mulhsu (rd : Reg) (rs1 : Reg) (rs2 : Reg)
  /-- MULHU, R224. -/
  | mulhu (rd : Reg) (rs1 : Reg) (rs2 : Reg)
  /-- DIV, R226. -/
  | div (rd : Reg) (rs1 : Reg) (rs2 : Reg)
  /-- DIVU, R227. -/
  | divu (rd : Reg) (rs1 : Reg) (rs2 : Reg)
  /-- REM, R228. -/
  | rem (rd : Reg) (rs1 : Reg) (rs2 : Reg)
  /-- REMU, R229. -/
  | remu (rd : Reg) (rs1 : Reg) (rs2 : Reg)
  /-- MULW, R225. -/
  | mulw (rd : Reg) (rs1 : Reg) (rs2 : Reg)
  /-- DIVW, R230. -/
  | divw (rd : Reg) (rs1 : Reg) (rs2 : Reg)
  /-- DIVUW, R231. -/
  | divuw (rd : Reg) (rs1 : Reg) (rs2 : Reg)
  /-- REMW, R232. -/
  | remw (rd : Reg) (rs1 : Reg) (rs2 : Reg)
  /-- REMUW, R233. -/
  | remuw (rd : Reg) (rs1 : Reg) (rs2 : Reg)
  -- Zicond (43_zicond.md)
  /-- CZERO.EQZ, R251. -/
  | czeroEqz (rd : Reg) (rs1 : Reg) (rs2 : Reg)
  /-- CZERO.NEZ, R252. -/
  | czeroNez (rd : Reg) (rs1 : Reg) (rs2 : Reg)
  -- Zilsd and Zclsd, XLEN=32 (44_zilsd_zclsd.md)
  /-- LD__Zilsd_pair, R264. -/
  | ldPair (rd : Reg) (rs1 : Reg) (imm : BitVec 12)
  /-- SD__Zilsd_pair, R265. -/
  | sdPair (rs2 : Reg) (rs1 : Reg) (imm : BitVec 12)
  /-- C.LDSP__Zclsd_pair, R266. -/
  | cLdspPair (rd : Reg) (off : BitVec 6)
  /-- C.SDSP__Zclsd_pair, R267. -/
  | cSdspPair (rs2 : Reg) (off : BitVec 6)
  /-- C.LD__Zclsd_pair, R269. -/
  | cLdPair (rd : BitVec 3) (rs1 : BitVec 3) (off : BitVec 5)
  /-- C.SD__Zclsd_pair, R270. -/
  | cSdPair (rs2 : BitVec 3) (rs1 : BitVec 3) (off : BitVec 5)
  -- Zimop and Zcmop (45_zimop_zcmop.md)
  /-- MOP.R.0, R292. -/
  | mopR0 (rd : Reg) (rs1 : Reg)
  /-- MOP.R.1, R292. -/
  | mopR1 (rd : Reg) (rs1 : Reg)
  /-- MOP.R.2, R292. -/
  | mopR2 (rd : Reg) (rs1 : Reg)
  /-- MOP.R.3, R292. -/
  | mopR3 (rd : Reg) (rs1 : Reg)
  /-- MOP.R.4, R292. -/
  | mopR4 (rd : Reg) (rs1 : Reg)
  /-- MOP.R.5, R292. -/
  | mopR5 (rd : Reg) (rs1 : Reg)
  /-- MOP.R.6, R292. -/
  | mopR6 (rd : Reg) (rs1 : Reg)
  /-- MOP.R.7, R292. -/
  | mopR7 (rd : Reg) (rs1 : Reg)
  /-- MOP.R.8, R292. -/
  | mopR8 (rd : Reg) (rs1 : Reg)
  /-- MOP.R.9, R292. -/
  | mopR9 (rd : Reg) (rs1 : Reg)
  /-- MOP.R.10, R292. -/
  | mopR10 (rd : Reg) (rs1 : Reg)
  /-- MOP.R.11, R292. -/
  | mopR11 (rd : Reg) (rs1 : Reg)
  /-- MOP.R.12, R292. -/
  | mopR12 (rd : Reg) (rs1 : Reg)
  /-- MOP.R.13, R292. -/
  | mopR13 (rd : Reg) (rs1 : Reg)
  /-- MOP.R.14, R292. -/
  | mopR14 (rd : Reg) (rs1 : Reg)
  /-- MOP.R.15, R292. -/
  | mopR15 (rd : Reg) (rs1 : Reg)
  /-- MOP.R.16, R292. -/
  | mopR16 (rd : Reg) (rs1 : Reg)
  /-- MOP.R.17, R292. -/
  | mopR17 (rd : Reg) (rs1 : Reg)
  /-- MOP.R.18, R292. -/
  | mopR18 (rd : Reg) (rs1 : Reg)
  /-- MOP.R.19, R292. -/
  | mopR19 (rd : Reg) (rs1 : Reg)
  /-- MOP.R.20, R292. -/
  | mopR20 (rd : Reg) (rs1 : Reg)
  /-- MOP.R.21, R292. -/
  | mopR21 (rd : Reg) (rs1 : Reg)
  /-- MOP.R.22, R292. -/
  | mopR22 (rd : Reg) (rs1 : Reg)
  /-- MOP.R.23, R292. -/
  | mopR23 (rd : Reg) (rs1 : Reg)
  /-- MOP.R.24, R292. -/
  | mopR24 (rd : Reg) (rs1 : Reg)
  /-- MOP.R.25, R292. -/
  | mopR25 (rd : Reg) (rs1 : Reg)
  /-- MOP.R.26, R292. -/
  | mopR26 (rd : Reg) (rs1 : Reg)
  /-- MOP.R.27, R292. -/
  | mopR27 (rd : Reg) (rs1 : Reg)
  /-- MOP.R.28, R292. -/
  | mopR28 (rd : Reg) (rs1 : Reg)
  /-- MOP.R.29, R292. -/
  | mopR29 (rd : Reg) (rs1 : Reg)
  /-- MOP.R.30, R292. -/
  | mopR30 (rd : Reg) (rs1 : Reg)
  /-- MOP.R.31, R292. -/
  | mopR31 (rd : Reg) (rs1 : Reg)
  /-- MOP.RR.0, R293. -/
  | mopRR0 (rd : Reg) (rs1 : Reg) (rs2 : Reg)
  /-- MOP.RR.1, R293. -/
  | mopRR1 (rd : Reg) (rs1 : Reg) (rs2 : Reg)
  /-- MOP.RR.2, R293. -/
  | mopRR2 (rd : Reg) (rs1 : Reg) (rs2 : Reg)
  /-- MOP.RR.3, R293. -/
  | mopRR3 (rd : Reg) (rs1 : Reg) (rs2 : Reg)
  /-- MOP.RR.4, R293. -/
  | mopRR4 (rd : Reg) (rs1 : Reg) (rs2 : Reg)
  /-- MOP.RR.5, R293. -/
  | mopRR5 (rd : Reg) (rs1 : Reg) (rs2 : Reg)
  /-- MOP.RR.6, R293. -/
  | mopRR6 (rd : Reg) (rs1 : Reg) (rs2 : Reg)
  /-- MOP.RR.7, R293. -/
  | mopRR7 (rd : Reg) (rs1 : Reg) (rs2 : Reg)
  /-- C.MOP.1, R297. -/
  | cMop1
  /-- C.MOP.3, R297. -/
  | cMop3
  /-- C.MOP.5, R297. -/
  | cMop5
  /-- C.MOP.7, R297. -/
  | cMop7
  /-- C.MOP.9, R297. -/
  | cMop9
  /-- C.MOP.11, R297. -/
  | cMop11
  /-- C.MOP.13, R297. -/
  | cMop13
  /-- C.MOP.15, R297. -/
  | cMop15
  -- Zicfilp and Zicfiss (46_cfi.md)
  /-- LPAD, R316. -/
  | lpad (lpl : BitVec 20)
  /-- SSPUSH_x1, R322. -/
  | sspushX1
  /-- SSPUSH_x5, R322. -/
  | sspushX5
  /-- C.SSPUSH_x1, R323. -/
  | cSspushX1
  /-- SSPOPCHK_x1, R325. -/
  | sspopchkX1
  /-- SSPOPCHK_x5, R325. -/
  | sspopchkX5
  /-- C.SSPOPCHK_x5, R326. -/
  | cSspopchkX5
  /-- SSRDP, R327. -/
  | ssrdp (rd : Reg)
  /-- SSAMOSWAP.W, R328. -/
  | ssamoswapW (rd : Reg) (rs1 : Reg) (rs2 : Reg) (aq : Bool) (rl : Bool)
  /-- SSAMOSWAP.D, R329. -/
  | ssamoswapD (rd : Reg) (rs1 : Reg) (rs2 : Reg) (aq : Bool) (rl : Bool)
  -- Zihintntl and Zihintpause (47_hints.md)
  /-- NTL.P1, R352. -/
  | ntlP1
  /-- NTL.PALL, R353. -/
  | ntlPall
  /-- NTL.S1, R354. -/
  | ntlS1
  /-- NTL.ALL, R355. -/
  | ntlAll
  /-- C.NTL.P1, R356. -/
  | cNtlP1
  /-- C.NTL.PALL, R357. -/
  | cNtlPall
  /-- C.NTL.S1, R358. -/
  | cNtlS1
  /-- C.NTL.ALL, R359. -/
  | cNtlAll
  /-- PAUSE, R366. -/
  | pause
  -- Zicbom, Zicboz and Zicbop (48_cmo.md)
  /-- CBO.INVAL, R386. -/
  | cboInval (rs1 : Reg)
  /-- CBO.CLEAN, R383. -/
  | cboClean (rs1 : Reg)
  /-- CBO.FLUSH, R384. -/
  | cboFlush (rs1 : Reg)
  /-- CBO.ZERO, R387. -/
  | cboZero (rs1 : Reg)
  /-- PREFETCH.I, R389. -/
  | prefetchI (rs1 : Reg) (imm : BitVec 7)
  /-- PREFETCH.R, R390. -/
  | prefetchR (rs1 : Reg) (imm : BitVec 7)
  /-- PREFETCH.W, R391. -/
  | prefetchW (rs1 : Reg) (imm : BitVec 7)
  -- the base subset (49_base_subset.md)
  /-- ADD, R411. -/
  | add (rd : Reg) (rs1 : Reg) (rs2 : Reg)
  /-- SUB, R412. -/
  | sub (rd : Reg) (rs1 : Reg) (rs2 : Reg)
  /-- AND, R413. -/
  | and (rd : Reg) (rs1 : Reg) (rs2 : Reg)
  /-- OR, R414. -/
  | or (rd : Reg) (rs1 : Reg) (rs2 : Reg)
  /-- XOR, R415. -/
  | xor (rd : Reg) (rs1 : Reg) (rs2 : Reg)
  /-- ADDI, R416. -/
  | addi (rd : Reg) (rs1 : Reg) (imm : BitVec 12)
  /-- ORI, R417. -/
  | ori (rd : Reg) (rs1 : Reg) (imm : BitVec 12)
  /-- LUI, R418. -/
  | lui (rd : Reg) (imm : BitVec 20)
  /-- AUIPC, R419. -/
  | auipc (rd : Reg) (imm : BitVec 20)
  /-- JAL, R421. -/
  | jal (rd : Reg) (imm : BitVec 20)
  /-- JALR, R422. -/
  | jalr (rd : Reg) (rs1 : Reg) (imm : BitVec 12)
  /-- BEQ, R423. -/
  | beq (rs1 : Reg) (rs2 : Reg) (imm : BitVec 12)
  /-- BNE, R424. -/
  | bne (rs1 : Reg) (rs2 : Reg) (imm : BitVec 12)
  /-- LW, R425. -/
  | lw (rd : Reg) (rs1 : Reg) (imm : BitVec 12)
  /-- SH, R426. -/
  | sh (rs2 : Reg) (rs1 : Reg) (imm : BitVec 12)
  /-- SW, R427. -/
  | sw (rs2 : Reg) (rs1 : Reg) (imm : BitVec 12)
  /-- LD__RV64, R428. -/
  | ldRv64 (rd : Reg) (rs1 : Reg) (imm : BitVec 12)
  /-- SD__RV64, R428. -/
  | sdRv64 (rs2 : Reg) (rs1 : Reg) (imm : BitVec 12)
  /-- FENCE, R429. -/
  | fence (fm : BitVec 4) (pred : BitVec 4) (succ : BitVec 4) (rs1 : Reg) (rd : Reg)
  /-- ECALL, R430. -/
  | ecall
  /-- EBREAK, R430. -/
  | ebreak
  -- the compressed subset (49_base_subset.md)
  /-- C.LI, R431. -/
  | cLi (rd : Reg) (imm : BitVec 6)
  /-- C.ADDI, R432. -/
  | cAddi (rd : Reg) (imm : BitVec 6)
  /-- C.ADD, R433. -/
  | cAdd (rd : Reg) (rs2 : Reg)
  /-- C.LUI, R434. -/
  | cLui (rd : Reg) (imm : BitVec 6)
  /-- C.ADDI16SP, R434. -/
  | cAddi16sp (imm : BitVec 6)
  /-- C.JR, R435. -/
  | cJr (rs1 : Reg)
  /-- C.JALR, R436. -/
  | cJalr (rs1 : Reg)
  /-- C.J, R437. -/
  | cJ (off : BitVec 11)
  /-- C.JAL, R438. -/
  | cJal (off : BitVec 11)
  /-- C.EBREAK, R439. -/
  | cEbreak
  /-- C.LD__RV64, R440. -/
  | cLdRv64 (rd : BitVec 3) (rs1 : BitVec 3) (off : BitVec 5)
  /-- C.SD__RV64, R440. -/
  | cSdRv64 (rs2 : BitVec 3) (rs1 : BitVec 3) (off : BitVec 5)
  /-- C.LDSP__RV64, R440. -/
  | cLdspRv64 (rd : Reg) (off : BitVec 6)
  /-- C.SDSP__RV64, R440. -/
  | cSdspRv64 (rs2 : Reg) (off : BitVec 6)
  deriving DecidableEq, Repr

end Sys2Proof
end

