-- ==== Sys2Proof/WellFormed.lean ====
section
/-! DEFINITION. Which configurations the spec admits (`Cfg.wf`, 00_scope.md R4, R7) and which instructions a hart of a
configuration has (`Instr.wellFormed`, 30_encoding.md R139 to R142): the extension is implemented, the XLEN is right,
the operands are no reserved ones, and the code point is not read as another instruction. -/

namespace Sys2Proof

/-- XLEN is 64. -/
def Cfg.isRv64 (c : Cfg) : Bool := c.xlen == .rv64

/-- M implies Zmmul (42_m_zmmul.md R236). -/
def Cfg.hasMul (c : Cfg) : Bool := c.ext.m || c.ext.zmmul

/-- The dependencies between extensions and the forced parameters (00_scope.md R4, R7; 20_memory.md R76, R87); `resetPc`
is an aligned address of XLEN bits (R7, 10_state.md R37). DESIGN CHOICE (log 50): XLEN = 32 with `sxlenMayBe32` false is
counted as not well-formed; the spec (R7, R45, R321, R324) does not say whether a hart may be configured so. -/
def Cfg.wf (c : Cfg) : Bool :=
  (!c.ext.zicntr || c.ext.zicsr) && (!c.ext.zihpm || c.ext.zicsr) && (!c.ext.m || c.ext.zmmul) &&
  (!c.ext.zclsd || (c.ext.zilsd && c.ext.zca)) && (!c.ext.zcmop || c.ext.zca) &&
  (!c.ext.zicfilp || c.ext.zicsr) &&
  (!c.ext.zicfiss || (c.ext.zicsr && c.ext.zimop && c.ext.zaamo)) &&
  (!c.isRv64 || (!c.ext.zilsd && !c.ext.zclsd)) &&
  (!c.ext.zicclsm || c.misalignedOK) &&
  (!c.ext.zic64b || (c.cbomLog == 6 && c.cbozLog == 6)) &&
  (decide (c.cbomLog ≤ c.xlen.bits) && decide (c.cbozLog ≤ c.xlen.bits)) &&
  (c.isRv64 || c.sxlenMayBe32) &&
  c.hpmCounters.all (fun p => decide (3 ≤ p.1 ∧ p.1 ≤ 31 ∧ 1 ≤ p.2 ∧ p.2 ≤ 64)) &&
  decide ((c.hpmCounters.map Prod.fst).Nodup) &&
  decide (c.resetPc.toNat < 2 ^ c.xlen.bits ∧ c.resetPc.toNat % (if c.ext.zca then 2 else 4) = 0)

/-- The pair operand of Zilsd and Zclsd must be even (44_zilsd_zclsd.md R261). -/
def evenReg (r : Reg) : Bool := r.toNat % 2 == 0

/-- The same for a 3-bit field: x8 is even, so the field is (44_zilsd_zclsd.md R268). -/
def evenCReg (r : BitVec 3) : Bool := r.toNat % 2 == 0

/-- MOP.R.28 code points of SSPOPCHK and SSRDP (46_cfi.md R332). -/
def isSsMopR28 (rd rs1 : Reg) : Bool :=
  (rd == 0 && (rs1 == 1 || rs1 == 5)) || (rd != 0 && rs1 == 0)

/-- MOP.RR.7 code points of SSPUSH (46_cfi.md R332). -/
def isSsMopRR7 (rd rs1 rs2 : Reg) : Bool :=
  rd == 0 && rs1 == 0 && (rs2 == 1 || rs2 == 5)

/-- ADD code points of the NTL hints (30_encoding.md R136, R139). -/
def isNtlAdd (rd rs1 rs2 : Reg) : Bool :=
  rd == 0 && rs1 == 0 && (rs2 == 2 || rs2 == 3 || rs2 == 4 || rs2 == 5)

/-- ORI code points of the prefetches (30_encoding.md R137, R139). -/
def isPrefetchOri (rd : Reg) (imm : BitVec 12) : Bool :=
  rd == 0 && (imm.extractLsb' 0 5 == 0 || imm.extractLsb' 0 5 == 1 || imm.extractLsb' 0 5 == 3)

/-- The FENCE code point of PAUSE (30_encoding.md R136, R139). -/
def isPauseFence (fm pred succ : BitVec 4) (rs1 rd : Reg) : Bool :=
  fm == 0 && pred == 1 && succ == 0 && rs1 == 0 && rd == 0

/-- The hart of configuration `c` has this instruction (30_encoding.md R139 to R142). -/
def Instr.wellFormed (c : Cfg) : Instr → Bool
  | .fenceI _ _ _ => c.ext.zifencei
  | .csrrw _ _ _ => c.ext.zicsr
  | .csrrs _ _ _ => c.ext.zicsr
  | .csrrc _ _ _ => c.ext.zicsr
  | .csrrwi _ _ _ => c.ext.zicsr
  | .csrrsi _ _ _ => c.ext.zicsr
  | .csrrci _ _ _ => c.ext.zicsr
  | .mul _ _ _ => c.hasMul
  | .mulh _ _ _ => c.hasMul
  | .mulhsu _ _ _ => c.hasMul
  | .mulhu _ _ _ => c.hasMul
  | .div _ _ _ => c.ext.m
  | .divu _ _ _ => c.ext.m
  | .rem _ _ _ => c.ext.m
  | .remu _ _ _ => c.ext.m
  | .mulw _ _ _ => c.hasMul && c.isRv64
  | .divw _ _ _ => c.ext.m && c.isRv64
  | .divuw _ _ _ => c.ext.m && c.isRv64
  | .remw _ _ _ => c.ext.m && c.isRv64
  | .remuw _ _ _ => c.ext.m && c.isRv64
  | .czeroEqz _ _ _ => c.ext.zicond
  | .czeroNez _ _ _ => c.ext.zicond
  | .ldPair rd _ _ => !c.isRv64 && c.ext.zilsd && evenReg rd
  | .sdPair rs2 _ _ => !c.isRv64 && c.ext.zilsd && evenReg rs2
  | .cLdspPair rd _ => c.ext.zca && !c.isRv64 && c.ext.zclsd && evenReg rd && rd != 0
  | .cSdspPair rs2 _ => c.ext.zca && !c.isRv64 && c.ext.zclsd && evenReg rs2
  | .cLdPair rd _ _ => c.ext.zca && !c.isRv64 && c.ext.zclsd && evenCReg rd
  | .cSdPair rs2 _ _ => c.ext.zca && !c.isRv64 && c.ext.zclsd && evenCReg rs2
  | .mopR0 _ _ => c.ext.zimop
  | .mopR1 _ _ => c.ext.zimop
  | .mopR2 _ _ => c.ext.zimop
  | .mopR3 _ _ => c.ext.zimop
  | .mopR4 _ _ => c.ext.zimop
  | .mopR5 _ _ => c.ext.zimop
  | .mopR6 _ _ => c.ext.zimop
  | .mopR7 _ _ => c.ext.zimop
  | .mopR8 _ _ => c.ext.zimop
  | .mopR9 _ _ => c.ext.zimop
  | .mopR10 _ _ => c.ext.zimop
  | .mopR11 _ _ => c.ext.zimop
  | .mopR12 _ _ => c.ext.zimop
  | .mopR13 _ _ => c.ext.zimop
  | .mopR14 _ _ => c.ext.zimop
  | .mopR15 _ _ => c.ext.zimop
  | .mopR16 _ _ => c.ext.zimop
  | .mopR17 _ _ => c.ext.zimop
  | .mopR18 _ _ => c.ext.zimop
  | .mopR19 _ _ => c.ext.zimop
  | .mopR20 _ _ => c.ext.zimop
  | .mopR21 _ _ => c.ext.zimop
  | .mopR22 _ _ => c.ext.zimop
  | .mopR23 _ _ => c.ext.zimop
  | .mopR24 _ _ => c.ext.zimop
  | .mopR25 _ _ => c.ext.zimop
  | .mopR26 _ _ => c.ext.zimop
  | .mopR27 _ _ => c.ext.zimop
  | .mopR28 rd rs1 => c.ext.zimop && !(c.ext.zicfiss && isSsMopR28 rd rs1)
  | .mopR29 _ _ => c.ext.zimop
  | .mopR30 _ _ => c.ext.zimop
  | .mopR31 _ _ => c.ext.zimop
  | .mopRR0 _ _ _ => c.ext.zimop
  | .mopRR1 _ _ _ => c.ext.zimop
  | .mopRR2 _ _ _ => c.ext.zimop
  | .mopRR3 _ _ _ => c.ext.zimop
  | .mopRR4 _ _ _ => c.ext.zimop
  | .mopRR5 _ _ _ => c.ext.zimop
  | .mopRR6 _ _ _ => c.ext.zimop
  | .mopRR7 rd rs1 rs2 => c.ext.zimop && !(c.ext.zicfiss && isSsMopRR7 rd rs1 rs2)
  | .cMop1 => c.ext.zca && c.ext.zcmop && !c.ext.zicfiss
  | .cMop3 => c.ext.zca && c.ext.zcmop
  | .cMop5 => c.ext.zca && c.ext.zcmop && !c.ext.zicfiss
  | .cMop7 => c.ext.zca && c.ext.zcmop
  | .cMop9 => c.ext.zca && c.ext.zcmop
  | .cMop11 => c.ext.zca && c.ext.zcmop
  | .cMop13 => c.ext.zca && c.ext.zcmop
  | .cMop15 => c.ext.zca && c.ext.zcmop
  | .lpad _ => c.ext.zicfilp
  | .sspushX1 => c.ext.zicfiss
  | .sspushX5 => c.ext.zicfiss
  | .cSspushX1 => c.ext.zca && c.ext.zcmop && c.ext.zicfiss
  | .sspopchkX1 => c.ext.zicfiss
  | .sspopchkX5 => c.ext.zicfiss
  | .cSspopchkX5 => c.ext.zca && c.ext.zcmop && c.ext.zicfiss
  | .ssrdp rd => c.ext.zicfiss && rd != 0
  | .ssamoswapW _ _ _ _ _ => c.ext.zicfiss
  | .ssamoswapD _ _ _ _ _ => c.ext.zicfiss && c.isRv64
  | .ntlP1 => c.ext.zihintntl
  | .ntlPall => c.ext.zihintntl
  | .ntlS1 => c.ext.zihintntl
  | .ntlAll => c.ext.zihintntl
  | .cNtlP1 => c.ext.zca && c.ext.zihintntl
  | .cNtlPall => c.ext.zca && c.ext.zihintntl
  | .cNtlS1 => c.ext.zca && c.ext.zihintntl
  | .cNtlAll => c.ext.zca && c.ext.zihintntl
  | .pause => c.ext.zihintpause
  | .cboInval _ => c.ext.zicbom
  | .cboClean _ => c.ext.zicbom
  | .cboFlush _ => c.ext.zicbom
  | .cboZero _ => c.ext.zicboz
  | .prefetchI _ _ => c.ext.zicbop
  | .prefetchR _ _ => c.ext.zicbop
  | .prefetchW _ _ => c.ext.zicbop
  | .add rd rs1 rs2 => !(c.ext.zihintntl && isNtlAdd rd rs1 rs2)
  | .sub _ _ _ => true
  | .and _ _ _ => true
  | .or _ _ _ => true
  | .xor _ _ _ => true
  | .addi _ _ _ => true
  | .ori rd _ imm => !(c.ext.zicbop && isPrefetchOri rd imm)
  | .lui _ _ => true
  | .auipc rd _ => !(c.ext.zicfilp && rd == 0)
  | .jal _ _ => true
  | .jalr _ _ _ => true
  | .beq _ _ _ => true
  | .bne _ _ _ => true
  | .lw _ _ _ => true
  | .sh _ _ _ => true
  | .sw _ _ _ => true
  | .ldRv64 _ _ _ => c.isRv64
  | .sdRv64 _ _ _ => c.isRv64
  | .fence fm pred succ rs1 rd => !(c.ext.zihintpause && isPauseFence fm pred succ rs1 rd)
  | .ecall => true
  | .ebreak => true
  | .cLi _ _ => c.ext.zca
  | .cAddi _ _ => c.ext.zca
  | .cAdd rd rs2 => c.ext.zca && rs2 != 0 && !(c.ext.zihintntl && isNtlAdd rd 0 rs2)
  | .cLui rd imm => c.ext.zca && rd != 2 && imm != 0
  | .cAddi16sp imm => c.ext.zca && imm != 0
  | .cJr rs1 => c.ext.zca && rs1 != 0
  | .cJalr rs1 => c.ext.zca && rs1 != 0
  | .cJ _ => c.ext.zca
  | .cJal _ => c.ext.zca && !c.isRv64
  | .cEbreak => c.ext.zca
  | .cLdRv64 _ _ _ => c.ext.zca && c.isRv64
  | .cSdRv64 _ _ _ => c.ext.zca && c.isRv64
  | .cLdspRv64 rd _ => c.ext.zca && c.isRv64 && rd != 0
  | .cSdspRv64 _ _ => c.ext.zca && c.isRv64

end Sys2Proof
end

