-- ==== Sys2Proof/Decode.lean ====
section
/-! DEFINITION. The decoder, total on any bytes and rejecting by name, and after it the encoder; both are written from
30_encoding.md R121 to R142 and 49_base_subset.md R410. Every bit pattern is the spec's, which marks most of them
as general knowledge (log 23). -/

namespace Sys2Proof

/-- Why bytes are no instruction of the hart: each is the illegal-instruction of 60_exceptions.md R452 row 1 or 2, but
for `truncated`, which a fetch of the whole instruction never meets. -/
inductive DecodeError where
  /-- Fewer bytes than the first parcel or its length asks for. -/
  | truncated
  /-- A 16-bit parcel that is no instruction of the configuration. -/
  | illegalParcel (h : BitVec 16)
  /-- A 32-bit word that is no instruction of the configuration. -/
  | illegalWord (w : BitVec 32)
  deriving DecidableEq, Repr

/-! ### Fields (30_encoding.md R10, R121, R122) -/

def fOpcode (w : BitVec 32) : BitVec 7 := w.extractLsb' 0 7
def fRd (w : BitVec 32) : Reg := w.extractLsb' 7 5
def fFunct3 (w : BitVec 32) : BitVec 3 := w.extractLsb' 12 3
def fRs1 (w : BitVec 32) : Reg := w.extractLsb' 15 5
def fRs2 (w : BitVec 32) : Reg := w.extractLsb' 20 5
def fFunct7 (w : BitVec 32) : BitVec 7 := w.extractLsb' 25 7
def fFunct12 (w : BitVec 32) : BitVec 12 := w.extractLsb' 20 12
/-- The U-immediate and the landing-pad label, inst[31:12]. -/
def fImm20 (w : BitVec 32) : BitVec 20 := w.extractLsb' 12 20
/-- The S-immediate, inst[31:25] ++ inst[11:7]. -/
def fImmS (w : BitVec 32) : BitVec 12 := fFunct7 w ++ fRd w
/-- imm[12:1] of a branch (49_base_subset.md R410, format B). -/
def fImmB (w : BitVec 32) : BitVec 12 :=
  w.extractLsb' 31 1 ++ w.extractLsb' 7 1 ++ w.extractLsb' 25 6 ++ w.extractLsb' 8 4
/-- imm[20:1] of JAL (49_base_subset.md R410, format J). -/
def fImmJ (w : BitVec 32) : BitVec 20 :=
  w.extractLsb' 31 1 ++ w.extractLsb' 12 8 ++ w.extractLsb' 20 1 ++ w.extractLsb' 21 10

def cOp (h : BitVec 16) : BitVec 2 := h.extractLsb' 0 2
def cFunct3 (h : BitVec 16) : BitVec 3 := h.extractLsb' 13 3
def cRd (h : BitVec 16) : Reg := h.extractLsb' 7 5
def cRs2 (h : BitVec 16) : Reg := h.extractLsb' 2 5
def cBit12 (h : BitVec 16) : BitVec 1 := h.extractLsb' 12 1
/-- rd' or rs2' of the CL and CS formats. -/
def cRdP (h : BitVec 16) : BitVec 3 := h.extractLsb' 2 3
/-- rs1' of the CL and CS formats. -/
def cRs1P (h : BitVec 16) : BitVec 3 := h.extractLsb' 7 3
/-- imm[5:0] of the CI format. -/
def cImm6 (h : BitVec 16) : BitVec 6 := cBit12 h ++ cRs2 h
/-- uimm[8:3] of C.LDSP (30_encoding.md R124). -/
def cOffLdsp (h : BitVec 16) : BitVec 6 := h.extractLsb' 2 3 ++ h.extractLsb' 12 1 ++ h.extractLsb' 5 2
/-- uimm[8:3] of C.SDSP (30_encoding.md R124). -/
def cOffSdsp (h : BitVec 16) : BitVec 6 := h.extractLsb' 7 3 ++ h.extractLsb' 10 3
/-- uimm[7:3] of C.LD and C.SD (30_encoding.md R124). -/
def cOffMem (h : BitVec 16) : BitVec 5 := h.extractLsb' 5 2 ++ h.extractLsb' 10 3
/-- nzimm[9:4] of C.ADDI16SP (49_base_subset.md R434). -/
def cImmAddi16sp (h : BitVec 16) : BitVec 6 :=
  h.extractLsb' 12 1 ++ h.extractLsb' 3 2 ++ h.extractLsb' 5 1 ++ h.extractLsb' 2 1 ++ h.extractLsb' 6 1
/-- offset[11:1] of the CJ format (49_base_subset.md R410). -/
def cOffJ (h : BitVec 16) : BitVec 11 :=
  h.extractLsb' 12 1 ++ h.extractLsb' 8 1 ++ h.extractLsb' 9 2 ++ h.extractLsb' 6 1 ++ h.extractLsb' 7 1 ++
    h.extractLsb' 2 1 ++ h.extractLsb' 11 1 ++ h.extractLsb' 3 3

/-! ### Major opcodes (30_encoding.md R126) -/

def opLoad : BitVec 7 := 0x03
def opMiscMem : BitVec 7 := 0x0F
def opOpImm : BitVec 7 := 0x13
def opAuipc : BitVec 7 := 0x17
def opStore : BitVec 7 := 0x23
def opAmo : BitVec 7 := 0x2F
def opOp : BitVec 7 := 0x33
def opLui : BitVec 7 := 0x37
def opOp32 : BitVec 7 := 0x3B
def opBranch : BitVec 7 := 0x63
def opJalr : BitVec 7 := 0x67
def opJal : BitVec 7 := 0x6F
def opSystem : BitVec 7 := 0x73

/-- MOP.R.n by its number (45_zimop_zcmop.md R292). -/
def mopROf (n : BitVec 5) (rd rs1 : Reg) : Instr :=
  match n.toNat with
  | 0 => .mopR0 rd rs1
  | 1 => .mopR1 rd rs1
  | 2 => .mopR2 rd rs1
  | 3 => .mopR3 rd rs1
  | 4 => .mopR4 rd rs1
  | 5 => .mopR5 rd rs1
  | 6 => .mopR6 rd rs1
  | 7 => .mopR7 rd rs1
  | 8 => .mopR8 rd rs1
  | 9 => .mopR9 rd rs1
  | 10 => .mopR10 rd rs1
  | 11 => .mopR11 rd rs1
  | 12 => .mopR12 rd rs1
  | 13 => .mopR13 rd rs1
  | 14 => .mopR14 rd rs1
  | 15 => .mopR15 rd rs1
  | 16 => .mopR16 rd rs1
  | 17 => .mopR17 rd rs1
  | 18 => .mopR18 rd rs1
  | 19 => .mopR19 rd rs1
  | 20 => .mopR20 rd rs1
  | 21 => .mopR21 rd rs1
  | 22 => .mopR22 rd rs1
  | 23 => .mopR23 rd rs1
  | 24 => .mopR24 rd rs1
  | 25 => .mopR25 rd rs1
  | 26 => .mopR26 rd rs1
  | 27 => .mopR27 rd rs1
  | 28 => .mopR28 rd rs1
  | 29 => .mopR29 rd rs1
  | 30 => .mopR30 rd rs1
  | _ => .mopR31 rd rs1

/-- MOP.RR.n by its number (45_zimop_zcmop.md R293). -/
def mopRROf (n : BitVec 3) (rd rs1 rs2 : Reg) : Instr :=
  match n.toNat with
  | 0 => .mopRR0 rd rs1 rs2
  | 1 => .mopRR1 rd rs1 rs2
  | 2 => .mopRR2 rd rs1 rs2
  | 3 => .mopRR3 rd rs1 rs2
  | 4 => .mopRR4 rd rs1 rs2
  | 5 => .mopRR5 rd rs1 rs2
  | 6 => .mopRR6 rd rs1 rs2
  | _ => .mopRR7 rd rs1 rs2

/-- C.MOP.n, or the Zicfiss form that takes its code point (30_encoding.md R133, R139). -/
def cMopOf (c : Cfg) (n : Reg) : Option Instr :=
  match n.toNat with
  | 1 => some (if c.ext.zicfiss then .cSspushX1 else .cMop1)
  | 3 => some .cMop3
  | 5 => some (if c.ext.zicfiss then .cSspopchkX5 else .cMop5)
  | 7 => some .cMop7
  | 9 => some .cMop9
  | 11 => some .cMop11
  | 13 => some .cMop13
  | 15 => some .cMop15
  | _ => none

/-- The instruction, where the hart has it. -/
def whenHas (b : Bool) (i : Instr) : Option Instr := if b then some i else none

/-! ### The 32-bit decoder -/

/-- Major opcode LOAD: LW, and LD of RV64 or of Zilsd (30_encoding.md R131, R139). -/
def decLoad (c : Cfg) (w : BitVec 32) : Option Instr :=
  if fFunct3 w = 2 then some (.lw (fRd w) (fRs1 w) (fFunct12 w))
  else if fFunct3 w = 3 then
    if c.isRv64 then some (.ldRv64 (fRd w) (fRs1 w) (fFunct12 w))
    else whenHas (c.ext.zilsd && evenReg (fRd w)) (.ldPair (fRd w) (fRs1 w) (fFunct12 w))
  else none

/-- Major opcode STORE: SH, SW, and SD of RV64 or of Zilsd (30_encoding.md R131, R139). -/
def decStore (c : Cfg) (w : BitVec 32) : Option Instr :=
  if fFunct3 w = 1 then some (.sh (fRs2 w) (fRs1 w) (fImmS w))
  else if fFunct3 w = 2 then some (.sw (fRs2 w) (fRs1 w) (fImmS w))
  else if fFunct3 w = 3 then
    if c.isRv64 then some (.sdRv64 (fRs2 w) (fRs1 w) (fImmS w))
    else whenHas (c.ext.zilsd && evenReg (fRs2 w)) (.sdPair (fRs2 w) (fRs1 w) (fImmS w))
  else none

/-- Major opcode MISC-MEM: FENCE, PAUSE, FENCE.I, CBO (30_encoding.md R127, R136, R137). -/
def decMiscMem (c : Cfg) (w : BitVec 32) : Option Instr :=
  if fFunct3 w = 0 then
    let fm := w.extractLsb' 28 4
    let pred := w.extractLsb' 24 4
    let succ := w.extractLsb' 20 4
    if c.ext.zihintpause && isPauseFence fm pred succ (fRs1 w) (fRd w) then some .pause
    else some (.fence fm pred succ (fRs1 w) (fRd w))
  else if fFunct3 w = 1 then whenHas c.ext.zifencei (.fenceI (fFunct12 w) (fRs1 w) (fRd w))
  else if fFunct3 w = 2 then
    if fRd w = 0 then
      if fFunct12 w = 0 then whenHas c.ext.zicbom (.cboInval (fRs1 w))
      else if fFunct12 w = 1 then whenHas c.ext.zicbom (.cboClean (fRs1 w))
      else if fFunct12 w = 2 then whenHas c.ext.zicbom (.cboFlush (fRs1 w))
      else if fFunct12 w = 4 then whenHas c.ext.zicboz (.cboZero (fRs1 w))
      else none
    else none
  else none

/-- Major opcode OP-IMM: ADDI, ORI, the prefetches (30_encoding.md R137, R139). -/
def decOpImm (c : Cfg) (w : BitVec 32) : Option Instr :=
  if fFunct3 w = 0 then some (.addi (fRd w) (fRs1 w) (fFunct12 w))
  else if fFunct3 w = 6 then
    if c.ext.zicbop && isPrefetchOri (fRd w) (fFunct12 w) then
      if fRs2 w = 0 then some (.prefetchI (fRs1 w) (fFunct7 w))
      else if fRs2 w = 1 then some (.prefetchR (fRs1 w) (fFunct7 w))
      else some (.prefetchW (fRs1 w) (fFunct7 w))
    else some (.ori (fRd w) (fRs1 w) (fFunct12 w))
  else none

/-- Major opcode OP: the base operations, NTL, M, Zicond (30_encoding.md R129, R130, R136, R139). -/
def decOp (c : Cfg) (w : BitVec 32) : Option Instr :=
  if fFunct7 w = 0 then
    if fFunct3 w = 0 then
      if c.ext.zihintntl && isNtlAdd (fRd w) (fRs1 w) (fRs2 w) then
        if fRs2 w = 2 then some .ntlP1
        else if fRs2 w = 3 then some .ntlPall
        else if fRs2 w = 4 then some .ntlS1
        else some .ntlAll
      else some (.add (fRd w) (fRs1 w) (fRs2 w))
    else if fFunct3 w = 4 then some (.xor (fRd w) (fRs1 w) (fRs2 w))
    else if fFunct3 w = 6 then some (.or (fRd w) (fRs1 w) (fRs2 w))
    else if fFunct3 w = 7 then some (.and (fRd w) (fRs1 w) (fRs2 w))
    else none
  else if fFunct7 w = 32 then
    if fFunct3 w = 0 then some (.sub (fRd w) (fRs1 w) (fRs2 w)) else none
  else if fFunct7 w = 1 then
    if fFunct3 w = 0 then whenHas c.hasMul (.mul (fRd w) (fRs1 w) (fRs2 w))
    else if fFunct3 w = 1 then whenHas c.hasMul (.mulh (fRd w) (fRs1 w) (fRs2 w))
    else if fFunct3 w = 2 then whenHas c.hasMul (.mulhsu (fRd w) (fRs1 w) (fRs2 w))
    else if fFunct3 w = 3 then whenHas c.hasMul (.mulhu (fRd w) (fRs1 w) (fRs2 w))
    else if fFunct3 w = 4 then whenHas c.ext.m (.div (fRd w) (fRs1 w) (fRs2 w))
    else if fFunct3 w = 5 then whenHas c.ext.m (.divu (fRd w) (fRs1 w) (fRs2 w))
    else if fFunct3 w = 6 then whenHas c.ext.m (.rem (fRd w) (fRs1 w) (fRs2 w))
    else whenHas c.ext.m (.remu (fRd w) (fRs1 w) (fRs2 w))
  else if fFunct7 w = 7 then
    if fFunct3 w = 5 then whenHas c.ext.zicond (.czeroEqz (fRd w) (fRs1 w) (fRs2 w))
    else if fFunct3 w = 7 then whenHas c.ext.zicond (.czeroNez (fRd w) (fRs1 w) (fRs2 w))
    else none
  else none

/-- Major opcode OP-32, RV64 only (30_encoding.md R129). -/
def decOp32 (c : Cfg) (w : BitVec 32) : Option Instr :=
  if fFunct7 w = 1 then
    if fFunct3 w = 0 then whenHas (c.hasMul && c.isRv64) (.mulw (fRd w) (fRs1 w) (fRs2 w))
    else if fFunct3 w = 4 then whenHas (c.ext.m && c.isRv64) (.divw (fRd w) (fRs1 w) (fRs2 w))
    else if fFunct3 w = 5 then whenHas (c.ext.m && c.isRv64) (.divuw (fRd w) (fRs1 w) (fRs2 w))
    else if fFunct3 w = 6 then whenHas (c.ext.m && c.isRv64) (.remw (fRd w) (fRs1 w) (fRs2 w))
    else if fFunct3 w = 7 then whenHas (c.ext.m && c.isRv64) (.remuw (fRd w) (fRs1 w) (fRs2 w))
    else none
  else none

/-- Major opcode AMO: SSAMOSWAP, funct5 = 01001 (30_encoding.md R135). -/
def decAmo (c : Cfg) (w : BitVec 32) : Option Instr :=
  let aq := w.extractLsb' 26 1 == 1
  let rl := w.extractLsb' 25 1 == 1
  if w.extractLsb' 27 5 = 9 then
    if fFunct3 w = 2 then whenHas c.ext.zicfiss (.ssamoswapW (fRd w) (fRs1 w) (fRs2 w) aq rl)
    else if fFunct3 w = 3 then
      whenHas (c.ext.zicfiss && c.isRv64) (.ssamoswapD (fRd w) (fRs1 w) (fRs2 w) aq rl)
    else none
  else none

/-- SYSTEM with funct3 = 100: the MOPs, and the Zicfiss forms that take their code points (30_encoding.md R132, R135,
46_cfi.md R332). -/
def decMop (c : Cfg) (w : BitVec 32) : Option Instr :=
  if w.extractLsb' 31 1 = 1 then
    if w.extractLsb' 28 2 = 0 then
      if w.extractLsb' 25 1 = 1 then
        let n : BitVec 3 := w.extractLsb' 30 1 ++ w.extractLsb' 26 2
        if c.ext.zicfiss && (n == 7 && isSsMopRR7 (fRd w) (fRs1 w) (fRs2 w)) then
          some (if fRs2 w = 1 then .sspushX1 else .sspushX5)
        else whenHas c.ext.zimop (mopRROf n (fRd w) (fRs1 w) (fRs2 w))
      else if w.extractLsb' 22 3 = 7 then
        let n : BitVec 5 := w.extractLsb' 30 1 ++ w.extractLsb' 26 2 ++ w.extractLsb' 20 2
        if c.ext.zicfiss && (n == 28 && isSsMopR28 (fRd w) (fRs1 w)) then
          some (if fRs1 w = 0 then .ssrdp (fRd w) else if fRs1 w = 1 then .sspopchkX1 else .sspopchkX5)
        else whenHas c.ext.zimop (mopROf n (fRd w) (fRs1 w))
      else none
    else none
  else none

/-- Major opcode SYSTEM: ECALL, EBREAK, the CSR instructions, the MOPs (30_encoding.md R128, R132). -/
def decSystem (c : Cfg) (w : BitVec 32) : Option Instr :=
  if fFunct3 w = 0 then
    if fRd w = 0 ∧ fRs1 w = 0 then
      if fFunct12 w = 0 then some .ecall
      else if fFunct12 w = 1 then some .ebreak
      else none
    else none
  else if fFunct3 w = 1 then whenHas c.ext.zicsr (.csrrw (fRd w) (fRs1 w) (fFunct12 w))
  else if fFunct3 w = 2 then whenHas c.ext.zicsr (.csrrs (fRd w) (fRs1 w) (fFunct12 w))
  else if fFunct3 w = 3 then whenHas c.ext.zicsr (.csrrc (fRd w) (fRs1 w) (fFunct12 w))
  else if fFunct3 w = 4 then decMop c w
  else if fFunct3 w = 5 then whenHas c.ext.zicsr (.csrrwi (fRd w) (fRs1 w) (fFunct12 w))
  else if fFunct3 w = 6 then whenHas c.ext.zicsr (.csrrsi (fRd w) (fRs1 w) (fFunct12 w))
  else whenHas c.ext.zicsr (.csrrci (fRd w) (fRs1 w) (fFunct12 w))

/-- Major opcode BRANCH: BEQ and BNE (49_base_subset.md R423, R424). -/
def decBranch (w : BitVec 32) : Option Instr :=
  if fFunct3 w = 0 then some (.beq (fRs1 w) (fRs2 w) (fImmB w))
  else if fFunct3 w = 1 then some (.bne (fRs1 w) (fRs2 w) (fImmB w))
  else none

/-- The 32-bit decoder (30_encoding.md R126, R139). -/
def decode32 (c : Cfg) (w : BitVec 32) : Option Instr :=
  if fOpcode w = opLoad then decLoad c w
  else if fOpcode w = opMiscMem then decMiscMem c w
  else if fOpcode w = opOpImm then decOpImm c w
  else if fOpcode w = opAuipc then
    some (if c.ext.zicfilp && fRd w == 0 then .lpad (fImm20 w) else .auipc (fRd w) (fImm20 w))
  else if fOpcode w = opStore then decStore c w
  else if fOpcode w = opAmo then decAmo c w
  else if fOpcode w = opOp then decOp c w
  else if fOpcode w = opLui then some (.lui (fRd w) (fImm20 w))
  else if fOpcode w = opOp32 then decOp32 c w
  else if fOpcode w = opBranch then decBranch w
  else if fOpcode w = opJalr then
    if fFunct3 w = 0 then some (.jalr (fRd w) (fRs1 w) (fFunct12 w)) else none
  else if fOpcode w = opJal then some (.jal (fRd w) (fImmJ w))
  else if fOpcode w = opSystem then decSystem c w
  else none

/-! ### The 16-bit decoder -/

/-- Quadrant 00: C.LD and C.SD of RV64 or of Zclsd (30_encoding.md R131, 49_base_subset.md R440). -/
def decC0 (c : Cfg) (h : BitVec 16) : Option Instr :=
  if cFunct3 h = 3 then
    if c.isRv64 then some (.cLdRv64 (cRdP h) (cRs1P h) (cOffMem h))
    else whenHas (c.ext.zclsd && evenCReg (cRdP h)) (.cLdPair (cRdP h) (cRs1P h) (cOffMem h))
  else if cFunct3 h = 7 then
    if c.isRv64 then some (.cSdRv64 (cRdP h) (cRs1P h) (cOffMem h))
    else whenHas (c.ext.zclsd && evenCReg (cRdP h)) (.cSdPair (cRdP h) (cRs1P h) (cOffMem h))
  else none

/-- Quadrant 01: C.ADDI, C.JAL, C.LI, C.LUI with its sub-spaces, C.J (30_encoding.md R133, 49_base_subset.md R431 to R438). -/
def decC1 (c : Cfg) (h : BitVec 16) : Option Instr :=
  if cFunct3 h = 0 then some (.cAddi (cRd h) (cImm6 h))
  else if cFunct3 h = 1 then whenHas (!c.isRv64) (.cJal (cOffJ h))
  else if cFunct3 h = 2 then some (.cLi (cRd h) (cImm6 h))
  else if cFunct3 h = 3 then
    if cImm6 h = 0 then (if c.ext.zcmop then cMopOf c (cRd h) else none)
    else if cRd h = 2 then some (.cAddi16sp (cImmAddi16sp h))
    else some (.cLui (cRd h) (cImm6 h))
  else if cFunct3 h = 5 then some (.cJ (cOffJ h))
  else none

/-- Quadrant 10: C.LDSP, C.SDSP, C.JR, C.JALR, C.EBREAK, C.ADD, C.NTL (30_encoding.md R131, R136, 49_base_subset.md R433 to
R440). -/
def decC2 (c : Cfg) (h : BitVec 16) : Option Instr :=
  if cFunct3 h = 3 then
    if c.isRv64 then whenHas (cRd h != 0) (.cLdspRv64 (cRd h) (cOffLdsp h))
    else whenHas (c.ext.zclsd && (evenReg (cRd h) && cRd h != 0)) (.cLdspPair (cRd h) (cOffLdsp h))
  else if cFunct3 h = 7 then
    if c.isRv64 then some (.cSdspRv64 (cRs2 h) (cOffSdsp h))
    else whenHas (c.ext.zclsd && evenReg (cRs2 h)) (.cSdspPair (cRs2 h) (cOffSdsp h))
  else if cFunct3 h = 4 then
    if cBit12 h = 0 then
      if cRs2 h = 0 then whenHas (cRd h != 0) (.cJr (cRd h)) else none
    else if cRs2 h = 0 then some (if cRd h = 0 then .cEbreak else .cJalr (cRd h))
    else if c.ext.zihintntl && isNtlAdd (cRd h) 0 (cRs2 h) then
      if cRs2 h = 2 then some .cNtlP1
      else if cRs2 h = 3 then some .cNtlPall
      else if cRs2 h = 4 then some .cNtlS1
      else some .cNtlAll
    else some (.cAdd (cRd h) (cRs2 h))
  else none

/-- The 16-bit decoder; a parcel is an instruction only when Zca is implemented (30_encoding.md R121). -/
def decode16 (c : Cfg) (h : BitVec 16) : Option Instr :=
  if c.ext.zca then
    if cOp h = 0 then decC0 c h
    else if cOp h = 1 then decC1 c h
    else if cOp h = 2 then decC2 c h
    else none
  else none

/-! ### Bytes -/

/-- Two bytes as a parcel, little-endian (20_memory.md R73). -/
def parcelOf (b0 b1 : Byte) : BitVec 16 := b1 ++ b0

/-- Four bytes as a word: two little-endian parcels, the first in the low half (20_memory.md R73). -/
def wordOf (b0 b1 b2 b3 : Byte) : BitVec 32 := b3 ++ b2 ++ b1 ++ b0

/-- The two low bits of the first byte say that the instruction has 32 bits (30_encoding.md R121). -/
def isLongByte (b0 : Byte) : Bool := b0.extractLsb' 0 2 == 3

/-- The decoder: the instruction at the head of the bytes and the bytes after it. -/
def decode (c : Cfg) (bytes : List Byte) : Except DecodeError (Instr × List Byte) :=
  match bytes with
  | b0 :: b1 :: rest =>
    if isLongByte b0 then
      match rest with
      | b2 :: b3 :: rest' =>
        match decode32 c (wordOf b0 b1 b2 b3) with
        | some i => .ok (i, rest')
        | none => .error (.illegalWord (wordOf b0 b1 b2 b3))
      | _ => .error .truncated
    else
      match decode16 c (parcelOf b0 b1) with
      | some i => .ok (i, rest)
      | none => .error (.illegalParcel (parcelOf b0 b1))
  | _ => .error .truncated

/-! ### The encoder -/

/-- An encoded instruction: a 16-bit parcel or a 32-bit word. -/
inductive Encoding where
  | w16 (h : BitVec 16)
  | w32 (w : BitVec 32)
  deriving DecidableEq, Repr

/-- Format R (30_encoding.md R121). -/
def encR (funct7 : BitVec 7) (rs2 rs1 : Reg) (funct3 : BitVec 3) (rd : Reg) (op : BitVec 7) : BitVec 32 :=
  funct7 ++ rs2 ++ rs1 ++ funct3 ++ rd ++ op

/-- Format I and I-CSR. -/
def encI (imm : BitVec 12) (rs1 : Reg) (funct3 : BitVec 3) (rd : Reg) (op : BitVec 7) : BitVec 32 :=
  imm ++ rs1 ++ funct3 ++ rd ++ op

/-- Format S. -/
def encS (imm : BitVec 12) (rs2 rs1 : Reg) (funct3 : BitVec 3) (op : BitVec 7) : BitVec 32 :=
  imm.extractLsb' 5 7 ++ rs2 ++ rs1 ++ funct3 ++ imm.extractLsb' 0 5 ++ op

/-- Format U. -/
def encU (imm : BitVec 20) (rd : Reg) (op : BitVec 7) : BitVec 32 := imm ++ rd ++ op

/-- Format B; `imm` is imm[12:1] (49_base_subset.md R410). -/
def encB (imm : BitVec 12) (rs2 rs1 : Reg) (funct3 : BitVec 3) : BitVec 32 :=
  imm.extractLsb' 11 1 ++ imm.extractLsb' 4 6 ++ rs2 ++ rs1 ++ funct3 ++ imm.extractLsb' 0 4 ++
    imm.extractLsb' 10 1 ++ opBranch

/-- Format J; `imm` is imm[20:1] (49_base_subset.md R410). -/
def encJ (imm : BitVec 20) (rd : Reg) : BitVec 32 :=
  imm.extractLsb' 19 1 ++ imm.extractLsb' 0 10 ++ imm.extractLsb' 10 1 ++ imm.extractLsb' 11 8 ++ rd ++ opJal

/-- Format R-AMO; `funct5` with the aq and rl bits (30_encoding.md R121). -/
def encAmo (funct5 : BitVec 5) (aq rl : Bool) (rs2 rs1 : Reg) (funct3 : BitVec 3) (rd : Reg) : BitVec 32 :=
  funct5 ++ BitVec.ofBool aq ++ BitVec.ofBool rl ++ rs2 ++ rs1 ++ funct3 ++ rd ++ opAmo

/-- The FENCE layout (30_encoding.md R136). -/
def encFence (fm pred succ : BitVec 4) (rs1 rd : Reg) : BitVec 32 :=
  fm ++ pred ++ succ ++ rs1 ++ (0 : BitVec 3) ++ rd ++ opMiscMem

/-- MOP.R.n (30_encoding.md R132). -/
def encMopR (n : BitVec 5) (rs1 rd : Reg) : BitVec 32 :=
  (1 : BitVec 1) ++ n.extractLsb' 4 1 ++ (0 : BitVec 2) ++ n.extractLsb' 2 2 ++ (0 : BitVec 1) ++
    (7 : BitVec 3) ++ n.extractLsb' 0 2 ++ rs1 ++ (4 : BitVec 3) ++ rd ++ opSystem

/-- MOP.RR.n (30_encoding.md R132). -/
def encMopRR (n : BitVec 3) (rs2 rs1 rd : Reg) : BitVec 32 :=
  (1 : BitVec 1) ++ n.extractLsb' 2 1 ++ (0 : BitVec 2) ++ n.extractLsb' 0 2 ++ (1 : BitVec 1) ++ rs2 ++ rs1 ++
    (4 : BitVec 3) ++ rd ++ opSystem

/-- Format CR (30_encoding.md R122). -/
def encCR (funct4 : BitVec 4) (rd rs2 : Reg) (op : BitVec 2) : BitVec 16 := funct4 ++ rd ++ rs2 ++ op

/-- Format CI (30_encoding.md R122). -/
def encCI (funct3 : BitVec 3) (rd : Reg) (imm : BitVec 6) (op : BitVec 2) : BitVec 16 :=
  funct3 ++ imm.extractLsb' 5 1 ++ rd ++ imm.extractLsb' 0 5 ++ op

/-- C.LDSP; `off` is uimm[8:3] (30_encoding.md R131). -/
def encCLdsp (rd : Reg) (off : BitVec 6) : BitVec 16 :=
  (3 : BitVec 3) ++ off.extractLsb' 2 1 ++ rd ++ off.extractLsb' 0 2 ++ off.extractLsb' 3 3 ++ (2 : BitVec 2)

/-- C.SDSP; `off` is uimm[8:3] (30_encoding.md R131). -/
def encCSdsp (rs2 : Reg) (off : BitVec 6) : BitVec 16 :=
  (7 : BitVec 3) ++ off.extractLsb' 0 3 ++ off.extractLsb' 3 3 ++ rs2 ++ (2 : BitVec 2)

/-- C.LD and C.SD; `off` is uimm[7:3] (30_encoding.md R131). -/
def encCMem (funct3 : BitVec 3) (off : BitVec 5) (rs1 rd : BitVec 3) : BitVec 16 :=
  funct3 ++ off.extractLsb' 0 3 ++ rs1 ++ off.extractLsb' 3 2 ++ rd ++ (0 : BitVec 2)

/-- C.ADDI16SP; `imm` is nzimm[9:4] (49_base_subset.md R434). -/
def encCAddi16sp (imm : BitVec 6) : BitVec 16 :=
  (3 : BitVec 3) ++ imm.extractLsb' 5 1 ++ (2 : BitVec 5) ++ imm.extractLsb' 0 1 ++ imm.extractLsb' 2 1 ++
    imm.extractLsb' 3 2 ++ imm.extractLsb' 1 1 ++ (1 : BitVec 2)

/-- Format CJ; `off` is offset[11:1] (49_base_subset.md R410). -/
def encCJ (funct3 : BitVec 3) (off : BitVec 11) : BitVec 16 :=
  funct3 ++ off.extractLsb' 10 1 ++ off.extractLsb' 3 1 ++ off.extractLsb' 7 2 ++ off.extractLsb' 9 1 ++
    off.extractLsb' 5 1 ++ off.extractLsb' 6 1 ++ off.extractLsb' 0 3 ++ off.extractLsb' 4 1 ++ (1 : BitVec 2)

/-- The word of an instruction, written from the encoding tables (30_encoding.md R127 to R137, 49_base_subset.md R410). -/
def encodeBits : Instr → Encoding
  | .fenceI funct12 rs1 rd => .w32 (encI funct12 rs1 1 rd opMiscMem)
  | .csrrw rd rs1 csr => .w32 (encI csr rs1 1 rd opSystem)
  | .csrrs rd rs1 csr => .w32 (encI csr rs1 2 rd opSystem)
  | .csrrc rd rs1 csr => .w32 (encI csr rs1 3 rd opSystem)
  | .csrrwi rd uimm csr => .w32 (encI csr uimm 5 rd opSystem)
  | .csrrsi rd uimm csr => .w32 (encI csr uimm 6 rd opSystem)
  | .csrrci rd uimm csr => .w32 (encI csr uimm 7 rd opSystem)
  | .mul rd rs1 rs2 => .w32 (encR 1 rs2 rs1 0 rd opOp)
  | .mulh rd rs1 rs2 => .w32 (encR 1 rs2 rs1 1 rd opOp)
  | .mulhsu rd rs1 rs2 => .w32 (encR 1 rs2 rs1 2 rd opOp)
  | .mulhu rd rs1 rs2 => .w32 (encR 1 rs2 rs1 3 rd opOp)
  | .div rd rs1 rs2 => .w32 (encR 1 rs2 rs1 4 rd opOp)
  | .divu rd rs1 rs2 => .w32 (encR 1 rs2 rs1 5 rd opOp)
  | .rem rd rs1 rs2 => .w32 (encR 1 rs2 rs1 6 rd opOp)
  | .remu rd rs1 rs2 => .w32 (encR 1 rs2 rs1 7 rd opOp)
  | .mulw rd rs1 rs2 => .w32 (encR 1 rs2 rs1 0 rd opOp32)
  | .divw rd rs1 rs2 => .w32 (encR 1 rs2 rs1 4 rd opOp32)
  | .divuw rd rs1 rs2 => .w32 (encR 1 rs2 rs1 5 rd opOp32)
  | .remw rd rs1 rs2 => .w32 (encR 1 rs2 rs1 6 rd opOp32)
  | .remuw rd rs1 rs2 => .w32 (encR 1 rs2 rs1 7 rd opOp32)
  | .czeroEqz rd rs1 rs2 => .w32 (encR 7 rs2 rs1 5 rd opOp)
  | .czeroNez rd rs1 rs2 => .w32 (encR 7 rs2 rs1 7 rd opOp)
  | .ldPair rd rs1 imm => .w32 (encI imm rs1 3 rd opLoad)
  | .sdPair rs2 rs1 imm => .w32 (encS imm rs2 rs1 3 opStore)
  | .cLdspPair rd off => .w16 (encCLdsp rd off)
  | .cSdspPair rs2 off => .w16 (encCSdsp rs2 off)
  | .cLdPair rd rs1 off => .w16 (encCMem 3 off rs1 rd)
  | .cSdPair rs2 rs1 off => .w16 (encCMem 7 off rs1 rs2)
  | .mopR0 rd rs1 => .w32 (encMopR 0 rs1 rd)
  | .mopR1 rd rs1 => .w32 (encMopR 1 rs1 rd)
  | .mopR2 rd rs1 => .w32 (encMopR 2 rs1 rd)
  | .mopR3 rd rs1 => .w32 (encMopR 3 rs1 rd)
  | .mopR4 rd rs1 => .w32 (encMopR 4 rs1 rd)
  | .mopR5 rd rs1 => .w32 (encMopR 5 rs1 rd)
  | .mopR6 rd rs1 => .w32 (encMopR 6 rs1 rd)
  | .mopR7 rd rs1 => .w32 (encMopR 7 rs1 rd)
  | .mopR8 rd rs1 => .w32 (encMopR 8 rs1 rd)
  | .mopR9 rd rs1 => .w32 (encMopR 9 rs1 rd)
  | .mopR10 rd rs1 => .w32 (encMopR 10 rs1 rd)
  | .mopR11 rd rs1 => .w32 (encMopR 11 rs1 rd)
  | .mopR12 rd rs1 => .w32 (encMopR 12 rs1 rd)
  | .mopR13 rd rs1 => .w32 (encMopR 13 rs1 rd)
  | .mopR14 rd rs1 => .w32 (encMopR 14 rs1 rd)
  | .mopR15 rd rs1 => .w32 (encMopR 15 rs1 rd)
  | .mopR16 rd rs1 => .w32 (encMopR 16 rs1 rd)
  | .mopR17 rd rs1 => .w32 (encMopR 17 rs1 rd)
  | .mopR18 rd rs1 => .w32 (encMopR 18 rs1 rd)
  | .mopR19 rd rs1 => .w32 (encMopR 19 rs1 rd)
  | .mopR20 rd rs1 => .w32 (encMopR 20 rs1 rd)
  | .mopR21 rd rs1 => .w32 (encMopR 21 rs1 rd)
  | .mopR22 rd rs1 => .w32 (encMopR 22 rs1 rd)
  | .mopR23 rd rs1 => .w32 (encMopR 23 rs1 rd)
  | .mopR24 rd rs1 => .w32 (encMopR 24 rs1 rd)
  | .mopR25 rd rs1 => .w32 (encMopR 25 rs1 rd)
  | .mopR26 rd rs1 => .w32 (encMopR 26 rs1 rd)
  | .mopR27 rd rs1 => .w32 (encMopR 27 rs1 rd)
  | .mopR28 rd rs1 => .w32 (encMopR 28 rs1 rd)
  | .mopR29 rd rs1 => .w32 (encMopR 29 rs1 rd)
  | .mopR30 rd rs1 => .w32 (encMopR 30 rs1 rd)
  | .mopR31 rd rs1 => .w32 (encMopR 31 rs1 rd)
  | .mopRR0 rd rs1 rs2 => .w32 (encMopRR 0 rs2 rs1 rd)
  | .mopRR1 rd rs1 rs2 => .w32 (encMopRR 1 rs2 rs1 rd)
  | .mopRR2 rd rs1 rs2 => .w32 (encMopRR 2 rs2 rs1 rd)
  | .mopRR3 rd rs1 rs2 => .w32 (encMopRR 3 rs2 rs1 rd)
  | .mopRR4 rd rs1 rs2 => .w32 (encMopRR 4 rs2 rs1 rd)
  | .mopRR5 rd rs1 rs2 => .w32 (encMopRR 5 rs2 rs1 rd)
  | .mopRR6 rd rs1 rs2 => .w32 (encMopRR 6 rs2 rs1 rd)
  | .mopRR7 rd rs1 rs2 => .w32 (encMopRR 7 rs2 rs1 rd)
  | .cMop1 => .w16 (encCI 3 1 0 1)
  | .cMop3 => .w16 (encCI 3 3 0 1)
  | .cMop5 => .w16 (encCI 3 5 0 1)
  | .cMop7 => .w16 (encCI 3 7 0 1)
  | .cMop9 => .w16 (encCI 3 9 0 1)
  | .cMop11 => .w16 (encCI 3 11 0 1)
  | .cMop13 => .w16 (encCI 3 13 0 1)
  | .cMop15 => .w16 (encCI 3 15 0 1)
  | .lpad lpl => .w32 (encU lpl 0 opAuipc)
  | .sspushX1 => .w32 (encMopRR 7 1 0 0)
  | .sspushX5 => .w32 (encMopRR 7 5 0 0)
  | .cSspushX1 => .w16 (encCI 3 1 0 1)
  | .sspopchkX1 => .w32 (encMopR 28 1 0)
  | .sspopchkX5 => .w32 (encMopR 28 5 0)
  | .cSspopchkX5 => .w16 (encCI 3 5 0 1)
  | .ssrdp rd => .w32 (encMopR 28 0 rd)
  | .ssamoswapW rd rs1 rs2 aq rl => .w32 (encAmo 9 aq rl rs2 rs1 2 rd)
  | .ssamoswapD rd rs1 rs2 aq rl => .w32 (encAmo 9 aq rl rs2 rs1 3 rd)
  | .ntlP1 => .w32 (encR 0 2 0 0 0 opOp)
  | .ntlPall => .w32 (encR 0 3 0 0 0 opOp)
  | .ntlS1 => .w32 (encR 0 4 0 0 0 opOp)
  | .ntlAll => .w32 (encR 0 5 0 0 0 opOp)
  | .cNtlP1 => .w16 (encCR 9 0 2 2)
  | .cNtlPall => .w16 (encCR 9 0 3 2)
  | .cNtlS1 => .w16 (encCR 9 0 4 2)
  | .cNtlAll => .w16 (encCR 9 0 5 2)
  | .pause => .w32 (encFence 0 1 0 0 0)
  | .cboInval rs1 => .w32 (encI 0 rs1 2 0 opMiscMem)
  | .cboClean rs1 => .w32 (encI 1 rs1 2 0 opMiscMem)
  | .cboFlush rs1 => .w32 (encI 2 rs1 2 0 opMiscMem)
  | .cboZero rs1 => .w32 (encI 4 rs1 2 0 opMiscMem)
  | .prefetchI rs1 imm => .w32 (encR imm 0 rs1 6 0 opOpImm)
  | .prefetchR rs1 imm => .w32 (encR imm 1 rs1 6 0 opOpImm)
  | .prefetchW rs1 imm => .w32 (encR imm 3 rs1 6 0 opOpImm)
  | .add rd rs1 rs2 => .w32 (encR 0 rs2 rs1 0 rd opOp)
  | .sub rd rs1 rs2 => .w32 (encR 32 rs2 rs1 0 rd opOp)
  | .and rd rs1 rs2 => .w32 (encR 0 rs2 rs1 7 rd opOp)
  | .or rd rs1 rs2 => .w32 (encR 0 rs2 rs1 6 rd opOp)
  | .xor rd rs1 rs2 => .w32 (encR 0 rs2 rs1 4 rd opOp)
  | .addi rd rs1 imm => .w32 (encI imm rs1 0 rd opOpImm)
  | .ori rd rs1 imm => .w32 (encI imm rs1 6 rd opOpImm)
  | .lui rd imm => .w32 (encU imm rd opLui)
  | .auipc rd imm => .w32 (encU imm rd opAuipc)
  | .jal rd imm => .w32 (encJ imm rd)
  | .jalr rd rs1 imm => .w32 (encI imm rs1 0 rd opJalr)
  | .beq rs1 rs2 imm => .w32 (encB imm rs2 rs1 0)
  | .bne rs1 rs2 imm => .w32 (encB imm rs2 rs1 1)
  | .lw rd rs1 imm => .w32 (encI imm rs1 2 rd opLoad)
  | .sh rs2 rs1 imm => .w32 (encS imm rs2 rs1 1 opStore)
  | .sw rs2 rs1 imm => .w32 (encS imm rs2 rs1 2 opStore)
  | .ldRv64 rd rs1 imm => .w32 (encI imm rs1 3 rd opLoad)
  | .sdRv64 rs2 rs1 imm => .w32 (encS imm rs2 rs1 3 opStore)
  | .fence fm pred succ rs1 rd => .w32 (encFence fm pred succ rs1 rd)
  | .ecall => .w32 (encI 0 0 0 0 opSystem)
  | .ebreak => .w32 (encI 1 0 0 0 opSystem)
  | .cLi rd imm => .w16 (encCI 2 rd imm 1)
  | .cAddi rd imm => .w16 (encCI 0 rd imm 1)
  | .cAdd rd rs2 => .w16 (encCR 9 rd rs2 2)
  | .cLui rd imm => .w16 (encCI 3 rd imm 1)
  | .cAddi16sp imm => .w16 (encCAddi16sp imm)
  | .cJr rs1 => .w16 (encCR 8 rs1 0 2)
  | .cJalr rs1 => .w16 (encCR 9 rs1 0 2)
  | .cJ off => .w16 (encCJ 5 off)
  | .cJal off => .w16 (encCJ 1 off)
  | .cEbreak => .w16 (encCR 9 0 0 2)
  | .cLdRv64 rd rs1 off => .w16 (encCMem 3 off rs1 rd)
  | .cSdRv64 rs2 rs1 off => .w16 (encCMem 7 off rs1 rs2)
  | .cLdspRv64 rd off => .w16 (encCLdsp rd off)
  | .cSdspRv64 rs2 off => .w16 (encCSdsp rs2 off)

/-- The bytes of an encoded instruction, the lowest address first (20_memory.md R73). -/
def Encoding.bytes : Encoding → List Byte
  | .w16 h => [h.extractLsb' 0 8, h.extractLsb' 8 8]
  | .w32 w => [w.extractLsb' 0 8, w.extractLsb' 8 8, w.extractLsb' 16 8, w.extractLsb' 24 8]

/-- The bits of an encoded instruction, zero-extended (60_exceptions.md R452). -/
def Encoding.bits : Encoding → Word
  | .w16 h => h.setWidth 64
  | .w32 w => w.setWidth 64

/-- The bytes of an instruction. -/
def encode (i : Instr) : List Byte := (encodeBits i).bytes

/-- The instruction bits, which an illegal-instruction may record (60_exceptions.md R452). -/
def instrBits (i : Instr) : Word := (encodeBits i).bits

/-! ### The opcode table's numbering of bits -/

/-- The four bytes of an instruction of the opcode table whose bits are `w`; those at and above `nbits` are 0. -/
def tableBytes (nbits w : Nat) : List Byte :=
  let v := BitVec.ofNat 32 (w % 2 ^ nbits)
  [v.extractLsb' 0 8, v.extractLsb' 8 8, v.extractLsb' 16 8, v.extractLsb' 24 8]

/-- The configuration under which the bytes are an instruction: `c` itself where it reads them, else `c` at XLEN=64
where that reads them (log 28). -/
def Cfg.forBytes (c : Cfg) (bytes : List Byte) : Cfg :=
  match decode c bytes with
  | .ok _ => c
  | .error _ =>
    match decode (c.withXlen .rv64) bytes with
    | .ok _ => c.withXlen .rv64
    | .error _ => c

/-- The instruction the decoder reads from a word of the opcode table, under the reset configuration (log 28). -/
def decodeTableWord (nbits w : Nat) : Option Instr :=
  let bytes := tableBytes nbits w
  match decode (Cfg.reset.forBytes bytes) bytes with
  | .ok (i, _) => some i
  | .error _ => none

end Sys2Proof
end

