-- ==== Sys2Proof/Machine/State.lean ====
section
/-! DEFINITION. The machine state as plain data: the hart's architectural state (10_state.md), the cache and
fetch-view state the ISA exposes (R54), the configuration and the environment inputs of the step (R52, R55), the record
of a taken trap (60_exceptions.md R460), and the reasons a step can stop. -/

namespace Sys2Proof.Machine

/-- The privilege modes the spec's pseudocode tests (10_state.md R52, 60_exceptions.md R472). -/
inductive Priv where
  /-- M-mode. -/
  | m
  /-- S-mode, or HS-mode. -/
  | s
  /-- U-mode. -/
  | u
  /-- VS-mode. -/
  | vs
  /-- VU-mode. -/
  | vu
  deriving DecidableEq, Repr

/-- The fields of an xenvcfg register that this spec reads (10_state.md R48). -/
structure EnvCfg where
  /-- Cache-block invalidate enable. -/
  cbie : BitVec 2
  /-- Cache-block clean and flush enable. -/
  cbcfe : Bool
  /-- Cache-block zero enable. -/
  cbze : Bool
  /-- Shadow-stack enable for the next lower mode. -/
  sse : Bool
  deriving DecidableEq, Repr

/-- The kinds of access `Permitted` is asked about (10_state.md R52). -/
inductive AccessKind where
  /-- An ordinary load. -/
  | load
  /-- An ordinary store. -/
  | store
  /-- An instruction fetch. -/
  | fetch
  /-- A shadow-stack load (46_cfi.md R324). -/
  | ssLoad
  /-- A shadow-stack store (46_cfi.md R324). -/
  | ssStore
  /-- A cache-block zero (48_cmo.md R385). -/
  | cboZero
  deriving DecidableEq, Repr

/-- Why an access is refused; it selects the exception (20_memory.md R80). -/
inductive Why where
  /-- First-stage translation refuses: page-fault. -/
  | page
  /-- Second-stage translation refuses: guest-page-fault. -/
  | guest
  /-- PMP or PMA refuses: access-fault. -/
  | access
  deriving DecidableEq, Repr

/-- Which accesses an entry of `Permitted` looks at. -/
inductive DenialScope where
  /-- Every access that touches a byte of the range, whatever its length: a region. -/
  | touching
  /-- Every access of `minLen` to `maxLen` bytes whose first byte lies in the range: an answer that depends on the
  length, as 48_cmo.md R377 gives for one access over two PMP regions. -/
  | starting (minLen maxLen : Nat)
  deriving DecidableEq, Repr

/-- One entry of `Permitted(addr, n, kind)`: accesses of the kinds `kinds` to the range `lo ≤ a < lo + len` are refused
for the reason `why`. Entries that look at one address, one length and one kind give every predicate (log 16). -/
structure Denial where
  lo : Nat
  len : Nat
  kinds : List AccessKind
  why : Why
  scope : DenialScope := .touching
  deriving DecidableEq, Repr

/-- The environment inputs (10_state.md R52): the execution environment owns them, no instruction writes them. -/
structure Env where
  /-- The current privilege mode. -/
  priv : Priv
  menvcfg : EnvCfg
  senvcfg : EnvCfg
  henvcfg : EnvCfg
  /-- Zicfilp is enabled at `priv`. -/
  xLPE : Bool
  /-- Zicfiss is enabled at `priv`. -/
  xSSE : Bool
  /-- `counterEnabled(k)` is bit k. -/
  counterEnabled : BitVec 32
  /-- `Permitted`, as the accesses it refuses; the empty list permits everything (D7). -/
  denied : List Denial
  deriving DecidableEq, Repr

/-- The expected-landing-pad state (10_state.md R47). -/
inductive Elp where
  /-- NO_LP_EXPECTED. -/
  | no
  /-- LP_EXPECTED. -/
  | expected
  deriving DecidableEq, Repr

/-- The synchronous exceptions (60_exceptions.md R451). -/
inductive Cause where
  /-- Code 0. -/
  | instrAddrMisaligned
  /-- Code 1. -/
  | instrAccessFault
  /-- Code 2. -/
  | illegalInstruction
  /-- Code 3. -/
  | breakpoint
  /-- Code 4. -/
  | loadAddrMisaligned
  /-- Code 5. -/
  | loadAccessFault
  /-- Code 6. -/
  | storeAddrMisaligned
  /-- Code 7. -/
  | storeAccessFault
  /-- Code 8. -/
  | ecallU
  /-- Code 9. -/
  | ecallS
  /-- Code 10. -/
  | ecallVS
  /-- Code 11. -/
  | ecallM
  /-- Code 12. -/
  | instrPageFault
  /-- Code 13. -/
  | loadPageFault
  /-- Code 15. -/
  | storePageFault
  /-- Code 18. -/
  | softwareCheck
  /-- Code 20. -/
  | instrGuestPageFault
  /-- Code 21. -/
  | loadGuestPageFault
  /-- Code 22. -/
  | virtualInstruction
  /-- Code 23. -/
  | storeGuestPageFault
  deriving DecidableEq, Repr

/-- What a taken trap records (60_exceptions.md R460); the architectural state of the record is the rest of `State`. -/
structure TrapRecord where
  /-- The exception. -/
  cause : Cause
  /-- The address of the instruction that raised it. -/
  epc : Word
  /-- The trap value (60_exceptions.md R459). -/
  tval : Word
  /-- The mode in which the instruction executed. -/
  priv : Priv
  /-- ELP at the time of the exception (60_exceptions.md R463). -/
  elp : Elp
  deriving DecidableEq, Repr

/-- What a byte of memory holds: a byte that was written, or (`none`) its power-on content, a free value (log 7). -/
abbrev Content := Option Byte

/-- The cached-data state of one byte beside its current content (48_cmo.md R380). -/
structure CacheByte where
  /-- Whether the current content is determined. -/
  valid : Bool
  /-- The contents the memory behind the coherent caches may hold. -/
  may : List Content
  deriving DecidableEq, Repr

/-- One state of an aligned 4-byte unit that an instruction fetch may see: its four contents, lowest address first
(20_memory.md R86, R102). -/
abbrev FetchVersion := List Content

/-- The machine. -/
structure State where
  /-- The configuration of the hart (00_scope.md R7); no instruction writes it. -/
  cfg : Cfg
  /-- The environment inputs (10_state.md R52); no instruction writes them. -/
  env : Env
  /-- x0 to x31 (10_state.md R30); the slot of x0 is never read. -/
  regs : Vector Word 32
  /-- The program counter (10_state.md R35). -/
  pc : Word
  /-- The shadow stack pointer (10_state.md R45). -/
  ssp : Word
  /-- The expected-landing-pad state (10_state.md R47). -/
  elp : Elp
  /-- The instructions-retired counter (10_state.md R44). -/
  instret : BitVec 64
  /-- The cycle counter as last read (10_state.md R42). -/
  cycle : BitVec 64
  /-- The real-time counter as last read (10_state.md R43). -/
  time : BitVec 64
  /-- The bytes of memory that have been written, addresses strictly rising; an unlisted byte holds its power-on
  content (10_state.md R53). -/
  mem : List Host.Cell
  /-- The bytes whose cached-data state is not the default "valid, memory holds the current content" (48_cmo.md R380). -/
  cache : List (Nat × CacheByte)
  /-- The aligned 4-byte units, by the address of their first byte, of which a fetch may see another state than the
  current one, with these states, the latest first (20_memory.md R102). -/
  fetchView : List (Nat × List FetchVersion)
  /-- The trap the hart has taken, if it has: a `Trapped` state (60_exceptions.md R460). -/
  trap : Option TrapRecord
  /-- The model's own step counter: it indexes the free values (log 8). -/
  tick : Nat
  deriving DecidableEq, Repr

/-- The faults: where a step stops without a next state. -/
inductive Fault where
  /-- Raised by `step` at a `Trapped` state: the step relation has no move from it (60_exceptions.md R460). Safe. -/
  | trapped
  /-- Raised by the CBO instructions on a block over which the protection is not uniform, or which grants stores
  without loads: UNSPECIFIED (48_cmo.md R377), treated as `stuck` (93_implementation_defined.md row 1). Safe. -/
  | cboBlockNotUniform
  deriving DecidableEq, Repr

/-- The refusals. -/
inductive Refusal where
  /-- An instruction without a meaning in this model. No arm of `exec` answers it. Safe. -/
  | notModelled (mnemonic : String)
  deriving DecidableEq, Repr

/-- Every enable off. DESIGN CHOICE (log 6). -/
def EnvCfg.off : EnvCfg := { cbie := 0, cbcfe := false, cbze := false, sse := false }

/-- The environment inputs at reset: M-mode (PRESUMED, log 6), every enable off (DESIGN CHOICE, log 6), counters
enabled and everything permitted (the defaults of 10_state.md R52, D7). -/
def Env.reset : Env :=
  { priv := .m, menvcfg := EnvCfg.off, senvcfg := EnvCfg.off, henvcfg := EnvCfg.off, xLPE := false, xSSE := false,
    counterEnabled := BitVec.allOnes 32, denied := [] }

/-- The machine right after reset (10_state.md R56, R57; log 1 to 7 and 42 for what R57 leaves unspecified). -/
def State.reset : State :=
  { cfg := Cfg.reset, env := Env.reset, regs := Vector.replicate 32 0, pc := Cfg.reset.resetPc, ssp := 0, elp := .no,
    instret := 0, cycle := 0, time := 0, mem := [], cache := [], fetchView := [], trap := none, tick := 0 }

end Sys2Proof.Machine
end

