-- ==== Sys2Proof/Machine/Ops.lean ====
section
/-! DEFINITION. The named operations: XLEN arithmetic, registers, draws, retiring, taking an exception, memory with its
cache and fetch-view state, permission, and the ordinary load and store. -/

namespace Sys2Proof.Machine

/-- The outcome of a step of this machine. -/
abbrev Out := Host.Outcome State Fault Refusal

/-! ### XLEN arithmetic (00_scope.md R9) -/

/-- The low XLEN bits of a cell, zero-extended to the cell (log 40). -/
def wrap (x : Xlen) (v : Word) : Word :=
  match x with
  | .rv32 => (v.setWidth 32).setWidth 64
  | .rv64 => v

/-- `trunc_XLEN(n)`. -/
def truncTo (x : Xlen) (n : Int) : Word := wrap x (BitVec.ofInt 64 n)

/-- `sext_XLEN` of a 32-bit value. -/
def sext32 (x : Xlen) (v : BitVec 32) : Word := wrap x (v.signExtend 64)

/-- XLEN of the hart. -/
def State.xlen (s : State) : Xlen := s.cfg.xlen

/-- IALIGN/8: 2 with Zca, else 4 (00_scope.md R7). -/
def ialignBytes (c : Cfg) : Nat := if c.ext.zca then 2 else 4

/-- Misaligned ordinary accesses succeed; Zicclsm forces it (20_memory.md R76). -/
def misalignedSupported (c : Cfg) : Bool := c.misalignedOK || c.ext.zicclsm

/-- `Cfg.cbomBlock`; Zic64b forces 64 (20_memory.md R87); a block is never larger than the address space. -/
def cbomBlock (c : Cfg) : Nat := if c.ext.zic64b then 64 else 2 ^ min c.cbomLog c.xlen.bits

/-- `Cfg.cbozBlock`; Zic64b forces 64 (20_memory.md R87); a block is never larger than the address space. -/
def cbozBlock (c : Cfg) : Nat := if c.ext.zic64b then 64 else 2 ^ min c.cbozLog c.xlen.bits

/-! ### Registers -/

/-- `x[r]`; x0 reads as zero (10_state.md R30, R31). -/
def State.x (s : State) (r : Reg) : Word := if r = 0 then 0 else wrap s.xlen (s.regs[r.toNat]'r.isLt)

/-- `x[r] <- v`; a write to x0 is discarded (10_state.md R31). -/
def State.setX (s : State) (r : Reg) (v : Word) : State :=
  { s with regs := if r = 0 then s.regs else s.regs.set r.toNat (wrap s.xlen v) r.isLt }

/-- `pc`, the address of the instruction being executed (10_state.md R35). -/
def State.pcv (s : State) : Word := wrap s.xlen s.pc

/-- The writable bits of ssp: bits 1:0 are read-only zero, bit 2 too unless UXLEN or SXLEN may be 32 (10_state.md R45). -/
def sspMask (c : Cfg) : Word := if c.sxlenMayBe32 then ~~~(3 : Word) else ~~~(7 : Word)

/-- A read of ssp (10_state.md R45). -/
def State.sspv (s : State) : Word := wrap s.xlen (s.ssp &&& sspMask s.cfg)

/-- A write of ssp, explicit or implicit (10_state.md R45). -/
def State.setSsp (s : State) (v : Word) : State := { s with ssp := wrap s.xlen (v &&& sspMask s.cfg) }

/-- `ELP <- e` (10_state.md R47). -/
def State.setElp (s : State) (e : Elp) : State := { s with elp := e }

/-! ### Draws (10_state.md R55) -/

/-- The draw of this step at a site: a free value (log 8). -/
def State.draw (s : State) (site : Site) : Nat := Config.choice s.tick site

/-- The member of a list a draw selects; the draw is looked at only where there is a choice. -/
def pick {α : Type} (n : Nat) (l : List α) (default : α) : α :=
  match l with
  | [] => default
  | [a] => a
  | a :: b :: rest => (a :: b :: rest).getD (n % (rest.length + 2)) a

/-! ### Retiring and taking an exception -/

/-- The instruction completes: the next pc is `t`, instret counts it (10_state.md R36, 41_zicsr_counters.md R192). -/
def State.retireTo (s : State) (t : Word) : Out :=
  .next { s with pc := wrap s.xlen t, instret := s.instret + 1, tick := s.tick + 1 }

/-- The address after an instruction of `len` bytes; addition wraps (10_state.md R36, D25). -/
def State.pcPlus (s : State) (len : Nat) : Word := wrap s.xlen (s.pcv + BitVec.ofNat 64 len)

/-- The instruction completes and pc advances past its `len` bytes (10_state.md R36). -/
def State.retire (s : State) (len : Nat) : Out := s.retireTo (s.pcPlus len)

/-- TAKING AN EXCEPTION: the record of 60_exceptions.md R460 is made; pc and instret keep their values and nothing
else is written (R461, R464). -/
def State.raise (s : State) (cause : Cause) (tval : Word) : Out :=
  .next { s with
    trap := some { cause := cause, epc := s.pcv, tval := tval, priv := s.env.priv, elp := s.elp },
    tick := s.tick + 1 }

/-- The trap value of an illegal-instruction or virtual-instruction: 0 or the instruction bits, a free choice
(60_exceptions.md R452, D30). -/
def State.illegalTval (s : State) (bits : Word) : Word := if s.draw .illegalValue % 2 = 0 then 0 else bits

/-- Illegal-instruction or virtual-instruction on the instruction `i` (60_exceptions.md R452, R453). -/
def State.raiseIllegal (s : State) (cause : Cause) (i : Instr) : Out := s.raise cause (s.illegalTval (instrBits i))

/-- A control transfer to `t` that writes the link `link` to `rd` and leaves ELP as `elp`; a target that is not
IALIGN-aligned raises instruction-address-misaligned and writes nothing (49_base_subset.md R420, R461). -/
def State.jump (s : State) (rd : Reg) (link t : Word) (elp : Elp) : Out :=
  if t.toNat % ialignBytes s.cfg = 0 then ((s.setX rd link).setElp elp).retireTo t
  else s.raise .instrAddrMisaligned t

/-! ### Lists of key and value in one canonical form: keys strictly rising -/

/-- The value at a key. -/
def sparseGet {α : Type} (l : List (Nat × α)) (a : Nat) : Option α :=
  match l with
  | [] => none
  | (k, v) :: rest => if k = a then some v else sparseGet rest a

/-- Set the value at a key, keeping the keys strictly rising. -/
def sparseSet {α : Type} (l : List (Nat × α)) (a : Nat) (v : α) : List (Nat × α) :=
  match l with
  | [] => [(a, v)]
  | (k, w) :: rest =>
    if a < k then (a, v) :: (k, w) :: rest
    else if a = k then (a, v) :: rest
    else (k, w) :: sparseSet rest a v

/-- Remove a key. -/
def sparseErase {α : Type} (l : List (Nat × α)) (a : Nat) : List (Nat × α) :=
  match l with
  | [] => []
  | (k, w) :: rest => if k = a then rest else (k, w) :: sparseErase rest a

/-- The keys rise strictly, and every one is above `lo` where `lo` is given. -/
def sparseSorted {α : Type} (lo : Option Nat) (l : List (Nat × α)) : Bool :=
  match l with
  | [] => true
  | (k, _) :: rest => (match lo with | none => true | some b => decide (b < k)) && sparseSorted (some k) rest

/-- The canonical form of memory: addresses strictly rising. An unlisted address has no written value, so no entry
can equal what an unlisted address holds (log 7). -/
def Memory.wf (m : List Host.Cell) : Bool := sparseSorted none m

/-- Add the new members to a list that stands for a set. -/
def addNew {α : Type} [DecidableEq α] (l new : List α) : List α :=
  match new with
  | [] => l
  | a :: rest => if a ∈ l then addNew l rest else addNew (l ++ [a]) rest

/-! ### The content of a byte -/

/-- What memory holds at an address. -/
def State.content (s : State) (a : Nat) : Content := sparseGet s.mem a

/-- A content as a byte: the power-on content is a free value of the address (10_state.md R57, log 7). -/
def contentByte (a : Nat) (c : Content) : Byte :=
  match c with
  | some b => b
  | none => Config.initialByte a

/-- `cur(a)`, the value the coherent agents see: what every byte read of this model is stated through (48_cmo.md R380). -/
def State.byteAt (s : State) (a : Nat) : Byte := contentByte a (s.content a)

/-- The cached-data state of a byte; the default is valid with memory holding the current content (48_cmo.md R380). -/
def State.cacheAt (s : State) (a : Nat) : CacheByte :=
  match sparseGet s.cache a with
  | some c => c
  | none => { valid := true, may := [s.content a] }

/-- A list of cached-data states with the state of a byte set; the default state is not listed. -/
def State.putCache (s : State) (l : List (Nat × CacheByte)) (a : Nat) (c : CacheByte) : List (Nat × CacheByte) :=
  if c = { valid := true, may := [s.content a] } then sparseErase l a else sparseSet l a c

/-- Set the cached-data state of a byte. -/
def State.setCache (s : State) (a : Nat) (c : CacheByte) : State := { s with cache := s.putCache s.cache a c }

/-- `Mem(a)` as the loads of this hart see it: the current content where the copy is valid, else a member of `may`, or
what a non-coherent agent supplies (48_cmo.md R380, 20_memory.md R96). -/
def State.loadContent (s : State) (a : Nat) : Content :=
  if (s.cacheAt a).valid then s.content a
  else if s.cfg.hasNonCoherentAgents then some (Config.foreignByte s.tick a)
  else pick (s.draw (.loadByte a)) (s.cacheAt a).may (s.content a)

/-- The byte a load returns. -/
def State.loadByte (s : State) (a : Nat) : Byte := contentByte a (s.loadContent a)

/-! ### Addresses and byte order -/

/-- The address of byte `i` of an access at `ea`; addresses wrap modulo 2^XLEN (20_memory.md R71). -/
def State.byteAddr (s : State) (ea : Word) (i : Nat) : Nat := (wrap s.xlen (ea + BitVec.ofNat 64 i)).toNat

/-- The byte addresses of an `n`-byte access, the lowest-numbered byte first (20_memory.md R71). -/
def State.addrs (s : State) (ea : Word) (n : Nat) : List Nat := (List.range n).map (s.byteAddr ea)

/-- The bytes of a value, little-endian (20_memory.md R72). -/
def leBytes (n : Nat) (v : Word) : List Byte := (List.range n).map fun i => v.extractLsb' (8 * i) 8

/-- The value of bytes, little-endian (20_memory.md R72). -/
def leWord (bytes : List Byte) : Word :=
  match bytes with
  | [] => 0
  | b :: rest => b.setWidth 64 ||| (leWord rest <<< 8)

/-- An address is naturally aligned for `n` bytes (20_memory.md R75). -/
def aligned (ea : Word) (n : Nat) : Bool := ea.toNat % n == 0

/-! ### The fetch view (20_memory.md R86, R102) -/

/-- The aligned 4-byte unit of an address: the M of R86 is 4 (D1). -/
def unitOf (a : Nat) : Nat := a - a % 4

/-- The current content of a unit. -/
def State.currentUnit (s : State) (u : Nat) : FetchVersion := (List.range 4).map fun k => s.content (u + k)

/-- The states of a unit that a fetch may see (20_memory.md R102). -/
def State.versionsAt (s : State) (u : Nat) : List FetchVersion :=
  match sparseGet s.fetchView u with
  | some vs => vs
  | none => [s.currentUnit u]

/-- The state of a unit that the loads of this hart see now (20_memory.md R102). -/
def State.loadedUnit (s : State) (u : Nat) : FetchVersion := (List.range 4).map fun k => s.loadContent (u + k)

/-- A list of fetch views with the states of a unit set; the current state alone is not listed. -/
def State.putVersions (s : State) (l : List (Nat × List FetchVersion)) (u : Nat) (vs : List FetchVersion) :
    List (Nat × List FetchVersion) :=
  if vs = [s.currentUnit u] then sparseErase l u else sparseSet l u vs

/-- A unit state after the cells of one single-copy-atomic store. -/
def applyCells (u : Nat) (cells : List Host.Cell) (v : FetchVersion) : FetchVersion :=
  (List.range 4).map fun k =>
    match sparseGet cells (u + k) with
    | some b => some b
    | none => v.getD k none

/-! ### Stores -/

/-- Memory with the cells stored. -/
def State.setMem (s : State) (cells : List Host.Cell) : State :=
  { s with mem := cells.foldl (fun m c => sparseSet m c.1 c.2) s.mem }

/-- The cached-data state of a byte after a store of `b`: valid, and `b` joins `may` (48_cmo.md R380). -/
def storedCache (c : CacheByte) (b : Byte) : CacheByte := { valid := true, may := addNew c.may [some b] }

/-- The states of a unit while a store that is not single-copy atomic proceeds from the state `v`: each subset of its
cells, since their order is open (20_memory.md R76, R84). -/
def storeStates (u : Nat) (cells : List Host.Cell) (v : FetchVersion) : List FetchVersion :=
  (cells.filter fun c => unitOf c.1 == u).foldl (fun vs c => vs ++ vs.map (applyCells u [c])) [v]

/-- The states of a unit a fetch may see after a store of the cells, the latest first: the state after the store, the
earlier ones, and, where the store is not single-copy atomic, those while it proceeds (20_memory.md R102). -/
def storedVersions (u : Nat) (cells : List Host.Cell) (atomic : Bool) (vs : List FetchVersion) : List FetchVersion :=
  let last := applyCells u cells (vs.headD [])
  last :: (addNew vs (if atomic then [] else storeStates u cells (vs.headD []))).filter (· != last)

/-- A store of the cells: memory takes them, each copy becomes valid and its byte joins `may` (48_cmo.md R380), and a
fetch of each touched unit may from now on see its states before or after the store (20_memory.md R102). -/
def State.writePart (s : State) (cells : List Host.Cell) (atomic : Bool) : State :=
  { s with
    mem := (s.setMem cells).mem,
    cache := cells.foldl (fun l c => (s.setMem cells).putCache l c.1 (storedCache (s.cacheAt c.1) c.2)) s.cache,
    fetchView := (addNew [] (cells.map fun c => unitOf c.1)).foldl
      (fun l u => (s.setMem cells).putVersions l u (storedVersions u cells atomic (s.versionsAt u))) s.fetchView }

/-- A store of bytes at addresses, single-copy atomic or not (20_memory.md R76, R84). -/
def State.writeBytes (s : State) (addrs : List Nat) (bytes : List Byte) (atomic : Bool) : State :=
  s.writePart (addrs.zip bytes) atomic

/-- `MemWrite(ea, n, v)` once permitted (20_memory.md R72, R76). -/
def State.storeValue (s : State) (ea : Word) (n : Nat) (v : Word) : State :=
  s.writeBytes (s.addrs ea n) (leBytes n v) (aligned ea n)

/-- `MemRead(ea, n)` once permitted (20_memory.md R72). -/
def State.loadValue (s : State) (ea : Word) (n : Nat) : Word := leWord ((s.addrs ea n).map s.loadByte)

/-- The units that hold a byte whose copy is not valid: there a load may see another state than the current one. -/
def State.staleUnits (s : State) : List Nat :=
  addNew [] ((s.cache.filter fun p => !p.2.valid).map fun p => unitOf p.1)

/-- FENCE.I: the fetch view of every byte collapses to memory as the loads of this hart see it now, which is the current
content but where the copy is not valid (20_memory.md R102, 40_zifencei.md R161, 48_cmo.md R380; log 48). -/
def State.fenceFetch (s : State) : State :=
  { s with fetchView := s.staleUnits.foldl (fun l u => s.putVersions l u [s.loadedUnit u]) [] }

/-! ### Cache-block operations on a byte (48_cmo.md R380) -/

/-- The clean operation. -/
def State.cleanByte (s : State) (a : Nat) : State :=
  { s with
    cache := if (s.cacheAt a).valid then s.putCache s.cache a { valid := true, may := [s.content a] } else s.cache }

/-- The flush operation: a clean, then an invalidate, at once. -/
def State.flushByte (s : State) (a : Nat) : State :=
  s.setCache a
    { valid := false, may := if (s.cacheAt a).valid then [s.content a] else (s.cacheAt a).may }

/-- The invalidate operation. -/
def State.invalByte (s : State) (a : Nat) : State := s.setCache a { valid := false, may := (s.cacheAt a).may }

/-- A store by a non-coherent agent, from outside the hart (48_cmo.md R380, last row; R381). -/
def State.foreignStore (s : State) (a : Nat) (b : Byte) : State :=
  { s with
    cache :=
      if s.cfg.hasNonCoherentAgents then
        s.putCache s.cache a { valid := (s.cacheAt a).valid, may := addNew (s.cacheAt a).may [some b] }
      else s.cache }

/-! ### Permission (20_memory.md R80, 10_state.md R52) -/

/-- The entry covers the access to these bytes. -/
def Denial.covers (d : Denial) (addrs : List Nat) : Bool :=
  match d.scope with
  | .touching => addrs.any fun a => decide (d.lo ≤ a) && decide (a < d.lo + d.len)
  | .starting minLen maxLen =>
    (addrs.head?.any fun a => decide (d.lo ≤ a) && decide (a < d.lo + d.len)) &&
      decide (minLen ≤ addrs.length) && decide (addrs.length ≤ maxLen)

/-- The reasons for which an access of a kind to these bytes is refused. -/
def State.reasons (s : State) (kind : AccessKind) (addrs : List Nat) : List Why :=
  (s.env.denied.filter fun d => d.kinds.contains kind && d.covers addrs).map Denial.why

/-- The reason that decides: translation before protection (60_exceptions.md R465 ranks 7 and 8), and of the two
page-faults, which share a rank, the first-stage one (log 16). -/
def worst (ws : List Why) : Option Why :=
  if Why.page ∈ ws then some .page
  else if Why.guest ∈ ws then some .guest
  else if Why.access ∈ ws then some .access
  else none

/-- `Permitted` for an access of all the kinds to all the bytes: `none` where it is permitted, else the reason. -/
def State.denial (s : State) (kinds : List AccessKind) (addrs : List Nat) : Option Why :=
  worst (kinds.flatMap fun k => s.reasons k addrs)

/-- The first byte of a byte-by-byte access that is refused. -/
def State.firstDenied (s : State) (kinds : List AccessKind) (addrs : List Nat) : Option (Nat × Why) :=
  match addrs with
  | [] => none
  | a :: rest =>
    match s.denial kinds [a] with
    | some w => some (a, w)
    | none => s.firstDenied kinds rest

/-- The exception of a refused load (20_memory.md R80). -/
def loadCause : Why → Cause
  | .page => .loadPageFault
  | .guest => .loadGuestPageFault
  | .access => .loadAccessFault

/-- The exception of a refused store, AMO or CBO (20_memory.md R80). -/
def storeCause : Why → Cause
  | .page => .storePageFault
  | .guest => .storeGuestPageFault
  | .access => .storeAccessFault

/-- The exception of a refused fetch (60_exceptions.md R451). -/
def fetchCause : Why → Cause
  | .page => .instrPageFault
  | .guest => .instrGuestPageFault
  | .access => .instrAccessFault

/-! ### The ordinary load and store (20_memory.md R76, R80) -/

/-- The exception of an ordinary access of `n` bytes at `ea` with its trap value, if it has one: a misaligned access
is refused whole, or runs as its byte accesses, of which the first refused one is reported. -/
def State.accessFault (s : State) (kinds : List AccessKind) (cause : Why → Cause) (misaligned : Cause)
    (ea : Word) (n : Nat) : Option (Cause × Word) :=
  if aligned ea n then (s.denial kinds (s.addrs ea n)).map fun w => (cause w, ea)
  else if misalignedSupported s.cfg then
    (s.firstDenied kinds (s.addrs ea n)).map fun p => (cause p.2, BitVec.ofNat 64 p.1)
  else some (misaligned, ea)

/-- A load of `n` bytes at `ea` of the kind, and what is done with the value; a fault writes nothing (R461). -/
def State.load (s : State) (kind : AccessKind) (ea : Word) (n : Nat) (use : Word → Out) : Out :=
  match s.accessFault [kind] loadCause .loadAddrMisaligned ea n with
  | some f => s.raise f.1 f.2
  | none => use (s.loadValue ea n)

/-- A store of `n` bytes at `ea` of the kind, and what is done after it; a fault writes nothing (R461). -/
def State.store (s : State) (kind : AccessKind) (ea : Word) (n : Nat) (v : Word) (after : State → Out) : Out :=
  match s.accessFault [kind] storeCause .storeAddrMisaligned ea n with
  | some f => s.raise f.1 f.2
  | none => after (s.storeValue ea n v)

end Sys2Proof.Machine
end

