-- ==== Sys2Proof/Machine/Operands.lean ====
section
/-! DEFINITION. The operand forms: immediates as XLEN-bit values (30_encoding.md R124, 49_base_subset.md R410), register
fields (R125), and the effective addresses built from them. -/

namespace Sys2Proof.Machine

/-- I-imm and S-imm: `sext_XLEN(imm[11:0])` (30_encoding.md R124). -/
def immI (x : Xlen) (imm : BitVec 12) : Word := wrap x (imm.signExtend 64)

/-- U-imm of LUI and AUIPC: `sext_XLEN(imm[31:12] ++ 0x000)` (30_encoding.md R124). -/
def immU (x : Xlen) (imm : BitVec 20) : Word := wrap x ((imm ++ (0 : BitVec 12)).signExtend 64)

/-- The offset of a branch, from imm[12:1] (49_base_subset.md R410). -/
def immB (x : Xlen) (imm : BitVec 12) : Word := wrap x ((imm ++ (0 : BitVec 1)).signExtend 64)

/-- The offset of JAL, from imm[20:1] (49_base_subset.md R410). -/
def immJ (x : Xlen) (imm : BitVec 20) : Word := wrap x ((imm ++ (0 : BitVec 1)).signExtend 64)

/-- The offset of C.J and C.JAL, from offset[11:1] (49_base_subset.md R410). -/
def immCJ (x : Xlen) (off : BitVec 11) : Word := wrap x ((off ++ (0 : BitVec 1)).signExtend 64)

/-- The CI immediate: `sext_XLEN(imm[5:0])` (49_base_subset.md R431). -/
def immCI (x : Xlen) (imm : BitVec 6) : Word := wrap x (imm.signExtend 64)

/-- The C.LUI immediate: `sext_XLEN(nzimm[17:12] ++ 0x000)` (49_base_subset.md R434). -/
def immCLui (x : Xlen) (imm : BitVec 6) : Word := wrap x ((imm ++ (0 : BitVec 12)).signExtend 64)

/-- The C.ADDI16SP immediate: `sext_XLEN(nzimm[9:4] ++ 0b0000)` (49_base_subset.md R434). -/
def immCAddi16sp (x : Xlen) (imm : BitVec 6) : Word := wrap x ((imm ++ (0 : BitVec 4)).signExtend 64)

/-- The offset of C.LDSP and C.SDSP: `zext(uimm[8:3] ++ 0b000)` (30_encoding.md R124). -/
def offSp (off : BitVec 6) : Word := (off ++ (0 : BitVec 3)).setWidth 64

/-- The offset of C.LD and C.SD: `zext(uimm[7:3] ++ 0b000)` (30_encoding.md R124). -/
def offMem (off : BitVec 5) : Word := (off ++ (0 : BitVec 3)).setWidth 64

/-- The uimm of the CSR immediate forms: `zext_XLEN(uimm[4:0])` (30_encoding.md R124). -/
def immZ (uimm : BitVec 5) : Word := uimm.setWidth 64

/-- The register a 3-bit field names: `x[8 + f]` (30_encoding.md R122). -/
def cReg (f : BitVec 3) : Reg := (1 : BitVec 2) ++ f

/-- The effective address `x[base] + offset`, modulo 2^XLEN (20_memory.md R71). -/
def State.effAddr (s : State) (base : Reg) (offset : Word) : Word := wrap s.xlen (s.x base + offset)

/-- The address of the cache block of `block` bytes (a power of two) that holds `a` (48_cmo.md R377). -/
def blockBase (block : Nat) (a : Word) : Word := a - BitVec.ofNat 64 (a.toNat % block)

/-- The byte addresses of the cache block of `block` bytes that holds `a` (48_cmo.md R377). -/
def State.blockAddrs (s : State) (block : Nat) (a : Word) : List Nat := s.addrs (blockBase block a) block

end Sys2Proof.Machine
end

