-- ==== Sys2Proof/Machine/Env.lean ====
section
/-! DEFINITION. The enables and gates computed from the environment inputs: xLPE and xSSE (46_cfi.md R314, R320), the
shadow-stack enable chain (R330, R333), the CBO gates (48_cmo.md R373 to R375) and the counter gate (41_zicsr_counters.md
R178). A gate answers `none` where the instruction executes, else the exception it raises. -/

namespace Sys2Proof.Machine

/-- A `senvcfg` field as the checks read it: a hart without S-mode has no senvcfg and its terms are enabling
(48_cmo.md R376, D9). -/
def State.senvOff (s : State) (off : Bool) : Bool := s.cfg.sModeImplemented && off

/-- The SSE chain of SSAMOSWAP, its tests in the order of 46_cfi.md R330; `needS` is the test "S-mode not implemented",
which the access to the ssp CSR leaves out (R333). -/
def State.sseGate (s : State) (needS : Bool) : Option Cause :=
  if s.env.priv ≠ .m ∧ s.env.menvcfg.sse = false then some .illegalInstruction
  else if needS = true ∧ s.cfg.sModeImplemented = false then some .illegalInstruction
  else if s.env.priv = .u ∧ s.env.senvcfg.sse = false then some .illegalInstruction
  else if s.env.priv = .vs ∧ s.env.henvcfg.sse = false then some .virtualInstruction
  else if s.env.priv = .vu ∧ s.env.senvcfg.sse = false then some .virtualInstruction
  else none

/-- xLPE: Zicfilp is enabled at the current mode; false where it is not implemented (46_cfi.md R314). -/
def State.xLPE (s : State) : Bool := s.env.xLPE && s.cfg.ext.zicfilp

/-- xSSE: Zicfiss is enabled at the current mode; false without Zicfiss, in M-mode and without S-mode, and only where
the chain of R330 passes (46_cfi.md R320, D29). -/
def State.xSSE (s : State) : Bool :=
  s.env.xSSE && s.cfg.ext.zicfiss && s.cfg.sModeImplemented && (s.env.priv != .m) && (s.sseGate true == none)

/-- The gate of CBO.CLEAN and CBO.FLUSH (48_cmo.md R374). -/
def State.cleanGate (s : State) : Option Cause :=
  if (s.env.priv ≠ .m ∧ s.env.menvcfg.cbcfe = false) ∨
      (s.env.priv = .u ∧ s.senvOff (!s.env.senvcfg.cbcfe) = true) then some .illegalInstruction
  else if (s.env.priv = .vs ∧ s.env.henvcfg.cbcfe = false) ∨
      (s.env.priv = .vu ∧ (s.env.henvcfg.cbcfe && s.env.senvcfg.cbcfe) = false) then some .virtualInstruction
  else none

/-- The gate of CBO.ZERO (48_cmo.md R375). -/
def State.zeroGate (s : State) : Option Cause :=
  if (s.env.priv ≠ .m ∧ s.env.menvcfg.cbze = false) ∨
      (s.env.priv = .u ∧ s.senvOff (!s.env.senvcfg.cbze) = true) then some .illegalInstruction
  else if (s.env.priv = .vs ∧ s.env.henvcfg.cbze = false) ∨
      (s.env.priv = .vu ∧ (s.env.henvcfg.cbze && s.env.senvcfg.cbze) = false) then some .virtualInstruction
  else none

/-- The gate of CBO.INVAL (48_cmo.md R373). -/
def State.invalGate (s : State) : Option Cause :=
  if (s.env.priv ≠ .m ∧ s.env.menvcfg.cbie = 0) ∨
      (s.env.priv = .u ∧ s.senvOff (s.env.senvcfg.cbie == 0) = true) then some .illegalInstruction
  else if (s.env.priv = .vs ∧ s.env.henvcfg.cbie = 0) ∨
      (s.env.priv = .vu ∧ (s.env.henvcfg.cbie = 0 ∨ s.env.senvcfg.cbie = 0)) then some .virtualInstruction
  else none

/-- CBO.INVAL performs a flush: CBIE is 01 at a level that applies (48_cmo.md R373). -/
def State.invalIsFlush (s : State) : Bool :=
  (s.env.priv != .m && s.env.menvcfg.cbie == 1) ||
  (s.env.priv == .u && s.senvOff (s.env.senvcfg.cbie == 1)) ||
  (s.env.priv == .vs && s.env.henvcfg.cbie == 1) ||
  (s.env.priv == .vu && (s.env.henvcfg.cbie == 1 || s.env.senvcfg.cbie == 1))

/-- The current mode may read counter `k`: always in M-mode (60_exceptions.md R474), else `counterEnabled(k)`
(10_state.md R52). -/
def State.counterAllowed (s : State) (k : Nat) : Bool := s.env.priv == .m || s.env.counterEnabled.getLsbD k

/-- The privilege level of a mode in the terms of csr[9:8] (10_state.md R40): 0 U, 1 S, 3 M. -/
def Priv.level : Priv → Nat
  | .m => 3
  | .s => 1
  | .u => 0
  | .vs => 1
  | .vu => 0

end Sys2Proof.Machine
end

