-- ==== Sys2Proof/Machine/Flags.lean ====
section
/-! DEFINITION. The status computations. The hart has no condition codes (10_state.md R38): what it computes beside
registers is ELP (46_cfi.md R313, R315), the conditions of branches, and the comparisons of Zicond and the shadow stack. -/

namespace Sys2Proof.Machine

/-- `is_lp_expected` of an indirect transfer through register `rs1` (46_cfi.md R313). -/
def isLpExpected (rs1 : Reg) : Bool := rs1 != 1 && rs1 != 5 && rs1 != 7

/-- ELP after an indirect transfer through `rs1`: set where xLPE and is_lp_expected hold, never cleared (46_cfi.md R313). -/
def State.elpAfterJump (s : State) (rs1 : Reg) : Elp := if s.xLPE && isLpExpected rs1 then .expected else s.elp

/-- A landing pad is required of the instruction at pc (46_cfi.md R315). -/
def State.lpRequired (s : State) : Bool := s.xLPE && s.elp == .expected

/-- The label of an LPAD matches: it is zero, or equals x7[31:12] (46_cfi.md R315, R316). -/
def State.lpLabelOk (s : State) (lpl : BitVec 20) : Bool := lpl == 0 || lpl == (s.x 7).extractLsb' 12 20

/-- The trap value of a landing pad fault (60_exceptions.md R454). -/
def landingPadFault : Word := 2

/-- The trap value of a shadow stack fault (60_exceptions.md R454). -/
def shadowStackFault : Word := 3

/-- A value is zero, the condition of Zicond (43_zicond.md R251). -/
def isZero (v : Word) : Bool := v == 0

end Sys2Proof.Machine
end

