-- ==== Sys2Proof/Machine/MulDiv.lean ====
section
/-! DEFINITION. M and Zmmul (42_m_zmmul.md): the operations at a width L, and the thirteen instructions. -/

namespace Sys2Proof.Machine

/-- The low L bits of the product (R221). -/
def mulLow (w : Nat) (a b : BitVec w) : BitVec w := BitVec.ofNat w (a.toNat * b.toNat)

/-- The high L bits of the signed by signed product; Int division by a positive number rounds down (R222). -/
def mulHighSS (w : Nat) (a b : BitVec w) : BitVec w := BitVec.ofInt w (a.toInt * b.toInt / ((2 ^ w : Nat) : Int))

/-- The high L bits of the signed by unsigned product; the first operand is the signed one (R223). -/
def mulHighSU (w : Nat) (a b : BitVec w) : BitVec w :=
  BitVec.ofInt w (a.toInt * (b.toNat : Int) / ((2 ^ w : Nat) : Int))

/-- The high L bits of the unsigned by unsigned product (R224). -/
def mulHighUU (w : Nat) (a b : BitVec w) : BitVec w := BitVec.ofNat w (a.toNat * b.toNat / 2 ^ w)

/-- The signed overflow case: the most negative dividend by -1 (R234). -/
def divOverflows (w : Nat) (a b : BitVec w) : Bool :=
  a.toInt == -((2 ^ (w - 1) : Nat) : Int) && b.toInt == -1

/-- Signed quotient, rounding toward zero (R226, R234). -/
def divSigned (w : Nat) (a b : BitVec w) : BitVec w :=
  if b = 0 then BitVec.allOnes w
  else if divOverflows w a b then a
  else BitVec.ofInt w (a.toInt.tdiv b.toInt)

/-- Unsigned quotient (R227, R234). -/
def divUnsigned (w : Nat) (a b : BitVec w) : BitVec w :=
  if b = 0 then BitVec.allOnes w else BitVec.ofNat w (a.toNat / b.toNat)

/-- Signed remainder, with the sign of the dividend (R228, R234). -/
def remSigned (w : Nat) (a b : BitVec w) : BitVec w :=
  if b = 0 then a
  else if divOverflows w a b then 0
  else BitVec.ofInt w (a.toInt.tmod b.toInt)

/-- Unsigned remainder (R229, R234). -/
def remUnsigned (w : Nat) (a b : BitVec w) : BitVec w :=
  if b = 0 then a else BitVec.ofNat w (a.toNat % b.toNat)

/-- An operation at the width XLEN (R220). -/
def atXlen (f : (w : Nat) → BitVec w → BitVec w → BitVec w) (x : Xlen) (a b : Word) : Word :=
  match x with
  | .rv32 => (f 32 (a.setWidth 32) (b.setWidth 32)).setWidth 64
  | .rv64 => f 64 a b

/-- An operation on the low 32 bits, its result sign-extended: the W forms (R225, R230 to R233). -/
def atWord (f : (w : Nat) → BitVec w → BitVec w → BitVec w) (x : Xlen) (a b : Word) : Word :=
  sext32 x (f 32 (a.setWidth 32) (b.setWidth 32))

/-- A register-register operation: both sources are read before rd is written (R220). -/
def State.binary (s : State) (f : Xlen → Word → Word → Word) (rd rs1 rs2 : Reg) : Out :=
  (s.setX rd (f s.xlen (s.x rs1) (s.x rs2))).retire 4

/-- MUL (R221). -/
def execMul (rd rs1 rs2 : Reg) (s : State) : Out := s.binary (atXlen mulLow) rd rs1 rs2

/-- MULH (R222). -/
def execMulh (rd rs1 rs2 : Reg) (s : State) : Out := s.binary (atXlen mulHighSS) rd rs1 rs2

/-- MULHSU (R223). -/
def execMulhsu (rd rs1 rs2 : Reg) (s : State) : Out := s.binary (atXlen mulHighSU) rd rs1 rs2

/-- MULHU (R224). -/
def execMulhu (rd rs1 rs2 : Reg) (s : State) : Out := s.binary (atXlen mulHighUU) rd rs1 rs2

/-- DIV (R226). -/
def execDiv (rd rs1 rs2 : Reg) (s : State) : Out := s.binary (atXlen divSigned) rd rs1 rs2

/-- DIVU (R227). -/
def execDivu (rd rs1 rs2 : Reg) (s : State) : Out := s.binary (atXlen divUnsigned) rd rs1 rs2

/-- REM (R228). -/
def execRem (rd rs1 rs2 : Reg) (s : State) : Out := s.binary (atXlen remSigned) rd rs1 rs2

/-- REMU (R229). -/
def execRemu (rd rs1 rs2 : Reg) (s : State) : Out := s.binary (atXlen remUnsigned) rd rs1 rs2

/-- MULW (R225). -/
def execMulw (rd rs1 rs2 : Reg) (s : State) : Out := s.binary (atWord mulLow) rd rs1 rs2

/-- DIVW (R230). -/
def execDivw (rd rs1 rs2 : Reg) (s : State) : Out := s.binary (atWord divSigned) rd rs1 rs2

/-- DIVUW (R231). -/
def execDivuw (rd rs1 rs2 : Reg) (s : State) : Out := s.binary (atWord divUnsigned) rd rs1 rs2

/-- REMW (R232). -/
def execRemw (rd rs1 rs2 : Reg) (s : State) : Out := s.binary (atWord remSigned) rd rs1 rs2

/-- REMUW (R233). -/
def execRemuw (rd rs1 rs2 : Reg) (s : State) : Out := s.binary (atWord remUnsigned) rd rs1 rs2

end Sys2Proof.Machine
end

