-- ==== Sys2Proof/Machine/Base.lean ====
section
/-! DEFINITION. The base instructions the chapter leans on (49_base_subset.md sections 2 to 5). -/

namespace Sys2Proof.Machine

/-- ADD (R411). -/
def execAdd (rd rs1 rs2 : Reg) (s : State) : Out := s.binary (fun x a b => wrap x (a + b)) rd rs1 rs2

/-- SUB (R412). -/
def execSub (rd rs1 rs2 : Reg) (s : State) : Out := s.binary (fun x a b => wrap x (a - b)) rd rs1 rs2

/-- AND (R413). -/
def execAnd (rd rs1 rs2 : Reg) (s : State) : Out := s.binary (fun _ a b => a &&& b) rd rs1 rs2

/-- OR (R414). -/
def execOr (rd rs1 rs2 : Reg) (s : State) : Out := s.binary (fun _ a b => a ||| b) rd rs1 rs2

/-- XOR (R415). -/
def execXor (rd rs1 rs2 : Reg) (s : State) : Out := s.binary (fun _ a b => a ^^^ b) rd rs1 rs2

/-- ADDI (R416). -/
def execAddi (rd rs1 : Reg) (imm : BitVec 12) (s : State) : Out :=
  (s.setX rd (wrap s.xlen (s.x rs1 + immI s.xlen imm))).retire 4

/-- ORI (R417). -/
def execOri (rd rs1 : Reg) (imm : BitVec 12) (s : State) : Out :=
  (s.setX rd (s.x rs1 ||| immI s.xlen imm)).retire 4

/-- LUI (R418). -/
def execLui (rd : Reg) (imm : BitVec 20) (s : State) : Out := (s.setX rd (immU s.xlen imm)).retire 4

/-- AUIPC (R419). -/
def execAuipc (rd : Reg) (imm : BitVec 20) (s : State) : Out :=
  (s.setX rd (wrap s.xlen (s.pcv + immU s.xlen imm))).retire 4

/-- JAL (R421); ELP keeps its value (46_cfi.md R311). -/
def execJal (rd : Reg) (imm : BitVec 20) (s : State) : Out :=
  s.jump rd (s.pcPlus 4) (wrap s.xlen (s.pcv + immJ s.xlen imm)) s.elp

/-- The target of an indirect transfer: bit 0 is cleared (R422, R435, R436). -/
def State.indirectTarget (s : State) (rs1 : Reg) (offset : Word) : Word := s.effAddr rs1 offset &&& ~~~(1 : Word)

/-- JALR (R422), with the ELP update of 46_cfi.md R313. -/
def execJalr (rd rs1 : Reg) (imm : BitVec 12) (s : State) : Out :=
  s.jump rd (s.pcPlus 4) (s.indirectTarget rs1 (immI s.xlen imm)) (s.elpAfterJump rs1)

/-- A conditional branch; one not taken never raises (R420, R423). -/
def State.branch (s : State) (taken : Bool) (imm : BitVec 12) : Out :=
  if taken then s.jump 0 0 (wrap s.xlen (s.pcv + immB s.xlen imm)) s.elp else s.retire 4

/-- BEQ (R423). -/
def execBeq (rs1 rs2 : Reg) (imm : BitVec 12) (s : State) : Out := s.branch (s.x rs1 == s.x rs2) imm

/-- BNE (R424). -/
def execBne (rs1 rs2 : Reg) (imm : BitVec 12) (s : State) : Out := s.branch (s.x rs1 != s.x rs2) imm

/-- LW (R425). -/
def execLw (rd rs1 : Reg) (imm : BitVec 12) (s : State) : Out :=
  s.load .load (s.effAddr rs1 (immI s.xlen imm)) 4 fun v => (s.setX rd (sext32 s.xlen (v.setWidth 32))).retire 4

/-- SH (R426). -/
def execSh (rs2 rs1 : Reg) (imm : BitVec 12) (s : State) : Out :=
  s.store .store (s.effAddr rs1 (immI s.xlen imm)) 2 (s.x rs2) fun t => t.retire 4

/-- SW (R427). -/
def execSw (rs2 rs1 : Reg) (imm : BitVec 12) (s : State) : Out :=
  s.store .store (s.effAddr rs1 (immI s.xlen imm)) 4 (s.x rs2) fun t => t.retire 4

/-- LD of RV64 (R428). -/
def execLdRv64 (rd rs1 : Reg) (imm : BitVec 12) (s : State) : Out :=
  s.load .load (s.effAddr rs1 (immI s.xlen imm)) 8 fun v => (s.setX rd v).retire 4

/-- SD of RV64 (R428). -/
def execSdRv64 (rs2 rs1 : Reg) (imm : BitVec 12) (s : State) : Out :=
  s.store .store (s.effAddr rs1 (immI s.xlen imm)) 8 (s.x rs2) fun t => t.retire 4

/-- FENCE (R429): on a single hart it changes nothing; unused fields are a normal fence. -/
def execFence (_fm _pred _succ : BitVec 4) (_rs1 _rd : Reg) (s : State) : Out := s.retire 4

/-- The environment call of a mode (R430, 60_exceptions.md R451). -/
def ecallCause : Priv → Cause
  | .m => .ecallM
  | .s => .ecallS
  | .u => .ecallU
  | .vs => .ecallVS
  | .vu => .ecallU

/-- ECALL (R430). -/
def execEcall (s : State) : Out := s.raise (ecallCause s.env.priv) 0

/-- A breakpoint: its trap value is the pc or 0, a free choice (60_exceptions.md R459). -/
def State.breakpoint (s : State) : Out :=
  s.raise .breakpoint (if s.draw .breakpointValue % 2 = 0 then s.pcv else 0)

/-- EBREAK (R430). -/
def execEbreak (s : State) : Out := s.breakpoint

end Sys2Proof.Machine
end

