-- ==== Sys2Proof/Machine/Cfi.lean ====
section
/-! DEFINITION. Zicfilp and Zicfiss (46_cfi.md): LPAD, the shadow-stack push, pop-and-check and read, and SSAMOSWAP. The
check of R315 on the other instructions is `step`'s. -/

namespace Sys2Proof.Machine

/-- LPAD (R316). -/
def execLpad (lpl : BitVec 20) (s : State) : Out :=
  if s.lpRequired then
    if s.pcv.toNat % 4 ≠ 0 then s.raise .softwareCheck landingPadFault
    else if s.lpLabelOk lpl = false then s.raise .softwareCheck landingPadFault
    else (s.setElp .no).retire 4
  else s.retire 4

/-- The address a shadow-stack push stores to, `ssp - XLEN/8` (R322). -/
def State.pushAddr (s : State) : Word := wrap s.xlen (s.sspv - BitVec.ofNat 64 s.xlen.bytes)

/-- A shadow-stack push of `x[src]` by an instruction of `len` bytes; without xSSE it is the MOP that writes x0, so
nothing is written (R322, R320). -/
def State.ssPush (s : State) (len : Nat) (src : Reg) : Out :=
  if s.xSSE then
    s.store .ssStore s.pushAddr s.xlen.bytes (s.x src) fun t => (t.setSsp s.pushAddr).retire len
  else s.retire len

/-- A shadow-stack pop checked against `x[src]` by an instruction of `len` bytes; without xSSE nothing is written
(R325, R320). -/
def State.ssPopchk (s : State) (len : Nat) (src : Reg) : Out :=
  if s.xSSE then
    s.load .ssLoad s.sspv s.xlen.bytes fun v =>
      if v = s.x src then (s.setSsp (s.sspv + BitVec.ofNat 64 s.xlen.bytes)).retire len
      else s.raise .softwareCheck shadowStackFault
  else s.retire len

/-- SSPUSH x1 (R322). -/
def execSspushX1 (s : State) : Out := s.ssPush 4 1

/-- SSPUSH x5 (R322). -/
def execSspushX5 (s : State) : Out := s.ssPush 4 5

/-- C.SSPUSH x1 (R323). -/
def execCSspushX1 (s : State) : Out := s.ssPush 2 1

/-- SSPOPCHK x1 (R325). -/
def execSspopchkX1 (s : State) : Out := s.ssPopchk 4 1

/-- SSPOPCHK x5 (R325). -/
def execSspopchkX5 (s : State) : Out := s.ssPopchk 4 5

/-- C.SSPOPCHK x5 (R326). -/
def execCSspopchkX5 (s : State) : Out := s.ssPopchk 2 5

/-- SSRDP (R327): ssp, or zero without xSSE. -/
def execSsrdp (rd : Reg) (s : State) : Out := (s.setX rd (if s.xSSE then s.sspv else 0)).retire 4

/-- The exception of a misaligned SSAMOSWAP (20_memory.md R79). -/
def amoMisaligned (c : Cfg) : Cause :=
  if c.misalignedAmoIsAccessFault then .storeAccessFault else .storeAddrMisaligned

/-- SSAMOSWAP of `n` bytes: the check of R330, the alignment (R331), the permission as a shadow-stack load and store
(R324), then the swap, with `extend` applied to the loaded value (R328, R329). -/
def State.ssAmoSwap (s : State) (i : Instr) (n : Nat) (rd rs1 rs2 : Reg) (extend : Word → Word) : Out :=
  match s.sseGate true with
  | some c => s.raiseIllegal c i
  | none =>
    if aligned (s.x rs1) n = false then s.raise (amoMisaligned s.cfg) (s.x rs1)
    else
      match s.denial [.ssLoad, .ssStore] (s.addrs (s.x rs1) n) with
      | some w => s.raise (storeCause w) (s.x rs1)
      | none =>
        ((s.storeValue (s.x rs1) n (s.x rs2)).setX rd (extend (s.loadValue (s.x rs1) n))).retire 4

/-- SSAMOSWAP.W (R328); aq and rl have no effect on one hart (R331). -/
def execSsamoswapW (rd rs1 rs2 : Reg) (aq rl : Bool) (s : State) : Out :=
  s.ssAmoSwap (.ssamoswapW rd rs1 rs2 aq rl) 4 rd rs1 rs2 fun t => sext32 s.xlen (t.setWidth 32)

/-- SSAMOSWAP.D (R329). -/
def execSsamoswapD (rd rs1 rs2 : Reg) (aq rl : Bool) (s : State) : Out :=
  s.ssAmoSwap (.ssamoswapD rd rs1 rs2 aq rl) 8 rd rs1 rs2 fun t => t

end Sys2Proof.Machine
end

