-- ==== Sys2Proof/Machine/Cmo.lean ====
section
/-! DEFINITION. Zicbom, Zicboz and Zicbop (48_cmo.md): the permission of a block (R377, R382, R385), the operations on its
bytes (R380), and the seven instructions. -/

namespace Sys2Proof.Machine

/-- The protection of the block meets the constraints of R377: every kind of access is answered alike over the block,
and where PMP and PMA grant stores they grant loads. -/
def State.blockUniform (s : State) (addrs : List Nat) : Bool :=
  addrs.all fun a =>
    ([AccessKind.load, .store, .fetch, .cboZero].all fun k =>
      s.denial [k] [a] == s.denial [k] [addrs.headD 0]) &&
    ((s.reasons .store [a]).contains .access || !(s.reasons .load [a]).contains .access)

/-- Translation refuses the access. -/
def byTranslation (w : Option Why) : Bool := w == some .page || w == some .guest

/-- The exception of a management CBO on a block (R382): permitted where a load or a store is; where only a fetch is,
a free choice (93_implementation_defined.md row 2); a page-fault kind where translation permits no access at all, else
store/AMO access-fault. -/
def State.managementFault (s : State) (addrs : List Nat) : Option Cause :=
  let l := s.denial [.load] addrs
  let st := s.denial [.store] addrs
  let f := s.denial [.fetch] addrs
  if l = none ∨ st = none then none
  else if f = none ∧ s.draw .fetchOnlyBlock % 2 = 1 then none
  else if byTranslation l && byTranslation st && byTranslation f then
    some (if l = some .page ∨ st = some .page ∨ f = some .page then .storePageFault else .storeGuestPageFault)
  else some .storeAccessFault

/-- A management CBO: the gate, the constraints of R377, the permission with x[rs1] as trap value (R394), then the
operation on every byte of the block (R380). -/
def State.manageBlock (s : State) (i : Instr) (gate : Option Cause) (op : State → Nat → State) (rs1 : Reg) : Out :=
  match gate with
  | some c => s.raiseIllegal c i
  | none =>
    if s.blockUniform (s.blockAddrs (cbomBlock s.cfg) (s.x rs1)) then
      match s.managementFault (s.blockAddrs (cbomBlock s.cfg) (s.x rs1)) with
      | some c => s.raise c (s.x rs1)
      | none => ((s.blockAddrs (cbomBlock s.cfg) (s.x rs1)).foldl op s).retire 4
    else .fault .cboBlockNotUniform

/-- The clean of CBO.CLEAN: a flush may stand for it, which only non-coherent agents could tell (R383,
93_implementation_defined.md row 7). -/
def State.cleanOp (s : State) (t : State) (a : Nat) : State :=
  if s.cfg.hasNonCoherentAgents && s.draw .flushInstead % 2 == 1 then t.flushByte a else t.cleanByte a

/-- The operation of CBO.INVAL where CBIE selects an invalidate: a flush may stand for it (R386); the draw is looked
at only where the two differ. -/
def State.invalOp (s : State) (t : State) (a : Nat) : State :=
  if ((t.cacheAt a).valid && (t.cacheAt a).may != [t.content a]) && s.draw .flushInstead % 2 == 1 then t.flushByte a
  else t.invalByte a

/-- CBO.INVAL (R386, R373). -/
def execCboInval (rs1 : Reg) (s : State) : Out :=
  s.manageBlock (.cboInval rs1) s.invalGate (if s.invalIsFlush then State.flushByte else s.invalOp) rs1

/-- CBO.CLEAN (R383, R374). -/
def execCboClean (rs1 : Reg) (s : State) : Out := s.manageBlock (.cboClean rs1) s.cleanGate s.cleanOp rs1

/-- CBO.FLUSH (R384, R374). -/
def execCboFlush (rs1 : Reg) (s : State) : Out := s.manageBlock (.cboFlush rs1) s.cleanGate State.flushByte rs1

/-- CBO.ZERO (R387, R375, R385): zeros to every byte of the block; a fetch may see them
stored in any order. -/
def execCboZero (rs1 : Reg) (s : State) : Out :=
  match s.zeroGate with
  | some c => s.raiseIllegal c (.cboZero rs1)
  | none =>
    if s.blockUniform (s.blockAddrs (cbozBlock s.cfg) (s.x rs1)) then
      match s.denial [.store, .cboZero] (s.blockAddrs (cbozBlock s.cfg) (s.x rs1)) with
      | some w => s.raise (storeCause w) (s.x rs1)
      | none =>
        (s.writeBytes (s.blockAddrs (cbozBlock s.cfg) (s.x rs1))
          (List.replicate (cbozBlock s.cfg) 0) false).retire 4
    else .fault .cboBlockNotUniform

/-- PREFETCH.I (R389): a hint. -/
def execPrefetchI (_rs1 : Reg) (_imm : BitVec 7) (s : State) : Out := s.retire 4

/-- PREFETCH.R (R390): a hint. -/
def execPrefetchR (_rs1 : Reg) (_imm : BitVec 7) (s : State) : Out := s.retire 4

/-- PREFETCH.W (R391): a hint. -/
def execPrefetchW (_rs1 : Reg) (_imm : BitVec 7) (s : State) : Out := s.retire 4

end Sys2Proof.Machine
end

