-- ==== Sys2Proof/Machine/Compressed.lean ====
section
/-! DEFINITION. The compressed instructions the chapter leans on (49_base_subset.md section 6). -/

namespace Sys2Proof.Machine

/-- C.LI (R431). -/
def execCLi (rd : Reg) (imm : BitVec 6) (s : State) : Out := (s.setX rd (immCI s.xlen imm)).retire 2

/-- C.ADDI and C.NOP (R432). -/
def execCAddi (rd : Reg) (imm : BitVec 6) (s : State) : Out :=
  (s.setX rd (wrap s.xlen (s.x rd + immCI s.xlen imm))).retire 2

/-- C.ADD (R433). -/
def execCAdd (rd rs2 : Reg) (s : State) : Out := (s.setX rd (wrap s.xlen (s.x rd + s.x rs2))).retire 2

/-- C.LUI (R434). -/
def execCLui (rd : Reg) (imm : BitVec 6) (s : State) : Out := (s.setX rd (immCLui s.xlen imm)).retire 2

/-- C.ADDI16SP (R434). -/
def execCAddi16sp (imm : BitVec 6) (s : State) : Out :=
  (s.setX 2 (wrap s.xlen (s.x 2 + immCAddi16sp s.xlen imm))).retire 2

/-- C.JR (R435), with the ELP update of 46_cfi.md R313. -/
def execCJr (rs1 : Reg) (s : State) : Out := s.jump 0 0 (s.indirectTarget rs1 0) (s.elpAfterJump rs1)

/-- C.JALR (R436), with the ELP update of 46_cfi.md R313. -/
def execCJalr (rs1 : Reg) (s : State) : Out := s.jump 1 (s.pcPlus 2) (s.indirectTarget rs1 0) (s.elpAfterJump rs1)

/-- C.J (R437). -/
def execCJ (off : BitVec 11) (s : State) : Out := s.jump 0 0 (wrap s.xlen (s.pcv + immCJ s.xlen off)) s.elp

/-- C.JAL (R438). -/
def execCJal (off : BitVec 11) (s : State) : Out :=
  s.jump 1 (s.pcPlus 2) (wrap s.xlen (s.pcv + immCJ s.xlen off)) s.elp

/-- C.EBREAK (R439). -/
def execCEbreak (s : State) : Out := s.breakpoint

/-- C.LD of RV64 (R440). -/
def execCLdRv64 (rd rs1 : BitVec 3) (off : BitVec 5) (s : State) : Out :=
  s.load .load (s.effAddr (cReg rs1) (offMem off)) 8 fun v => (s.setX (cReg rd) v).retire 2

/-- C.SD of RV64 (R440). -/
def execCSdRv64 (rs2 rs1 : BitVec 3) (off : BitVec 5) (s : State) : Out :=
  s.store .store (s.effAddr (cReg rs1) (offMem off)) 8 (s.x (cReg rs2)) fun t => t.retire 2

/-- C.LDSP of RV64 (R440). -/
def execCLdspRv64 (rd : Reg) (off : BitVec 6) (s : State) : Out :=
  s.load .load (s.effAddr 2 (offSp off)) 8 fun v => (s.setX rd v).retire 2

/-- C.SDSP of RV64 (R440). -/
def execCSdspRv64 (rs2 : Reg) (off : BitVec 6) (s : State) : Out :=
  s.store .store (s.effAddr 2 (offSp off)) 8 (s.x rs2) fun t => t.retire 2

end Sys2Proof.Machine
end

