-- ==== Sys2Proof/Machine/Csr.lean ====
section
/-! DEFINITION. Zicsr, Zicntr and Zihpm: the CSR space (10_state.md R39 to R46), the access checks (41_zicsr_counters.md
R178) and the six CSR instructions (R171 to R176). -/

namespace Sys2Proof.Machine

/-- The CSRs this spec defines (10_state.md R41); `hi` is the upper half, which exists when XLEN=32. -/
inductive CsrId where
  | ssp
  | cycle (hi : Bool)
  | time (hi : Bool)
  | instret (hi : Bool)
  | hpm (n : Nat) (hi : Bool)
  deriving DecidableEq, Repr

/-- hpmcounter n is implemented, with this width (10_state.md R46). -/
def hpmWidth (c : Cfg) (n : Nat) : Option Nat := (c.hpmCounters.find? fun p => p.1 == n).map Prod.snd

/-- Counter number `k`, low or high half, where it exists (10_state.md R41; an unimplemented hpmcounter does not
exist where `hpmUnimplFaults`, R46). -/
def counterCsr (c : Cfg) (k : Nat) (hi : Bool) : Option CsrId :=
  if k = 0 then (if c.ext.zicntr then some (.cycle hi) else none)
  else if k = 1 then (if c.ext.zicntr then some (.time hi) else none)
  else if k = 2 then (if c.ext.zicntr then some (.instret hi) else none)
  else if c.ext.zihpm && ((hpmWidth c k).isSome || !c.hpmUnimplFaults) then some (.hpm k hi)
  else none

/-- The CSR at an address, where the configuration has one (10_state.md R41, 41_zicsr_counters.md R178 item 1). -/
def csrAt (c : Cfg) (a : BitVec 12) : Option CsrId :=
  if a = 0x011 then (if c.ext.zicfiss then some .ssp else none)
  else if a.extractLsb' 5 7 = 0x60 then counterCsr c (a.extractLsb' 0 5).toNat false
  else if a.extractLsb' 5 7 = 0x64 then (if c.isRv64 then none else counterCsr c (a.extractLsb' 0 5).toNat true)
  else none

/-- csr[11:10] = 11 marks a read-only CSR (10_state.md R40). -/
def csrReadOnly (a : BitVec 12) : Bool := a.extractLsb' 10 2 == 3

/-- The environment's gate on a CSR: counters by `counterEnabled`, ssp by the SSE chain (41_zicsr_counters.md R178 item
4, 46_cfi.md R333). -/
def State.csrGate (s : State) (id : CsrId) (a : BitVec 12) : Option Cause :=
  match id with
  | .ssp => s.sseGate false
  | _ => if s.counterAllowed (a.extractLsb' 0 5).toNat then none else some .illegalInstruction

/-- Whether the access is refused, and by which exception (41_zicsr_counters.md R178, in its order). -/
def State.csrRefused (s : State) (a : BitVec 12) (writes : Bool) : Option Cause :=
  match csrAt s.cfg a with
  | none => some .illegalInstruction
  | some id =>
    if writes && csrReadOnly a then some .illegalInstruction
    else if s.env.priv.level < (a.extractLsb' 8 2).toNat then some .illegalInstruction
    else s.csrGate id a

/-- The half of a 64-bit counter an access sees: bits XLEN-1:0, or 63:32 (41_zicsr_counters.md R191). -/
def counterHalf (x : Xlen) (hi : Bool) (v : BitVec 64) : Word :=
  if hi then (v.extractLsb' 32 32).setWidth 64 else wrap x v

/-- The 64-bit value of hpmcounter `n`: a draw of its width, or zero where it is unimplemented (41_zicsr_counters.md R201). -/
def State.hpmValue (s : State) (n : Nat) : BitVec 64 :=
  match hpmWidth s.cfg n with
  | some w => BitVec.ofNat 64 ((Config.hpmDraw s.tick n).toNat % 2 ^ w)
  | none => 0

/-- Read a CSR: its value, and the machine after the read; cycle draws how far it has advanced, and
time draws what the clock shows, never less than the last read (10_state.md R42, R43, D11; log 9). -/
def State.csrRead (s : State) (id : CsrId) : Word × State :=
  match id with
  | .ssp => (s.sspv, s)
  | .cycle hi =>
    let v := s.cycle + Config.cycleAdvance s.tick
    (counterHalf s.xlen hi v, { s with cycle := v })
  | .time hi =>
    let v := if Config.clock s.tick < s.time then s.time else Config.clock s.tick
    (counterHalf s.xlen hi v, { s with time := v })
  | .instret hi => (counterHalf s.xlen hi s.instret, s)
  | .hpm n hi => (counterHalf s.xlen hi (s.hpmValue n), s)

/-- Write a CSR: only ssp is writable (41_zicsr_counters.md section 2, 10_state.md R45). -/
def State.csrWrite (s : State) (id : CsrId) (v : Word) : State :=
  match id with
  | .ssp => s.setSsp v
  | _ => s

/-- `doesRead` of CSRRW and CSRRWI (41_zicsr_counters.md R177). -/
def readsWhenRd (rd : Reg) : Bool := rd != 0

/-- `doesWrite` of the set and clear forms: the specifier decides, not the value (41_zicsr_counters.md R177). -/
def writesWhenSrc (src : BitVec 5) : Bool := src != 0

/-- One CSR instruction: the checks, the read, the write of `f` of the value read, and the write of rd
(41_zicsr_counters.md R171 to R178). -/
def csrOp (i : Instr) (a : BitVec 12) (rd : Reg) (reads writes : Bool) (f : Word → Word) (s : State) : Out :=
  match s.csrRefused a writes with
  | some c => s.raiseIllegal c i
  | none =>
    match csrAt s.cfg a with
    | none => s.raiseIllegal .illegalInstruction i
    | some id =>
      let r := if reads then s.csrRead id else (0, s)
      let t := if writes then r.2.csrWrite id (f r.1) else r.2
      (t.setX rd r.1).retire 4

/-- CSRRW (R171). -/
def execCsrrw (rd rs1 : Reg) (csr : BitVec 12) (s : State) : Out :=
  csrOp (.csrrw rd rs1 csr) csr rd (readsWhenRd rd) true (fun _ => s.x rs1) s

/-- CSRRS (R172). -/
def execCsrrs (rd rs1 : Reg) (csr : BitVec 12) (s : State) : Out :=
  csrOp (.csrrs rd rs1 csr) csr rd true (writesWhenSrc rs1) (fun t => t ||| s.x rs1) s

/-- CSRRC (R173). -/
def execCsrrc (rd rs1 : Reg) (csr : BitVec 12) (s : State) : Out :=
  csrOp (.csrrc rd rs1 csr) csr rd true (writesWhenSrc rs1) (fun t => t &&& ~~~(s.x rs1)) s

/-- CSRRWI (R174). -/
def execCsrrwi (rd : Reg) (uimm : BitVec 5) (csr : BitVec 12) (s : State) : Out :=
  csrOp (.csrrwi rd uimm csr) csr rd (readsWhenRd rd) true (fun _ => immZ uimm) s

/-- CSRRSI (R175). -/
def execCsrrsi (rd : Reg) (uimm : BitVec 5) (csr : BitVec 12) (s : State) : Out :=
  csrOp (.csrrsi rd uimm csr) csr rd true (writesWhenSrc uimm) (fun t => t ||| immZ uimm) s

/-- CSRRCI (R176). -/
def execCsrrci (rd : Reg) (uimm : BitVec 5) (csr : BitVec 12) (s : State) : Out :=
  csrOp (.csrrci rd uimm csr) csr rd true (writesWhenSrc uimm) (fun t => t &&& ~~~(immZ uimm)) s

end Sys2Proof.Machine
end

