-- ==== Sys2Proof/Machine/Hints.lean ====
section
/-! DEFINITION. Zihintntl and Zihintpause (47_hints.md): each hint advances pc and retires, and nothing else (R351, R366). -/

namespace Sys2Proof.Machine

/-- NTL.P1 (R352). -/
def execNtlP1 (s : State) : Out := s.retire 4

/-- NTL.PALL (R353). -/
def execNtlPall (s : State) : Out := s.retire 4

/-- NTL.S1 (R354). -/
def execNtlS1 (s : State) : Out := s.retire 4

/-- NTL.ALL (R355). -/
def execNtlAll (s : State) : Out := s.retire 4

/-- C.NTL.P1 (R356). -/
def execCNtlP1 (s : State) : Out := s.retire 2

/-- C.NTL.PALL (R357). -/
def execCNtlPall (s : State) : Out := s.retire 2

/-- C.NTL.S1 (R358). -/
def execCNtlS1 (s : State) : Out := s.retire 2

/-- C.NTL.ALL (R359). -/
def execCNtlAll (s : State) : Out := s.retire 2

/-- PAUSE (R366). -/
def execPause (s : State) : Out := s.retire 4

end Sys2Proof.Machine
end

