-- ==== Sys2Proof/Machine/Mop.lean ====
section
/-! DEFINITION. Zimop and Zcmop (45_zimop_zcmop.md): a MOP writes zero to rd and reads no register (R292 to R294), a C.MOP
writes nothing (R297). The code points Zicfiss takes are decoded as its instructions (46_cfi.md R332). -/

namespace Sys2Proof.Machine

/-- The default MOP: `x[rd] <- 0` (R292, R293). -/
def State.mop (s : State) (rd : Reg) : Out := (s.setX rd 0).retire 4

/-- The default C.MOP: nothing is written (R297). -/
def State.cMop (s : State) : Out := s.retire 2

/-- MOP.R.0 (R292). -/
def execMopR0 (rd _rs1 : Reg) (s : State) : Out := s.mop rd

/-- MOP.R.1 (R292). -/
def execMopR1 (rd _rs1 : Reg) (s : State) : Out := s.mop rd

/-- MOP.R.2 (R292). -/
def execMopR2 (rd _rs1 : Reg) (s : State) : Out := s.mop rd

/-- MOP.R.3 (R292). -/
def execMopR3 (rd _rs1 : Reg) (s : State) : Out := s.mop rd

/-- MOP.R.4 (R292). -/
def execMopR4 (rd _rs1 : Reg) (s : State) : Out := s.mop rd

/-- MOP.R.5 (R292). -/
def execMopR5 (rd _rs1 : Reg) (s : State) : Out := s.mop rd

/-- MOP.R.6 (R292). -/
def execMopR6 (rd _rs1 : Reg) (s : State) : Out := s.mop rd

/-- MOP.R.7 (R292). -/
def execMopR7 (rd _rs1 : Reg) (s : State) : Out := s.mop rd

/-- MOP.R.8 (R292). -/
def execMopR8 (rd _rs1 : Reg) (s : State) : Out := s.mop rd

/-- MOP.R.9 (R292). -/
def execMopR9 (rd _rs1 : Reg) (s : State) : Out := s.mop rd

/-- MOP.R.10 (R292). -/
def execMopR10 (rd _rs1 : Reg) (s : State) : Out := s.mop rd

/-- MOP.R.11 (R292). -/
def execMopR11 (rd _rs1 : Reg) (s : State) : Out := s.mop rd

/-- MOP.R.12 (R292). -/
def execMopR12 (rd _rs1 : Reg) (s : State) : Out := s.mop rd

/-- MOP.R.13 (R292). -/
def execMopR13 (rd _rs1 : Reg) (s : State) : Out := s.mop rd

/-- MOP.R.14 (R292). -/
def execMopR14 (rd _rs1 : Reg) (s : State) : Out := s.mop rd

/-- MOP.R.15 (R292). -/
def execMopR15 (rd _rs1 : Reg) (s : State) : Out := s.mop rd

/-- MOP.R.16 (R292). -/
def execMopR16 (rd _rs1 : Reg) (s : State) : Out := s.mop rd

/-- MOP.R.17 (R292). -/
def execMopR17 (rd _rs1 : Reg) (s : State) : Out := s.mop rd

/-- MOP.R.18 (R292). -/
def execMopR18 (rd _rs1 : Reg) (s : State) : Out := s.mop rd

/-- MOP.R.19 (R292). -/
def execMopR19 (rd _rs1 : Reg) (s : State) : Out := s.mop rd

/-- MOP.R.20 (R292). -/
def execMopR20 (rd _rs1 : Reg) (s : State) : Out := s.mop rd

/-- MOP.R.21 (R292). -/
def execMopR21 (rd _rs1 : Reg) (s : State) : Out := s.mop rd

/-- MOP.R.22 (R292). -/
def execMopR22 (rd _rs1 : Reg) (s : State) : Out := s.mop rd

/-- MOP.R.23 (R292). -/
def execMopR23 (rd _rs1 : Reg) (s : State) : Out := s.mop rd

/-- MOP.R.24 (R292). -/
def execMopR24 (rd _rs1 : Reg) (s : State) : Out := s.mop rd

/-- MOP.R.25 (R292). -/
def execMopR25 (rd _rs1 : Reg) (s : State) : Out := s.mop rd

/-- MOP.R.26 (R292). -/
def execMopR26 (rd _rs1 : Reg) (s : State) : Out := s.mop rd

/-- MOP.R.27 (R292). -/
def execMopR27 (rd _rs1 : Reg) (s : State) : Out := s.mop rd

/-- MOP.R.28 (R292). -/
def execMopR28 (rd _rs1 : Reg) (s : State) : Out := s.mop rd

/-- MOP.R.29 (R292). -/
def execMopR29 (rd _rs1 : Reg) (s : State) : Out := s.mop rd

/-- MOP.R.30 (R292). -/
def execMopR30 (rd _rs1 : Reg) (s : State) : Out := s.mop rd

/-- MOP.R.31 (R292). -/
def execMopR31 (rd _rs1 : Reg) (s : State) : Out := s.mop rd

/-- MOP.RR.0 (R293). -/
def execMopRR0 (rd _rs1 _rs2 : Reg) (s : State) : Out := s.mop rd

/-- MOP.RR.1 (R293). -/
def execMopRR1 (rd _rs1 _rs2 : Reg) (s : State) : Out := s.mop rd

/-- MOP.RR.2 (R293). -/
def execMopRR2 (rd _rs1 _rs2 : Reg) (s : State) : Out := s.mop rd

/-- MOP.RR.3 (R293). -/
def execMopRR3 (rd _rs1 _rs2 : Reg) (s : State) : Out := s.mop rd

/-- MOP.RR.4 (R293). -/
def execMopRR4 (rd _rs1 _rs2 : Reg) (s : State) : Out := s.mop rd

/-- MOP.RR.5 (R293). -/
def execMopRR5 (rd _rs1 _rs2 : Reg) (s : State) : Out := s.mop rd

/-- MOP.RR.6 (R293). -/
def execMopRR6 (rd _rs1 _rs2 : Reg) (s : State) : Out := s.mop rd

/-- MOP.RR.7 (R293). -/
def execMopRR7 (rd _rs1 _rs2 : Reg) (s : State) : Out := s.mop rd

/-- C.MOP.1 (R297). -/
def execCMop1 (s : State) : Out := s.cMop

/-- C.MOP.3 (R297). -/
def execCMop3 (s : State) : Out := s.cMop

/-- C.MOP.5 (R297). -/
def execCMop5 (s : State) : Out := s.cMop

/-- C.MOP.7 (R297). -/
def execCMop7 (s : State) : Out := s.cMop

/-- C.MOP.9 (R297). -/
def execCMop9 (s : State) : Out := s.cMop

/-- C.MOP.11 (R297). -/
def execCMop11 (s : State) : Out := s.cMop

/-- C.MOP.13 (R297). -/
def execCMop13 (s : State) : Out := s.cMop

/-- C.MOP.15 (R297). -/
def execCMop15 (s : State) : Out := s.cMop

end Sys2Proof.Machine
end

