-- ==== Sys2Proof/Machine/Pair.lean ====
section
/-! DEFINITION. Zilsd and Zclsd (44_zilsd_zclsd.md): the 64-bit access of an even/odd register pair, its decompositions
and what a trapping one may leave behind (R263, R271), and the six instructions. -/

namespace Sys2Proof.Machine

/-- The 64-bit operand of a pair: `x[r+1] ++ x[r]`, zero for the pair of x0 (R261, R262). -/
def State.pairValue (s : State) (r : Reg) : Word :=
  if r = 0 then 0 else (s.x (r + 1)).setWidth 32 ++ (s.x r).setWidth 32

/-- Write a pair; the pair of x0 discards, and x1 is not written (R262). -/
def State.setPair (s : State) (r : Reg) (v : Word) : State :=
  if r = 0 then s
  else (s.setX r ((v.extractLsb' 0 32).setWidth 64)).setX (r + 1) ((v.extractLsb' 32 32).setWidth 64)

/-- Cut a list into runs; bit k of the mask cuts after element k, so the masks give every decomposition. -/
def cutRuns {α : Type} (mask : Nat) (l : List α) : List (List α) :=
  match l with
  | [] => []
  | a :: rest =>
    match cutRuns (mask / 2) rest with
    | [] => [[a]]
    | p :: ps => if mask % 2 = 0 then (a :: p) :: ps else [a] :: p :: ps

/-- The parts in a drawn order: each part is inserted at a drawn position, so the draws give every order. -/
def State.drawnOrder (s : State) (k : Nat) (parts : List (List Nat)) : List (List Nat) :=
  match parts with
  | [] => []
  | p :: ps => (s.drawnOrder (k + 1) ps).insertIdx (s.draw (.pairOrder k) % (ps.length + 1)) p

/-- The parts of a pair access in their order, drawn (R263): one access, or two words in either order where the address
is a multiple of 4, or any decomposition in any order elsewhere. Where nothing is refused they make no difference and no
draw is looked at. -/
def State.pairParts (s : State) (ea : Word) : List (List Nat) :=
  if s.env.denied.isEmpty then [s.addrs ea 8]
  else if aligned ea 4 then
    match s.draw .pairCut % 3 with
    | 0 => [s.addrs ea 8]
    | 1 => [(s.addrs ea 8).take 4, (s.addrs ea 8).drop 4]
    | _ => [(s.addrs ea 8).drop 4, (s.addrs ea 8).take 4]
  else s.drawnOrder 0 (cutRuns (s.draw .pairCut) (s.addrs ea 8))

/-- The parts performed before one is refused, and the refused one: its first byte and the reason (R263, R271). -/
def State.runParts (s : State) (kind : AccessKind) (parts : List (List Nat)) :
    List (List Nat) × Option (Nat × Why) :=
  match parts with
  | [] => ([], none)
  | p :: ps =>
    match s.denial [kind] p with
    | some w => ([], some (p.headD 0, w))
    | none => let r := s.runParts kind ps; (p :: r.1, r.2)

/-- The addresses of the half of a pair access that register `k` of the pair receives (R263). -/
def State.halfAddrs (s : State) (ea : Word) (k : Nat) : List Nat := ((s.addrs ea 8).drop (4 * k)).take 4

/-- Register `k` of the destination pair of a trapping load: it may have been written where its half was loaded, but
never where it is the base (R271). -/
def State.partialHalf (s : State) (rd base : Reg) (ea : Word) (loaded : List Nat) (k : Nat) (t : State) : State :=
  if rd ≠ 0 ∧ rd + BitVec.ofNat 5 k ≠ base ∧ (s.halfAddrs ea k).all (fun a => loaded.contains a) = true ∧
      s.draw (.pairWritten k) % 2 = 1 then
    t.setX (rd + BitVec.ofNat 5 k) (leWord ((s.halfAddrs ea k).map s.loadByte))
  else t

/-- The pair access is refused because of its alignment (20_memory.md R78). -/
def State.pairMisaligned (s : State) (ea : Word) : Bool := !aligned ea 8 && !misalignedSupported s.cfg

/-- A pair load into `rd` at `ea`, an instruction of `len` bytes with the base register `base`: the drawn parts are
performed in their order until one is refused (R263, R264, R271). -/
def State.loadPair (s : State) (len : Nat) (rd base : Reg) (ea : Word) : Out :=
  if s.pairMisaligned ea then s.raise .loadAddrMisaligned ea
  else
    let r := s.runParts .load (s.pairParts ea)
    match r.2 with
    | none => (s.setPair rd (s.loadValue ea 8)).retire len
    | some f =>
      (s.partialHalf rd base ea r.1.flatten 1 (s.partialHalf rd base ea r.1.flatten 0 s)).raise
        (loadCause f.2) (BitVec.ofNat 64 f.1)

/-- The byte of the stored value at an address of the access. -/
def State.pairCells (s : State) (ea : Word) (v : Word) (part : List Nat) : List Host.Cell :=
  ((s.addrs ea 8).zip (leBytes 8 v)).filter fun c => part.contains c.1

/-- Store one part: at once where the address is a multiple of 4, else in any order of its bytes (20_memory.md R78). -/
def State.storePart (s : State) (ea : Word) (cells : List Host.Cell) : State := s.writePart cells (aligned ea 4)

/-- A pair store of `v` at `ea`, an instruction of `len` bytes: the drawn parts are performed in their order until one
is refused; where none is, all bytes are stored, and a fetch may see each word stored before the other, or where the
address is no multiple of 4 the bytes in any order (R263, R265, R271). -/
def State.storePair (s : State) (len : Nat) (ea : Word) (v : Word) : Out :=
  if s.pairMisaligned ea then s.raise .storeAddrMisaligned ea
  else
    let r := s.runParts .store (s.pairParts ea)
    match r.2 with
    | none => (s.storePart ea ((s.addrs ea 8).zip (leBytes 8 v))).retire len
    | some f =>
      (r.1.foldl (fun t p => t.storePart ea (s.pairCells ea v p)) s).raise (storeCause f.2) (BitVec.ofNat 64 f.1)

/-- LD of Zilsd (R264); an odd rd is reserved (R261). -/
def execLdPair (rd rs1 : Reg) (imm : BitVec 12) (s : State) : Out :=
  if evenReg rd then s.loadPair 4 rd rs1 (s.effAddr rs1 (immI s.xlen imm))
  else s.raiseIllegal .illegalInstruction (.ldPair rd rs1 imm)

/-- SD of Zilsd (R265); an odd rs2 is reserved (R261). -/
def execSdPair (rs2 rs1 : Reg) (imm : BitVec 12) (s : State) : Out :=
  if evenReg rs2 then s.storePair 4 (s.effAddr rs1 (immI s.xlen imm)) (s.pairValue rs2)
  else s.raiseIllegal .illegalInstruction (.sdPair rs2 rs1 imm)

/-- C.LDSP of Zclsd (R266); an odd rd and rd = x0 are reserved. -/
def execCLdspPair (rd : Reg) (off : BitVec 6) (s : State) : Out :=
  if evenReg rd && rd != 0 then s.loadPair 2 rd 2 (s.effAddr 2 (offSp off))
  else s.raiseIllegal .illegalInstruction (.cLdspPair rd off)

/-- C.SDSP of Zclsd (R267). -/
def execCSdspPair (rs2 : Reg) (off : BitVec 6) (s : State) : Out :=
  if evenReg rs2 then s.storePair 2 (s.effAddr 2 (offSp off)) (s.pairValue rs2)
  else s.raiseIllegal .illegalInstruction (.cSdspPair rs2 off)

/-- C.LD of Zclsd (R269). -/
def execCLdPair (rd rs1 : BitVec 3) (off : BitVec 5) (s : State) : Out :=
  if evenCReg rd then s.loadPair 2 (cReg rd) (cReg rs1) (s.effAddr (cReg rs1) (offMem off))
  else s.raiseIllegal .illegalInstruction (.cLdPair rd rs1 off)

/-- C.SD of Zclsd (R270). -/
def execCSdPair (rs2 rs1 : BitVec 3) (off : BitVec 5) (s : State) : Out :=
  if evenCReg rs2 then s.storePair 2 (s.effAddr (cReg rs1) (offMem off)) (s.pairValue (cReg rs2))
  else s.raiseIllegal .illegalInstruction (.cSdPair rs2 rs1 off)

end Sys2Proof.Machine
end

