-- ==== Sys2Proof/Machine/Zicond.lean ====
section
/-! DEFINITION. Zicond (43_zicond.md). -/

namespace Sys2Proof.Machine

/-- CZERO.EQZ (R251). -/
def execCzeroEqz (rd rs1 rs2 : Reg) (s : State) : Out :=
  (s.setX rd (if isZero (s.x rs2) then 0 else s.x rs1)).retire 4

/-- CZERO.NEZ (R252). -/
def execCzeroNez (rd rs1 rs2 : Reg) (s : State) : Out :=
  (s.setX rd (if isZero (s.x rs2) then s.x rs1 else 0)).retire 4

end Sys2Proof.Machine
end

