-- ==== Sys2Proof/Machine/Fetch.lean ====
section
/-! DEFINITION. Fetching an instruction's bytes: the draw from the fetch view (20_memory.md R86, R102), bytes whose cached
copy is not valid (48_cmo.md R380), and the permission of the bytes used (R86,
60_exceptions.md R451). -/

namespace Sys2Proof.Machine

/-- What each state of the unit holds at the byte `a`: the set F(a) of 20_memory.md R102. -/
def State.fetchSet (s : State) (a : Nat) : List Content :=
  addNew [] ((s.versionsAt (unitOf a)).map fun v => v.getD (a % 4) none)

/-- The number of the fetched unit: the one pc lies in, or the next (20_memory.md R86, steps 1 and 2). -/
def State.unitIndex (s : State) (a : Nat) : Nat := if unitOf a = unitOf s.pcv.toNat then 0 else 1

/-- A byte of the unit has no valid copy. -/
def State.unitStale (s : State) (u : Nat) : Bool := (List.range 4).any fun k => !(s.cacheAt (u + k)).valid

/-- What a fetch may see of the byte `a` beside the fetch view: its current content, or where its copy is not valid a
member of `may` (48_cmo.md R380). -/
def State.mayContent (s : State) (a : Nat) : Content :=
  if (s.cacheAt a).valid then s.content a
  else pick (s.draw (.fetchByte a)) (s.cacheAt a).may (s.content a)

/-- The state of the unit of `a` that this fetch sees whole under Ziccif (20_memory.md R86, R102); `none`, which is
among the choices where a copy is not valid, stands for memory behind the caches, byte by byte (48_cmo.md R380; log 49). -/
def State.fetchedVersion (s : State) (a : Nat) : Option FetchVersion :=
  pick (s.draw (.fetchUnit (s.unitIndex a)))
    ((s.versionsAt (unitOf a)).map some ++ if s.unitStale (unitOf a) then [none] else []) none

/-- What a fetch of the byte `a` sees. Without Ziccif it is any member of F(a), or of `may` where the copy is not valid;
a non-coherent agent is seen through `may` alone (48_cmo.md R380, R381). -/
def State.fetchContent (s : State) (a : Nat) : Content :=
  if s.cfg.ext.ziccif then
    match s.fetchedVersion a with
    | some v => v.getD (a % 4) none
    | none => s.mayContent a
  else
    pick (s.draw (.fetchByte a))
      (addNew (s.fetchSet a) (if (s.cacheAt a).valid then [] else (s.cacheAt a).may)) (s.content a)

/-- The byte a fetch of the address `a` returns; under Ziccif the bytes of one unit come from one draw (log 49). -/
def State.fetchByte (s : State) (a : Nat) : Byte := contentByte a (s.fetchContent a)

/-- The bytes of one parcel, or the exception of a refused fetch with the parcel's address (60_exceptions.md R451). -/
def State.fetchParcel (s : State) (a : Word) : Except (Cause × Word) (List Byte) :=
  match s.denial [.fetch] (s.addrs a 2) with
  | some w => .error (fetchCause w, a)
  | none => .ok ((s.addrs a 2).map s.fetchByte)

/-- The instruction at pc: its first parcel, and the second where the first says that there is one; protection is
asked only for these bytes (20_memory.md R86), of each parcel and then of the two together, since its answer may depend
on the length (10_state.md R52; log 30). -/
def State.fetch (s : State) : Except (Cause × Word) (List Byte) :=
  match s.fetchParcel s.pcv with
  | .error e => .error e
  | .ok first =>
    if isLongByte (first.getD 0 0) then
      match s.fetchParcel (s.pcPlus 2) with
      | .error e => .error e
      | .ok second =>
        match s.denial [.fetch] (s.addrs s.pcv 4) with
        | some w => .error (fetchCause w, s.pcv)
        | none => .ok (first ++ second)
    else .ok first

end Sys2Proof.Machine
end

