-- ==== Sys2Proof/Machine/Zifencei.lean ====
section
/-! DEFINITION. Zifencei (40_zifencei.md). -/

namespace Sys2Proof.Machine

/-- FENCE.I (R161): the fetch view collapses to memory; funct12, rs1 and rd are ignored (R162). -/
def execFenceI (_funct12 : BitVec 12) (_rs1 _rd : Reg) (s : State) : Out := s.fenceFetch.retire 4

end Sys2Proof.Machine
end

