-- ==== Sys2Proof/Machine/Dispatch.lean ====
section
/-! DEFINITION. The dispatch: one arm per constructor of `Instr`, each a direct call of its meaning. -/

namespace Sys2Proof.Machine

/-- The effect of one decoded instruction. -/
def exec (i : Instr) (s : State) : Host.Outcome State Fault Refusal :=
  match i with
  | .fenceI funct12 rs1 rd => Sys2Proof.Machine.execFenceI funct12 rs1 rd s
  | .csrrw rd rs1 csr => Sys2Proof.Machine.execCsrrw rd rs1 csr s
  | .csrrs rd rs1 csr => Sys2Proof.Machine.execCsrrs rd rs1 csr s
  | .csrrc rd rs1 csr => Sys2Proof.Machine.execCsrrc rd rs1 csr s
  | .csrrwi rd uimm csr => Sys2Proof.Machine.execCsrrwi rd uimm csr s
  | .csrrsi rd uimm csr => Sys2Proof.Machine.execCsrrsi rd uimm csr s
  | .csrrci rd uimm csr => Sys2Proof.Machine.execCsrrci rd uimm csr s
  | .mul rd rs1 rs2 => Sys2Proof.Machine.execMul rd rs1 rs2 s
  | .mulh rd rs1 rs2 => Sys2Proof.Machine.execMulh rd rs1 rs2 s
  | .mulhsu rd rs1 rs2 => Sys2Proof.Machine.execMulhsu rd rs1 rs2 s
  | .mulhu rd rs1 rs2 => Sys2Proof.Machine.execMulhu rd rs1 rs2 s
  | .div rd rs1 rs2 => Sys2Proof.Machine.execDiv rd rs1 rs2 s
  | .divu rd rs1 rs2 => Sys2Proof.Machine.execDivu rd rs1 rs2 s
  | .rem rd rs1 rs2 => Sys2Proof.Machine.execRem rd rs1 rs2 s
  | .remu rd rs1 rs2 => Sys2Proof.Machine.execRemu rd rs1 rs2 s
  | .mulw rd rs1 rs2 => Sys2Proof.Machine.execMulw rd rs1 rs2 s
  | .divw rd rs1 rs2 => Sys2Proof.Machine.execDivw rd rs1 rs2 s
  | .divuw rd rs1 rs2 => Sys2Proof.Machine.execDivuw rd rs1 rs2 s
  | .remw rd rs1 rs2 => Sys2Proof.Machine.execRemw rd rs1 rs2 s
  | .remuw rd rs1 rs2 => Sys2Proof.Machine.execRemuw rd rs1 rs2 s
  | .czeroEqz rd rs1 rs2 => Sys2Proof.Machine.execCzeroEqz rd rs1 rs2 s
  | .czeroNez rd rs1 rs2 => Sys2Proof.Machine.execCzeroNez rd rs1 rs2 s
  | .ldPair rd rs1 imm => Sys2Proof.Machine.execLdPair rd rs1 imm s
  | .sdPair rs2 rs1 imm => Sys2Proof.Machine.execSdPair rs2 rs1 imm s
  | .cLdspPair rd off => Sys2Proof.Machine.execCLdspPair rd off s
  | .cSdspPair rs2 off => Sys2Proof.Machine.execCSdspPair rs2 off s
  | .cLdPair rd rs1 off => Sys2Proof.Machine.execCLdPair rd rs1 off s
  | .cSdPair rs2 rs1 off => Sys2Proof.Machine.execCSdPair rs2 rs1 off s
  | .mopR0 rd rs1 => Sys2Proof.Machine.execMopR0 rd rs1 s
  | .mopR1 rd rs1 => Sys2Proof.Machine.execMopR1 rd rs1 s
  | .mopR2 rd rs1 => Sys2Proof.Machine.execMopR2 rd rs1 s
  | .mopR3 rd rs1 => Sys2Proof.Machine.execMopR3 rd rs1 s
  | .mopR4 rd rs1 => Sys2Proof.Machine.execMopR4 rd rs1 s
  | .mopR5 rd rs1 => Sys2Proof.Machine.execMopR5 rd rs1 s
  | .mopR6 rd rs1 => Sys2Proof.Machine.execMopR6 rd rs1 s
  | .mopR7 rd rs1 => Sys2Proof.Machine.execMopR7 rd rs1 s
  | .mopR8 rd rs1 => Sys2Proof.Machine.execMopR8 rd rs1 s
  | .mopR9 rd rs1 => Sys2Proof.Machine.execMopR9 rd rs1 s
  | .mopR10 rd rs1 => Sys2Proof.Machine.execMopR10 rd rs1 s
  | .mopR11 rd rs1 => Sys2Proof.Machine.execMopR11 rd rs1 s
  | .mopR12 rd rs1 => Sys2Proof.Machine.execMopR12 rd rs1 s
  | .mopR13 rd rs1 => Sys2Proof.Machine.execMopR13 rd rs1 s
  | .mopR14 rd rs1 => Sys2Proof.Machine.execMopR14 rd rs1 s
  | .mopR15 rd rs1 => Sys2Proof.Machine.execMopR15 rd rs1 s
  | .mopR16 rd rs1 => Sys2Proof.Machine.execMopR16 rd rs1 s
  | .mopR17 rd rs1 => Sys2Proof.Machine.execMopR17 rd rs1 s
  | .mopR18 rd rs1 => Sys2Proof.Machine.execMopR18 rd rs1 s
  | .mopR19 rd rs1 => Sys2Proof.Machine.execMopR19 rd rs1 s
  | .mopR20 rd rs1 => Sys2Proof.Machine.execMopR20 rd rs1 s
  | .mopR21 rd rs1 => Sys2Proof.Machine.execMopR21 rd rs1 s
  | .mopR22 rd rs1 => Sys2Proof.Machine.execMopR22 rd rs1 s
  | .mopR23 rd rs1 => Sys2Proof.Machine.execMopR23 rd rs1 s
  | .mopR24 rd rs1 => Sys2Proof.Machine.execMopR24 rd rs1 s
  | .mopR25 rd rs1 => Sys2Proof.Machine.execMopR25 rd rs1 s
  | .mopR26 rd rs1 => Sys2Proof.Machine.execMopR26 rd rs1 s
  | .mopR27 rd rs1 => Sys2Proof.Machine.execMopR27 rd rs1 s
  | .mopR28 rd rs1 => Sys2Proof.Machine.execMopR28 rd rs1 s
  | .mopR29 rd rs1 => Sys2Proof.Machine.execMopR29 rd rs1 s
  | .mopR30 rd rs1 => Sys2Proof.Machine.execMopR30 rd rs1 s
  | .mopR31 rd rs1 => Sys2Proof.Machine.execMopR31 rd rs1 s
  | .mopRR0 rd rs1 rs2 => Sys2Proof.Machine.execMopRR0 rd rs1 rs2 s
  | .mopRR1 rd rs1 rs2 => Sys2Proof.Machine.execMopRR1 rd rs1 rs2 s
  | .mopRR2 rd rs1 rs2 => Sys2Proof.Machine.execMopRR2 rd rs1 rs2 s
  | .mopRR3 rd rs1 rs2 => Sys2Proof.Machine.execMopRR3 rd rs1 rs2 s
  | .mopRR4 rd rs1 rs2 => Sys2Proof.Machine.execMopRR4 rd rs1 rs2 s
  | .mopRR5 rd rs1 rs2 => Sys2Proof.Machine.execMopRR5 rd rs1 rs2 s
  | .mopRR6 rd rs1 rs2 => Sys2Proof.Machine.execMopRR6 rd rs1 rs2 s
  | .mopRR7 rd rs1 rs2 => Sys2Proof.Machine.execMopRR7 rd rs1 rs2 s
  | .cMop1 => Sys2Proof.Machine.execCMop1 s
  | .cMop3 => Sys2Proof.Machine.execCMop3 s
  | .cMop5 => Sys2Proof.Machine.execCMop5 s
  | .cMop7 => Sys2Proof.Machine.execCMop7 s
  | .cMop9 => Sys2Proof.Machine.execCMop9 s
  | .cMop11 => Sys2Proof.Machine.execCMop11 s
  | .cMop13 => Sys2Proof.Machine.execCMop13 s
  | .cMop15 => Sys2Proof.Machine.execCMop15 s
  | .lpad lpl => Sys2Proof.Machine.execLpad lpl s
  | .sspushX1 => Sys2Proof.Machine.execSspushX1 s
  | .sspushX5 => Sys2Proof.Machine.execSspushX5 s
  | .cSspushX1 => Sys2Proof.Machine.execCSspushX1 s
  | .sspopchkX1 => Sys2Proof.Machine.execSspopchkX1 s
  | .sspopchkX5 => Sys2Proof.Machine.execSspopchkX5 s
  | .cSspopchkX5 => Sys2Proof.Machine.execCSspopchkX5 s
  | .ssrdp rd => Sys2Proof.Machine.execSsrdp rd s
  | .ssamoswapW rd rs1 rs2 aq rl => Sys2Proof.Machine.execSsamoswapW rd rs1 rs2 aq rl s
  | .ssamoswapD rd rs1 rs2 aq rl => Sys2Proof.Machine.execSsamoswapD rd rs1 rs2 aq rl s
  | .ntlP1 => Sys2Proof.Machine.execNtlP1 s
  | .ntlPall => Sys2Proof.Machine.execNtlPall s
  | .ntlS1 => Sys2Proof.Machine.execNtlS1 s
  | .ntlAll => Sys2Proof.Machine.execNtlAll s
  | .cNtlP1 => Sys2Proof.Machine.execCNtlP1 s
  | .cNtlPall => Sys2Proof.Machine.execCNtlPall s
  | .cNtlS1 => Sys2Proof.Machine.execCNtlS1 s
  | .cNtlAll => Sys2Proof.Machine.execCNtlAll s
  | .pause => Sys2Proof.Machine.execPause s
  | .cboInval rs1 => Sys2Proof.Machine.execCboInval rs1 s
  | .cboClean rs1 => Sys2Proof.Machine.execCboClean rs1 s
  | .cboFlush rs1 => Sys2Proof.Machine.execCboFlush rs1 s
  | .cboZero rs1 => Sys2Proof.Machine.execCboZero rs1 s
  | .prefetchI rs1 imm => Sys2Proof.Machine.execPrefetchI rs1 imm s
  | .prefetchR rs1 imm => Sys2Proof.Machine.execPrefetchR rs1 imm s
  | .prefetchW rs1 imm => Sys2Proof.Machine.execPrefetchW rs1 imm s
  | .add rd rs1 rs2 => Sys2Proof.Machine.execAdd rd rs1 rs2 s
  | .sub rd rs1 rs2 => Sys2Proof.Machine.execSub rd rs1 rs2 s
  | .and rd rs1 rs2 => Sys2Proof.Machine.execAnd rd rs1 rs2 s
  | .or rd rs1 rs2 => Sys2Proof.Machine.execOr rd rs1 rs2 s
  | .xor rd rs1 rs2 => Sys2Proof.Machine.execXor rd rs1 rs2 s
  | .addi rd rs1 imm => Sys2Proof.Machine.execAddi rd rs1 imm s
  | .ori rd rs1 imm => Sys2Proof.Machine.execOri rd rs1 imm s
  | .lui rd imm => Sys2Proof.Machine.execLui rd imm s
  | .auipc rd imm => Sys2Proof.Machine.execAuipc rd imm s
  | .jal rd imm => Sys2Proof.Machine.execJal rd imm s
  | .jalr rd rs1 imm => Sys2Proof.Machine.execJalr rd rs1 imm s
  | .beq rs1 rs2 imm => Sys2Proof.Machine.execBeq rs1 rs2 imm s
  | .bne rs1 rs2 imm => Sys2Proof.Machine.execBne rs1 rs2 imm s
  | .lw rd rs1 imm => Sys2Proof.Machine.execLw rd rs1 imm s
  | .sh rs2 rs1 imm => Sys2Proof.Machine.execSh rs2 rs1 imm s
  | .sw rs2 rs1 imm => Sys2Proof.Machine.execSw rs2 rs1 imm s
  | .ldRv64 rd rs1 imm => Sys2Proof.Machine.execLdRv64 rd rs1 imm s
  | .sdRv64 rs2 rs1 imm => Sys2Proof.Machine.execSdRv64 rs2 rs1 imm s
  | .fence fm pred succ rs1 rd => Sys2Proof.Machine.execFence fm pred succ rs1 rd s
  | .ecall => Sys2Proof.Machine.execEcall s
  | .ebreak => Sys2Proof.Machine.execEbreak s
  | .cLi rd imm => Sys2Proof.Machine.execCLi rd imm s
  | .cAddi rd imm => Sys2Proof.Machine.execCAddi rd imm s
  | .cAdd rd rs2 => Sys2Proof.Machine.execCAdd rd rs2 s
  | .cLui rd imm => Sys2Proof.Machine.execCLui rd imm s
  | .cAddi16sp imm => Sys2Proof.Machine.execCAddi16sp imm s
  | .cJr rs1 => Sys2Proof.Machine.execCJr rs1 s
  | .cJalr rs1 => Sys2Proof.Machine.execCJalr rs1 s
  | .cJ off => Sys2Proof.Machine.execCJ off s
  | .cJal off => Sys2Proof.Machine.execCJal off s
  | .cEbreak => Sys2Proof.Machine.execCEbreak s
  | .cLdRv64 rd rs1 off => Sys2Proof.Machine.execCLdRv64 rd rs1 off s
  | .cSdRv64 rs2 rs1 off => Sys2Proof.Machine.execCSdRv64 rs2 rs1 off s
  | .cLdspRv64 rd off => Sys2Proof.Machine.execCLdspRv64 rd off s
  | .cSdspRv64 rs2 off => Sys2Proof.Machine.execCSdspRv64 rs2 off s

end Sys2Proof.Machine
end

