-- ==== Sys2Proof/Machine/Step.lean ====
section
/-! DEFINITION. The step: fetch, decode, the landing-pad check, and the instruction (46_cfi.md R315, 60_exceptions.md R460,
R465); and the placing of an instruction where the next step fetches. -/

namespace Sys2Proof.Machine

/-- The instruction is an LPAD, the only one a required landing pad admits (46_cfi.md R315). -/
def isLpadInstr (i : Instr) : Bool :=
  match i with
  | .lpad _ => true
  | _ => false

/-- What follows a fetch of `bytes`: the landing-pad check, then the instruction or its illegality; a landing pad fault
comes before illegal-instruction (60_exceptions.md R465). -/
def State.runBytes (s : State) (bytes : List Byte) : Out :=
  match decode s.cfg bytes with
  | .ok (i, _) =>
    if s.lpRequired && !isLpadInstr i then s.raise .softwareCheck landingPadFault else exec i s
  | .error _ =>
    if s.lpRequired then s.raise .softwareCheck landingPadFault
    else s.raise .illegalInstruction (s.illegalTval (leWord bytes))

/-- One step of the hart. A `Trapped` state has no move (60_exceptions.md R460). -/
def step (s : State) : Host.Outcome State Fault Refusal :=
  match s.trap with
  | some _ => .fault .trapped
  | none =>
    match s.fetch with
    | .error e => s.raise e.1 e.2
    | .ok bytes => s.runBytes bytes

/-- Place one byte of program at an address: memory holds it, every copy of it is valid, and a fetch sees it. -/
def State.placeByte (s : State) (a : Nat) (b : Byte) : State :=
  { s with mem := sparseSet s.mem a b, cache := sparseErase s.cache a, fetchView := sparseErase s.fetchView (unitOf a) }

/-- The instruction of the opcode table with the bits `w` placed where the next step fetches: its four bytes at pc, the
hart running and no fetch of it refused, and XLEN the one under which the word is an instruction (log 28). -/
def State.withFetchWord (s : State) (nbits w : Nat) : State :=
  let bytes := tableBytes nbits w
  let t := ((s.addrs s.pcv 4).zip bytes).foldl (fun t p => t.placeByte p.1 p.2) s
  { t with
    cfg := s.cfg.forBytes bytes, trap := none,
    env := { s.env with denied := s.env.denied.map fun d => { d with kinds := d.kinds.filter (· != .fetch) } } }

end Sys2Proof.Machine
end

