-- ==== Sys2Proof/Safety.lean ====
section
/-! DEFINITION. What claims about the machine are stated in: what an instruction leaves unchanged, what taking an
exception leaves, when an access is permitted, the enables written out from the spec's pseudocode, and the invariant. -/

namespace Sys2Proof.Machine

/-- The instruction answers a next state in which `rd` holds `v` (x0 discards it). -/
def Gives (s : State) (i : Instr) (rd : Reg) (v : Word) : Prop :=
  ∃ t, exec i s = .next t ∧ t.x rd = if rd = 0 then 0 else v

/-! ### Values -/

/-- The signed value of the `bits`-bit value `n`. -/
def signedVal (bits n : Nat) : Int := if n < 2 ^ (bits - 1) then n else (n : Int) - (2 ^ bits : Nat)

/-- `unsigned(x[r])` (00_scope.md R9). -/
def State.ux (s : State) (r : Reg) : Int := (s.x r).toNat

/-- `signed(x[r])` (00_scope.md R9). -/
def State.ix (s : State) (r : Reg) : Int := signedVal s.xlen.bits (s.x r).toNat

/-- `unsigned(x[r][31:0])`. -/
def State.ux32 (s : State) (r : Reg) : Int := (s.x r).toNat % 2 ^ 32

/-- `signed(x[r][31:0])`. -/
def State.ix32 (s : State) (r : Reg) : Int := signedVal 32 ((s.x r).toNat % 2 ^ 32)

/-- The value of `sext(trunc_32(n))`. -/
def sextW (n : Int) : Int := signedVal 32 (n % (2 ^ 32 : Int)).toNat

/-- The address `ea` is naturally aligned for `n` bytes, or misaligned accesses succeed (20_memory.md R75, R76). -/
def State.alignmentOk (s : State) (ea : Word) (n : Nat) : Prop :=
  ea.toNat % n = 0 ∨ s.cfg.misalignedOK = true ∨ s.cfg.ext.zicclsm = true

/-! ### The invariant -/

/-- A list of keys and values is canonical: keys strictly rising, and all of them addresses. -/
def sparseOk {α : Type} (x : Xlen) (l : List (Nat × α)) : Prop :=
  sparseSorted none l = true ∧ ∀ p ∈ l, p.1 < 2 ^ x.bits

/-- The cached-data state listed for a byte is not the default, is a set, and holds the current content. -/
def State.cacheEntryOk (s : State) (p : Nat × CacheByte) : Prop :=
  p.2 ≠ { valid := true, may := [s.content p.1] } ∧ p.2.may.Nodup ∧ s.content p.1 ∈ p.2.may

/-- The fetch view listed for a unit is not the default, is a set of 4-byte states, and its latest state holds the
current content of each byte whose copy is valid. -/
def State.fetchEntryOk (s : State) (p : Nat × List FetchVersion) : Prop :=
  p.1 % 4 = 0 ∧ p.2 ≠ [s.currentUnit p.1] ∧ p.2.Nodup ∧ (∀ v ∈ p.2, v.length = 4) ∧
  ∃ v, p.2.head? = some v ∧ ∀ k, k < 4 → (s.cacheAt (p.1 + k)).valid = true → v.getD k none = s.content (p.1 + k)

/-- The invariant of the machine: memory, cache and fetch view are canonical lists (10_state.md R53, 20_memory.md R102,
48_cmo.md R380); x0 is zero and every register an XLEN-bit value (10_state.md R30, R31); pc is aligned (R37); the
read-only bits of ssp are zero (R45). -/
structure Inv (s : State) : Prop where
  mem : sparseOk s.xlen s.mem
  cache : sparseOk s.xlen s.cache
  cacheEntries : ∀ p ∈ s.cache, s.cacheEntryOk p
  fetchView : sparseOk s.xlen s.fetchView
  fetchEntries : ∀ p ∈ s.fetchView, s.fetchEntryOk p
  zero : s.regs[0] = 0
  regs : ∀ r, (h : r < 32) → s.regs[r].toNat < 2 ^ s.xlen.bits
  pc : s.pc.toNat < 2 ^ s.xlen.bits
  pcAligned : s.pc.toNat % (if s.cfg.ext.zca then 2 else 4) = 0
  ssp : s.ssp.toNat < 2 ^ s.xlen.bits
  sspAligned : s.ssp.toNat % (if s.cfg.sxlenMayBe32 then 4 else 8) = 0

/-! ### What is kept -/

/-- Every x register outside `written` reads as before. -/
def RegsKept (s t : State) (written : List Reg) : Prop := ∀ r, r ∉ written → t.x r = s.x r

/-- Every byte of memory outside `stored` reads as before. -/
def MemKept (s t : State) (stored : List Nat) : Prop := ∀ a, a ∉ stored → t.byteAt a = s.byteAt a

/-- ssp, ELP and the counters that a read draws are as before. -/
structure SpecialKept (s t : State) : Prop where
  ssp : t.sspv = s.sspv
  elp : t.elp = s.elp
  cycle : t.cycle = s.cycle
  time : t.time = s.time

/-- The cached-data state of every byte outside `stored`, and the fetch view of every aligned unit that holds no
byte of `stored`, are as before. -/
structure CachesKept (s t : State) (stored : List Nat) : Prop where
  cache : ∀ a, a ∉ stored → t.cacheAt a = s.cacheAt a
  fetch : ∀ u, u % 4 = 0 → (∀ a ∈ stored, unitOf a ≠ u) → t.versionsAt u = s.versionsAt u

/-- What a store does to the copies and the fetch view of the `n` bytes `addr i`, each of which takes `byte i`: the copy is
valid, `may` and what a fetch may see gain the byte, and nothing else joins them (48_cmo.md R380, 20_memory.md R102). -/
structure StoreSeen (s t : State) (addr : Nat → Nat) (n : Nat) (byte : Nat → Byte) : Prop where
  valid : ∀ i, i < n → (t.cacheAt (addr i)).valid = true
  may : ∀ i c, i < n → (c ∈ (t.cacheAt (addr i)).may ↔ c ∈ (s.cacheAt (addr i)).may ∨ c = some (byte i))
  fetch : ∀ a c, c ∈ t.fetchSet a ↔ c ∈ s.fetchSet a ∨ ∃ i, i < n ∧ a = addr i ∧ c = some (byte i)

/-- The configuration and the environment inputs are as before. -/
structure SetupKept (s t : State) : Prop where
  cfg : t.cfg = s.cfg
  env : t.env = s.env

/-- The instruction completed: the hart goes on at `next`, and instret counts the instruction (10_state.md R36,
41_zicsr_counters.md R192). -/
structure Completed (s t : State) (next : Word) : Prop where
  pc : t.pcv = next
  instret : t.instret = s.instret + 1
  trap : t.trap = s.trap
  setup : SetupKept s t

/-- The address `n` bytes after pc, modulo 2^XLEN (10_state.md R36). -/
def State.after (s : State) (n : Nat) : Word := truncTo s.xlen ((s.pcv.toNat : Int) + n)

/-- The instruction of `len` bytes completed and changed nothing but pc and instret. -/
structure OnlyAdvanced (s t : State) (len : Nat) : Prop where
  done : Completed s t (s.after len)
  regs : RegsKept s t []
  mem : MemKept s t []
  special : SpecialKept s t
  caches : CachesKept s t []

/-- The instruction of `len` bytes completed, wrote `v` to `rd` (x0 discards it, 10_state.md R31) and changed nothing
else but pc and instret. -/
structure WroteReg (s t : State) (rd : Reg) (v : Word) (len : Nat) : Prop where
  value : t.x rd = if rd = 0 then 0 else v
  done : Completed s t (s.after len)
  regs : RegsKept s t [rd]
  mem : MemKept s t []
  special : SpecialKept s t
  caches : CachesKept s t []

/-- The instruction of `len` bytes completed, stored the low `n` bytes of `v` at `ea`, byte `i` at `ea + i`
(20_memory.md R71, R72), and changed nothing else but pc and instret. -/
structure Stored (s t : State) (ea : Word) (n : Nat) (v : Word) (len : Nat) : Prop where
  bytes : ∀ i, i < n → t.byteAt (s.byteAddr ea i) = v.extractLsb' (8 * i) 8
  done : Completed s t (s.after len)
  regs : RegsKept s t []
  mem : MemKept s t (s.addrs ea n)
  special : SpecialKept s t
  caches : CachesKept s t (s.addrs ea n)
  seen : Inv s → StoreSeen s t (s.byteAddr ea) n fun i => v.extractLsb' (8 * i) 8

/-- A jump completed: pc is `target`, `rd` holds `link` (x0 discards it), ELP is `elp`, and nothing else but instret
changed. -/
structure Jumped (s t : State) (target : Word) (rd : Reg) (link : Word) (elp : Elp) : Prop where
  value : t.x rd = if rd = 0 then 0 else link
  elp : t.elp = elp
  done : Completed s t target
  regs : RegsKept s t [rd]
  mem : MemKept s t []
  ssp : t.sspv = s.sspv
  counters : t.cycle = s.cycle ∧ t.time = s.time
  caches : CachesKept s t []

/-! ### Taking an exception -/

/-- The record of an exception and what it leaves of pc and instret (60_exceptions.md R460, R464). -/
structure TrapRecorded (s t : State) (cause : Cause) (tval : Word) : Prop where
  record : t.trap = some { cause := cause, epc := s.pcv, tval := tval, priv := s.env.priv, elp := s.elp }
  pc : t.pcv = s.pcv
  instret : t.instret = s.instret
  special : SpecialKept s t
  setup : SetupKept s t

/-- The exception was taken and wrote nothing else (60_exceptions.md R460, R461). -/
structure TookTrap (s t : State) (cause : Cause) (tval : Word) : Prop where
  recorded : TrapRecorded s t cause tval
  regs : RegsKept s t []
  mem : MemKept s t []
  caches : CachesKept s t []

/-- The outcome is an illegal-instruction or virtual-instruction exception on the instruction `i`, with 0 or its bits
as trap value (60_exceptions.md R452). -/
def TookIllegal (s : State) (o : Out) (cause : Cause) (i : Instr) : Prop :=
  ∃ t tval, o = .next t ∧ (tval = 0 ∨ tval = instrBits i) ∧ TookTrap s t cause tval

/-! ### Permission (10_state.md R52, 20_memory.md R80) -/

/-- The address lies in the range of the entry. -/
def Denial.inRange (d : Denial) (a : Nat) : Prop := d.lo ≤ a ∧ a < d.lo + d.len

/-- The entry of `Permitted` refuses an access of one of the kinds to these bytes: it touches the range, or it starts in
it with a length the entry names. -/
def Denial.hits (d : Denial) (kinds : List AccessKind) (addrs : List Nat) : Prop :=
  (∃ k ∈ kinds, k ∈ d.kinds) ∧
  match d.scope with
  | .touching => ∃ a ∈ addrs, d.inRange a
  | .starting minLen maxLen =>
    (∃ a, addrs.head? = some a ∧ d.inRange a) ∧ minLen ≤ addrs.length ∧ addrs.length ≤ maxLen

/-- The access of these kinds to these bytes is permitted. -/
def State.permits (s : State) (kinds : List AccessKind) (addrs : List Nat) : Prop :=
  ∀ d ∈ s.env.denied, ¬ d.hits kinds addrs

/-- An ordinary access of `n` bytes at `ea` is permitted: whole where it is aligned, else each of the byte accesses it
runs as (20_memory.md R76, R80). -/
def State.permitsAccess (s : State) (kinds : List AccessKind) (ea : Word) (n : Nat) : Prop :=
  if ea.toNat % n = 0 then s.permits kinds (s.addrs ea n) else ∀ i, i < n → s.permits kinds [s.byteAddr ea i]

/-- The rank of a reason: translation before protection (60_exceptions.md R465), and of the two page-faults, which R465
puts on one rank, the first-stage one (DESIGN CHOICE, log 16). -/
def Why.rank : Why → Nat
  | .page => 0
  | .guest => 1
  | .access => 2

/-- The access is refused, and `w` is the highest-ranked reason. -/
def State.refuses (s : State) (kinds : List AccessKind) (addrs : List Nat) (w : Why) : Prop :=
  (∃ d ∈ s.env.denied, d.why = w ∧ d.hits kinds addrs) ∧
  ∀ d ∈ s.env.denied, d.hits kinds addrs → w.rank ≤ d.why.rank

/-- The exception of a refused fetch (60_exceptions.md R451). -/
def fetchFault : Why → Cause
  | .page => .instrPageFault
  | .guest => .instrGuestPageFault
  | .access => .instrAccessFault

/-- The exception of a refused load (20_memory.md R80). -/
def loadFault : Why → Cause
  | .page => .loadPageFault
  | .guest => .loadGuestPageFault
  | .access => .loadAccessFault

/-- The exception of a refused store, AMO or CBO (20_memory.md R80). -/
def storeFault : Why → Cause
  | .page => .storePageFault
  | .guest => .storeGuestPageFault
  | .access => .storeAccessFault

/-! ### Loads -/

/-- The value of bytes, the first the least significant (20_memory.md R72). -/
def leNat : List Byte → Nat
  | [] => 0
  | b :: rest => b.toNat + 256 * leNat rest

/-- A load of the byte at `a` may return `b`: the current byte, or, where the copy is not valid, a member of `may` or
what a non-coherent agent supplies (48_cmo.md R380). -/
def State.mayLoad (s : State) (a : Nat) (b : Byte) : Prop :=
  b = s.byteAt a ∨
  ((s.cacheAt a).valid = false ∧
    (s.cfg.hasNonCoherentAgents = true ∨ ∃ c ∈ (s.cacheAt a).may, b = contentByte a c))

/-- The bytes a load of `n` bytes at `ea` may return. -/
def State.mayLoadAll (s : State) (ea : Word) (n : Nat) (bs : List Byte) : Prop :=
  bs.length = n ∧ ∀ i, (h : i < bs.length) → s.mayLoad (s.byteAddr ea i) bs[i]

/-- A fetch of the byte at `a` may see the content `c`: a member of the fetch view, or of `may` where the copy is not
valid (48_cmo.md R380). -/
def State.mayFetch (s : State) (a : Nat) (c : Content) : Prop :=
  c ∈ s.fetchSet a ∨ ((s.cacheAt a).valid = false ∧ c ∈ (s.cacheAt a).may)

/-- A fetch under Ziccif may see the unit `u` in the state `v`: one of its fetch view, or, where a copy is not valid, one
in which each byte is current or, its copy not being valid, a member of `may` (20_memory.md R86, R102, 48_cmo.md R380;
log 49). -/
def State.mayFetchUnit (s : State) (u : Nat) (v : FetchVersion) : Prop :=
  v ∈ s.versionsAt u ∨
  ((∃ k, k < 4 ∧ (s.cacheAt (u + k)).valid = false) ∧ v.length = 4 ∧ ∀ k, k < 4 →
    if (s.cacheAt (u + k)).valid then v.getD k none = s.content (u + k) else v.getD k none ∈ (s.cacheAt (u + k)).may)

/-- How an ordinary access of `n` bytes at `ea` traps: misaligned where that is not supported, refused, or, where the
misaligned access runs byte by byte, refused at byte `k` first (20_memory.md R76, R80, 60_exceptions.md R459). -/
def AccessTraps (s : State) (i : Instr) (kind : AccessKind) (fault : Why → Cause) (misaligned : Cause) (ea : Word)
    (n : Nat) : Prop :=
  (¬ s.alignmentOk ea n → ∃ t, exec i s = .next t ∧ TookTrap s t misaligned ea) ∧
  (∀ w, ea.toNat % n = 0 → s.refuses [kind] (s.addrs ea n) w →
    ∃ t, exec i s = .next t ∧ TookTrap s t (fault w) ea) ∧
  (∀ k w, k < n → ea.toNat % n ≠ 0 → s.alignmentOk ea n →
    (∀ i, i < k → s.permits [kind] [s.byteAddr ea i]) → s.refuses [kind] [s.byteAddr ea k] w →
    ∃ t, exec i s = .next t ∧ TookTrap s t (fault w) (BitVec.ofNat 64 (s.byteAddr ea k)))

/-! ### The enables, from the spec's pseudocode -/

/-- xLPE: Zicfilp is implemented and enabled (46_cfi.md R314). -/
def State.lpeActive (s : State) : Prop := s.env.xLPE = true ∧ s.cfg.ext.zicfilp = true

/-- The illegal-instruction lines of 46_cfi.md R330 but for "S-mode not implemented"; with R333 the test on the ssp CSR. -/
def State.sseIllegal (s : State) : Prop :=
  (s.env.priv ≠ .m ∧ s.env.menvcfg.sse = false) ∨ (s.env.priv = .u ∧ s.env.senvcfg.sse = false)

/-- The virtual-instruction lines of 46_cfi.md R330. -/
def State.sseVirtual (s : State) : Prop :=
  (s.env.priv = .vs ∧ s.env.henvcfg.sse = false) ∨ (s.env.priv = .vu ∧ s.env.senvcfg.sse = false)

/-- xSSE: Zicfiss is implemented and enabled, never in M-mode nor without S-mode, and only where R330 passes (46_cfi.md
R320). -/
def State.sseActive (s : State) : Prop :=
  s.env.xSSE = true ∧ s.cfg.ext.zicfiss = true ∧ s.cfg.sModeImplemented = true ∧ s.env.priv ≠ .m ∧
  ¬ s.sseIllegal ∧ ¬ s.sseVirtual

/-- The illegal-instruction test of a one-bit envcfg field `f` (48_cmo.md R374, R375); without S-mode there is no
senvcfg (R376). -/
def State.bitIllegal (s : State) (f : EnvCfg → Bool) : Prop :=
  (s.env.priv ≠ .m ∧ f s.env.menvcfg = false) ∨
  (s.env.priv = .u ∧ s.cfg.sModeImplemented = true ∧ f s.env.senvcfg = false)

/-- The virtual-instruction test of a one-bit envcfg field `f` (48_cmo.md R374, R375). -/
def State.bitVirtual (s : State) (f : EnvCfg → Bool) : Prop :=
  (s.env.priv = .vs ∧ f s.env.henvcfg = false) ∨
  (s.env.priv = .vu ∧ ¬ (f s.env.henvcfg = true ∧ f s.env.senvcfg = true))

/-- The illegal-instruction test of CBIE (48_cmo.md R373). -/
def State.cbieIllegal (s : State) : Prop :=
  (s.env.priv ≠ .m ∧ s.env.menvcfg.cbie = 0) ∨
  (s.env.priv = .u ∧ s.cfg.sModeImplemented = true ∧ s.env.senvcfg.cbie = 0)

/-- The virtual-instruction test of CBIE (48_cmo.md R373). -/
def State.cbieVirtual (s : State) : Prop :=
  (s.env.priv = .vs ∧ s.env.henvcfg.cbie = 0) ∨
  (s.env.priv = .vu ∧ (s.env.henvcfg.cbie = 0 ∨ s.env.senvcfg.cbie = 0))

/-- CBIE selects a flush (48_cmo.md R373). -/
def State.cbieFlush (s : State) : Prop :=
  (s.env.priv ≠ .m ∧ s.env.menvcfg.cbie = 1) ∨
  (s.env.priv = .u ∧ s.cfg.sModeImplemented = true ∧ s.env.senvcfg.cbie = 1) ∨
  (s.env.priv = .vs ∧ s.env.henvcfg.cbie = 1) ∨
  (s.env.priv = .vu ∧ (s.env.henvcfg.cbie = 1 ∨ s.env.senvcfg.cbie = 1))

/-- ELP after an indirect transfer through `rs1` (46_cfi.md R313). -/
def State.elpNext (s : State) (rs1 : Reg) : Elp :=
  if s.env.xLPE = true ∧ s.cfg.ext.zicfilp = true ∧ rs1 ≠ 1 ∧ rs1 ≠ 5 ∧ rs1 ≠ 7 then .expected else s.elp

/-- The target is a multiple of IALIGN/8 (49_base_subset.md R420). -/
def State.targetOk (s : State) (target : Word) : Prop := target.toNat % (if s.cfg.ext.zca then 2 else 4) = 0

/-! ### CSRs -/

/-- Counter `k` exists (10_state.md R41, R46). -/
def counterExists (c : Cfg) (k : Nat) : Prop :=
  (k < 3 ∧ c.ext.zicntr = true) ∨
  (3 ≤ k ∧ c.ext.zihpm = true ∧ ((∃ w, (k, w) ∈ c.hpmCounters) ∨ c.hpmUnimplFaults = false))

/-- The CSR address names a CSR of the configuration (10_state.md R41). -/
def csrExists (c : Cfg) (a : BitVec 12) : Prop :=
  (a = 0x011 ∧ c.ext.zicfiss = true) ∨
  ∃ k, k < 32 ∧ counterExists c k ∧ (a.toNat = 0xC00 + k ∨ (c.xlen = .rv32 ∧ a.toNat = 0xC80 + k))

/-- A value as ssp holds it: bits 1:0 zero, and bit 2 unless it is writable (10_state.md R45). -/
def sspHolds (c : Cfg) (v : Word) : Word :=
  if c.sxlenMayBe32 then (v >>> 2) <<< 2 else (v >>> 3) <<< 3

/-- The instruction writes the CSR (41_zicsr_counters.md R177). -/
def csrWrites : Instr → Prop
  | .csrrw _ _ _ => True
  | .csrrwi _ _ _ => True
  | .csrrs _ rs1 _ => rs1 ≠ 0
  | .csrrc _ rs1 _ => rs1 ≠ 0
  | .csrrsi _ uimm _ => uimm ≠ 0
  | .csrrci _ uimm _ => uimm ≠ 0
  | _ => False

/-- The counter gate of 41_zicsr_counters.md R178 item 4 is open: always in M-mode (60_exceptions.md R474). -/
def State.counterOpen (s : State) (k : Nat) : Prop := s.env.priv = .m ∨ s.env.counterEnabled.getLsbD k = true

/-- An access to ssp completed: `rd` holds the old value (x0 discards it), ssp the new one, and nothing else but pc and
instret changed. -/
structure SspAccessed (s t : State) (rd : Reg) (new : Word) : Prop where
  value : t.x rd = if rd = 0 then 0 else s.sspv
  ssp : t.sspv = new
  elp : t.elp = s.elp
  counters : t.cycle = s.cycle ∧ t.time = s.time
  done : Completed s t (s.after 4)
  regs : RegsKept s t [rd]
  mem : MemKept s t []
  caches : CachesKept s t []

/-- A read of a counter completed: `rd` holds `v` (x0 discards it), and nothing but pc, instret and the last values of
cycle and time changed. -/
structure CounterRead (s t : State) (rd : Reg) (v : Word) : Prop where
  value : t.x rd = if rd = 0 then 0 else v
  ssp : t.sspv = s.sspv
  elp : t.elp = s.elp
  done : Completed s t (s.after 4)
  regs : RegsKept s t [rd]
  mem : MemKept s t []
  caches : CachesKept s t []

/-! ### Register pairs (44_zilsd_zclsd.md) -/

/-- The 64-bit operand of the pair of `r`: `x[r+1] ++ x[r]`, zero for x0 (44_zilsd_zclsd.md R261, R262). -/
def State.pairOperand (s : State) (r : Reg) : Word :=
  if r = 0 then 0 else BitVec.ofNat 64 ((s.x r).toNat % 2 ^ 32 + 2 ^ 32 * ((s.x (r + 1)).toNat % 2 ^ 32))

/-- The registers a pair load writes: none for x0 (44_zilsd_zclsd.md R262). -/
def pairRegs (r : Reg) : List Reg := if r = 0 then [] else [r, r + 1]

/-- A pair load completed with the bytes `bs`. -/
structure PairLoaded (s t : State) (rd : Reg) (bs : List Byte) (len : Nat) : Prop where
  low : rd ≠ 0 → t.x rd = BitVec.ofNat 64 (leNat (bs.take 4))
  high : rd ≠ 0 → t.x (rd + 1) = BitVec.ofNat 64 (leNat (bs.drop 4))
  done : Completed s t (s.after len)
  regs : RegsKept s t (pairRegs rd)
  mem : MemKept s t []
  special : SpecialKept s t
  caches : CachesKept s t []

/-- The `n` bytes from byte `i` on may be one part of a pair access at `ea`: all eight, one of the two words where `ea` is a
multiple of 4, any run of bytes elsewhere (44_zilsd_zclsd.md R263). -/
def pairPart (ea : Word) (i n : Nat) : Prop :=
  0 < n ∧ i + n ≤ 8 ∧ (ea.toNat % 4 = 0 → n = 8 ∨ (n = 4 ∧ i % 4 = 0))

/-- The addresses of such a part. -/
def State.partAddrs (s : State) (ea : Word) (i n : Nat) : List Nat := ((s.addrs ea 8).drop i).take n

/-- Every part of a pair access at `ea` is permitted, however it is cut. -/
def State.pairPermits (s : State) (kind : AccessKind) (ea : Word) : Prop :=
  ∀ i n, pairPart ea i n → s.permits [kind] (s.partAddrs ea i n)

/-- Byte `j` of a pair access at `ea` lies in a part that is permitted. -/
def State.inPermittedPart (s : State) (kind : AccessKind) (ea : Word) (j : Nat) : Prop :=
  ∃ i n, pairPart ea i n ∧ i ≤ j ∧ j < i + n ∧ s.permits [kind] (s.partAddrs ea i n)

/-- A pair access at `ea` is refused however it is cut: some byte lies in no part that is permitted. -/
def State.pairRefused (s : State) (kind : AccessKind) (ea : Word) : Prop := ∃ j, j < 8 ∧ ¬ s.inPermittedPart kind ea j

/-- What a pair load at `ea` leaves that traps on the part of `n` bytes from byte `i`, refused for `w`: the record of that
part, the base register and memory as they were, and each register of the pair as it was or, where its half lies
outside the refused part and in permitted ones, holding it (44_zilsd_zclsd.md R271, 60_exceptions.md R459). -/
structure PairLoadTrapped (s t : State) (rd base : Reg) (ea : Word) (w : Why) (i n : Nat) : Prop where
  part : pairPart ea i n
  refused : s.refuses [.load] (s.partAddrs ea i n) w
  recorded : TrapRecorded s t (loadFault w) (BitVec.ofNat 64 (s.byteAddr ea i))
  base : t.x base = s.x base
  low : t.x rd = s.x rd ∨
    (4 ≤ i ∧ (∀ j, j < 4 → s.inPermittedPart .load ea j) ∧
      ∃ bs, s.mayLoadAll ea 4 bs ∧ t.x rd = BitVec.ofNat 64 (leNat bs))
  high : t.x (rd + 1) = s.x (rd + 1) ∨
    (i + n ≤ 4 ∧ (∀ j, 4 ≤ j → j < 8 → s.inPermittedPart .load ea j) ∧
      ∃ bs, s.mayLoadAll (ea + 4) 4 bs ∧ t.x (rd + 1) = BitVec.ofNat 64 (leNat bs))
  regs : RegsKept s t (pairRegs rd)
  mem : MemKept s t []
  caches : CachesKept s t []

/-- What a pair store of `v` at `ea` leaves that traps on the part of `n` bytes from byte `i`, refused for `w`: the record
of that part, the registers as they were, and each byte of the access as it was or, where it lies outside the refused
part and in a permitted one, stored (44_zilsd_zclsd.md R271, 60_exceptions.md R459). -/
structure PairStoreTrapped (s t : State) (ea : Word) (v : Word) (w : Why) (i n : Nat) : Prop where
  part : pairPart ea i n
  refused : s.refuses [.store] (s.partAddrs ea i n) w
  recorded : TrapRecorded s t (storeFault w) (BitVec.ofNat 64 (s.byteAddr ea i))
  regs : RegsKept s t []
  bytes : ∀ j, j < 8 → t.byteAt (s.byteAddr ea j) = s.byteAt (s.byteAddr ea j) ∨
    ((j < i ∨ i + n ≤ j) ∧ s.inPermittedPart .store ea j ∧
      t.byteAt (s.byteAddr ea j) = v.extractLsb' (8 * j) 8)
  mem : MemKept s t (s.addrs ea 8)
  caches : CachesKept s t (s.addrs ea 8)

/-! ### The shadow stack (46_cfi.md) -/

/-- The address a push stores to: `ssp - XLEN/8`, modulo 2^XLEN (46_cfi.md R322). -/
def State.belowSsp (s : State) : Word := truncTo s.xlen ((s.sspv.toNat : Int) - s.xlen.bytes)

/-- The address after the top entry: `ssp + XLEN/8`, modulo 2^XLEN (46_cfi.md R325). -/
def State.aboveSsp (s : State) : Word := truncTo s.xlen ((s.sspv.toNat : Int) + s.xlen.bytes)

/-- A push of `v` by an instruction of `len` bytes completed (46_cfi.md R322). -/
structure Pushed (s t : State) (v : Word) (len : Nat) : Prop where
  bytes : ∀ i, i < s.xlen.bytes → t.byteAt (s.byteAddr s.belowSsp i) = v.extractLsb' (8 * i) 8
  ssp : t.sspv = s.belowSsp
  elp : t.elp = s.elp
  counters : t.cycle = s.cycle ∧ t.time = s.time
  done : Completed s t (s.after len)
  regs : RegsKept s t []
  mem : MemKept s t (s.addrs s.belowSsp s.xlen.bytes)
  caches : CachesKept s t (s.addrs s.belowSsp s.xlen.bytes)
  seen : Inv s → StoreSeen s t (s.byteAddr s.belowSsp) s.xlen.bytes fun i => v.extractLsb' (8 * i) 8

/-- A pop whose check passed, by an instruction of `len` bytes, completed (46_cfi.md R325). -/
structure Popped (s t : State) (len : Nat) : Prop where
  ssp : t.sspv = s.aboveSsp
  elp : t.elp = s.elp
  counters : t.cycle = s.cycle ∧ t.time = s.time
  done : Completed s t (s.after len)
  regs : RegsKept s t []
  mem : MemKept s t []
  caches : CachesKept s t []

/-- A swap of `n` bytes at `a` completed: `rd` holds `v` (x0 discards it), the bytes those of `stored` (46_cfi.md R328,
R329). -/
structure Swapped (s t : State) (a : Word) (n : Nat) (stored : Word) (rd : Reg) (v : Word) : Prop where
  value : t.x rd = if rd = 0 then 0 else v
  bytes : ∀ i, i < n → t.byteAt (s.byteAddr a i) = stored.extractLsb' (8 * i) 8
  done : Completed s t (s.after 4)
  regs : RegsKept s t [rd]
  mem : MemKept s t (s.addrs a n)
  special : SpecialKept s t
  caches : CachesKept s t (s.addrs a n)
  seen : Inv s → StoreSeen s t (s.byteAddr a) n fun i => stored.extractLsb' (8 * i) 8

/-- The gate of SSAMOSWAP is open (46_cfi.md R330). -/
def State.swapOpen (s : State) : Prop := s.cfg.sModeImplemented = true ∧ ¬ s.sseIllegal ∧ ¬ s.sseVirtual

/-! ### Cache blocks (48_cmo.md) -/

/-- The byte `a` lies in the block of `size` bytes that holds `x[rs1]` (48_cmo.md R377). -/
def State.inBlock (s : State) (size : Nat) (rs1 : Reg) (a : Nat) : Prop := a / size = (s.x rs1).toNat / size

/-- The management block of `x[rs1]` meets R377 and permits a load or permits a store (48_cmo.md R382). -/
def State.manageOk (s : State) (rs1 : Reg) : Prop :=
  s.blockUniform (s.blockAddrs (cbomBlock s.cfg) (s.x rs1)) = true ∧
  (s.permits [.load] (s.blockAddrs (cbomBlock s.cfg) (s.x rs1)) ∨
    s.permits [.store] (s.blockAddrs (cbomBlock s.cfg) (s.x rs1)))

/-- A management CBO completed: outside the block, and but for the cached-data state of its bytes, nothing but pc and
instret changed. -/
structure Managed (s t : State) (rs1 : Reg) : Prop where
  done : Completed s t (s.after 4)
  regs : RegsKept s t []
  mem : MemKept s t []
  special : SpecialKept s t
  outside : ∀ a, ¬ s.inBlock (cbomBlock s.cfg) rs1 a → t.cacheAt a = s.cacheAt a
  fetch : ∀ u, t.versionsAt u = s.versionsAt u

/-- What `may` of a byte is after a clean or a flush (48_cmo.md R380). -/
def State.cleanedMay (s : State) (a : Nat) : List Content :=
  if (s.cacheAt a).valid then [s.content a] else (s.cacheAt a).may

/-! ### Lists of instructions of one shape -/

/-- MOP.R.0 to MOP.R.31 (45_zimop_zcmop.md R292). -/
def mopRForms (rd rs1 : Reg) : List Instr :=
  [.mopR0 rd rs1, .mopR1 rd rs1, .mopR2 rd rs1, .mopR3 rd rs1, .mopR4 rd rs1, .mopR5 rd rs1, .mopR6 rd rs1,
   .mopR7 rd rs1, .mopR8 rd rs1, .mopR9 rd rs1, .mopR10 rd rs1, .mopR11 rd rs1, .mopR12 rd rs1, .mopR13 rd rs1,
   .mopR14 rd rs1, .mopR15 rd rs1, .mopR16 rd rs1, .mopR17 rd rs1, .mopR18 rd rs1, .mopR19 rd rs1, .mopR20 rd rs1,
   .mopR21 rd rs1, .mopR22 rd rs1, .mopR23 rd rs1, .mopR24 rd rs1, .mopR25 rd rs1, .mopR26 rd rs1, .mopR27 rd rs1,
   .mopR28 rd rs1, .mopR29 rd rs1, .mopR30 rd rs1, .mopR31 rd rs1]

/-- MOP.RR.0 to MOP.RR.7 (45_zimop_zcmop.md R293). -/
def mopRRForms (rd rs1 rs2 : Reg) : List Instr :=
  [.mopRR0 rd rs1 rs2, .mopRR1 rd rs1 rs2, .mopRR2 rd rs1 rs2, .mopRR3 rd rs1 rs2, .mopRR4 rd rs1 rs2,
   .mopRR5 rd rs1 rs2, .mopRR6 rd rs1 rs2, .mopRR7 rd rs1 rs2]

/-- The 16-bit instructions without an effect: C.MOP.n and C.NTL (45_zimop_zcmop.md R297, 47_hints.md R356 to R359). -/
def idleForms16 : List Instr :=
  [.cMop1, .cMop3, .cMop5, .cMop7, .cMop9, .cMop11, .cMop13, .cMop15, .cNtlP1, .cNtlPall, .cNtlS1, .cNtlAll]

/-- The 32-bit hints without operands: NTL and PAUSE (47_hints.md R352 to R355, R366). -/
def idleForms32 : List Instr := [.ntlP1, .ntlPall, .ntlS1, .ntlAll, .pause]

/-- The prefetches (48_cmo.md R389 to R391). -/
def prefetchForms (rs1 : Reg) (imm : BitVec 7) : List Instr :=
  [.prefetchI rs1 imm, .prefetchR rs1 imm, .prefetchW rs1 imm]

/-- The CSR instructions at one address (41_zicsr_counters.md R171 to R176). -/
def csrForms (rd src : BitVec 5) (a : BitVec 12) : List Instr :=
  [.csrrw rd src a, .csrrs rd src a, .csrrc rd src a, .csrrwi rd src a, .csrrsi rd src a, .csrrci rd src a]

/-- The forms that read a CSR without writing it (41_zicsr_counters.md R177). -/
def csrReadForms (rd : Reg) (a : BitVec 12) : List Instr :=
  [.csrrs rd 0 a, .csrrc rd 0 a, .csrrsi rd 0 a, .csrrci rd 0 a]

/-- The instructions that store to memory. -/
def stores : Instr → Bool
  | .sh _ _ _ => true
  | .sw _ _ _ => true
  | .sdRv64 _ _ _ => true
  | .cSdRv64 _ _ _ => true
  | .cSdspRv64 _ _ => true
  | .sdPair _ _ _ => true
  | .cSdPair _ _ _ => true
  | .cSdspPair _ _ => true
  | .sspushX1 => true
  | .sspushX5 => true
  | .cSspushX1 => true
  | .ssamoswapW _ _ _ _ _ => true
  | .ssamoswapD _ _ _ _ _ => true
  | .cboZero _ => true
  | _ => false

/-- The instructions that may change ELP: JALR, C.JR, C.JALR and LPAD (10_state.md R47). -/
def changesElp : Instr → Bool
  | .jalr _ _ _ => true
  | .cJr _ => true
  | .cJalr _ => true
  | .lpad _ => true
  | _ => false

/-- The instructions that may change ssp: the Zicsr instructions, and SSPUSH and SSPOPCHK in all forms (10_state.md R45). -/
def changesSsp : Instr → Bool
  | .csrrw _ _ _ => true
  | .csrrs _ _ _ => true
  | .csrrc _ _ _ => true
  | .csrrwi _ _ _ => true
  | .csrrsi _ _ _ => true
  | .csrrci _ _ _ => true
  | .sspushX1 => true
  | .sspushX5 => true
  | .cSspushX1 => true
  | .sspopchkX1 => true
  | .sspopchkX5 => true
  | .cSspopchkX5 => true
  | _ => false

/-- The x registers an instruction may write. -/
def writtenRegs : Instr → List Reg
  | .fenceI _ _ _ => []
  | .csrrw rd _ _ => [rd]
  | .csrrs rd _ _ => [rd]
  | .csrrc rd _ _ => [rd]
  | .csrrwi rd _ _ => [rd]
  | .csrrsi rd _ _ => [rd]
  | .csrrci rd _ _ => [rd]
  | .mul rd _ _ => [rd]
  | .mulh rd _ _ => [rd]
  | .mulhsu rd _ _ => [rd]
  | .mulhu rd _ _ => [rd]
  | .div rd _ _ => [rd]
  | .divu rd _ _ => [rd]
  | .rem rd _ _ => [rd]
  | .remu rd _ _ => [rd]
  | .mulw rd _ _ => [rd]
  | .divw rd _ _ => [rd]
  | .divuw rd _ _ => [rd]
  | .remw rd _ _ => [rd]
  | .remuw rd _ _ => [rd]
  | .czeroEqz rd _ _ => [rd]
  | .czeroNez rd _ _ => [rd]
  | .ldPair rd _ _ => [rd, rd + 1]
  | .sdPair _ _ _ => []
  | .cLdspPair rd _ => [rd, rd + 1]
  | .cSdspPair _ _ => []
  | .cLdPair rd _ _ => [cReg rd, cReg rd + 1]
  | .cSdPair _ _ _ => []
  | .mopR0 rd _ => [rd]
  | .mopR1 rd _ => [rd]
  | .mopR2 rd _ => [rd]
  | .mopR3 rd _ => [rd]
  | .mopR4 rd _ => [rd]
  | .mopR5 rd _ => [rd]
  | .mopR6 rd _ => [rd]
  | .mopR7 rd _ => [rd]
  | .mopR8 rd _ => [rd]
  | .mopR9 rd _ => [rd]
  | .mopR10 rd _ => [rd]
  | .mopR11 rd _ => [rd]
  | .mopR12 rd _ => [rd]
  | .mopR13 rd _ => [rd]
  | .mopR14 rd _ => [rd]
  | .mopR15 rd _ => [rd]
  | .mopR16 rd _ => [rd]
  | .mopR17 rd _ => [rd]
  | .mopR18 rd _ => [rd]
  | .mopR19 rd _ => [rd]
  | .mopR20 rd _ => [rd]
  | .mopR21 rd _ => [rd]
  | .mopR22 rd _ => [rd]
  | .mopR23 rd _ => [rd]
  | .mopR24 rd _ => [rd]
  | .mopR25 rd _ => [rd]
  | .mopR26 rd _ => [rd]
  | .mopR27 rd _ => [rd]
  | .mopR28 rd _ => [rd]
  | .mopR29 rd _ => [rd]
  | .mopR30 rd _ => [rd]
  | .mopR31 rd _ => [rd]
  | .mopRR0 rd _ _ => [rd]
  | .mopRR1 rd _ _ => [rd]
  | .mopRR2 rd _ _ => [rd]
  | .mopRR3 rd _ _ => [rd]
  | .mopRR4 rd _ _ => [rd]
  | .mopRR5 rd _ _ => [rd]
  | .mopRR6 rd _ _ => [rd]
  | .mopRR7 rd _ _ => [rd]
  | .cMop1 => []
  | .cMop3 => []
  | .cMop5 => []
  | .cMop7 => []
  | .cMop9 => []
  | .cMop11 => []
  | .cMop13 => []
  | .cMop15 => []
  | .lpad _ => []
  | .sspushX1 => []
  | .sspushX5 => []
  | .cSspushX1 => []
  | .sspopchkX1 => []
  | .sspopchkX5 => []
  | .cSspopchkX5 => []
  | .ssrdp rd => [rd]
  | .ssamoswapW rd _ _ _ _ => [rd]
  | .ssamoswapD rd _ _ _ _ => [rd]
  | .ntlP1 => []
  | .ntlPall => []
  | .ntlS1 => []
  | .ntlAll => []
  | .cNtlP1 => []
  | .cNtlPall => []
  | .cNtlS1 => []
  | .cNtlAll => []
  | .pause => []
  | .cboInval _ => []
  | .cboClean _ => []
  | .cboFlush _ => []
  | .cboZero _ => []
  | .prefetchI _ _ => []
  | .prefetchR _ _ => []
  | .prefetchW _ _ => []
  | .add rd _ _ => [rd]
  | .sub rd _ _ => [rd]
  | .and rd _ _ => [rd]
  | .or rd _ _ => [rd]
  | .xor rd _ _ => [rd]
  | .addi rd _ _ => [rd]
  | .ori rd _ _ => [rd]
  | .lui rd _ => [rd]
  | .auipc rd _ => [rd]
  | .jal rd _ => [rd]
  | .jalr rd _ _ => [rd]
  | .beq _ _ _ => []
  | .bne _ _ _ => []
  | .lw rd _ _ => [rd]
  | .sh _ _ _ => []
  | .sw _ _ _ => []
  | .ldRv64 rd _ _ => [rd]
  | .sdRv64 _ _ _ => []
  | .fence _ _ _ _ _ => []
  | .ecall => []
  | .ebreak => []
  | .cLi rd _ => [rd]
  | .cAddi rd _ => [rd]
  | .cAdd rd _ => [rd]
  | .cLui rd _ => [rd]
  | .cAddi16sp _ => [2]
  | .cJr _ => []
  | .cJalr _ => [1]
  | .cJ _ => []
  | .cJal _ => [1]
  | .cEbreak => []
  | .cLdRv64 rd _ _ => [cReg rd]
  | .cSdRv64 _ _ _ => []
  | .cLdspRv64 rd _ => [rd]
  | .cSdspRv64 _ _ => []

end Sys2Proof.Machine
end

