-- ==== Sys2Proof/Certificates/Slice0/Obligations.lean ====
section
/-! DEFINITION. The statements for the provers. A statement of an instruction's result is at the same time the statement
that it completes: its conclusion is that `exec` answers a next state. -/

open Sys2Proof Sys2Proof.Machine

/-! ### Reset, decoding, the step -/

/-- 10_state.md R56. -/
def Obligations.ResetExpectsNoLandingPad : Prop := State.reset.elp = .no

/-- The invariant holds at reset; the register values there are the model's choice (log 2 to 5, 42). -/
def Obligations.ResetMeetsInvariant : Prop := Inv State.reset

/-- A few words of 30_encoding.md and 49_base_subset.md, written out there, and what they are. -/
def Obligations.SampleWordsDecode : Prop :=
  decode Cfg.reset [0xB3, 0x85, 0xC5, 0x02] = .ok (.mul 11 11 12, []) ∧
  decode Cfg.reset [0x33, 0xD5, 0xC5, 0x0E] = .ok (.czeroEqz 10 11 12, []) ∧
  decode Cfg.reset [0x03, 0x37, 0x85, 0x00] = .ok (.ldPair 14 10 8, []) ∧
  decode Cfg.reset [0x73, 0xC5, 0xC5, 0x81] = .ok (.mopR0 10 11, []) ∧
  decode Cfg.reset [0x73, 0x40, 0x10, 0xCE] = .ok (.sspushX1, []) ∧
  decode Cfg.reset [0x17, 0x50, 0x34, 0x12] = .ok (.lpad 0x12345, []) ∧
  decode Cfg.reset [0x0F, 0x20, 0x45, 0x00] = .ok (.cboZero 10, []) ∧
  decode Cfg.reset [0xF3, 0x90, 0x10, 0x01] = .ok (.csrrw 1 1 0x011, []) ∧
  decode Cfg.reset [0x02, 0x95] = .ok (.cJalr 10, [])

/-- Decoding the encoding of any instruction the hart has gives it back, whatever bytes follow. -/
def Obligations.DecodeOfEncode : Prop :=
  ∀ (c : Cfg) (i : Instr) (rest : List Byte), i.wellFormed c = true → decode c (encode i ++ rest) = .ok (i, rest)

/-- Bytes that decode are the encoding of the instruction read, which the hart has: every bit of them is kept. -/
def Obligations.EncodeOfDecode : Prop :=
  ∀ (c : Cfg) (i : Instr) (bytes rest : List Byte), decode c bytes = .ok (i, rest) →
    i.wellFormed c = true ∧ bytes = encode i ++ rest

/-- Where the fetched bytes are an instruction of the hart and no landing pad is required, or the instruction is an
LPAD, the step is that instruction; where they are none and no landing pad is required, it takes illegal-instruction with
0 or the bytes as trap value (30_encoding.md R140, R142, 60_exceptions.md R452 row 1). -/
def Obligations.StepRunsTheDecodedInstruction : Prop :=
  ∀ (s : State) (bytes : List Byte), s.trap = none → s.fetch = .ok bytes →
    (∀ (i : Instr) (rest : List Byte), decode s.cfg bytes = .ok (i, rest) →
      ((¬ (s.lpeActive ∧ s.elp = .expected)) ∨ ∃ lpl, i = .lpad lpl) → step s = exec i s) ∧
    ((∀ (i : Instr) (rest : List Byte), decode s.cfg bytes ≠ .ok (i, rest)) →
      ¬ (s.lpeActive ∧ s.elp = .expected) →
      ∃ t tval, step s = .next t ∧ (tval = 0 ∨ tval = BitVec.ofNat 64 (leNat bytes)) ∧
        TookTrap s t .illegalInstruction tval)

/-- With the fetch view coherent (as at reset), every copy valid and the fetch permitted, the bytes fetched are those of
memory at pc: two, or four where the low bits of the first say so. Whatever the fetch view, each byte fetched is one a
fetch may see, and under Ziccif those of one unit come from one state of it (20_memory.md R86, R102, 48_cmo.md R380; log
49). -/
def Obligations.CoherentFetchSeesMemory : Prop :=
  (∀ (s : State), s.fetchView = [] → (∀ i, i < 4 → (s.cacheAt (s.byteAddr s.pcv i)).valid = true) →
    s.permits [.fetch] (s.addrs s.pcv 2) →
    ((s.byteAt (s.byteAddr s.pcv 0)).toNat % 4 = 3 →
      s.permits [.fetch] (s.addrs (s.after 2) 2) ∧ s.permits [.fetch] (s.addrs s.pcv 4)) →
    s.fetch = .ok ((s.addrs s.pcv (if (s.byteAt (s.byteAddr s.pcv 0)).toNat % 4 = 3 then 4 else 2)).map s.byteAt)) ∧
  ∀ (s : State) (bytes : List Byte), Inv s → s.fetch = .ok bytes →
    (∀ i, i < bytes.length →
      ∃ c, s.mayFetch (s.byteAddr s.pcv i) c ∧ bytes[i]? = some (contentByte (s.byteAddr s.pcv i) c)) ∧
    (s.cfg.ext.ziccif = true → ∀ u, ∃ v, s.mayFetchUnit u v ∧
      ∀ i, i < bytes.length → unitOf (s.byteAddr s.pcv i) = u →
        bytes[i]? = some (contentByte (s.byteAddr s.pcv i) (v.getD (s.byteAddr s.pcv i % 4) none)))

/-- A fetch refused at its first parcel traps with pc as trap value; a 32-bit instruction refused at its second parcel
traps with that parcel's address (60_exceptions.md R451, R459), and one refused only as four bytes with pc (log 30).
The rank of the two page-faults is log 16's choice. -/
def Obligations.RefusedFetchTraps : Prop :=
  ∀ (s : State) (w : Why), s.trap = none →
    (s.refuses [.fetch] (s.addrs s.pcv 2) w → ∃ t, step s = .next t ∧ TookTrap s t (fetchFault w) s.pcv) ∧
    (s.permits [.fetch] (s.addrs s.pcv 2) → (s.fetchByte (s.byteAddr s.pcv 0)).toNat % 4 = 3 →
      (s.refuses [.fetch] (s.addrs (s.after 2) 2) w →
        ∃ t, step s = .next t ∧ TookTrap s t (fetchFault w) (s.after 2)) ∧
      (s.permits [.fetch] (s.addrs (s.after 2) 2) → s.refuses [.fetch] (s.addrs s.pcv 4) w →
        ∃ t, step s = .next t ∧ TookTrap s t (fetchFault w) s.pcv))

/-! ### Invariants of every step -/

/-- Every step keeps the invariant, from any state that meets it. -/
def Obligations.StepKeepsInvariant : Prop :=
  ∀ (s t : State), Inv s → step s = .next t → Inv t

/-- instret counts exactly the instructions that complete without an exception (41_zicsr_counters.md R192). -/
def Obligations.InstretCountsRetired : Prop :=
  ∀ (s t : State), step s = .next t → t.instret = if t.trap = none then s.instret + 1 else s.instret

/-- Whatever step or instruction raises an exception, the record names its own pc, its mode and ELP as they were, and pc,
instret, ssp, ELP, the configuration and the environment stand (60_exceptions.md R460, R464). -/
def Obligations.EveryTrapIsRecordedExactly : Prop :=
  ∀ (s t : State), s.trap = none → t.trap ≠ none → (step s = .next t ∨ ∃ i, exec i s = .next t) →
    ∃ cause tval, TrapRecorded s t cause tval

/-- A `Trapped` state has no successor (60_exceptions.md R460). -/
def Obligations.TrappedStateHasNoSuccessor : Prop :=
  ∀ (s : State), s.trap ≠ none → step s = .fault .trapped

/-- ELP changes only by JALR, C.JR, C.JALR and LPAD, ssp only by the Zicsr instructions, SSPUSH and SSPOPCHK, and the
configuration and the environment inputs by nothing (10_state.md R45, R47, R52, 46_cfi.md R311). -/
def Obligations.OnlyNamedInstructionsChangeElpAndSsp : Prop :=
  ∀ (i : Instr) (s t : State), exec i s = .next t →
    (changesElp i = false → t.elp = s.elp) ∧ (changesSsp i = false → t.sspv = s.sspv) ∧ SetupKept s t

/-- Memory changes only by the storing instructions (20_memory.md R82). -/
def Obligations.OnlyStoresChangeMemory : Prop :=
  ∀ (i : Instr) (s t : State), exec i s = .next t → stores i = false → MemKept s t []

/-- Every instruction, whether it completes or traps, leaves every x register but its destinations. -/
def Obligations.OnlyDestinationsAreWritten : Prop :=
  ∀ (i : Instr) (s t : State), exec i s = .next t → RegsKept s t (writtenRegs i)

/-! ### Memory, fetch view, cached data -/

/-- A load returns what was just stored there, byte by byte in little-endian order, whatever the alignment. -/
def Obligations.LoadReturnsWhatWasStored : Prop :=
  ∀ (s : State) (ea v : Word) (n : Nat), Inv s → n ≤ 8 →
    (s.storeValue ea n v).loadValue ea n = BitVec.ofNat 64 (v.toNat % 2 ^ (8 * n))

/-- After a store a fetch of a byte may see what it might before, and the stored byte, and nothing else, and the copy of a
stored byte is valid and its `may` has gained it (20_memory.md R102, 48_cmo.md R380). An aligned store adds to the states of
a unit whose copies are all valid the one it leaves in memory and no other (70_reset_and_hazards.md R497). -/
def Obligations.StoreAddsToTheFetchView : Prop :=
  ∀ (s : State) (ea v : Word) (n : Nat), Inv s → n ≤ 8 →
    StoreSeen s (s.storeValue ea n v) (s.byteAddr ea) n (fun i => v.extractLsb' (8 * i) 8) ∧
    (ea.toNat % n = 0 → ∀ u w, (∀ k, k < 4 → (s.cacheAt (u + k)).valid = true) →
      w ∈ (s.storeValue ea n v).versionsAt u → w ∈ s.versionsAt u ∨ w = (s.storeValue ea n v).currentUnit u)

/-- FENCE.I completes, a fetch then sees memory as the loads of the hart do and nothing else, which is the current content
but where the copy is not valid (log 48), and no register, CSR or byte of memory is written; funct12, rs1 and rd are
ignored (20_memory.md R102, 40_zifencei.md R161, R162). -/
def Obligations.FenceICollapsesTheFetchView : Prop :=
  ∀ (s : State) (funct12 : BitVec 12) (rs1 rd : Reg), ∃ t, exec (.fenceI funct12 rs1 rd) s = .next t ∧
    Completed s t (s.after 4) ∧ RegsKept s t [] ∧ MemKept s t [] ∧ SpecialKept s t ∧
    (∀ a, t.cacheAt a = s.cacheAt a) ∧
    ∀ a, ∃ c, t.fetchSet a = [c] ∧ s.mayLoad a (contentByte a c) ∧ ((s.cacheAt a).valid = true → c = s.content a)

/-! ### Operand forms -/

/-- The immediates as XLEN-bit values (30_encoding.md R124, 49_base_subset.md R410, R431, R434). -/
def Obligations.ImmediateValues : Prop :=
  ∀ (x : Xlen) (i12 : BitVec 12) (i20 : BitVec 20) (i11 : BitVec 11) (i6 : BitVec 6) (i5 : BitVec 5),
    immI x i12 = truncTo x i12.toInt ∧ immU x i20 = truncTo x (4096 * i20.toInt) ∧
    immB x i12 = truncTo x (2 * i12.toInt) ∧ immJ x i20 = truncTo x (2 * i20.toInt) ∧
    immCJ x i11 = truncTo x (2 * i11.toInt) ∧ immCI x i6 = truncTo x i6.toInt ∧
    immCLui x i6 = truncTo x (4096 * i6.toInt) ∧ immCAddi16sp x i6 = truncTo x (16 * i6.toInt) ∧
    (offSp i6).toNat = 8 * i6.toNat ∧ (offMem i5).toNat = 8 * i5.toNat ∧ (immZ i5).toNat = i5.toNat

/-! ### Base and compressed arithmetic -/

/-- ADD, SUB, C.ADD, ADDI, C.ADDI, C.ADDI16SP, C.LI (49_base_subset.md R411, R412, R416, R431 to R434). -/
def Obligations.AdditionResults : Prop :=
  ∀ (s : State) (rd rs1 rs2 : Reg) (i12 : BitVec 12) (i6 : BitVec 6),
    (∃ t, exec (.add rd rs1 rs2) s = .next t ∧ WroteReg s t rd (truncTo s.xlen (s.ux rs1 + s.ux rs2)) 4) ∧
    (∃ t, exec (.sub rd rs1 rs2) s = .next t ∧ WroteReg s t rd (truncTo s.xlen (s.ux rs1 - s.ux rs2)) 4) ∧
    (∃ t, exec (.cAdd rd rs2) s = .next t ∧ WroteReg s t rd (truncTo s.xlen (s.ux rd + s.ux rs2)) 2) ∧
    (∃ t, exec (.addi rd rs1 i12) s = .next t ∧ WroteReg s t rd (truncTo s.xlen (s.ux rs1 + i12.toInt)) 4) ∧
    (∃ t, exec (.cAddi rd i6) s = .next t ∧ WroteReg s t rd (truncTo s.xlen (s.ux rd + i6.toInt)) 2) ∧
    (∃ t, exec (.cAddi16sp i6) s = .next t ∧ WroteReg s t 2 (truncTo s.xlen (s.ux 2 + 16 * i6.toInt)) 2) ∧
    (∃ t, exec (.cLi rd i6) s = .next t ∧ WroteReg s t rd (truncTo s.xlen i6.toInt) 2)

/-- AND, OR, XOR, ORI bit by bit (49_base_subset.md R413, R414, R415, R417). -/
def Obligations.LogicResults : Prop :=
  ∀ (s : State) (rd rs1 rs2 : Reg) (i12 : BitVec 12),
    (∃ t v, exec (.and rd rs1 rs2) s = .next t ∧ WroteReg s t rd v 4 ∧
      ∀ k, v.getLsbD k = ((s.x rs1).getLsbD k && (s.x rs2).getLsbD k)) ∧
    (∃ t v, exec (.or rd rs1 rs2) s = .next t ∧ WroteReg s t rd v 4 ∧
      ∀ k, v.getLsbD k = ((s.x rs1).getLsbD k || (s.x rs2).getLsbD k)) ∧
    (∃ t v, exec (.xor rd rs1 rs2) s = .next t ∧ WroteReg s t rd v 4 ∧
      ∀ k, v.getLsbD k = ((s.x rs1).getLsbD k ^^ (s.x rs2).getLsbD k)) ∧
    (∃ t v, exec (.ori rd rs1 i12) s = .next t ∧ WroteReg s t rd v 4 ∧
      ∀ k, v.getLsbD k = ((s.x rs1).getLsbD k || (truncTo s.xlen i12.toInt).getLsbD k))

/-- LUI, AUIPC, C.LUI (49_base_subset.md R418, R419, R434). -/
def Obligations.UpperImmediateResults : Prop :=
  ∀ (s : State) (rd : Reg) (i20 : BitVec 20) (i6 : BitVec 6),
    (∃ t, exec (.lui rd i20) s = .next t ∧ WroteReg s t rd (truncTo s.xlen (4096 * i20.toInt)) 4) ∧
    (∃ t, exec (.auipc rd i20) s = .next t ∧
      WroteReg s t rd (truncTo s.xlen ((s.pcv.toNat : Int) + 4096 * i20.toInt)) 4) ∧
    (∃ t, exec (.cLui rd i6) s = .next t ∧ WroteReg s t rd (truncTo s.xlen (4096 * i6.toInt)) 2)

/-! ### M, Zmmul, Zicond -/

/-- MUL, MULH, MULHSU, MULHU (42_m_zmmul.md R221 to R224). -/
def Obligations.MultiplyResults : Prop :=
  ∀ (s : State) (rd rs1 rs2 : Reg),
    (∃ t, exec (.mul rd rs1 rs2) s = .next t ∧ WroteReg s t rd (truncTo s.xlen (s.ux rs1 * s.ux rs2)) 4) ∧
    (∃ t, exec (.mulh rd rs1 rs2) s = .next t ∧
      WroteReg s t rd (truncTo s.xlen (s.ix rs1 * s.ix rs2 / (2 ^ s.xlen.bits : Int))) 4) ∧
    (∃ t, exec (.mulhsu rd rs1 rs2) s = .next t ∧
      WroteReg s t rd (truncTo s.xlen (s.ix rs1 * s.ux rs2 / (2 ^ s.xlen.bits : Int))) 4) ∧
    (∃ t, exec (.mulhu rd rs1 rs2) s = .next t ∧
      WroteReg s t rd (truncTo s.xlen (s.ux rs1 * s.ux rs2 / (2 ^ s.xlen.bits : Int))) 4)

/-- DIV, DIVU, REM, REMU (42_m_zmmul.md R226 to R229). -/
def Obligations.DivideResults : Prop :=
  ∀ (s : State) (rd rs1 rs2 : Reg),
    (∃ t, exec (.div rd rs1 rs2) s = .next t ∧
      WroteReg s t rd (truncTo s.xlen (if s.ux rs2 = 0 then -1 else (s.ix rs1).tdiv (s.ix rs2))) 4) ∧
    (∃ t, exec (.divu rd rs1 rs2) s = .next t ∧
      WroteReg s t rd (truncTo s.xlen (if s.ux rs2 = 0 then -1 else s.ux rs1 / s.ux rs2)) 4) ∧
    (∃ t, exec (.rem rd rs1 rs2) s = .next t ∧
      WroteReg s t rd (truncTo s.xlen (if s.ux rs2 = 0 then s.ix rs1 else (s.ix rs1).tmod (s.ix rs2))) 4) ∧
    (∃ t, exec (.remu rd rs1 rs2) s = .next t ∧
      WroteReg s t rd (truncTo s.xlen (if s.ux rs2 = 0 then s.ux rs1 else s.ux rs1 % s.ux rs2)) 4)

/-- MULW, DIVW, DIVUW, REMW, REMUW (42_m_zmmul.md R225, R230 to R233). -/
def Obligations.WordFormResults : Prop :=
  ∀ (s : State) (rd rs1 rs2 : Reg),
    (∃ t, exec (.mulw rd rs1 rs2) s = .next t ∧
      WroteReg s t rd (truncTo s.xlen (sextW (s.ux32 rs1 * s.ux32 rs2))) 4) ∧
    (∃ t, exec (.divw rd rs1 rs2) s = .next t ∧
      WroteReg s t rd
        (truncTo s.xlen (sextW (if s.ux32 rs2 = 0 then -1 else (s.ix32 rs1).tdiv (s.ix32 rs2)))) 4) ∧
    (∃ t, exec (.divuw rd rs1 rs2) s = .next t ∧
      WroteReg s t rd (truncTo s.xlen (sextW (if s.ux32 rs2 = 0 then -1 else s.ux32 rs1 / s.ux32 rs2))) 4) ∧
    (∃ t, exec (.remw rd rs1 rs2) s = .next t ∧
      WroteReg s t rd
        (truncTo s.xlen (sextW (if s.ux32 rs2 = 0 then s.ix32 rs1 else (s.ix32 rs1).tmod (s.ix32 rs2)))) 4) ∧
    (∃ t, exec (.remuw rd rs1 rs2) s = .next t ∧
      WroteReg s t rd
        (truncTo s.xlen (sextW (if s.ux32 rs2 = 0 then s.ux32 rs1 else s.ux32 rs1 % s.ux32 rs2))) 4)

/-- The special cases of division, at the width XLEN and, for the W forms, at 32 bits with the result sign-extended
(42_m_zmmul.md R234). -/
def Obligations.DivisionSpecialCases : Prop :=
  ∀ (s : State) (rd rs1 rs2 : Reg),
    (s.ux rs2 = 0 →
      Gives s (.divu rd rs1 rs2) rd (truncTo s.xlen (2 ^ s.xlen.bits - 1)) ∧
      Gives s (.remu rd rs1 rs2) rd (s.x rs1) ∧
      Gives s (.div rd rs1 rs2) rd (truncTo s.xlen (-1)) ∧ Gives s (.rem rd rs1 rs2) rd (s.x rs1)) ∧
    (s.ix rs1 = -(2 ^ (s.xlen.bits - 1)) ∧ s.ix rs2 = -1 →
      Gives s (.div rd rs1 rs2) rd (s.x rs1) ∧ Gives s (.rem rd rs1 rs2) rd 0) ∧
    (s.ux32 rs2 = 0 →
      Gives s (.divuw rd rs1 rs2) rd (truncTo s.xlen (-1)) ∧
      Gives s (.remuw rd rs1 rs2) rd (truncTo s.xlen (s.ix32 rs1)) ∧
      Gives s (.divw rd rs1 rs2) rd (truncTo s.xlen (-1)) ∧
      Gives s (.remw rd rs1 rs2) rd (truncTo s.xlen (s.ix32 rs1))) ∧
    (s.ix32 rs1 = -(2 ^ 31) ∧ s.ix32 rs2 = -1 →
      Gives s (.divw rd rs1 rs2) rd (truncTo s.xlen (-(2 ^ 31))) ∧ Gives s (.remw rd rs1 rs2) rd 0)

/-- CZERO.EQZ and CZERO.NEZ (43_zicond.md R251, R252). -/
def Obligations.ConditionalZeroResults : Prop :=
  ∀ (s : State) (rd rs1 rs2 : Reg),
    (∃ t, exec (.czeroEqz rd rs1 rs2) s = .next t ∧
      WroteReg s t rd (if (s.x rs2).toNat = 0 then 0 else s.x rs1) 4) ∧
    (∃ t, exec (.czeroNez rd rs1 rs2) s = .next t ∧
      WroteReg s t rd (if (s.x rs2).toNat ≠ 0 then 0 else s.x rs1) 4)

/-! ### Instructions without a source: MOPs, hints, FENCE -/

/-- MOP.R.0 to MOP.R.31 and MOP.RR.0 to MOP.RR.7 write zero to rd and nothing else (45_zimop_zcmop.md R292, R293). -/
def Obligations.MopsWriteZero : Prop :=
  ∀ (s : State) (rd rs1 rs2 : Reg), ∀ i ∈ mopRForms rd rs1 ++ mopRRForms rd rs1 rs2,
    ∃ t, exec i s = .next t ∧ WroteReg s t rd 0 4

/-- C.MOP.1 to C.MOP.15, NTL, C.NTL, PAUSE, FENCE and the prefetches advance pc and do nothing else
(45_zimop_zcmop.md R297, 47_hints.md R352 to R359, R366, 48_cmo.md R389 to R391, 49_base_subset.md R429). -/
def Obligations.HintsOnlyAdvance : Prop :=
  ∀ (s : State) (rs1 rd : Reg) (imm : BitVec 7) (fm pred succ : BitVec 4),
    (∀ i ∈ idleForms16, ∃ t, exec i s = .next t ∧ OnlyAdvanced s t 2) ∧
    (∀ i ∈ .fence fm pred succ rs1 rd :: (idleForms32 ++ prefetchForms rs1 imm),
      ∃ t, exec i s = .next t ∧ OnlyAdvanced s t 4)

/-! ### Control transfer -/

/-- JAL, C.J, C.JAL to an aligned target; ELP stands (49_base_subset.md R421, R437, R438, 46_cfi.md R311). -/
def Obligations.DirectJumpsComplete : Prop :=
  ∀ (s : State) (rd : Reg) (i20 : BitVec 20) (i11 : BitVec 11),
    (s.targetOk (truncTo s.xlen ((s.pcv.toNat : Int) + 2 * i20.toInt)) →
      ∃ t, exec (.jal rd i20) s = .next t ∧
        Jumped s t (truncTo s.xlen ((s.pcv.toNat : Int) + 2 * i20.toInt)) rd (s.after 4) s.elp) ∧
    (s.targetOk (truncTo s.xlen ((s.pcv.toNat : Int) + 2 * i11.toInt)) →
      (∃ t, exec (.cJ i11) s = .next t ∧
        Jumped s t (truncTo s.xlen ((s.pcv.toNat : Int) + 2 * i11.toInt)) 0 0 s.elp) ∧
      (∃ t, exec (.cJal i11) s = .next t ∧
        Jumped s t (truncTo s.xlen ((s.pcv.toNat : Int) + 2 * i11.toInt)) 1 (s.after 2) s.elp))

/-- JALR, C.JR, C.JALR to an aligned target, bit 0 cleared, with the ELP update of 46_cfi.md R313
(49_base_subset.md R422, R435, R436). -/
def Obligations.IndirectJumpsComplete : Prop :=
  ∀ (s : State) (rd rs1 : Reg) (i12 : BitVec 12),
    (s.targetOk (truncTo s.xlen (2 * ((s.ux rs1 + i12.toInt) / 2))) →
      ∃ t, exec (.jalr rd rs1 i12) s = .next t ∧
        Jumped s t (truncTo s.xlen (2 * ((s.ux rs1 + i12.toInt) / 2))) rd (s.after 4) (s.elpNext rs1)) ∧
    (s.targetOk (truncTo s.xlen (2 * (s.ux rs1 / 2))) →
      (∃ t, exec (.cJr rs1) s = .next t ∧
        Jumped s t (truncTo s.xlen (2 * (s.ux rs1 / 2))) 0 0 (s.elpNext rs1)) ∧
      (∃ t, exec (.cJalr rs1) s = .next t ∧
        Jumped s t (truncTo s.xlen (2 * (s.ux rs1 / 2))) 1 (s.after 2) (s.elpNext rs1)))

/-- BEQ and BNE, taken to an aligned target or not taken (49_base_subset.md R423, R424). -/
def Obligations.BranchesComplete : Prop :=
  ∀ (s : State) (rs1 rs2 : Reg) (i12 : BitVec 12),
    (s.ux rs1 = s.ux rs2 →
      (s.targetOk (truncTo s.xlen ((s.pcv.toNat : Int) + 2 * i12.toInt)) →
        ∃ t, exec (.beq rs1 rs2 i12) s = .next t ∧
          Jumped s t (truncTo s.xlen ((s.pcv.toNat : Int) + 2 * i12.toInt)) 0 0 s.elp) ∧
      ∃ t, exec (.bne rs1 rs2 i12) s = .next t ∧ OnlyAdvanced s t 4) ∧
    (s.ux rs1 ≠ s.ux rs2 →
      (s.targetOk (truncTo s.xlen ((s.pcv.toNat : Int) + 2 * i12.toInt)) →
        ∃ t, exec (.bne rs1 rs2 i12) s = .next t ∧
          Jumped s t (truncTo s.xlen ((s.pcv.toNat : Int) + 2 * i12.toInt)) 0 0 s.elp) ∧
      ∃ t, exec (.beq rs1 rs2 i12) s = .next t ∧ OnlyAdvanced s t 4)

/-- A jump or a taken branch to a target that is not a multiple of IALIGN/8 traps with the target as trap value and
writes nothing; with Zca that cannot happen; a branch not taken never traps (49_base_subset.md R420). -/
def Obligations.MisalignedTargetTraps : Prop :=
  ∀ (s : State) (rd rs1 rs2 : Reg) (i20 : BitVec 20) (i12 : BitVec 12) (i11 : BitVec 11),
    (∀ p ∈ [(Instr.jal rd i20, truncTo s.xlen ((s.pcv.toNat : Int) + 2 * i20.toInt)),
      (.jalr rd rs1 i12, truncTo s.xlen (2 * ((s.ux rs1 + i12.toInt) / 2))),
      (if s.ux rs1 = s.ux rs2 then .beq rs1 rs2 i12 else .bne rs1 rs2 i12,
        truncTo s.xlen ((s.pcv.toNat : Int) + 2 * i12.toInt)),
      (.cJ i11, truncTo s.xlen ((s.pcv.toNat : Int) + 2 * i11.toInt)),
      (.cJal i11, truncTo s.xlen ((s.pcv.toNat : Int) + 2 * i11.toInt)),
      (.cJr rs1, truncTo s.xlen (2 * (s.ux rs1 / 2))), (.cJalr rs1, truncTo s.xlen (2 * (s.ux rs1 / 2)))],
      (¬ s.targetOk p.2 → ∃ t, exec p.1 s = .next t ∧ TookTrap s t .instrAddrMisaligned p.2) ∧
      (Inv s → s.cfg.ext.zca = true → s.targetOk p.2)) ∧
    ∃ t, exec (if s.ux rs1 = s.ux rs2 then .bne rs1 rs2 i12 else .beq rs1 rs2 i12) s = .next t ∧ OnlyAdvanced s t 4

/-! ### Loads and stores -/

/-- LW, and LD, C.LD, C.LDSP of RV64, aligned or supported and permitted (49_base_subset.md R425, R428, R440). -/
def Obligations.LoadsComplete : Prop :=
  ∀ (s : State) (rd rs1 : Reg) (i12 : BitVec 12) (rd' rs1' : BitVec 3) (o5 : BitVec 5) (o6 : BitVec 6),
    (s.alignmentOk (s.effAddr rs1 (immI s.xlen i12)) 4 →
      s.permitsAccess [.load] (s.effAddr rs1 (immI s.xlen i12)) 4 →
      ∃ t bs, exec (.lw rd rs1 i12) s = .next t ∧ s.mayLoadAll (s.effAddr rs1 (immI s.xlen i12)) 4 bs ∧
        WroteReg s t rd (truncTo s.xlen (signedVal 32 (leNat bs))) 4) ∧
    ∀ p ∈ [(Instr.ldRv64 rd rs1 i12, s.effAddr rs1 (immI s.xlen i12), rd, 4),
      (.cLdRv64 rd' rs1' o5, s.effAddr (cReg rs1') (offMem o5), cReg rd', 2),
      (.cLdspRv64 rd o6, s.effAddr 2 (offSp o6), rd, 2)],
      s.alignmentOk p.2.1 8 → s.permitsAccess [.load] p.2.1 8 →
      ∃ t bs, exec p.1 s = .next t ∧ s.mayLoadAll p.2.1 8 bs ∧
        WroteReg s t p.2.2.1 (truncTo s.xlen (leNat bs)) p.2.2.2

/-- SH, SW, and SD, C.SD, C.SDSP of RV64, aligned or supported and permitted (49_base_subset.md R426, R427, R428,
R440). -/
def Obligations.StoresComplete : Prop :=
  ∀ (s : State) (rs2 rs1 : Reg) (i12 : BitVec 12) (rs2' rs1' : BitVec 3) (o5 : BitVec 5) (o6 : BitVec 6),
    ∀ p ∈ [(Instr.sh rs2 rs1 i12, s.effAddr rs1 (immI s.xlen i12), 2, rs2, 4),
      (.sw rs2 rs1 i12, s.effAddr rs1 (immI s.xlen i12), 4, rs2, 4),
      (.sdRv64 rs2 rs1 i12, s.effAddr rs1 (immI s.xlen i12), 8, rs2, 4),
      (.cSdRv64 rs2' rs1' o5, s.effAddr (cReg rs1') (offMem o5), 8, cReg rs2', 2),
      (.cSdspRv64 rs2 o6, s.effAddr 2 (offSp o6), 8, rs2, 2)],
      s.alignmentOk p.2.1 p.2.2.1 → s.permitsAccess [.store] p.2.1 p.2.2.1 →
      ∃ t, exec p.1 s = .next t ∧ Stored s t p.2.1 p.2.2.1 (s.x p.2.2.2.1) p.2.2.2.2

/-- The same loads and stores misaligned or refused trap and write nothing (20_memory.md R76, R80, 60_exceptions.md R459).
Which refused byte of a misaligned access is reported is log 21's choice, the rank of the two page-faults log 16's. -/
def Obligations.LoadsAndStoresTrap : Prop :=
  ∀ (s : State) (rd rs1 : Reg) (i12 : BitVec 12) (rd' rs1' : BitVec 3) (o5 : BitVec 5) (o6 : BitVec 6),
    (∀ p ∈ [(Instr.lw rd rs1 i12, s.effAddr rs1 (immI s.xlen i12), 4),
      (.ldRv64 rd rs1 i12, s.effAddr rs1 (immI s.xlen i12), 8),
      (.cLdRv64 rd' rs1' o5, s.effAddr (cReg rs1') (offMem o5), 8),
      (.cLdspRv64 rd o6, s.effAddr 2 (offSp o6), 8)],
      AccessTraps s p.1 .load loadFault .loadAddrMisaligned p.2.1 p.2.2) ∧
    (∀ p ∈ [(Instr.sh rd rs1 i12, s.effAddr rs1 (immI s.xlen i12), 2),
      (.sw rd rs1 i12, s.effAddr rs1 (immI s.xlen i12), 4),
      (.sdRv64 rd rs1 i12, s.effAddr rs1 (immI s.xlen i12), 8),
      (.cSdRv64 rd' rs1' o5, s.effAddr (cReg rs1') (offMem o5), 8),
      (.cSdspRv64 rd o6, s.effAddr 2 (offSp o6), 8)],
      AccessTraps s p.1 .store storeFault .storeAddrMisaligned p.2.1 p.2.2)

/-! ### Register pairs -/

/-- LD, C.LDSP, C.LD on a pair, permitted: the low word to the even register, the high word to the odd one, nothing for
x0 (44_zilsd_zclsd.md R262 to R264, R266, R269). -/
def Obligations.PairLoadsComplete : Prop :=
  ∀ (s : State) (rd rs1 : Reg) (i12 : BitVec 12) (rd' rs1' : BitVec 3) (o5 : BitVec 5) (o6 : BitVec 6),
    ∀ p ∈ [(Instr.ldPair rd rs1 i12, s.effAddr rs1 (immI s.xlen i12), rd, 4),
      (.cLdPair rd' rs1' o5, s.effAddr (cReg rs1') (offMem o5), cReg rd', 2)] ++
      (if rd = 0 then [] else [(.cLdspPair rd o6, s.effAddr 2 (offSp o6), rd, 2)]),
      p.2.2.1.toNat % 2 = 0 → s.alignmentOk p.2.1 8 → s.pairPermits .load p.2.1 →
      ∃ t bs, exec p.1 s = .next t ∧ s.mayLoadAll p.2.1 8 bs ∧ PairLoaded s t p.2.2.1 bs p.2.2.2

/-- SD, C.SDSP, C.SD on a pair, permitted: the even register's word at the lower address, zeros for x0
(44_zilsd_zclsd.md R262, R263, R265, R267, R270). -/
def Obligations.PairStoresComplete : Prop :=
  ∀ (s : State) (rs2 rs1 : Reg) (i12 : BitVec 12) (rs2' rs1' : BitVec 3) (o5 : BitVec 5) (o6 : BitVec 6),
    ∀ p ∈ [(Instr.sdPair rs2 rs1 i12, s.effAddr rs1 (immI s.xlen i12), rs2, 4),
      (.cSdPair rs2' rs1' o5, s.effAddr (cReg rs1') (offMem o5), cReg rs2', 2),
      (.cSdspPair rs2 o6, s.effAddr 2 (offSp o6), rs2, 2)],
      p.2.2.1.toNat % 2 = 0 → s.alignmentOk p.2.1 8 → s.pairPermits .store p.2.1 →
      ∃ t, exec p.1 s = .next t ∧ Stored s t p.2.1 8 (s.pairOperand p.2.2.1) p.2.2.2

/-- A pair access refused however it is cut traps on a part that is refused, with that part's address and reason: a load
keeps its base register and memory, a store the registers; a byte or a register changes only where permitted parts other
than that one cover it (44_zilsd_zclsd.md R271, 60_exceptions.md R459, D16; log 20). -/
def Obligations.PairTrapsKeepTheBase : Prop :=
  ∀ (s : State) (rd rs1 : Reg) (i12 : BitVec 12) (rd' rs1' : BitVec 3) (o5 : BitVec 5) (o6 : BitVec 6),
    (∀ p ∈ [(Instr.ldPair rd rs1 i12, s.effAddr rs1 (immI s.xlen i12), rd, rs1),
      (.cLdPair rd' rs1' o5, s.effAddr (cReg rs1') (offMem o5), cReg rd', cReg rs1')] ++
      (if rd = 0 then [] else [(.cLdspPair rd o6, s.effAddr 2 (offSp o6), rd, 2)]),
      p.2.2.1.toNat % 2 = 0 → s.alignmentOk p.2.1 8 → s.pairRefused .load p.2.1 →
      ∃ t w i n, exec p.1 s = .next t ∧ PairLoadTrapped s t p.2.2.1 p.2.2.2 p.2.1 w i n) ∧
    (∀ p ∈ [(Instr.sdPair rd rs1 i12, s.effAddr rs1 (immI s.xlen i12), rd),
      (.cSdPair rd' rs1' o5, s.effAddr (cReg rs1') (offMem o5), cReg rd'),
      (.cSdspPair rd o6, s.effAddr 2 (offSp o6), rd)],
      p.2.2.toNat % 2 = 0 → s.alignmentOk p.2.1 8 → s.pairRefused .store p.2.1 →
      ∃ t w i n, exec p.1 s = .next t ∧ PairStoreTrapped s t p.2.1 (s.pairOperand p.2.2) w i n)

/-- An odd pair register, and x0 of C.LDSP, are reserved: illegal-instruction (44_zilsd_zclsd.md R261, R262; D14). A pair
access that is not 8-byte aligned traps where misaligned accesses are not supported (20_memory.md R78). -/
def Obligations.OddOrMisalignedPairTraps : Prop :=
  ∀ (s : State) (rd rs1 : Reg) (i12 : BitVec 12) (rd' rs1' : BitVec 3) (o5 : BitVec 5) (o6 : BitVec 6),
    (rd.toNat % 2 = 1 → ∀ i ∈ [Instr.ldPair rd rs1 i12, .sdPair rd rs1 i12, .cLdspPair rd o6, .cSdspPair rd o6],
      TookIllegal s (exec i s) .illegalInstruction i) ∧
    (rd'.toNat % 2 = 1 → ∀ i ∈ [Instr.cLdPair rd' rs1' o5, .cSdPair rd' rs1' o5],
      TookIllegal s (exec i s) .illegalInstruction i) ∧
    TookIllegal s (exec (.cLdspPair 0 o6) s) .illegalInstruction (.cLdspPair 0 o6) ∧
    ∀ p ∈ [(Instr.ldPair rd rs1 i12, s.effAddr rs1 (immI s.xlen i12), rd, Cause.loadAddrMisaligned),
      (.cLdPair rd' rs1' o5, s.effAddr (cReg rs1') (offMem o5), cReg rd', .loadAddrMisaligned),
      (.sdPair rd rs1 i12, s.effAddr rs1 (immI s.xlen i12), rd, .storeAddrMisaligned),
      (.cSdPair rd' rs1' o5, s.effAddr (cReg rs1') (offMem o5), cReg rd', .storeAddrMisaligned),
      (.cSdspPair rd o6, s.effAddr 2 (offSp o6), rd, .storeAddrMisaligned)] ++
      (if rd = 0 then [] else [(.cLdspPair rd o6, s.effAddr 2 (offSp o6), rd, .loadAddrMisaligned)]),
      p.2.2.1.toNat % 2 = 0 → ¬ s.alignmentOk p.2.1 8 →
      ∃ t, exec p.1 s = .next t ∧ TookTrap s t p.2.2.2 p.2.1

/-! ### CSR instructions -/

/-- The six CSR instructions on ssp, where the access is allowed (41_zicsr_counters.md R171 to R176, 10_state.md R45,
46_cfi.md R333). -/
def Obligations.CsrInstructionsOnSsp : Prop :=
  ∀ (s : State) (rd rs1 uimm : BitVec 5), s.cfg.ext.zicfiss = true → ¬ s.sseIllegal → ¬ s.sseVirtual →
    ∀ p ∈ [(Instr.csrrw rd rs1 0x011, s.x rs1), (.csrrs rd rs1 0x011, s.sspv ||| s.x rs1),
      (.csrrc rd rs1 0x011, s.sspv &&& ~~~(s.x rs1)), (.csrrwi rd uimm 0x011, uimm.setWidth 64),
      (.csrrsi rd uimm 0x011, s.sspv ||| uimm.setWidth 64),
      (.csrrci rd uimm 0x011, s.sspv &&& ~~~(uimm.setWidth 64))],
      ∃ t, exec p.1 s = .next t ∧ SspAccessed s t rd (sspHolds s.cfg p.2)

/-- A CSR that does not exist, a write to a read-only CSR, and a counter the environment prohibits raise
illegal-instruction and write nothing (41_zicsr_counters.md R178); an access to ssp below M-mode with the enables off
raises illegal-instruction or virtual-instruction (46_cfi.md R333). -/
def Obligations.RefusedCsrAccessTraps : Prop :=
  ∀ (s : State) (rd src : BitVec 5) (a : BitVec 12), ∀ i ∈ csrForms rd src a,
    (s.cfg.ext.zicfiss = true → a = 0x011 →
      (s.sseIllegal → TookIllegal s (exec i s) .illegalInstruction i) ∧
      (¬ s.sseIllegal → s.sseVirtual → TookIllegal s (exec i s) .virtualInstruction i)) ∧
    (¬ csrExists s.cfg a ∨ (csrWrites i ∧ 0xC00 ≤ a.toNat) ∨ (0xC00 ≤ a.toNat ∧ ¬ s.counterOpen (a.toNat % 32)) →
      TookIllegal s (exec i s) .illegalInstruction i)

/-- Reads of the counters, the low half and on RV32 the high half: instret as it is before the instruction itself; some
value of cycle or time, which is kept, and of time none below the one last read (10_state.md R43); a value below 2^width of
an implemented hpmcounter (41_zicsr_counters.md R181, R191, R201). Zero of an unimplemented one that does not trap is D12
(log 10); that a read in M-mode is always allowed is log 25. -/
def Obligations.CounterReads : Prop :=
  ∀ (s : State) (rd : Reg) (k : Nat), k < 32 → s.counterOpen k → (k < 3 → s.cfg.ext.zicntr = true) →
    (3 ≤ k → s.cfg.ext.zihpm = true) →
    ∀ hi : Bool, (hi = true → s.xlen = .rv32) →
    ∀ i ∈ csrReadForms rd (BitVec.ofNat 12 ((if hi then 0xC80 else 0xC00) + k)),
      (k = 0 → ∃ t, exec i s = .next t ∧ t.time = s.time ∧
        CounterRead s t rd (truncTo s.xlen ((t.cycle.toNat : Int) / (if hi then 2 ^ 32 else 1)))) ∧
      (k = 1 → ∃ t, exec i s = .next t ∧ t.cycle = s.cycle ∧ s.time ≤ t.time ∧
        CounterRead s t rd (truncTo s.xlen ((t.time.toNat : Int) / (if hi then 2 ^ 32 else 1)))) ∧
      (k = 2 → ∃ t, exec i s = .next t ∧
        WroteReg s t rd (truncTo s.xlen ((s.instret.toNat : Int) / (if hi then 2 ^ 32 else 1))) 4) ∧
      (3 ≤ k → (∀ w, (k, w) ∉ s.cfg.hpmCounters) → s.cfg.hpmUnimplFaults = false →
        ∃ t, exec i s = .next t ∧ WroteReg s t rd 0 4) ∧
      (3 ≤ k → ∀ w, (∀ w', (k, w') ∈ s.cfg.hpmCounters ↔ w' = w) →
        ∃ t v, exec i s = .next t ∧ v < 2 ^ w ∧
          WroteReg s t rd (truncTo s.xlen ((v : Int) / (if hi then 2 ^ 32 else 1))) 4)

/-! ### Landing pads -/

/-- LPAD: where a landing pad is required it checks pc and the label and clears ELP; elsewhere it does nothing
(46_cfi.md R316). -/
def Obligations.LpadChecksAndClears : Prop :=
  ∀ (s : State) (lpl : BitVec 20),
    (¬ (s.lpeActive ∧ s.elp = .expected) → ∃ t, exec (.lpad lpl) s = .next t ∧ OnlyAdvanced s t 4) ∧
    (s.lpeActive → s.elp = .expected →
      (s.pcv.toNat % 4 ≠ 0 ∨ (lpl.toNat ≠ 0 ∧ lpl.toNat ≠ (s.x 7).toNat / 2 ^ 12 % 2 ^ 20) →
        ∃ t, exec (.lpad lpl) s = .next t ∧ TookTrap s t .softwareCheck 2) ∧
      (s.pcv.toNat % 4 = 0 → lpl.toNat = 0 ∨ lpl.toNat = (s.x 7).toNat / 2 ^ 12 % 2 ^ 20 →
        ∃ t, exec (.lpad lpl) s = .next t ∧ Jumped s t (s.after 4) 0 0 .no))

/-- The landing-pad requirement at every step: where it holds, an instruction that is not an aligned LPAD with a
matching label raises software-check with trap value 2, and one that is clears ELP (46_cfi.md R315). -/
def Obligations.LandingPadIsRequired : Prop :=
  ∀ (s : State) (bytes : List Byte), s.trap = none → s.fetch = .ok bytes → s.lpeActive → s.elp = .expected →
    (s.pcv.toNat % 4 = 0 ∧ bytes.length = 4 ∧ leNat bytes % 2 ^ 12 = 0x017 ∧
        (leNat bytes / 2 ^ 12 = 0 ∨ leNat bytes / 2 ^ 12 = (s.x 7).toNat / 2 ^ 12 % 2 ^ 20) →
      ∃ t, step s = .next t ∧ Jumped s t (s.after 4) 0 0 .no) ∧
    (¬ (s.pcv.toNat % 4 = 0 ∧ bytes.length = 4 ∧ leNat bytes % 2 ^ 12 = 0x017 ∧
        (leNat bytes / 2 ^ 12 = 0 ∨ leNat bytes / 2 ^ 12 = (s.x 7).toNat / 2 ^ 12 % 2 ^ 20)) →
      ∃ t, step s = .next t ∧ TookTrap s t .softwareCheck 2)

/-! ### The shadow stack -/

/-- SSPUSH x1, SSPUSH x5 and C.SSPUSH x1, active and permitted: the register is stored below ssp and ssp lowered
(46_cfi.md R322, R323). `Cfg.wf` leaves out XLEN = 32 with `sxlenMayBe32` false, the model's choice (log 50). -/
def Obligations.ShadowStackPushes : Prop :=
  ∀ (s : State), s.cfg.wf = true → s.sseActive → s.alignmentOk s.belowSsp s.xlen.bytes →
    s.permitsAccess [.ssStore] s.belowSsp s.xlen.bytes →
    (∃ t, exec .sspushX1 s = .next t ∧ Pushed s t (s.x 1) 4) ∧
    (∃ t, exec .sspushX5 s = .next t ∧ Pushed s t (s.x 5) 4) ∧
    (∃ t, exec .cSspushX1 s = .next t ∧ Pushed s t (s.x 1) 2)

/-- SSPOPCHK x1, SSPOPCHK x5 and C.SSPOPCHK x5, active and permitted: ssp is raised where the loaded value equals the
register, else software-check with trap value 3 (46_cfi.md R325, R326). `Cfg.wf` as in `ShadowStackPushes` (log 50). -/
def Obligations.ShadowStackPopsAreChecked : Prop :=
  ∀ (s : State), s.cfg.wf = true → s.sseActive → s.alignmentOk s.sspv s.xlen.bytes →
    s.permitsAccess [.ssLoad] s.sspv s.xlen.bytes →
    ∀ p ∈ [(Instr.sspopchkX1, (1 : Reg), 4), (.sspopchkX5, 5, 4), (.cSspopchkX5, 5, 2)],
      ((∀ bs, s.mayLoadAll s.sspv s.xlen.bytes bs → leNat bs = (s.x p.2.1).toNat) →
        ∃ t, exec p.1 s = .next t ∧ Popped s t p.2.2) ∧
      ((∀ bs, s.mayLoadAll s.sspv s.xlen.bytes bs → leNat bs ≠ (s.x p.2.1).toNat) →
        ∃ t, exec p.1 s = .next t ∧ TookTrap s t .softwareCheck 3)

/-- Where the shadow stack is not active, SSPUSH, SSPOPCHK and their compressed forms do nothing and SSRDP reads zero;
where it is, SSRDP reads ssp (46_cfi.md R320, R327). -/
def Obligations.InactiveShadowStackRevertsToMops : Prop :=
  ∀ (s : State) (rd : Reg),
    (¬ s.sseActive →
      (∀ p ∈ [(Instr.sspushX1, 4), (.sspushX5, 4), (.cSspushX1, 2), (.sspopchkX1, 4), (.sspopchkX5, 4),
        (.cSspopchkX5, 2)], ∃ t, exec p.1 s = .next t ∧ OnlyAdvanced s t p.2) ∧
      ∃ t, exec (.ssrdp rd) s = .next t ∧ WroteReg s t rd 0 4) ∧
    (s.sseActive → ∃ t, exec (.ssrdp rd) s = .next t ∧ WroteReg s t rd s.sspv 4)

/-- A push or pop that is misaligned or refused traps and leaves ssp, registers and memory (20_memory.md R77, R80,
46_cfi.md R322, R325). The choices of log 21 and log 16 enter as for the ordinary accesses. -/
def Obligations.ShadowStackAccessTraps : Prop :=
  ∀ (s : State), s.sseActive →
    (∀ i ∈ [Instr.sspushX1, .sspushX5, .cSspushX1],
      AccessTraps s i .ssStore storeFault .storeAddrMisaligned s.belowSsp s.xlen.bytes) ∧
    (∀ i ∈ [Instr.sspopchkX1, .sspopchkX5, .cSspopchkX5],
      AccessTraps s i .ssLoad loadFault .loadAddrMisaligned s.sspv s.xlen.bytes)

/-- A push followed by the pop of the same register passes its check and restores ssp (46_cfi.md R337). `Cfg.wf`
as in `ShadowStackPushes` (log 50). -/
def Obligations.PushThenPopRestoresSsp : Prop :=
  ∀ (s : State), Inv s → s.cfg.wf = true → s.sseActive → s.alignmentOk s.belowSsp s.xlen.bytes →
    s.permitsAccess [.ssStore, .ssLoad] s.belowSsp s.xlen.bytes →
    ∀ p ∈ [(Instr.sspushX1, Instr.sspopchkX1), (.sspushX5, .sspopchkX5), (.sspushX5, .cSspopchkX5),
      (.cSspushX1, .sspopchkX1)],
      ∃ t u, exec p.1 s = .next t ∧ exec p.2 t = .next u ∧ u.trap = s.trap ∧ u.sspv = s.sspv ∧ RegsKept s u []

/-- SSAMOSWAP.W and SSAMOSWAP.D, allowed, aligned and permitted (46_cfi.md R328, R329). -/
def Obligations.ShadowStackSwapsComplete : Prop :=
  ∀ (s : State) (rd rs1 rs2 : Reg) (aq rl : Bool), s.swapOpen →
    ((s.x rs1).toNat % 4 = 0 → s.permits [.ssLoad, .ssStore] (s.addrs (s.x rs1) 4) →
      ∃ t bs, exec (.ssamoswapW rd rs1 rs2 aq rl) s = .next t ∧ s.mayLoadAll (s.x rs1) 4 bs ∧
        Swapped s t (s.x rs1) 4 (s.x rs2) rd (truncTo s.xlen (signedVal 32 (leNat bs)))) ∧
    ((s.x rs1).toNat % 8 = 0 → s.permits [.ssLoad, .ssStore] (s.addrs (s.x rs1) 8) →
      ∃ t bs, exec (.ssamoswapD rd rs1 rs2 aq rl) s = .next t ∧ s.mayLoadAll (s.x rs1) 8 bs ∧
        Swapped s t (s.x rs1) 8 (s.x rs2) rd (truncTo s.xlen (leNat bs)))

/-- The privilege check of SSAMOSWAP, in the order of its pseudocode (46_cfi.md R330). -/
def Obligations.ShadowStackSwapGate : Prop :=
  ∀ (s : State) (rd rs1 rs2 : Reg) (aq rl : Bool),
    ∀ i ∈ [Instr.ssamoswapW rd rs1 rs2 aq rl, .ssamoswapD rd rs1 rs2 aq rl],
      (s.sseIllegal ∨ s.cfg.sModeImplemented = false → TookIllegal s (exec i s) .illegalInstruction i) ∧
      (¬ s.sseIllegal → s.cfg.sModeImplemented = true → s.sseVirtual →
        TookIllegal s (exec i s) .virtualInstruction i)

/-- A misaligned or refused SSAMOSWAP traps with x[rs1] and writes nothing (20_memory.md R79, R80, 46_cfi.md R328). That
both kinds are asked, with store/AMO causes, is log 39's reading, the rank of the two page-faults log 16's choice. -/
def Obligations.ShadowStackSwapTraps : Prop :=
  ∀ (s : State) (rd rs1 rs2 : Reg) (aq rl : Bool), s.swapOpen →
    ∀ p ∈ [(Instr.ssamoswapW rd rs1 rs2 aq rl, 4), (.ssamoswapD rd rs1 rs2 aq rl, 8)],
      ((s.x rs1).toNat % p.2 ≠ 0 → ∃ t, exec p.1 s = .next t ∧ TookTrap s t
        (if s.cfg.misalignedAmoIsAccessFault then .storeAccessFault else .storeAddrMisaligned) (s.x rs1)) ∧
      (∀ w, (s.x rs1).toNat % p.2 = 0 → s.refuses [.ssLoad, .ssStore] (s.addrs (s.x rs1) p.2) w →
        ∃ t, exec p.1 s = .next t ∧ TookTrap s t (storeFault w) (s.x rs1))

/-! ### Cache-block operations -/

/-- The envcfg gates of the CBO instructions (48_cmo.md R373, R374, R375). -/
def Obligations.CboGates : Prop :=
  ∀ (s : State) (rs1 : Reg),
    (s.cbieIllegal → TookIllegal s (exec (.cboInval rs1) s) .illegalInstruction (.cboInval rs1)) ∧
    (¬ s.cbieIllegal → s.cbieVirtual → TookIllegal s (exec (.cboInval rs1) s) .virtualInstruction (.cboInval rs1)) ∧
    (∀ i ∈ [Instr.cboClean rs1, .cboFlush rs1],
      (s.bitIllegal EnvCfg.cbcfe → TookIllegal s (exec i s) .illegalInstruction i) ∧
      (¬ s.bitIllegal EnvCfg.cbcfe → s.bitVirtual EnvCfg.cbcfe → TookIllegal s (exec i s) .virtualInstruction i)) ∧
    (s.bitIllegal EnvCfg.cbze → TookIllegal s (exec (.cboZero rs1) s) .illegalInstruction (.cboZero rs1)) ∧
    (¬ s.bitIllegal EnvCfg.cbze → s.bitVirtual EnvCfg.cbze →
      TookIllegal s (exec (.cboZero rs1) s) .virtualInstruction (.cboZero rs1))

/-- CBO.CLEAN and CBO.FLUSH, enabled and permitted: the block's copies are cleaned, or cleaned and invalidated, and
nothing else changes (48_cmo.md R380, R383, R384). -/
def Obligations.CleanAndFlushComplete : Prop :=
  ∀ (s : State) (rs1 : Reg), Inv s → s.cfg.wf = true → ¬ s.bitIllegal EnvCfg.cbcfe → ¬ s.bitVirtual EnvCfg.cbcfe →
    s.manageOk rs1 →
    (∃ t, exec (.cboFlush rs1) s = .next t ∧ Managed s t rs1 ∧
      ∀ a, s.inBlock (cbomBlock s.cfg) rs1 a → t.cacheAt a = { valid := false, may := s.cleanedMay a }) ∧
    (∃ t, exec (.cboClean rs1) s = .next t ∧ Managed s t rs1 ∧
      ∀ a, s.inBlock (cbomBlock s.cfg) rs1 a → (t.cacheAt a).may = s.cleanedMay a ∧
        ((t.cacheAt a).valid = (s.cacheAt a).valid ∨
          s.cfg.hasNonCoherentAgents = true ∧ (t.cacheAt a).valid = false))

/-- CBO.INVAL, enabled and permitted: the block's copies are invalidated; each byte's `may` is as it was, or as after a
clean, which it is for certain where CBIE selects a flush (48_cmo.md R373, R380, R386). -/
def Obligations.InvalidateCompletes : Prop :=
  ∀ (s : State) (rs1 : Reg), Inv s → s.cfg.wf = true → ¬ s.cbieIllegal → ¬ s.cbieVirtual → s.manageOk rs1 →
    ∃ t, exec (.cboInval rs1) s = .next t ∧ Managed s t rs1 ∧
      ∀ a, s.inBlock (cbomBlock s.cfg) rs1 a → (t.cacheAt a).valid = false ∧
        ((t.cacheAt a).may = s.cleanedMay a ∨ ¬ s.cbieFlush ∧ (t.cacheAt a).may = (s.cacheAt a).may)

/-- CBO.ZERO, enabled and permitted: every byte of the block is zero, its copy valid, and zero joins what a later load
after an invalidate, and a fetch, may see of it; nothing else changes (48_cmo.md R380, R387, 20_memory.md R102). -/
def Obligations.CboZeroCompletes : Prop :=
  ∀ (s : State) (rs1 : Reg), s.cfg.wf = true → ¬ s.bitIllegal EnvCfg.cbze → ¬ s.bitVirtual EnvCfg.cbze →
    s.blockUniform (s.blockAddrs (cbozBlock s.cfg) (s.x rs1)) = true →
    s.permits [.store, .cboZero] (s.blockAddrs (cbozBlock s.cfg) (s.x rs1)) →
    ∃ t, exec (.cboZero rs1) s = .next t ∧ Completed s t (s.after 4) ∧ RegsKept s t [] ∧ SpecialKept s t ∧
      (∀ a, s.inBlock (cbozBlock s.cfg) rs1 a → t.byteAt a = 0) ∧
      (∀ a, ¬ s.inBlock (cbozBlock s.cfg) rs1 a → t.byteAt a = s.byteAt a ∧ t.cacheAt a = s.cacheAt a) ∧
      CachesKept s t (s.blockAddrs (cbozBlock s.cfg) (s.x rs1)) ∧
      (Inv s → StoreSeen s t (s.byteAddr (blockBase (cbozBlock s.cfg) (s.x rs1))) (cbozBlock s.cfg) fun _ => 0)

/-- After a flush, a clean, or an invalidate that CBIE turns into a flush, every load and every fetch may return only what
it might before: without non-coherent agents none of them is visible to the hart (48_cmo.md R380, R383, R384, R386). -/
def Obligations.FlushIsInvisibleToLoads : Prop :=
  ∀ (s t : State) (i : Instr) (rs1 : Reg), Inv s → s.cfg.hasNonCoherentAgents = false →
    i = .cboFlush rs1 ∨ i = .cboClean rs1 ∨ (i = .cboInval rs1 ∧ s.cbieFlush) → exec i s = .next t →
    (∀ a b, t.mayLoad a b → s.mayLoad a b) ∧ (∀ a c, t.mayFetch a c → s.mayFetch a c) ∧
    ∀ u v, t.mayFetchUnit u v → s.mayFetchUnit u v

/-- A CBO refused everything traps with x[rs1], unrounded, as trap value (48_cmo.md R382, R385, 60_exceptions.md R459); on a
block whose protection is not uniform it stops (48_cmo.md R377; log 17). Mixed reasons are log 36, the kinds CBO.ZERO asks
for log 35, the rank of the two page-faults log 16. -/
def Obligations.RefusedCboTraps : Prop :=
  ∀ (s : State) (rs1 : Reg),
    (∀ p ∈ [(Instr.cboInval rs1, ¬ s.cbieIllegal ∧ ¬ s.cbieVirtual),
      (.cboClean rs1, ¬ s.bitIllegal EnvCfg.cbcfe ∧ ¬ s.bitVirtual EnvCfg.cbcfe),
      (.cboFlush rs1, ¬ s.bitIllegal EnvCfg.cbcfe ∧ ¬ s.bitVirtual EnvCfg.cbcfe)], p.2 →
      (s.blockUniform (s.blockAddrs (cbomBlock s.cfg) (s.x rs1)) = false →
        exec p.1 s = .fault .cboBlockNotUniform) ∧
      (s.blockUniform (s.blockAddrs (cbomBlock s.cfg) (s.x rs1)) = true →
        (∀ k ∈ [AccessKind.load, .store, .fetch],
          ¬ s.permits [k] (s.blockAddrs (cbomBlock s.cfg) (s.x rs1))) →
        ∃ t w, exec p.1 s = .next t ∧ TookTrap s t (storeFault w) (s.x rs1) ∧
          ∀ v, (∀ k ∈ [AccessKind.load, .store, .fetch],
            s.refuses [k] (s.blockAddrs (cbomBlock s.cfg) (s.x rs1)) v) → w = v)) ∧
    (¬ s.bitIllegal EnvCfg.cbze → ¬ s.bitVirtual EnvCfg.cbze →
      (s.blockUniform (s.blockAddrs (cbozBlock s.cfg) (s.x rs1)) = false →
        exec (.cboZero rs1) s = .fault .cboBlockNotUniform) ∧
      (∀ w, s.blockUniform (s.blockAddrs (cbozBlock s.cfg) (s.x rs1)) = true →
        s.refuses [.store, .cboZero] (s.blockAddrs (cbozBlock s.cfg) (s.x rs1)) w →
        ∃ t, exec (.cboZero rs1) s = .next t ∧ TookTrap s t (storeFault w) (s.x rs1)))

/-! ### Calls and breakpoints -/

/-- ECALL, EBREAK and C.EBREAK take their exceptions (49_base_subset.md R430, R439, 60_exceptions.md R451). -/
def Obligations.CallsAndBreakpointsTrap : Prop :=
  ∀ (s : State),
    (∃ t, exec .ecall s = .next t ∧ TookTrap s t
      (match s.env.priv with | .m => .ecallM | .s => .ecallS | .vs => .ecallVS | .u => .ecallU | .vu => .ecallU) 0) ∧
    (∀ i ∈ [Instr.ebreak, .cEbreak], ∃ t tval, exec i s = .next t ∧ (tval = s.pcv ∨ tval = 0) ∧
      TookTrap s t .breakpoint tval)
end

