-- ==== Sys2Proof/Laws/Decode.lean ====
section
/-! SUPPORT. Bit fields of concatenations, the opcode and the register fields of the encoding formats, and the bytes of a
word put together again. -/

namespace Sys2Proof

theorem extractLsb'_append_low {n m : Nat} (x : BitVec n) (y : BitVec m) (st len : Nat) (h : st + len ≤ m) :
    BitVec.extractLsb' st len (x ++ y) = y.extractLsb' st len := by
  ext i hi
  have h1 : st + i < m := by omega
  simp [BitVec.getLsbD_append, h1]

theorem extractLsb'_append_high {n m : Nat} (x : BitVec n) (y : BitVec m) (st len : Nat) (h : m ≤ st) :
    BitVec.extractLsb' st len (x ++ y) = x.extractLsb' (st - m) len := by
  ext i hi
  have h1 : ¬ (st + i < m) := by omega
  have h2 : st + i - m = st - m + i := by omega
  simp [BitVec.getLsbD_append, h1, h2]

/-! ### The opcode of each format -/

@[simp] theorem fOpcode_encR (f7 : BitVec 7) (rs2 rs1 : Reg) (f3 : BitVec 3) (rd : Reg) (op : BitVec 7) : fOpcode (encR f7 rs2 rs1 f3 rd op) = op := by
  unfold fOpcode encR
  erw [extractLsb'_append_low _ _ _ _ (by omega)]
  simp

@[simp] theorem fOpcode_encI (imm : BitVec 12) (rs1 : Reg) (f3 : BitVec 3) (rd : Reg) (op : BitVec 7) : fOpcode (encI imm rs1 f3 rd op) = op := by
  unfold fOpcode encI
  erw [extractLsb'_append_low _ _ _ _ (by omega)]
  simp

@[simp] theorem fOpcode_encS (imm : BitVec 12) (rs2 rs1 : Reg) (f3 : BitVec 3) (op : BitVec 7) : fOpcode (encS imm rs2 rs1 f3 op) = op := by
  unfold fOpcode encS
  erw [extractLsb'_append_low _ _ _ _ (by omega)]
  simp

@[simp] theorem fOpcode_encU (imm : BitVec 20) (rd : Reg) (op : BitVec 7) : fOpcode (encU imm rd op) = op := by
  unfold fOpcode encU
  erw [extractLsb'_append_low _ _ _ _ (by omega)]
  simp

@[simp] theorem fOpcode_encB (imm : BitVec 12) (rs2 rs1 : Reg) (f3 : BitVec 3) : fOpcode (encB imm rs2 rs1 f3) = opBranch := by
  unfold fOpcode encB
  erw [extractLsb'_append_low _ _ _ _ (by omega)]
  simp

@[simp] theorem fOpcode_encJ (imm : BitVec 20) (rd : Reg) : fOpcode (encJ imm rd) = opJal := by
  unfold fOpcode encJ
  erw [extractLsb'_append_low _ _ _ _ (by omega)]
  simp

@[simp] theorem fOpcode_encAmo (f5 : BitVec 5) (aq rl : Bool) (rs2 rs1 : Reg) (f3 : BitVec 3) (rd : Reg) : fOpcode (encAmo f5 aq rl rs2 rs1 f3 rd) = opAmo := by
  unfold fOpcode encAmo
  erw [extractLsb'_append_low _ _ _ _ (by omega)]
  simp

@[simp] theorem fOpcode_encFence (fm pred succ : BitVec 4) (rs1 rd : Reg) : fOpcode (encFence fm pred succ rs1 rd) = opMiscMem := by
  unfold fOpcode encFence
  erw [extractLsb'_append_low _ _ _ _ (by omega)]
  simp

@[simp] theorem fOpcode_encMopR (n rs1 rd : BitVec 5) : fOpcode (encMopR n rs1 rd) = opSystem := by
  unfold fOpcode encMopR
  erw [extractLsb'_append_low _ _ _ _ (by omega)]
  simp

@[simp] theorem fOpcode_encMopRR (n : BitVec 3) (rs2 rs1 rd : Reg) : fOpcode (encMopRR n rs2 rs1 rd) = opSystem := by
  unfold fOpcode encMopRR
  erw [extractLsb'_append_low _ _ _ _ (by omega)]
  simp

@[simp] theorem cOp_encCR (f4 : BitVec 4) (rd rs2 : Reg) (op : BitVec 2) : cOp (encCR f4 rd rs2 op) = op := by
  unfold cOp encCR
  erw [extractLsb'_append_low _ _ _ _ (by omega)]
  simp

@[simp] theorem cOp_encCI (f3 : BitVec 3) (rd : Reg) (imm : BitVec 6) (op : BitVec 2) : cOp (encCI f3 rd imm op) = op := by
  unfold cOp encCI
  erw [extractLsb'_append_low _ _ _ _ (by omega)]
  simp

@[simp] theorem cOp_encCLdsp (rd : Reg) (off : BitVec 6) : cOp (encCLdsp rd off) = 2 := by
  unfold cOp encCLdsp
  erw [extractLsb'_append_low _ _ _ _ (by omega)]
  simp

@[simp] theorem cOp_encCSdsp (rs2 : Reg) (off : BitVec 6) : cOp (encCSdsp rs2 off) = 2 := by
  unfold cOp encCSdsp
  erw [extractLsb'_append_low _ _ _ _ (by omega)]
  simp

@[simp] theorem cOp_encCMem (f3 : BitVec 3) (off : BitVec 5) (rs1 rd : BitVec 3) : cOp (encCMem f3 off rs1 rd) = 0 := by
  unfold cOp encCMem
  erw [extractLsb'_append_low _ _ _ _ (by omega)]
  simp

@[simp] theorem cOp_encCAddi16sp (imm : BitVec 6) : cOp (encCAddi16sp imm) = 1 := by
  unfold cOp encCAddi16sp
  erw [extractLsb'_append_low _ _ _ _ (by omega)]
  simp

@[simp] theorem cOp_encCJ (f3 : BitVec 3) (off : BitVec 11) : cOp (encCJ f3 off) = 1 := by
  unfold cOp encCJ
  erw [extractLsb'_append_low _ _ _ _ (by omega)]
  simp

/-! ### The register and function fields -/

@[simp] theorem fRd_encR (f7 : BitVec 7) (rs2 rs1 : Reg) (f3 : BitVec 3) (rd : Reg) (op : BitVec 7) : fRd (encR f7 rs2 rs1 f3 rd op) = rd := by
  unfold fRd encR
  iterate 1 erw [extractLsb'_append_high _ _ _ _ (by omega)]
  erw [extractLsb'_append_low _ _ _ _ (by omega)]
  simp

@[simp] theorem fFunct3_encR (f7 : BitVec 7) (rs2 rs1 : Reg) (f3 : BitVec 3) (rd : Reg) (op : BitVec 7) : fFunct3 (encR f7 rs2 rs1 f3 rd op) = f3 := by
  unfold fFunct3 encR
  iterate 2 erw [extractLsb'_append_high _ _ _ _ (by omega)]
  erw [extractLsb'_append_low _ _ _ _ (by omega)]
  simp

@[simp] theorem fRs1_encR (f7 : BitVec 7) (rs2 rs1 : Reg) (f3 : BitVec 3) (rd : Reg) (op : BitVec 7) : fRs1 (encR f7 rs2 rs1 f3 rd op) = rs1 := by
  unfold fRs1 encR
  iterate 3 erw [extractLsb'_append_high _ _ _ _ (by omega)]
  erw [extractLsb'_append_low _ _ _ _ (by omega)]
  simp

@[simp] theorem fRs2_encR (f7 : BitVec 7) (rs2 rs1 : Reg) (f3 : BitVec 3) (rd : Reg) (op : BitVec 7) : fRs2 (encR f7 rs2 rs1 f3 rd op) = rs2 := by
  unfold fRs2 encR
  iterate 4 erw [extractLsb'_append_high _ _ _ _ (by omega)]
  erw [extractLsb'_append_low _ _ _ _ (by omega)]
  simp

@[simp] theorem fFunct7_encR (f7 : BitVec 7) (rs2 rs1 : Reg) (f3 : BitVec 3) (rd : Reg) (op : BitVec 7) : fFunct7 (encR f7 rs2 rs1 f3 rd op) = f7 := by
  unfold fFunct7 encR
  iterate 5 erw [extractLsb'_append_high _ _ _ _ (by omega)]
  simp

@[simp] theorem fRd_encI (imm : BitVec 12) (rs1 : Reg) (f3 : BitVec 3) (rd : Reg) (op : BitVec 7) : fRd (encI imm rs1 f3 rd op) = rd := by
  unfold fRd encI
  iterate 1 erw [extractLsb'_append_high _ _ _ _ (by omega)]
  erw [extractLsb'_append_low _ _ _ _ (by omega)]
  simp

@[simp] theorem fFunct3_encI (imm : BitVec 12) (rs1 : Reg) (f3 : BitVec 3) (rd : Reg) (op : BitVec 7) : fFunct3 (encI imm rs1 f3 rd op) = f3 := by
  unfold fFunct3 encI
  iterate 2 erw [extractLsb'_append_high _ _ _ _ (by omega)]
  erw [extractLsb'_append_low _ _ _ _ (by omega)]
  simp

@[simp] theorem fRs1_encI (imm : BitVec 12) (rs1 : Reg) (f3 : BitVec 3) (rd : Reg) (op : BitVec 7) : fRs1 (encI imm rs1 f3 rd op) = rs1 := by
  unfold fRs1 encI
  iterate 3 erw [extractLsb'_append_high _ _ _ _ (by omega)]
  erw [extractLsb'_append_low _ _ _ _ (by omega)]
  simp

@[simp] theorem fFunct12_encI (imm : BitVec 12) (rs1 : Reg) (f3 : BitVec 3) (rd : Reg) (op : BitVec 7) : fFunct12 (encI imm rs1 f3 rd op) = imm := by
  unfold fFunct12 encI
  iterate 4 erw [extractLsb'_append_high _ _ _ _ (by omega)]
  simp

@[simp] theorem fFunct3_encS (imm : BitVec 12) (rs2 rs1 : Reg) (f3 : BitVec 3) (op : BitVec 7) : fFunct3 (encS imm rs2 rs1 f3 op) = f3 := by
  unfold fFunct3 encS
  iterate 2 erw [extractLsb'_append_high _ _ _ _ (by omega)]
  erw [extractLsb'_append_low _ _ _ _ (by omega)]
  simp

@[simp] theorem fRs1_encS (imm : BitVec 12) (rs2 rs1 : Reg) (f3 : BitVec 3) (op : BitVec 7) : fRs1 (encS imm rs2 rs1 f3 op) = rs1 := by
  unfold fRs1 encS
  iterate 3 erw [extractLsb'_append_high _ _ _ _ (by omega)]
  erw [extractLsb'_append_low _ _ _ _ (by omega)]
  simp

@[simp] theorem fRs2_encS (imm : BitVec 12) (rs2 rs1 : Reg) (f3 : BitVec 3) (op : BitVec 7) : fRs2 (encS imm rs2 rs1 f3 op) = rs2 := by
  unfold fRs2 encS
  iterate 4 erw [extractLsb'_append_high _ _ _ _ (by omega)]
  erw [extractLsb'_append_low _ _ _ _ (by omega)]
  simp

@[simp] theorem fRd_encU (imm : BitVec 20) (rd : Reg) (op : BitVec 7) : fRd (encU imm rd op) = rd := by
  unfold fRd encU
  iterate 1 erw [extractLsb'_append_high _ _ _ _ (by omega)]
  erw [extractLsb'_append_low _ _ _ _ (by omega)]
  simp

@[simp] theorem fImm20_encU (imm : BitVec 20) (rd : Reg) (op : BitVec 7) : fImm20 (encU imm rd op) = imm := by
  unfold fImm20 encU
  iterate 2 erw [extractLsb'_append_high _ _ _ _ (by omega)]
  simp

@[simp] theorem fFunct3_encB (imm : BitVec 12) (rs2 rs1 : Reg) (f3 : BitVec 3) : fFunct3 (encB imm rs2 rs1 f3) = f3 := by
  unfold fFunct3 encB
  iterate 3 erw [extractLsb'_append_high _ _ _ _ (by omega)]
  erw [extractLsb'_append_low _ _ _ _ (by omega)]
  simp

@[simp] theorem fRs1_encB (imm : BitVec 12) (rs2 rs1 : Reg) (f3 : BitVec 3) : fRs1 (encB imm rs2 rs1 f3) = rs1 := by
  unfold fRs1 encB
  iterate 4 erw [extractLsb'_append_high _ _ _ _ (by omega)]
  erw [extractLsb'_append_low _ _ _ _ (by omega)]
  simp

@[simp] theorem fRs2_encB (imm : BitVec 12) (rs2 rs1 : Reg) (f3 : BitVec 3) : fRs2 (encB imm rs2 rs1 f3) = rs2 := by
  unfold fRs2 encB
  iterate 5 erw [extractLsb'_append_high _ _ _ _ (by omega)]
  erw [extractLsb'_append_low _ _ _ _ (by omega)]
  simp

@[simp] theorem fRd_encJ (imm : BitVec 20) (rd : Reg) : fRd (encJ imm rd) = rd := by
  unfold fRd encJ
  iterate 1 erw [extractLsb'_append_high _ _ _ _ (by omega)]
  erw [extractLsb'_append_low _ _ _ _ (by omega)]
  simp

@[simp] theorem fRd_encAmo (f5 : BitVec 5) (aq rl : Bool) (rs2 rs1 : Reg) (f3 : BitVec 3) (rd : Reg) : fRd (encAmo f5 aq rl rs2 rs1 f3 rd) = rd := by
  unfold fRd encAmo
  iterate 1 erw [extractLsb'_append_high _ _ _ _ (by omega)]
  erw [extractLsb'_append_low _ _ _ _ (by omega)]
  simp

@[simp] theorem fFunct3_encAmo (f5 : BitVec 5) (aq rl : Bool) (rs2 rs1 : Reg) (f3 : BitVec 3) (rd : Reg) : fFunct3 (encAmo f5 aq rl rs2 rs1 f3 rd) = f3 := by
  unfold fFunct3 encAmo
  iterate 2 erw [extractLsb'_append_high _ _ _ _ (by omega)]
  erw [extractLsb'_append_low _ _ _ _ (by omega)]
  simp

@[simp] theorem fRs1_encAmo (f5 : BitVec 5) (aq rl : Bool) (rs2 rs1 : Reg) (f3 : BitVec 3) (rd : Reg) : fRs1 (encAmo f5 aq rl rs2 rs1 f3 rd) = rs1 := by
  unfold fRs1 encAmo
  iterate 3 erw [extractLsb'_append_high _ _ _ _ (by omega)]
  erw [extractLsb'_append_low _ _ _ _ (by omega)]
  simp

@[simp] theorem fRs2_encAmo (f5 : BitVec 5) (aq rl : Bool) (rs2 rs1 : Reg) (f3 : BitVec 3) (rd : Reg) : fRs2 (encAmo f5 aq rl rs2 rs1 f3 rd) = rs2 := by
  unfold fRs2 encAmo
  iterate 4 erw [extractLsb'_append_high _ _ _ _ (by omega)]
  erw [extractLsb'_append_low _ _ _ _ (by omega)]
  simp

@[simp] theorem fRd_encFence (fm pred succ : BitVec 4) (rs1 rd : Reg) : fRd (encFence fm pred succ rs1 rd) = rd := by
  unfold fRd encFence
  iterate 1 erw [extractLsb'_append_high _ _ _ _ (by omega)]
  erw [extractLsb'_append_low _ _ _ _ (by omega)]
  simp

@[simp] theorem fFunct3_encFence (fm pred succ : BitVec 4) (rs1 rd : Reg) : fFunct3 (encFence fm pred succ rs1 rd) = 0 := by
  unfold fFunct3 encFence
  iterate 2 erw [extractLsb'_append_high _ _ _ _ (by omega)]
  erw [extractLsb'_append_low _ _ _ _ (by omega)]
  simp

@[simp] theorem fRs1_encFence (fm pred succ : BitVec 4) (rs1 rd : Reg) : fRs1 (encFence fm pred succ rs1 rd) = rs1 := by
  unfold fRs1 encFence
  iterate 3 erw [extractLsb'_append_high _ _ _ _ (by omega)]
  erw [extractLsb'_append_low _ _ _ _ (by omega)]
  simp

@[simp] theorem fRd_encMopR (n rs1 rd : BitVec 5) : fRd (encMopR n rs1 rd) = rd := by
  unfold fRd encMopR
  iterate 1 erw [extractLsb'_append_high _ _ _ _ (by omega)]
  erw [extractLsb'_append_low _ _ _ _ (by omega)]
  simp

@[simp] theorem fFunct3_encMopR (n rs1 rd : BitVec 5) : fFunct3 (encMopR n rs1 rd) = 4 := by
  unfold fFunct3 encMopR
  iterate 2 erw [extractLsb'_append_high _ _ _ _ (by omega)]
  erw [extractLsb'_append_low _ _ _ _ (by omega)]
  simp

@[simp] theorem fRs1_encMopR (n rs1 rd : BitVec 5) : fRs1 (encMopR n rs1 rd) = rs1 := by
  unfold fRs1 encMopR
  iterate 3 erw [extractLsb'_append_high _ _ _ _ (by omega)]
  erw [extractLsb'_append_low _ _ _ _ (by omega)]
  simp

@[simp] theorem fRd_encMopRR (n : BitVec 3) (rs2 rs1 rd : Reg) : fRd (encMopRR n rs2 rs1 rd) = rd := by
  unfold fRd encMopRR
  iterate 1 erw [extractLsb'_append_high _ _ _ _ (by omega)]
  erw [extractLsb'_append_low _ _ _ _ (by omega)]
  simp

@[simp] theorem fFunct3_encMopRR (n : BitVec 3) (rs2 rs1 rd : Reg) : fFunct3 (encMopRR n rs2 rs1 rd) = 4 := by
  unfold fFunct3 encMopRR
  iterate 2 erw [extractLsb'_append_high _ _ _ _ (by omega)]
  erw [extractLsb'_append_low _ _ _ _ (by omega)]
  simp

@[simp] theorem fRs1_encMopRR (n : BitVec 3) (rs2 rs1 rd : Reg) : fRs1 (encMopRR n rs2 rs1 rd) = rs1 := by
  unfold fRs1 encMopRR
  iterate 3 erw [extractLsb'_append_high _ _ _ _ (by omega)]
  erw [extractLsb'_append_low _ _ _ _ (by omega)]
  simp

@[simp] theorem fRs2_encMopRR (n : BitVec 3) (rs2 rs1 rd : Reg) : fRs2 (encMopRR n rs2 rs1 rd) = rs2 := by
  unfold fRs2 encMopRR
  iterate 4 erw [extractLsb'_append_high _ _ _ _ (by omega)]
  erw [extractLsb'_append_low _ _ _ _ (by omega)]
  simp

/-! ### Bytes -/

/-- The length bit pair of a word is that of its first byte. -/
theorem isLongByte_of_op (w : BitVec 32) (h : (fOpcode w).extractLsb' 0 2 = 3) :
    isLongByte (w.extractLsb' 0 8) = true := by
  have : (w.extractLsb' 0 8).extractLsb' 0 2 = (fOpcode w).extractLsb' 0 2 := by
    unfold fOpcode; ext i hi
    simp
  simp [isLongByte, this, h]

/-- The same of a parcel, whose quadrant is not 11. -/
theorem isLongByte_of_cOp (v : BitVec 16) (h : cOp v ≠ 3) : isLongByte (v.extractLsb' 0 8) = false := by
  have : (v.extractLsb' 0 8).extractLsb' 0 2 = cOp v := by
    unfold cOp; ext i hi
    simp
  simp only [isLongByte, this]
  simpa using h

/-- Adjacent fields make the field that spans them. -/
theorem extractLsb'_append_adjacent {k : Nat} (w : BitVec k) (st n m : Nat) :
    w.extractLsb' (st + m) n ++ w.extractLsb' st m = w.extractLsb' st (n + m) := by
  ext i hi
  simp only [BitVec.getElem_append, BitVec.getElem_extractLsb']
  split
  · rfl
  · congr 1; omega

/-- The bytes of a word make the word. -/
theorem wordOf_bytes (w : BitVec 32) :
    wordOf (w.extractLsb' 0 8) (w.extractLsb' 8 8) (w.extractLsb' 16 8) (w.extractLsb' 24 8) = w := by
  unfold wordOf
  rw [extractLsb'_append_adjacent w 16 8 8, extractLsb'_append_adjacent w 8 16 8,
    extractLsb'_append_adjacent w 0 24 8]
  simp

/-- The bytes of a parcel make the parcel. -/
theorem parcelOf_bytes (h : BitVec 16) : parcelOf (h.extractLsb' 0 8) (h.extractLsb' 8 8) = h := by
  unfold parcelOf
  rw [extractLsb'_append_adjacent h 0 8 8]
  simp

end Sys2Proof
end

