-- ==== Sys2Proof/Laws/State.lean ====
section
/-! SUPPORT. One lemma per field of `State` per update, each true by `rfl`, and what the register accessors read after
an update, so that no later proof unfolds a record update. -/

namespace Sys2Proof.Machine

/-! ### `setX` -/

@[simp] theorem State.setX_cfg (s : State) (r : Reg) (v : Word) : (s.setX r v).cfg = s.cfg := rfl
@[simp] theorem State.setX_env (s : State) (r : Reg) (v : Word) : (s.setX r v).env = s.env := rfl
@[simp] theorem State.setX_pc (s : State) (r : Reg) (v : Word) : (s.setX r v).pc = s.pc := rfl
@[simp] theorem State.setX_ssp (s : State) (r : Reg) (v : Word) : (s.setX r v).ssp = s.ssp := rfl
@[simp] theorem State.setX_elp (s : State) (r : Reg) (v : Word) : (s.setX r v).elp = s.elp := rfl
@[simp] theorem State.setX_instret (s : State) (r : Reg) (v : Word) : (s.setX r v).instret = s.instret := rfl
@[simp] theorem State.setX_cycle (s : State) (r : Reg) (v : Word) : (s.setX r v).cycle = s.cycle := rfl
@[simp] theorem State.setX_time (s : State) (r : Reg) (v : Word) : (s.setX r v).time = s.time := rfl
@[simp] theorem State.setX_mem (s : State) (r : Reg) (v : Word) : (s.setX r v).mem = s.mem := rfl
@[simp] theorem State.setX_cache (s : State) (r : Reg) (v : Word) : (s.setX r v).cache = s.cache := rfl
@[simp] theorem State.setX_fetchView (s : State) (r : Reg) (v : Word) : (s.setX r v).fetchView = s.fetchView := rfl
@[simp] theorem State.setX_trap (s : State) (r : Reg) (v : Word) : (s.setX r v).trap = s.trap := rfl
@[simp] theorem State.setX_tick (s : State) (r : Reg) (v : Word) : (s.setX r v).tick = s.tick := rfl

/-! ### `setSsp` -/

@[simp] theorem State.setSsp_cfg (s : State) (v : Word) : (s.setSsp v).cfg = s.cfg := rfl
@[simp] theorem State.setSsp_env (s : State) (v : Word) : (s.setSsp v).env = s.env := rfl
@[simp] theorem State.setSsp_regs (s : State) (v : Word) : (s.setSsp v).regs = s.regs := rfl
@[simp] theorem State.setSsp_pc (s : State) (v : Word) : (s.setSsp v).pc = s.pc := rfl
@[simp] theorem State.setSsp_elp (s : State) (v : Word) : (s.setSsp v).elp = s.elp := rfl
@[simp] theorem State.setSsp_instret (s : State) (v : Word) : (s.setSsp v).instret = s.instret := rfl
@[simp] theorem State.setSsp_cycle (s : State) (v : Word) : (s.setSsp v).cycle = s.cycle := rfl
@[simp] theorem State.setSsp_time (s : State) (v : Word) : (s.setSsp v).time = s.time := rfl
@[simp] theorem State.setSsp_mem (s : State) (v : Word) : (s.setSsp v).mem = s.mem := rfl
@[simp] theorem State.setSsp_cache (s : State) (v : Word) : (s.setSsp v).cache = s.cache := rfl
@[simp] theorem State.setSsp_fetchView (s : State) (v : Word) : (s.setSsp v).fetchView = s.fetchView := rfl
@[simp] theorem State.setSsp_trap (s : State) (v : Word) : (s.setSsp v).trap = s.trap := rfl
@[simp] theorem State.setSsp_tick (s : State) (v : Word) : (s.setSsp v).tick = s.tick := rfl

/-! ### `setElp` -/

@[simp] theorem State.setElp_cfg (s : State) (e : Elp) : (s.setElp e).cfg = s.cfg := rfl
@[simp] theorem State.setElp_env (s : State) (e : Elp) : (s.setElp e).env = s.env := rfl
@[simp] theorem State.setElp_regs (s : State) (e : Elp) : (s.setElp e).regs = s.regs := rfl
@[simp] theorem State.setElp_pc (s : State) (e : Elp) : (s.setElp e).pc = s.pc := rfl
@[simp] theorem State.setElp_ssp (s : State) (e : Elp) : (s.setElp e).ssp = s.ssp := rfl
@[simp] theorem State.setElp_instret (s : State) (e : Elp) : (s.setElp e).instret = s.instret := rfl
@[simp] theorem State.setElp_cycle (s : State) (e : Elp) : (s.setElp e).cycle = s.cycle := rfl
@[simp] theorem State.setElp_time (s : State) (e : Elp) : (s.setElp e).time = s.time := rfl
@[simp] theorem State.setElp_mem (s : State) (e : Elp) : (s.setElp e).mem = s.mem := rfl
@[simp] theorem State.setElp_cache (s : State) (e : Elp) : (s.setElp e).cache = s.cache := rfl
@[simp] theorem State.setElp_fetchView (s : State) (e : Elp) : (s.setElp e).fetchView = s.fetchView := rfl
@[simp] theorem State.setElp_trap (s : State) (e : Elp) : (s.setElp e).trap = s.trap := rfl
@[simp] theorem State.setElp_tick (s : State) (e : Elp) : (s.setElp e).tick = s.tick := rfl

/-! ### `setCache` -/

@[simp] theorem State.setCache_cfg (s : State) (a : Nat) (c : CacheByte) : (s.setCache a c).cfg = s.cfg := rfl
@[simp] theorem State.setCache_env (s : State) (a : Nat) (c : CacheByte) : (s.setCache a c).env = s.env := rfl
@[simp] theorem State.setCache_regs (s : State) (a : Nat) (c : CacheByte) : (s.setCache a c).regs = s.regs := rfl
@[simp] theorem State.setCache_pc (s : State) (a : Nat) (c : CacheByte) : (s.setCache a c).pc = s.pc := rfl
@[simp] theorem State.setCache_ssp (s : State) (a : Nat) (c : CacheByte) : (s.setCache a c).ssp = s.ssp := rfl
@[simp] theorem State.setCache_elp (s : State) (a : Nat) (c : CacheByte) : (s.setCache a c).elp = s.elp := rfl
@[simp] theorem State.setCache_instret (s : State) (a : Nat) (c : CacheByte) : (s.setCache a c).instret = s.instret := rfl
@[simp] theorem State.setCache_cycle (s : State) (a : Nat) (c : CacheByte) : (s.setCache a c).cycle = s.cycle := rfl
@[simp] theorem State.setCache_time (s : State) (a : Nat) (c : CacheByte) : (s.setCache a c).time = s.time := rfl
@[simp] theorem State.setCache_mem (s : State) (a : Nat) (c : CacheByte) : (s.setCache a c).mem = s.mem := rfl
@[simp] theorem State.setCache_fetchView (s : State) (a : Nat) (c : CacheByte) : (s.setCache a c).fetchView = s.fetchView := rfl
@[simp] theorem State.setCache_trap (s : State) (a : Nat) (c : CacheByte) : (s.setCache a c).trap = s.trap := rfl
@[simp] theorem State.setCache_tick (s : State) (a : Nat) (c : CacheByte) : (s.setCache a c).tick = s.tick := rfl

/-! ### `setMem` -/

@[simp] theorem State.setMem_cfg (s : State) (cells : List Host.Cell) : (s.setMem cells).cfg = s.cfg := rfl
@[simp] theorem State.setMem_env (s : State) (cells : List Host.Cell) : (s.setMem cells).env = s.env := rfl
@[simp] theorem State.setMem_regs (s : State) (cells : List Host.Cell) : (s.setMem cells).regs = s.regs := rfl
@[simp] theorem State.setMem_pc (s : State) (cells : List Host.Cell) : (s.setMem cells).pc = s.pc := rfl
@[simp] theorem State.setMem_ssp (s : State) (cells : List Host.Cell) : (s.setMem cells).ssp = s.ssp := rfl
@[simp] theorem State.setMem_elp (s : State) (cells : List Host.Cell) : (s.setMem cells).elp = s.elp := rfl
@[simp] theorem State.setMem_instret (s : State) (cells : List Host.Cell) : (s.setMem cells).instret = s.instret := rfl
@[simp] theorem State.setMem_cycle (s : State) (cells : List Host.Cell) : (s.setMem cells).cycle = s.cycle := rfl
@[simp] theorem State.setMem_time (s : State) (cells : List Host.Cell) : (s.setMem cells).time = s.time := rfl
@[simp] theorem State.setMem_cache (s : State) (cells : List Host.Cell) : (s.setMem cells).cache = s.cache := rfl
@[simp] theorem State.setMem_fetchView (s : State) (cells : List Host.Cell) : (s.setMem cells).fetchView = s.fetchView := rfl
@[simp] theorem State.setMem_trap (s : State) (cells : List Host.Cell) : (s.setMem cells).trap = s.trap := rfl
@[simp] theorem State.setMem_tick (s : State) (cells : List Host.Cell) : (s.setMem cells).tick = s.tick := rfl

/-! ### `writePart` -/

@[simp] theorem State.writePart_cfg (s : State) (cells : List Host.Cell) (atomic : Bool) : (s.writePart cells atomic).cfg = s.cfg := rfl
@[simp] theorem State.writePart_env (s : State) (cells : List Host.Cell) (atomic : Bool) : (s.writePart cells atomic).env = s.env := rfl
@[simp] theorem State.writePart_regs (s : State) (cells : List Host.Cell) (atomic : Bool) : (s.writePart cells atomic).regs = s.regs := rfl
@[simp] theorem State.writePart_pc (s : State) (cells : List Host.Cell) (atomic : Bool) : (s.writePart cells atomic).pc = s.pc := rfl
@[simp] theorem State.writePart_ssp (s : State) (cells : List Host.Cell) (atomic : Bool) : (s.writePart cells atomic).ssp = s.ssp := rfl
@[simp] theorem State.writePart_elp (s : State) (cells : List Host.Cell) (atomic : Bool) : (s.writePart cells atomic).elp = s.elp := rfl
@[simp] theorem State.writePart_instret (s : State) (cells : List Host.Cell) (atomic : Bool) : (s.writePart cells atomic).instret = s.instret := rfl
@[simp] theorem State.writePart_cycle (s : State) (cells : List Host.Cell) (atomic : Bool) : (s.writePart cells atomic).cycle = s.cycle := rfl
@[simp] theorem State.writePart_time (s : State) (cells : List Host.Cell) (atomic : Bool) : (s.writePart cells atomic).time = s.time := rfl
@[simp] theorem State.writePart_trap (s : State) (cells : List Host.Cell) (atomic : Bool) : (s.writePart cells atomic).trap = s.trap := rfl
@[simp] theorem State.writePart_tick (s : State) (cells : List Host.Cell) (atomic : Bool) : (s.writePart cells atomic).tick = s.tick := rfl

/-! ### `fenceFetch` -/

@[simp] theorem State.fenceFetch_cfg (s : State) : (s.fenceFetch).cfg = s.cfg := rfl
@[simp] theorem State.fenceFetch_env (s : State) : (s.fenceFetch).env = s.env := rfl
@[simp] theorem State.fenceFetch_regs (s : State) : (s.fenceFetch).regs = s.regs := rfl
@[simp] theorem State.fenceFetch_pc (s : State) : (s.fenceFetch).pc = s.pc := rfl
@[simp] theorem State.fenceFetch_ssp (s : State) : (s.fenceFetch).ssp = s.ssp := rfl
@[simp] theorem State.fenceFetch_elp (s : State) : (s.fenceFetch).elp = s.elp := rfl
@[simp] theorem State.fenceFetch_instret (s : State) : (s.fenceFetch).instret = s.instret := rfl
@[simp] theorem State.fenceFetch_cycle (s : State) : (s.fenceFetch).cycle = s.cycle := rfl
@[simp] theorem State.fenceFetch_time (s : State) : (s.fenceFetch).time = s.time := rfl
@[simp] theorem State.fenceFetch_mem (s : State) : (s.fenceFetch).mem = s.mem := rfl
@[simp] theorem State.fenceFetch_cache (s : State) : (s.fenceFetch).cache = s.cache := rfl
@[simp] theorem State.fenceFetch_trap (s : State) : (s.fenceFetch).trap = s.trap := rfl
@[simp] theorem State.fenceFetch_tick (s : State) : (s.fenceFetch).tick = s.tick := rfl

/-! ### `cleanByte` -/

@[simp] theorem State.cleanByte_cfg (s : State) (a : Nat) : (s.cleanByte a).cfg = s.cfg := rfl
@[simp] theorem State.cleanByte_env (s : State) (a : Nat) : (s.cleanByte a).env = s.env := rfl
@[simp] theorem State.cleanByte_regs (s : State) (a : Nat) : (s.cleanByte a).regs = s.regs := rfl
@[simp] theorem State.cleanByte_pc (s : State) (a : Nat) : (s.cleanByte a).pc = s.pc := rfl
@[simp] theorem State.cleanByte_ssp (s : State) (a : Nat) : (s.cleanByte a).ssp = s.ssp := rfl
@[simp] theorem State.cleanByte_elp (s : State) (a : Nat) : (s.cleanByte a).elp = s.elp := rfl
@[simp] theorem State.cleanByte_instret (s : State) (a : Nat) : (s.cleanByte a).instret = s.instret := rfl
@[simp] theorem State.cleanByte_cycle (s : State) (a : Nat) : (s.cleanByte a).cycle = s.cycle := rfl
@[simp] theorem State.cleanByte_time (s : State) (a : Nat) : (s.cleanByte a).time = s.time := rfl
@[simp] theorem State.cleanByte_mem (s : State) (a : Nat) : (s.cleanByte a).mem = s.mem := rfl
@[simp] theorem State.cleanByte_fetchView (s : State) (a : Nat) : (s.cleanByte a).fetchView = s.fetchView := rfl
@[simp] theorem State.cleanByte_trap (s : State) (a : Nat) : (s.cleanByte a).trap = s.trap := rfl
@[simp] theorem State.cleanByte_tick (s : State) (a : Nat) : (s.cleanByte a).tick = s.tick := rfl

/-! ### `flushByte` -/

@[simp] theorem State.flushByte_cfg (s : State) (a : Nat) : (s.flushByte a).cfg = s.cfg := rfl
@[simp] theorem State.flushByte_env (s : State) (a : Nat) : (s.flushByte a).env = s.env := rfl
@[simp] theorem State.flushByte_regs (s : State) (a : Nat) : (s.flushByte a).regs = s.regs := rfl
@[simp] theorem State.flushByte_pc (s : State) (a : Nat) : (s.flushByte a).pc = s.pc := rfl
@[simp] theorem State.flushByte_ssp (s : State) (a : Nat) : (s.flushByte a).ssp = s.ssp := rfl
@[simp] theorem State.flushByte_elp (s : State) (a : Nat) : (s.flushByte a).elp = s.elp := rfl
@[simp] theorem State.flushByte_instret (s : State) (a : Nat) : (s.flushByte a).instret = s.instret := rfl
@[simp] theorem State.flushByte_cycle (s : State) (a : Nat) : (s.flushByte a).cycle = s.cycle := rfl
@[simp] theorem State.flushByte_time (s : State) (a : Nat) : (s.flushByte a).time = s.time := rfl
@[simp] theorem State.flushByte_mem (s : State) (a : Nat) : (s.flushByte a).mem = s.mem := rfl
@[simp] theorem State.flushByte_fetchView (s : State) (a : Nat) : (s.flushByte a).fetchView = s.fetchView := rfl
@[simp] theorem State.flushByte_trap (s : State) (a : Nat) : (s.flushByte a).trap = s.trap := rfl
@[simp] theorem State.flushByte_tick (s : State) (a : Nat) : (s.flushByte a).tick = s.tick := rfl

/-! ### `invalByte` -/

@[simp] theorem State.invalByte_cfg (s : State) (a : Nat) : (s.invalByte a).cfg = s.cfg := rfl
@[simp] theorem State.invalByte_env (s : State) (a : Nat) : (s.invalByte a).env = s.env := rfl
@[simp] theorem State.invalByte_regs (s : State) (a : Nat) : (s.invalByte a).regs = s.regs := rfl
@[simp] theorem State.invalByte_pc (s : State) (a : Nat) : (s.invalByte a).pc = s.pc := rfl
@[simp] theorem State.invalByte_ssp (s : State) (a : Nat) : (s.invalByte a).ssp = s.ssp := rfl
@[simp] theorem State.invalByte_elp (s : State) (a : Nat) : (s.invalByte a).elp = s.elp := rfl
@[simp] theorem State.invalByte_instret (s : State) (a : Nat) : (s.invalByte a).instret = s.instret := rfl
@[simp] theorem State.invalByte_cycle (s : State) (a : Nat) : (s.invalByte a).cycle = s.cycle := rfl
@[simp] theorem State.invalByte_time (s : State) (a : Nat) : (s.invalByte a).time = s.time := rfl
@[simp] theorem State.invalByte_mem (s : State) (a : Nat) : (s.invalByte a).mem = s.mem := rfl
@[simp] theorem State.invalByte_fetchView (s : State) (a : Nat) : (s.invalByte a).fetchView = s.fetchView := rfl
@[simp] theorem State.invalByte_trap (s : State) (a : Nat) : (s.invalByte a).trap = s.trap := rfl
@[simp] theorem State.invalByte_tick (s : State) (a : Nat) : (s.invalByte a).tick = s.tick := rfl

/-! ### `foreignStore` -/

@[simp] theorem State.foreignStore_cfg (s : State) (a : Nat) (b : Byte) : (s.foreignStore a b).cfg = s.cfg := rfl
@[simp] theorem State.foreignStore_env (s : State) (a : Nat) (b : Byte) : (s.foreignStore a b).env = s.env := rfl
@[simp] theorem State.foreignStore_regs (s : State) (a : Nat) (b : Byte) : (s.foreignStore a b).regs = s.regs := rfl
@[simp] theorem State.foreignStore_pc (s : State) (a : Nat) (b : Byte) : (s.foreignStore a b).pc = s.pc := rfl
@[simp] theorem State.foreignStore_ssp (s : State) (a : Nat) (b : Byte) : (s.foreignStore a b).ssp = s.ssp := rfl
@[simp] theorem State.foreignStore_elp (s : State) (a : Nat) (b : Byte) : (s.foreignStore a b).elp = s.elp := rfl
@[simp] theorem State.foreignStore_instret (s : State) (a : Nat) (b : Byte) : (s.foreignStore a b).instret = s.instret := rfl
@[simp] theorem State.foreignStore_cycle (s : State) (a : Nat) (b : Byte) : (s.foreignStore a b).cycle = s.cycle := rfl
@[simp] theorem State.foreignStore_time (s : State) (a : Nat) (b : Byte) : (s.foreignStore a b).time = s.time := rfl
@[simp] theorem State.foreignStore_mem (s : State) (a : Nat) (b : Byte) : (s.foreignStore a b).mem = s.mem := rfl
@[simp] theorem State.foreignStore_fetchView (s : State) (a : Nat) (b : Byte) : (s.foreignStore a b).fetchView = s.fetchView := rfl
@[simp] theorem State.foreignStore_trap (s : State) (a : Nat) (b : Byte) : (s.foreignStore a b).trap = s.trap := rfl
@[simp] theorem State.foreignStore_tick (s : State) (a : Nat) (b : Byte) : (s.foreignStore a b).tick = s.tick := rfl

/-! ### `placeByte` -/

@[simp] theorem State.placeByte_cfg (s : State) (a : Nat) (b : Byte) : (s.placeByte a b).cfg = s.cfg := rfl
@[simp] theorem State.placeByte_env (s : State) (a : Nat) (b : Byte) : (s.placeByte a b).env = s.env := rfl
@[simp] theorem State.placeByte_regs (s : State) (a : Nat) (b : Byte) : (s.placeByte a b).regs = s.regs := rfl
@[simp] theorem State.placeByte_pc (s : State) (a : Nat) (b : Byte) : (s.placeByte a b).pc = s.pc := rfl
@[simp] theorem State.placeByte_ssp (s : State) (a : Nat) (b : Byte) : (s.placeByte a b).ssp = s.ssp := rfl
@[simp] theorem State.placeByte_elp (s : State) (a : Nat) (b : Byte) : (s.placeByte a b).elp = s.elp := rfl
@[simp] theorem State.placeByte_instret (s : State) (a : Nat) (b : Byte) : (s.placeByte a b).instret = s.instret := rfl
@[simp] theorem State.placeByte_cycle (s : State) (a : Nat) (b : Byte) : (s.placeByte a b).cycle = s.cycle := rfl
@[simp] theorem State.placeByte_time (s : State) (a : Nat) (b : Byte) : (s.placeByte a b).time = s.time := rfl
@[simp] theorem State.placeByte_trap (s : State) (a : Nat) (b : Byte) : (s.placeByte a b).trap = s.trap := rfl
@[simp] theorem State.placeByte_tick (s : State) (a : Nat) (b : Byte) : (s.placeByte a b).tick = s.tick := rfl

/-! ### Changed fields -/

@[simp] theorem State.setSsp_ssp (s : State) (v : Word) : (s.setSsp v).ssp = wrap s.xlen (v &&& sspMask s.cfg) := rfl
@[simp] theorem State.setElp_elp (s : State) (e : Elp) : (s.setElp e).elp = e := rfl
@[simp] theorem State.setCache_cache (s : State) (a : Nat) (c : CacheByte) :
    (s.setCache a c).cache = s.putCache s.cache a c := rfl
@[simp] theorem State.fenceFetch_fetchView (s : State) :
    s.fenceFetch.fetchView = s.staleUnits.foldl (fun l u => s.putVersions l u [s.loadedUnit u]) [] := rfl
@[simp] theorem State.writePart_mem (s : State) (cells : List Host.Cell) (atomic : Bool) :
    (s.writePart cells atomic).mem = (s.setMem cells).mem := rfl

/-! ### Accessors that depend on the configuration alone, or on one field -/

theorem State.xlen_eq (s : State) : s.xlen = s.cfg.xlen := rfl

/-- An x register is read from the registers and XLEN alone. -/
theorem State.x_congr {s t : State} (hc : t.cfg = s.cfg) (hr : t.regs = s.regs) (r : Reg) : t.x r = s.x r := by
  simp only [State.x, State.xlen, hc, hr]

/-- pc is read from the field and XLEN alone. -/
theorem State.pcv_congr {s t : State} (hc : t.cfg = s.cfg) (hp : t.pc = s.pc) : t.pcv = s.pcv := by
  simp only [State.pcv, State.xlen, hc, hp]

/-- ssp is read from the field and the configuration alone. -/
theorem State.sspv_congr {s t : State} (hc : t.cfg = s.cfg) (hp : t.ssp = s.ssp) : t.sspv = s.sspv := by
  simp only [State.sspv, State.xlen, hc, hp]

/-- The byte addresses of an access depend on XLEN alone. -/
theorem State.byteAddr_congr {s t : State} (hc : t.cfg = s.cfg) (ea : Word) (i : Nat) :
    t.byteAddr ea i = s.byteAddr ea i := by
  simp only [State.byteAddr, State.xlen, hc]

/-- The byte addresses of an access depend on XLEN alone. -/
theorem State.addrs_congr {s t : State} (hc : t.cfg = s.cfg) (ea : Word) (n : Nat) : t.addrs ea n = s.addrs ea n := by
  have h : t.byteAddr ea = s.byteAddr ea := funext fun i => State.byteAddr_congr hc ea i
  simp only [State.addrs, h]

/-- A byte of memory is read from memory alone. -/
theorem State.byteAt_congr {s t : State} (hm : t.mem = s.mem) (a : Nat) : t.byteAt a = s.byteAt a := by
  simp only [State.byteAt, State.content, hm]

/-- The cached-data state of a byte is read from the cache list and memory alone. -/
theorem State.cacheAt_congr {s t : State} (hm : t.mem = s.mem) (hc : t.cache = s.cache) (a : Nat) :
    t.cacheAt a = s.cacheAt a := by
  simp only [State.cacheAt, State.content, hm, hc]

/-- The fetch view of a unit is read from the fetch-view list and memory alone. -/
theorem State.versionsAt_congr {s t : State} (hm : t.mem = s.mem) (hf : t.fetchView = s.fetchView) (u : Nat) :
    t.versionsAt u = s.versionsAt u := by
  simp only [State.versionsAt, State.currentUnit, State.content, hm, hf]

end Sys2Proof.Machine
end

