-- ==== Sys2Proof/Laws/Ops.lean ====
section
/-! SUPPORT. What each shared operation can do, said once: XLEN arithmetic, the register accessors, permission, and one
lemma for each operation that answers an outcome. -/

namespace Sys2Proof.Machine

/-! ### XLEN arithmetic -/

theorem Xlen.two_pow_le (x : Xlen) : 2 ^ x.bits ≤ 2 ^ 64 := by cases x <;> decide

/-- `wrap` is the remainder modulo 2^XLEN. -/
theorem wrap_toNat (x : Xlen) (v : Word) : (wrap x v).toNat = v.toNat % 2 ^ x.bits := by
  cases x with
  | rv32 => simp [wrap, Xlen.bits]; omega
  | rv64 => have := v.isLt; simp only [wrap, Xlen.bits]; omega

theorem wrap_lt (x : Xlen) (v : Word) : (wrap x v).toNat < 2 ^ x.bits := by
  rw [wrap_toNat]; exact Nat.mod_lt _ (by cases x <;> decide)

/-- `wrap` keeps an XLEN-bit value. -/
theorem wrap_of_lt {x : Xlen} {v : Word} (h : v.toNat < 2 ^ x.bits) : wrap x v = v := by
  apply BitVec.eq_of_toNat_eq; rw [wrap_toNat, Nat.mod_eq_of_lt h]

@[simp] theorem wrap_wrap (x : Xlen) (v : Word) : wrap x (wrap x v) = wrap x v := wrap_of_lt (wrap_lt x v)

@[simp] theorem wrap_zero (x : Xlen) : wrap x 0#64 = 0#64 := by cases x <;> rfl

/-- Two cells have the same low XLEN bits when they agree modulo 2^XLEN. -/
theorem wrap_eq_of_mod {x : Xlen} {v w : Word} (h : v.toNat % 2 ^ x.bits = w.toNat % 2 ^ x.bits) :
    wrap x v = wrap x w := by
  apply BitVec.eq_of_toNat_eq; rw [wrap_toNat, wrap_toNat, h]

/-- `trunc_XLEN` of an integer is its remainder modulo 2^XLEN. -/
theorem truncTo_toNat (x : Xlen) (n : Int) : ((truncTo x n).toNat : Int) = n % ((2 ^ x.bits : Nat) : Int) := by
  rw [truncTo, wrap_toNat, BitVec.toNat_ofInt]
  cases x <;> simp only [Xlen.bits] <;> omega

/-- `trunc_XLEN` depends on the integer modulo 2^XLEN. -/
theorem truncTo_congr {x : Xlen} {m n : Int} (h : m % ((2 ^ x.bits : Nat) : Int) = n % ((2 ^ x.bits : Nat) : Int)) :
    truncTo x m = truncTo x n := by
  apply BitVec.eq_of_toNat_eq
  have h1 := truncTo_toNat x m
  have h2 := truncTo_toNat x n
  omega

/-- The low XLEN bits of a cell are `trunc_XLEN` of its unsigned value. -/
theorem wrap_eq_truncTo (x : Xlen) (v : Word) : wrap x v = truncTo x v.toNat := by
  apply BitVec.eq_of_toNat_eq
  have h := truncTo_toNat x v.toNat
  rw [wrap_toNat]
  omega

/-! ### Registers -/

theorem State.x_lt (s : State) (r : Reg) : (s.x r).toNat < 2 ^ s.xlen.bits := by
  unfold State.x
  split
  · cases s.xlen <;> decide
  · exact wrap_lt _ _

@[simp] theorem State.wrap_x (s : State) (r : Reg) : wrap s.xlen (s.x r) = s.x r := wrap_of_lt (s.x_lt r)

/-- x0 reads as zero (10_state.md R31). -/
@[simp] theorem State.x_zero (s : State) : s.x 0#5 = 0#64 := rfl

@[simp] theorem State.setX_xlen (s : State) (r : Reg) (v : Word) : (s.setX r v).xlen = s.xlen := rfl

/-- A write to x0 changes nothing (10_state.md R31). -/
@[simp] theorem State.setX_zero (s : State) (v : Word) : s.setX 0#5 v = s := rfl

/-- The register written reads as the low XLEN bits of the value, x0 as zero. -/
theorem State.x_setX_self (s : State) (r : Reg) (v : Word) :
    (s.setX r v).x r = if r = 0 then 0 else wrap s.xlen v := by
  by_cases h : r = 0
  · subst h; rfl
  · simp only [State.x, State.setX, State.xlen, if_neg h, Vector.getElem_set_self, wrap_wrap]

/-- Every other register reads as before. -/
theorem State.x_setX_ne (s : State) (r q : Reg) (v : Word) (h : q ≠ r) : (s.setX r v).x q = s.x q := by
  by_cases hr : r = 0
  · subst hr; rfl
  · have hn : r.toNat ≠ q.toNat := fun e => h (BitVec.eq_of_toNat_eq e.symm)
    simp only [State.x, State.setX, State.xlen, if_neg hr, Vector.getElem_set_ne _ _ hn]

theorem State.regsKept_setX (s : State) (r : Reg) (v : Word) : RegsKept s (s.setX r v) [r] := by
  intro q hq; exact s.x_setX_ne r q v (by simpa using hq)

/-- ssp reads with its read-only bits zero after a write (10_state.md R45). -/
theorem State.sspv_setSsp (s : State) (v : Word) : (s.setSsp v).sspv = wrap s.xlen (v &&& sspMask s.cfg) := by
  simp only [State.sspv, State.setSsp, State.xlen]
  cases s.cfg.xlen with
  | rv64 => simp [wrap, BitVec.and_assoc]
  | rv32 =>
    simp only [wrap, sspMask]
    split <;> · apply BitVec.eq_of_getLsbD_eq; intro i hi; simp

theorem State.pcv_lt (s : State) : s.pcv.toNat < 2 ^ s.xlen.bits := wrap_lt _ _

@[simp] theorem State.wrap_pcv (s : State) : wrap s.xlen s.pcv = s.pcv := wrap_wrap _ _

@[simp] theorem State.wrap_sspv (s : State) : wrap s.xlen s.sspv = s.sspv := wrap_wrap _ _

/-- The next pc is pc plus the length, modulo 2^XLEN (10_state.md R36). -/
theorem State.pcPlus_eq_after (s : State) (n : Nat) : s.pcPlus n = s.after n := by
  rw [State.pcPlus, State.after, wrap_eq_truncTo]
  apply truncTo_congr
  rw [BitVec.toNat_add, BitVec.toNat_ofNat]
  cases s.xlen <;> simp only [Xlen.bits] <;> omega

end Sys2Proof.Machine
end

