-- ==== Sys2Proof/Laws/Memory.lean ====
section
/-! SUPPORT. The lists in canonical form, and what every memory operation does to memory, the cached-data state and the
fetch view: each keeps the canonical form, and a read after a write gives what was written. -/

namespace Sys2Proof.Machine

/-! ### Lists of key and value -/

theorem sparseGet_sparseSet_self {α : Type} (l : List (Nat × α)) (a : Nat) (v : α) :
    sparseGet (sparseSet l a v) a = some v := by
  induction l with
  | nil => simp [sparseSet, sparseGet]
  | cons p rest ih =>
    obtain ⟨k, w⟩ := p
    simp only [sparseSet]
    split
    · simp [sparseGet]
    · split
      · simp [sparseGet]
      · rename_i h1 h2
        simp only [sparseGet]
        rw [if_neg (fun e => h2 e.symm)]
        exact ih

theorem sparseGet_sparseSet_ne {α : Type} (l : List (Nat × α)) (a b : Nat) (v : α) (h : b ≠ a) :
    sparseGet (sparseSet l a v) b = sparseGet l b := by
  induction l with
  | nil => simp [sparseSet, sparseGet, h.symm]
  | cons p rest ih =>
    obtain ⟨k, w⟩ := p
    simp only [sparseSet]
    split
    · simp only [sparseGet]; rw [if_neg h.symm]
    · split
      · rename_i h1 h2
        subst h2
        simp only [sparseGet]; rw [if_neg h.symm, if_neg h.symm]
      · simp only [sparseGet, ih]

theorem sparseGet_sparseErase_ne {α : Type} (l : List (Nat × α)) (a b : Nat) (h : b ≠ a) :
    sparseGet (sparseErase l a) b = sparseGet l b := by
  induction l with
  | nil => rfl
  | cons p rest ih =>
    obtain ⟨k, w⟩ := p
    simp only [sparseErase]
    split
    · rename_i hk
      subst hk
      simp only [sparseGet]; rw [if_neg h.symm]
    · simp only [sparseGet, ih]

/-- Every key of a sorted list is above its bound. -/
theorem lt_of_sparseSorted {α : Type} {l : List (Nat × α)} {lo : Nat} (h : sparseSorted (some lo) l = true)
    {p : Nat × α} (hp : p ∈ l) : lo < p.1 := by
  induction l generalizing lo with
  | nil => simp at hp
  | cons q rest ih =>
    obtain ⟨k, w⟩ := q
    simp only [sparseSorted, Bool.and_eq_true, decide_eq_true_eq] at h
    rcases List.mem_cons.mp hp with rfl | hp
    · exact h.1
    · have := ih h.2 hp; omega

theorem sparseSorted_mono {α : Type} {l : List (Nat × α)} {lo hi : Nat} (hlh : lo ≤ hi)
    (h : sparseSorted (some hi) l = true) : sparseSorted (some lo) l = true := by
  cases l with
  | nil => rfl
  | cons q rest =>
    obtain ⟨k, w⟩ := q
    simp only [sparseSorted, Bool.and_eq_true, decide_eq_true_eq] at h ⊢
    exact ⟨by omega, h.2⟩

theorem sparseSorted_none {α : Type} {l : List (Nat × α)} {lo : Option Nat} (h : sparseSorted lo l = true) :
    sparseSorted none l = true := by
  cases l with
  | nil => rfl
  | cons q rest =>
    obtain ⟨k, w⟩ := q
    simp only [sparseSorted, Bool.and_eq_true] at h ⊢
    exact ⟨trivial, h.2⟩

theorem sparseGet_eq_none {α : Type} {l : List (Nat × α)} {a : Nat} (h : sparseSorted (some a) l = true) :
    sparseGet l a = none := by
  induction l with
  | nil => rfl
  | cons q rest ih =>
    obtain ⟨k, w⟩ := q
    simp only [sparseSorted, Bool.and_eq_true, decide_eq_true_eq] at h
    simp only [sparseGet]
    rw [if_neg (by omega)]
    exact ih (sparseSorted_mono (by omega) h.2)

/-- An erased key of a sorted list is gone. -/
theorem sparseGet_sparseErase_self {α : Type} {l : List (Nat × α)} {lo : Option Nat} (a : Nat)
    (h : sparseSorted lo l = true) : sparseGet (sparseErase l a) a = none := by
  induction l generalizing lo with
  | nil => rfl
  | cons q rest ih =>
    obtain ⟨k, w⟩ := q
    simp only [sparseSorted, Bool.and_eq_true] at h
    simp only [sparseErase]
    split
    · rename_i hk
      subst hk
      exact sparseGet_eq_none h.2
    · rename_i hk
      simp only [sparseGet]
      rw [if_neg hk]
      exact ih h.2

/-- Setting a key keeps a list sorted. -/
theorem sparseSorted_sparseSet {α : Type} {l : List (Nat × α)} {lo : Option Nat} {a : Nat} (v : α)
    (h : sparseSorted lo l = true) (ha : ∀ b, lo = some b → b < a) : sparseSorted lo (sparseSet l a v) = true := by
  induction l generalizing lo with
  | nil => cases lo with
    | none => rfl
    | some b => simp [sparseSet, sparseSorted, ha b rfl]
  | cons q rest ih =>
    obtain ⟨k, w⟩ := q
    have hk := h
    simp only [sparseSorted, Bool.and_eq_true] at hk
    simp only [sparseSet]
    split
    · rename_i hak
      cases lo with
      | none => simp only [sparseSorted, Bool.and_eq_true, decide_eq_true_eq]; exact ⟨trivial, hak, hk.2⟩
      | some b =>
        simp only [sparseSorted, Bool.and_eq_true, decide_eq_true_eq]; exact ⟨ha b rfl, hak, hk.2⟩
    · split
      · rename_i hak
        subst hak
        simp only [sparseSorted, Bool.and_eq_true]; exact ⟨hk.1, hk.2⟩
      · simp only [sparseSorted, Bool.and_eq_true]
        exact ⟨hk.1, ih hk.2 (fun b hb => by cases hb; omega)⟩

/-- Erasing a key keeps a list sorted. -/
theorem sparseSorted_sparseErase {α : Type} {l : List (Nat × α)} {lo : Option Nat} (a : Nat)
    (h : sparseSorted lo l = true) : sparseSorted lo (sparseErase l a) = true := by
  induction l generalizing lo with
  | nil => exact h
  | cons q rest ih =>
    obtain ⟨k, w⟩ := q
    have hk := h
    simp only [sparseSorted, Bool.and_eq_true] at hk
    simp only [sparseErase]
    split
    · cases lo with
      | none => exact sparseSorted_none hk.2
      | some b => exact sparseSorted_mono (Nat.le_of_lt (by simpa using hk.1)) hk.2
    · simp only [sparseSorted, Bool.and_eq_true]
      exact ⟨hk.1, ih hk.2⟩

/-- The entries after a set are the new one and earlier ones. -/
theorem mem_sparseSet {α : Type} {l : List (Nat × α)} {a : Nat} {v : α} {p : Nat × α} (h : p ∈ sparseSet l a v) :
    p = (a, v) ∨ p ∈ l := by
  induction l with
  | nil => simpa [sparseSet] using h
  | cons q rest ih =>
    obtain ⟨k, w⟩ := q
    simp only [sparseSet] at h
    split at h
    · simpa using h
    · split at h
      · rcases List.mem_cons.mp h with h | h
        · exact .inl h
        · exact .inr (List.mem_cons_of_mem _ h)
      · rcases List.mem_cons.mp h with h | h
        · exact .inr (h ▸ List.mem_cons_self ..)
        · exact (ih h).imp id (List.mem_cons_of_mem _)

theorem mem_sparseErase {α : Type} {l : List (Nat × α)} {a : Nat} {p : Nat × α} (h : p ∈ sparseErase l a) : p ∈ l := by
  induction l with
  | nil => exact h
  | cons q rest ih =>
    obtain ⟨k, w⟩ := q
    simp only [sparseErase] at h
    split at h
    · exact List.mem_cons_of_mem _ h
    · rcases List.mem_cons.mp h with h | h
      · exact h ▸ List.mem_cons_self ..
      · exact List.mem_cons_of_mem _ (ih h)

/-- In a sorted list the entry with a key is the one a lookup finds. -/
theorem sparseGet_of_mem {α : Type} {l : List (Nat × α)} {lo : Option Nat} (h : sparseSorted lo l = true)
    {p : Nat × α} (hp : p ∈ l) : sparseGet l p.1 = some p.2 := by
  induction l generalizing lo with
  | nil => simp at hp
  | cons q rest ih =>
    obtain ⟨k, w⟩ := q
    simp only [sparseSorted, Bool.and_eq_true] at h
    rcases List.mem_cons.mp hp with rfl | hp
    · simp [sparseGet]
    · have hlt := lt_of_sparseSorted h.2 hp
      simp only [sparseGet]
      rw [if_neg (by omega)]
      exact ih h.2 hp

theorem mem_of_sparseGet {α : Type} {l : List (Nat × α)} {a : Nat} {v : α} (h : sparseGet l a = some v) :
    (a, v) ∈ l := by
  induction l with
  | nil => simp [sparseGet] at h
  | cons q rest ih =>
    obtain ⟨k, w⟩ := q
    simp only [sparseGet] at h
    split at h
    · rename_i hk; subst hk; cases h; exact List.mem_cons_self ..
    · exact List.mem_cons_of_mem _ (ih h)

/-! ### Sets as lists -/

theorem mem_addNew {α : Type} [DecidableEq α] {l new : List α} {a : α} : a ∈ addNew l new ↔ a ∈ l ∨ a ∈ new := by
  induction new generalizing l with
  | nil => simp [addNew]
  | cons b rest ih =>
    simp only [addNew]
    split
    · rename_i hb
      rw [ih]
      constructor
      · rintro (h | h)
        · exact .inl h
        · exact .inr (List.mem_cons_of_mem _ h)
      · rintro (h | h)
        · exact .inl h
        · rcases List.mem_cons.mp h with rfl | h
          · exact .inl hb
          · exact .inr h
    · rw [ih]; simp only [List.mem_append, List.mem_cons, List.not_mem_nil, or_false]; tauto

theorem nodup_addNew {α : Type} [DecidableEq α] {l new : List α} (h : l.Nodup) : (addNew l new).Nodup := by
  induction new generalizing l with
  | nil => exact h
  | cons b rest ih =>
    simp only [addNew]
    split
    · exact ih h
    · rename_i hb
      exact ih (by rw [List.nodup_append]; exact ⟨h, by simp, by simp; exact fun a ha e => hb (e ▸ ha)⟩)

/-! ### Stores: memory -/

/-- Memory with cells set in order. -/
theorem foldl_sparseSet_ne (cells : List Host.Cell) (m : List Host.Cell) (a : Nat) (h : ∀ c ∈ cells, c.1 ≠ a) :
    sparseGet (cells.foldl (fun m c => sparseSet m c.1 c.2) m) a = sparseGet m a := by
  induction cells generalizing m with
  | nil => rfl
  | cons c rest ih =>
    simp only [List.foldl_cons]
    rw [ih _ fun d hd => h d (List.mem_cons_of_mem _ hd)]
    exact sparseGet_sparseSet_ne _ _ _ _ (Ne.symm (h c (List.mem_cons_self ..)))

theorem foldl_sparseSet_mem (cells : List Host.Cell) (m : List Host.Cell) (hn : (cells.map Prod.fst).Nodup)
    (c : Host.Cell) (hc : c ∈ cells) :
    sparseGet (cells.foldl (fun m c => sparseSet m c.1 c.2) m) c.1 = some c.2 := by
  induction cells generalizing m with
  | nil => simp at hc
  | cons d rest ih =>
    simp only [List.map_cons, List.nodup_cons] at hn
    simp only [List.foldl_cons]
    rcases List.mem_cons.mp hc with rfl | hc
    · rw [foldl_sparseSet_ne]
      · exact sparseGet_sparseSet_self _ _ _
      · intro e he heq
        exact hn.1 (heq ▸ List.mem_map_of_mem (f := Prod.fst) he)
    · exact ih _ hn.2 hc

/-- A store keeps memory canonical. -/
theorem State.setMem_wf (s : State) (cells : List Host.Cell) (h : Memory.wf s.mem = true) :
    Memory.wf (s.setMem cells).mem = true := by
  unfold State.setMem Memory.wf at *
  simp only
  generalize s.mem = m at h
  induction cells generalizing m with
  | nil => exact h
  | cons c rest ih => exact ih _ (sparseSorted_sparseSet _ h (by simp))

theorem State.writePart_wf (s : State) (cells : List Host.Cell) (atomic : Bool) (h : Memory.wf s.mem = true) :
    Memory.wf (s.writePart cells atomic).mem = true := s.setMem_wf cells h

/-- A store keeps memory canonical (the canonical form is `Memory.wf`). -/
theorem State.writeBytes_wf (s : State) (addrs : List Nat) (bytes : List Byte) (atomic : Bool)
    (h : Memory.wf s.mem = true) : Memory.wf (s.writeBytes addrs bytes atomic).mem = true := s.writePart_wf _ _ h

theorem State.storeValue_wf (s : State) (ea : Word) (n : Nat) (v : Word) (h : Memory.wf s.mem = true) :
    Memory.wf (s.storeValue ea n v).mem = true := s.writePart_wf _ _ h

theorem State.storePart_wf (s : State) (ea : Word) (cells : List Host.Cell) (h : Memory.wf s.mem = true) :
    Memory.wf (s.storePart ea cells).mem = true := s.writePart_wf _ _ h

theorem State.placeByte_wf (s : State) (a : Nat) (b : Byte) (h : Memory.wf s.mem = true) :
    Memory.wf (s.placeByte a b).mem = true := sparseSorted_sparseSet _ h (by simp)

/-- Memory is canonical at reset. -/
theorem State.reset_mem_wf : Memory.wf State.reset.mem = true := rfl

/-! ### What a store leaves -/

/-- What a store may change: memory, the cached-data state and the fetch view, and nothing else. -/
structure MemOnly (s t : State) : Prop where
  cfg : t.cfg = s.cfg
  env : t.env = s.env
  regs : t.regs = s.regs
  pc : t.pc = s.pc
  ssp : t.ssp = s.ssp
  elp : t.elp = s.elp
  instret : t.instret = s.instret
  cycle : t.cycle = s.cycle
  time : t.time = s.time
  trap : t.trap = s.trap
  tick : t.tick = s.tick

theorem MemOnly.refl (s : State) : MemOnly s s := ⟨rfl, rfl, rfl, rfl, rfl, rfl, rfl, rfl, rfl, rfl, rfl⟩

theorem MemOnly.trans {s t u : State} (h : MemOnly s t) (k : MemOnly t u) : MemOnly s u :=
  ⟨k.cfg.trans h.cfg, k.env.trans h.env, k.regs.trans h.regs, k.pc.trans h.pc, k.ssp.trans h.ssp, k.elp.trans h.elp,
   k.instret.trans h.instret, k.cycle.trans h.cycle, k.time.trans h.time, k.trap.trans h.trap, k.tick.trans h.tick⟩

theorem State.writePart_memOnly (s : State) (cells : List Host.Cell) (atomic : Bool) :
    MemOnly s (s.writePart cells atomic) := ⟨rfl, rfl, rfl, rfl, rfl, rfl, rfl, rfl, rfl, rfl, rfl⟩

theorem State.writeBytes_memOnly (s : State) (addrs : List Nat) (bytes : List Byte) (atomic : Bool) :
    MemOnly s (s.writeBytes addrs bytes atomic) := s.writePart_memOnly _ _

theorem State.storeValue_memOnly (s : State) (ea : Word) (n : Nat) (v : Word) : MemOnly s (s.storeValue ea n v) :=
  s.writePart_memOnly _ _

theorem State.storePart_memOnly (s : State) (ea : Word) (cells : List Host.Cell) : MemOnly s (s.storePart ea cells) :=
  s.writePart_memOnly _ _

/-- A property that the operation on a byte keeps is kept by it on every byte of a block. -/
theorem foldl_keeps {α : Type} (P : State → Prop) (op : State → α → State) (h : ∀ s a, P s → P (op s a)) (l : List α)
    (s : State) (hs : P s) : P (l.foldl op s) := by
  induction l generalizing s with
  | nil => exact hs
  | cons a rest ih => exact ih _ (h _ _ hs)

end Sys2Proof.Machine
end

