-- ==== Sys2Proof/Laws/Store.lean ====
section
/-! SUPPORT. What a store does to the bytes stored and to every other byte: their content, their cached-data state and
their fetch view; and what a load may return. -/

namespace Sys2Proof.Machine

/-! ### Addresses of an access -/

theorem State.byteAddr_lt (s : State) (ea : Word) (i : Nat) : s.byteAddr ea i < 2 ^ s.xlen.bits := wrap_lt _ _

/-- Distinct positions of an access that fits in the address space have distinct addresses. -/
theorem State.byteAddr_inj (s : State) (ea : Word) {i j : Nat} (hi : i < 2 ^ s.xlen.bits) (hj : j < 2 ^ s.xlen.bits)
    (h : s.byteAddr ea i = s.byteAddr ea j) : i = j := by
  simp only [State.byteAddr, wrap_toNat, BitVec.toNat_add, BitVec.toNat_ofNat] at h
  cases hx : s.xlen <;> simp only [hx, Xlen.bits] at h hi hj <;> omega

theorem Xlen.eight_le (x : Xlen) : 8 ≤ 2 ^ x.bits := by cases x <;> decide

@[simp] theorem State.length_addrs (s : State) (ea : Word) (n : Nat) : (s.addrs ea n).length = n := by
  simp [State.addrs]

theorem State.getElem_addrs (s : State) (ea : Word) (n i : Nat) (h : i < (s.addrs ea n).length) :
    (s.addrs ea n)[i] = s.byteAddr ea i := by
  simp [State.addrs]

theorem State.mem_addrs {s : State} {ea : Word} {n a : Nat} : a ∈ s.addrs ea n ↔ ∃ i, i < n ∧ a = s.byteAddr ea i := by
  simp only [State.addrs, List.mem_map, List.mem_range]
  exact ⟨fun ⟨i, h, e⟩ => ⟨i, h, e.symm⟩, fun ⟨i, h, e⟩ => ⟨i, h, e.symm⟩⟩

theorem State.nodup_addrs (s : State) (ea : Word) {n : Nat} (h : n ≤ 2 ^ s.xlen.bits) : (s.addrs ea n).Nodup := by
  refine List.Nodup.map_on ?_ List.nodup_range
  intro i hi j hj e
  simp only [List.mem_range] at hi hj
  exact s.byteAddr_inj ea (by omega) (by omega) e

@[simp] theorem length_leBytes (n : Nat) (v : Word) : (leBytes n v).length = n := by simp [leBytes]

/-- The cells of an access, by position. -/
theorem mem_zip_leBytes {s : State} {ea v : Word} {n : Nat} {c : Host.Cell} :
    c ∈ (s.addrs ea n).zip (leBytes n v) ↔ ∃ i, i < n ∧ c = (s.byteAddr ea i, v.extractLsb' (8 * i) 8) := by
  have hz : (s.addrs ea n).zip (leBytes n v) =
      (List.range n).map fun i => (s.byteAddr ea i, v.extractLsb' (8 * i) 8) := by
    rw [State.addrs, leBytes, List.zip_map']
  rw [hz]
  simp only [List.mem_map, List.mem_range]
  exact ⟨fun ⟨i, h, e⟩ => ⟨i, h, e.symm⟩, fun ⟨i, h, e⟩ => ⟨i, h, e.symm⟩⟩

theorem map_fst_zip_leBytes (s : State) (ea v : Word) (n : Nat) :
    ((s.addrs ea n).zip (leBytes n v)).map Prod.fst = s.addrs ea n := by
  rw [List.map_fst_zip]; simp

/-! ### Memory after a store -/

/-- Memory after a store does not depend on whether the store is single-copy atomic. -/
theorem State.writeBytes_mem (s : State) (addrs : List Nat) (bytes : List Byte) (atomic : Bool) :
    (s.writeBytes addrs bytes atomic).mem = (addrs.zip bytes).foldl (fun m c => sparseSet m c.1 c.2) s.mem := rfl

theorem State.writeBytes_content_outside (s : State) (addrs : List Nat) (bytes : List Byte) (atomic : Bool) (a : Nat)
    (h : a ∉ addrs) : (s.writeBytes addrs bytes atomic).content a = s.content a := by
  rw [State.content, s.writeBytes_mem, foldl_sparseSet_ne]
  · rfl
  · intro c hc e; exact h (e ▸ (List.of_mem_zip hc).1)

/-- Outside the bytes stored memory reads as before. -/
theorem State.storeValue_content_outside (s : State) (ea : Word) (n : Nat) (v : Word) (a : Nat)
    (h : a ∉ s.addrs ea n) : (s.storeValue ea n v).content a = s.content a :=
  s.writeBytes_content_outside _ _ _ a h

/-- A byte stored reads as the byte of the value. -/
theorem State.storeValue_content (s : State) (ea : Word) {n : Nat} (v : Word) {i : Nat} (hn : n ≤ 2 ^ s.xlen.bits) (hi : i < n) :
    (s.storeValue ea n v).content (s.byteAddr ea i) = some (v.extractLsb' (8 * i) 8) := by
  have h := foldl_sparseSet_mem ((s.addrs ea n).zip (leBytes n v)) s.mem
    (by rw [map_fst_zip_leBytes]; exact s.nodup_addrs ea hn)
    (s.byteAddr ea i, v.extractLsb' (8 * i) 8) (mem_zip_leBytes.mpr ⟨i, hi, rfl⟩)
  rw [State.content, State.storeValue, s.writeBytes_mem]
  exact h

theorem State.storeValue_memKept (s : State) (ea : Word) (n : Nat) (v : Word) :
    MemKept s (s.storeValue ea n v) (s.addrs ea n) := by
  intro a h
  rw [State.byteAt, State.byteAt, s.storeValue_content_outside ea n v a h]

theorem State.storeValue_bytes (s : State) (ea : Word) {n : Nat} (v : Word) (hn : n ≤ 2 ^ s.xlen.bits) :
    ∀ i, i < n → (s.storeValue ea n v).byteAt (s.byteAddr ea i) = v.extractLsb' (8 * i) 8 := by
  intro i hi
  rw [State.byteAt, s.storeValue_content ea v hn hi]; rfl

/-! ### The lists of cached-data states and of fetch views -/

theorem State.sparseGet_putCache_ne (s : State) (l : List (Nat × CacheByte)) (a b : Nat) (c : CacheByte) (h : b ≠ a) :
    sparseGet (s.putCache l a c) b = sparseGet l b := by
  unfold State.putCache
  split
  · exact sparseGet_sparseErase_ne l a b h
  · exact sparseGet_sparseSet_ne l a b c h

theorem State.sparseGet_putVersions_ne (s : State) (l : List (Nat × List FetchVersion)) (u w : Nat)
    (vs : List FetchVersion) (h : w ≠ u) : sparseGet (s.putVersions l u vs) w = sparseGet l w := by
  unfold State.putVersions
  split
  · exact sparseGet_sparseErase_ne l u w h
  · exact sparseGet_sparseSet_ne l u w vs h

theorem State.sorted_putCache {s : State} {l : List (Nat × CacheByte)} (a : Nat) (c : CacheByte)
    (h : sparseSorted none l = true) : sparseSorted none (s.putCache l a c) = true := by
  unfold State.putCache
  split
  · exact sparseSorted_sparseErase a h
  · exact sparseSorted_sparseSet c h (by simp)

theorem State.sorted_putVersions {s : State} {l : List (Nat × List FetchVersion)} (u : Nat) (vs : List FetchVersion)
    (h : sparseSorted none l = true) : sparseSorted none (s.putVersions l u vs) = true := by
  unfold State.putVersions
  split
  · exact sparseSorted_sparseErase u h
  · exact sparseSorted_sparseSet vs h (by simp)

/-- The cached-data state just put is the one read, where the list is sorted. -/
theorem State.cacheOf_putCache (s : State) {l : List (Nat × CacheByte)} (a : Nat) (c : CacheByte)
    (h : sparseSorted none l = true) :
    (match sparseGet (s.putCache l a c) a with
      | some c => c
      | none => { valid := true, may := [s.content a] }) = c := by
  unfold State.putCache
  by_cases hc : c = { valid := true, may := [s.content a] }
  · rw [if_pos hc, sparseGet_sparseErase_self a h, hc]
  · rw [if_neg hc, sparseGet_sparseSet_self]

/-- The fetch view just put is the one read, where the list is sorted. -/
theorem State.versionsOf_putVersions (s : State) {l : List (Nat × List FetchVersion)} (u : Nat)
    (vs : List FetchVersion) (h : sparseSorted none l = true) :
    (match sparseGet (s.putVersions l u vs) u with
      | some vs => vs
      | none => [s.currentUnit u]) = vs := by
  unfold State.putVersions
  by_cases hc : vs = [s.currentUnit u]
  · rw [if_pos hc, sparseGet_sparseErase_self u h, hc]
  · rw [if_neg hc, sparseGet_sparseSet_self]

theorem State.currentUnit_congr {s t : State} {u : Nat} (h : ∀ k, k < 4 → t.content (u + k) = s.content (u + k)) :
    t.currentUnit u = s.currentUnit u := by
  unfold State.currentUnit
  exact List.map_congr_left fun k hk => h k (List.mem_range.mp hk)

theorem unitOf_add {u k : Nat} (hu : u % 4 = 0) (hk : k < 4) : unitOf (u + k) = u := by unfold unitOf; omega

theorem unitOf_mod (a : Nat) : unitOf a % 4 = 0 := by unfold unitOf; omega

theorem unitOf_add_mod (a : Nat) : unitOf a + a % 4 = a := by unfold unitOf; omega

theorem unitOf_le (a : Nat) : unitOf a ≤ a := by unfold unitOf; omega

/-! ### Other bytes and other units keep their cached-data state and fetch view -/

theorem State.writePart_cacheAt_outside (s : State) (cells : List Host.Cell) (atomic : Bool) (a : Nat) (h : a ∉ cells.map Prod.fst) :
    (s.writePart cells atomic).cacheAt a = s.cacheAt a := by
  have hm : (s.writePart cells atomic).content a = s.content a :=
    foldl_sparseSet_ne _ _ _ fun _ hc e => h (e ▸ List.mem_map_of_mem (f := Prod.fst) hc)
  have hg : sparseGet (s.writePart cells atomic).cache a = sparseGet s.cache a := by
    unfold State.writePart
    simp only
    generalize s.setMem cells = m
    generalize s.cache = l
    suffices H : ∀ (cs : List Host.Cell) (l : List (Nat × CacheByte)), a ∉ cs.map Prod.fst →
        sparseGet (cs.foldl (fun l c => m.putCache l c.1 (storedCache (s.cacheAt c.1) c.2)) l) a = sparseGet l a from
      H cells l h
    intro cs
    induction cs with
    | nil => intro l _; rfl
    | cons c rest ih =>
      intro l hc
      simp only [List.map_cons, List.mem_cons, not_or] at hc
      rw [List.foldl_cons, ih _ hc.2, m.sparseGet_putCache_ne _ _ _ _ hc.1]
  unfold State.cacheAt
  rw [hg, hm]

theorem State.writePart_versionsAt_outside (s : State) (cells : List Host.Cell) (atomic : Bool) (u : Nat) (hu : u % 4 = 0)
    (h : ∀ a ∈ cells.map Prod.fst, unitOf a ≠ u) : (s.writePart cells atomic).versionsAt u = s.versionsAt u := by
  have hg : sparseGet (s.writePart cells atomic).fetchView u = sparseGet s.fetchView u := by
    unfold State.writePart
    simp only
    generalize s.setMem cells = m
    generalize s.fetchView = l
    have hu : u ∉ addNew [] (cells.map fun c => unitOf c.1) := by
      rw [mem_addNew]
      simp only [List.not_mem_nil, false_or, List.mem_map, not_exists, not_and]
      exact fun c hc e => h c.1 (List.mem_map_of_mem (f := Prod.fst) hc) e
    generalize addNew [] (cells.map fun c => unitOf c.1) = us at hu
    suffices H : ∀ (us : List Nat) (l : List (Nat × List FetchVersion)), u ∉ us →
        sparseGet (us.foldl (fun l u => m.putVersions l u (storedVersions u cells atomic (s.versionsAt u))) l) u =
          sparseGet l u from H us l hu
    intro us
    induction us with
    | nil => intro l _; rfl
    | cons w rest ih =>
      intro l hc
      simp only [List.mem_cons, not_or] at hc
      rw [List.foldl_cons, ih _ hc.2, m.sparseGet_putVersions_ne _ _ _ _ hc.1]
  unfold State.versionsAt
  rw [hg]
  cases hc : sparseGet s.fetchView u with
  | some vs => rfl
  | none =>
    simp only [List.cons.injEq, and_true]
    apply State.currentUnit_congr
    intro k hk
    refine foldl_sparseSet_ne _ _ _ fun c hc e => h c.1 (List.mem_map_of_mem (f := Prod.fst) hc) ?_
    rw [e, unitOf_add hu hk]

theorem CachesKept.refl (s : State) (l : List Nat) : CachesKept s s l := ⟨fun _ _ => rfl, fun _ _ _ => rfl⟩

theorem CachesKept.trans {s t u : State} {l : List Nat} (h : CachesKept s t l) (k : CachesKept t u l) :
    CachesKept s u l :=
  ⟨fun a ha => (k.cache a ha).trans (h.cache a ha), fun w hw hl => (k.fetch w hw hl).trans (h.fetch w hw hl)⟩

theorem CachesKept.mono {s t : State} {l m : List Nat} (h : CachesKept s t l) (hs : ∀ a ∈ l, a ∈ m) :
    CachesKept s t m :=
  ⟨fun a ha => h.cache a fun hl => ha (hs a hl), fun w hw hl => h.fetch w hw fun a ha => hl a (hs a ha)⟩

theorem State.writePart_cachesKept (s : State) (cells : List Host.Cell) (atomic : Bool) :
    CachesKept s (s.writePart cells atomic) (cells.map Prod.fst) :=
  ⟨fun a ha => s.writePart_cacheAt_outside cells atomic a ha, fun u hu h => s.writePart_versionsAt_outside cells atomic u hu h⟩

/-- Outside the bytes stored every cached-data state, and outside their units every fetch view, is as before. -/
theorem State.writeBytes_cachesKept (s : State) (addrs : List Nat) (bytes : List Byte) (atomic : Bool) :
    CachesKept s (s.writeBytes addrs bytes atomic) addrs := by
  have hz : ∀ a ∈ (addrs.zip bytes).map Prod.fst, a ∈ addrs := by
    intro a ha
    obtain ⟨c, hc, rfl⟩ := List.mem_map.mp ha
    exact (List.of_mem_zip hc).1
  exact (s.writePart_cachesKept _ _).mono hz

theorem State.storeValue_cachesKept (s : State) (ea : Word) (n : Nat) (v : Word) :
    CachesKept s (s.storeValue ea n v) (s.addrs ea n) := s.writeBytes_cachesKept _ _ _

end Sys2Proof.Machine
end

