-- ==== Sys2Proof/Laws/Outcome.lean ====
section
/-! SUPPORT. What the operations that answer an outcome can do, one lemma for each: retiring, taking an exception, jumping,
the ordinary load and store, and permission. -/

namespace Sys2Proof.Machine

/-! ### Retiring -/

/-- `t` is `u` but for pc, instret and tick. -/
structure Retired (u t : State) (next : Word) : Prop where
  pc : t.pc = wrap u.xlen next
  instret : t.instret = u.instret + 1
  tick : t.tick = u.tick + 1
  cfg : t.cfg = u.cfg
  env : t.env = u.env
  regs : t.regs = u.regs
  ssp : t.ssp = u.ssp
  elp : t.elp = u.elp
  cycle : t.cycle = u.cycle
  time : t.time = u.time
  mem : t.mem = u.mem
  cache : t.cache = u.cache
  fetchView : t.fetchView = u.fetchView
  trap : t.trap = u.trap

/-- Retiring always answers a next state. -/
theorem State.retireTo_next (u : State) (a : Word) : ∃ t, u.retireTo a = .next t ∧ Retired u t a :=
  ⟨_, rfl, rfl, rfl, rfl, rfl, rfl, rfl, rfl, rfl, rfl, rfl, rfl, rfl, rfl, rfl⟩

theorem Retired.x {u t : State} {a : Word} (h : Retired u t a) (r : Reg) : t.x r = u.x r :=
  State.x_congr h.cfg h.regs r

theorem Retired.sspv {u t : State} {a : Word} (h : Retired u t a) : t.sspv = u.sspv := State.sspv_congr h.cfg h.ssp

theorem Retired.byteAt {u t : State} {a : Word} (h : Retired u t a) (b : Nat) : t.byteAt b = u.byteAt b :=
  State.byteAt_congr h.mem b

theorem Retired.cacheAt {u t : State} {a : Word} (h : Retired u t a) (b : Nat) : t.cacheAt b = u.cacheAt b :=
  State.cacheAt_congr h.mem h.cache b

theorem Retired.versionsAt {u t : State} {a : Word} (h : Retired u t a) (b : Nat) : t.versionsAt b = u.versionsAt b :=
  State.versionsAt_congr h.mem h.fetchView b

theorem Retired.pcv {u t : State} {a : Word} (h : Retired u t a) : t.pcv = wrap u.xlen a := by
  rw [State.pcv, h.pc, State.xlen, h.cfg]; exact wrap_wrap _ _

/-- `u` has the pc, the counters, the setup and the trap of `s`: it differs in registers, ssp, ELP and memory at most. -/
structure SameFlow (s u : State) : Prop where
  cfg : u.cfg = s.cfg
  env : u.env = s.env
  pc : u.pc = s.pc
  instret : u.instret = s.instret
  trap : u.trap = s.trap

theorem SameFlow.refl (s : State) : SameFlow s s := ⟨rfl, rfl, rfl, rfl, rfl⟩

theorem MemOnly.sameFlow {s u : State} (h : MemOnly s u) : SameFlow s u := ⟨h.cfg, h.env, h.pc, h.instret, h.trap⟩

/-- Retiring a state of the same flow completes the instruction. -/
theorem SameFlow.completed {s u t : State} {a : Word} (h : SameFlow s u) (r : Retired u t a) :
    Completed s t (wrap s.xlen a) := by
  refine ⟨?_, ?_, r.trap.trans h.trap, r.cfg.trans h.cfg, r.env.trans h.env⟩
  · rw [r.pcv, State.xlen, h.cfg]; rfl
  · rw [r.instret, h.instret]

theorem SameFlow.pcPlus {s u : State} (h : SameFlow s u) (n : Nat) : u.pcPlus n = s.pcPlus n := by
  simp only [State.pcPlus, State.pcv, State.xlen, h.cfg, h.pc]

/-- Retiring past the instruction. -/
theorem SameFlow.retire {s u : State} (h : SameFlow s u) (n : Nat) :
    ∃ t, u.retire n = .next t ∧ Retired u t (s.pcPlus n) ∧ Completed s t (s.after n) := by
  obtain ⟨t, ht, r⟩ := u.retireTo_next (u.pcPlus n)
  refine ⟨t, ht, h.pcPlus n ▸ r, ?_⟩
  have c := h.completed r
  rw [h.pcPlus, s.pcPlus_eq_after] at c
  rwa [State.after, truncTo, wrap_wrap] at c

/-- An instruction that only retires only advances. -/
theorem State.retire_onlyAdvanced (s : State) (n : Nat) : ∃ t, s.retire n = .next t ∧ OnlyAdvanced s t n := by
  obtain ⟨t, ht, r, c⟩ := (SameFlow.refl s).retire n
  exact ⟨t, ht, c, fun q _ => r.x q, fun a _ => r.byteAt a, ⟨r.sspv, r.elp, r.cycle, r.time⟩,
    fun a _ => r.cacheAt a, fun u _ _ => r.versionsAt u⟩

theorem State.setX_sameFlow (s : State) (rd : Reg) (v : Word) : SameFlow s (s.setX rd v) := ⟨rfl, rfl, rfl, rfl, rfl⟩

/-- Writing a register and retiring. -/
theorem State.setX_retire (s : State) (rd : Reg) {v : Word} (n : Nat) (hv : wrap s.xlen v = v) :
    ∃ t, (s.setX rd v).retire n = .next t ∧ WroteReg s t rd v n := by
  obtain ⟨t, ht, r, c⟩ := (s.setX_sameFlow rd v).retire n
  refine ⟨t, ht, ?_, c, ?_, fun a _ => r.byteAt a, ⟨r.sspv, r.elp, r.cycle, r.time⟩, fun a _ => r.cacheAt a,
    fun u _ _ => r.versionsAt u⟩
  · rw [r.x, s.x_setX_self, hv]
  · intro q hq; rw [r.x]; exact s.regsKept_setX rd v q hq

/-! ### Taking an exception -/

/-- `t` is `u` with the record of an exception, and nothing else but tick changed. -/
structure Raised (u t : State) (cause : Cause) (tval : Word) : Prop where
  record : t.trap = some { cause := cause, epc := u.pcv, tval := tval, priv := u.env.priv, elp := u.elp }
  tick : t.tick = u.tick + 1
  cfg : t.cfg = u.cfg
  env : t.env = u.env
  regs : t.regs = u.regs
  pc : t.pc = u.pc
  ssp : t.ssp = u.ssp
  elp : t.elp = u.elp
  instret : t.instret = u.instret
  cycle : t.cycle = u.cycle
  time : t.time = u.time
  mem : t.mem = u.mem
  cache : t.cache = u.cache
  fetchView : t.fetchView = u.fetchView

theorem State.raise_next (u : State) (c : Cause) (v : Word) : ∃ t, u.raise c v = .next t ∧ Raised u t c v :=
  ⟨_, rfl, rfl, rfl, rfl, rfl, rfl, rfl, rfl, rfl, rfl, rfl, rfl, rfl, rfl, rfl⟩

/-- An exception is recorded and writes nothing else (60_exceptions.md R460, R461). -/
theorem State.raise_tookTrap (s : State) (c : Cause) (v : Word) : ∃ t, s.raise c v = .next t ∧ TookTrap s t c v := by
  obtain ⟨t, ht, r⟩ := s.raise_next c v
  refine ⟨t, ht, ⟨r.record, State.pcv_congr r.cfg r.pc, r.instret,
    ⟨State.sspv_congr r.cfg r.ssp, r.elp, r.cycle, r.time⟩, r.cfg, r.env⟩, fun q _ => State.x_congr r.cfg r.regs q,
    fun a _ => State.byteAt_congr r.mem a, fun a _ => State.cacheAt_congr r.mem r.cache a,
    fun u _ _ => State.versionsAt_congr r.mem r.fetchView u⟩

/-- Illegal-instruction and virtual-instruction record 0 or the instruction bits (60_exceptions.md R452). -/
theorem State.raiseIllegal_took (s : State) (c : Cause) (i : Instr) : TookIllegal s (s.raiseIllegal c i) c i := by
  obtain ⟨t, ht, r⟩ := s.raise_tookTrap c (s.illegalTval (instrBits i))
  refine ⟨t, _, ht, ?_, r⟩
  unfold State.illegalTval
  split
  · exact .inl rfl
  · exact .inr rfl

/-! ### Jumps -/

/-- A jump to an aligned target. -/
theorem State.jump_aligned (s : State) (rd : Reg) {link t : Word} (elp : Elp) (hl : wrap s.xlen link = link)
    (ht : wrap s.xlen t = t) (ha : s.targetOk t) :
    ∃ u, s.jump rd link t elp = .next u ∧ Jumped s u t rd link elp := by
  have hf : SameFlow s ((s.setX rd link).setElp elp) := ⟨rfl, rfl, rfl, rfl, rfl⟩
  obtain ⟨u, hu, r⟩ := ((s.setX rd link).setElp elp).retireTo_next t
  refine ⟨u, ?_, ?_, r.elp, ht ▸ hf.completed r, ?_, fun a _ => r.byteAt a, r.sspv, ⟨r.cycle, r.time⟩,
    fun a _ => r.cacheAt a, fun w _ _ => r.versionsAt w⟩
  · rw [State.jump, if_pos]
    · exact hu
    · exact ha
  · rw [r.x]; exact (s.x_setX_self rd link).trans (by rw [hl])
  · intro q hq; rw [r.x]; exact s.regsKept_setX rd link q hq

/-- A jump to a misaligned target takes the exception and writes nothing (49_base_subset.md R420). -/
theorem State.jump_misaligned (s : State) (rd : Reg) (link t : Word) (elp : Elp) (ha : ¬ s.targetOk t) :
    ∃ u, s.jump rd link t elp = .next u ∧ TookTrap s u .instrAddrMisaligned t := by
  rw [State.jump, if_neg]
  · exact s.raise_tookTrap _ _
  · exact ha

/-! ### Permission -/

theorem Denial.hits_iff (d : Denial) (kinds : List AccessKind) (addrs : List Nat) :
    d.hits kinds addrs ↔ ∃ k ∈ kinds, (d.kinds.contains k && d.covers addrs) = true := by
  have hc : d.covers addrs = true ↔
      match d.scope with
      | .touching => ∃ a ∈ addrs, d.inRange a
      | .starting minLen maxLen =>
        (∃ a, addrs.head? = some a ∧ d.inRange a) ∧ minLen ≤ addrs.length ∧ addrs.length ≤ maxLen := by
    unfold Denial.covers Denial.inRange
    cases d.scope <;> simp [and_assoc, Option.any_eq_true]
  simp only [Denial.hits, Bool.and_eq_true, List.contains_iff_mem]
  exact ⟨fun ⟨⟨k, hk, h1⟩, h2⟩ => ⟨k, hk, h1, hc.mpr h2⟩, fun ⟨k, hk, h1, h2⟩ => ⟨⟨k, hk, h1⟩, hc.mp h2⟩⟩

/-- The reasons for which an access is refused are those of the entries that hit it. -/
theorem State.mem_reasons {s : State} {kinds : List AccessKind} {addrs : List Nat} {w : Why} :
    w ∈ (kinds.flatMap fun k => s.reasons k addrs) ↔ ∃ d ∈ s.env.denied, d.why = w ∧ d.hits kinds addrs := by
  simp only [List.mem_flatMap, State.reasons, List.mem_map, List.mem_filter, Denial.hits_iff]
  constructor
  · rintro ⟨k, hk, d, ⟨hd, hc⟩, hw⟩; exact ⟨d, hd, hw, k, hk, hc⟩
  · rintro ⟨d, hd, hw, k, hk, hc⟩; exact ⟨k, hk, d, ⟨hd, hc⟩, hw⟩

theorem worst_eq_none {ws : List Why} : worst ws = none ↔ ws = [] := by
  unfold worst
  split
  · rename_i h; simp; rintro rfl; simp at h
  · split
    · rename_i h; simp; rintro rfl; simp at h
    · split
      · rename_i h; simp; rintro rfl; simp at h
      · rename_i h1 h2 h3
        simp only [true_iff]
        apply List.eq_nil_iff_forall_not_mem.mpr
        intro w hw
        cases w
        · exact h1 hw
        · exact h2 hw
        · exact h3 hw

theorem worst_eq_some {ws : List Why} {w : Why} : worst ws = some w ↔ w ∈ ws ∧ ∀ v ∈ ws, w.rank ≤ v.rank := by
  unfold worst
  by_cases h1 : Why.page ∈ ws
  · rw [if_pos h1]
    constructor
    · rintro ⟨⟩; exact ⟨h1, fun v _ => Nat.zero_le _⟩
    · rintro ⟨_, h⟩; have := h _ h1; cases w <;> simp_all [Why.rank]
  · rw [if_neg h1]
    by_cases h2 : Why.guest ∈ ws
    · rw [if_pos h2]
      constructor
      · rintro ⟨⟩; refine ⟨h2, fun v hv => ?_⟩; cases v <;> simp_all [Why.rank]
      · rintro ⟨hw, h⟩; have := h _ h2; cases w <;> simp_all [Why.rank]
    · rw [if_neg h2]
      by_cases h3 : Why.access ∈ ws
      · rw [if_pos h3]
        constructor
        · rintro ⟨⟩; refine ⟨h3, fun v hv => ?_⟩; cases v <;> simp_all [Why.rank]
        · rintro ⟨hw, h⟩; cases w <;> simp_all
      · rw [if_neg h3]
        constructor
        · rintro ⟨⟩
        · rintro ⟨hw, h⟩; cases w <;> simp_all

/-- `Permitted` answers yes exactly where no entry hits the access. -/
theorem State.denial_eq_none {s : State} {kinds : List AccessKind} {addrs : List Nat} :
    s.denial kinds addrs = none ↔ s.permits kinds addrs := by
  rw [State.denial, worst_eq_none, List.eq_nil_iff_forall_not_mem]
  constructor
  · intro h d hd hh; exact h d.why (State.mem_reasons.mpr ⟨d, hd, rfl, hh⟩)
  · intro h w hw
    obtain ⟨d, hd, _, hh⟩ := State.mem_reasons.mp hw
    exact h d hd hh

/-- `Permitted` refuses with the highest-ranked reason of the entries that hit the access. -/
theorem State.denial_eq_some {s : State} {kinds : List AccessKind} {addrs : List Nat} {w : Why} :
    s.denial kinds addrs = some w ↔ s.refuses kinds addrs w := by
  rw [State.denial, worst_eq_some, State.mem_reasons]
  constructor
  · rintro ⟨h1, h2⟩
    exact ⟨h1, fun d hd hh => h2 _ (State.mem_reasons.mpr ⟨d, hd, rfl, hh⟩)⟩
  · rintro ⟨h1, h2⟩
    refine ⟨h1, fun v hv => ?_⟩
    obtain ⟨d, hd, rfl, hh⟩ := State.mem_reasons.mp hv
    exact h2 d hd hh

/-- No byte of an access that runs byte by byte is refused exactly where each byte access is permitted. -/
theorem State.firstDenied_eq_none {s : State} {kinds : List AccessKind} {addrs : List Nat} :
    s.firstDenied kinds addrs = none ↔ ∀ a ∈ addrs, s.permits kinds [a] := by
  induction addrs with
  | nil => simp [State.firstDenied]
  | cons a rest ih =>
    unfold State.firstDenied
    cases h : s.denial kinds [a] with
    | none => simp only [ih, List.forall_mem_cons, ← State.denial_eq_none (addrs := [a]), h, true_and]
    | some w =>
      simp only [reduceCtorEq, false_iff]
      intro hall
      have := State.denial_eq_none.mpr (hall a (List.mem_cons_self ..))
      rw [h] at this; cases this

/-- The first refused byte of an access that runs byte by byte. -/
theorem State.firstDenied_append {s : State} {kinds : List AccessKind} {before after : List Nat} {a : Nat} {w : Why}
    (hb : ∀ b ∈ before, s.permits kinds [b]) (ha : s.refuses kinds [a] w) :
    s.firstDenied kinds (before ++ a :: after) = some (a, w) := by
  induction before with
  | nil => simp only [List.nil_append, State.firstDenied, State.denial_eq_some.mpr ha]
  | cons b rest ih =>
    simp only [List.cons_append, State.firstDenied, State.denial_eq_none.mpr (hb b (List.mem_cons_self ..))]
    exact ih fun c hc => hb c (List.mem_cons_of_mem _ hc)

theorem aligned_iff {ea : Word} {n : Nat} : aligned ea n = true ↔ ea.toNat % n = 0 := by simp [aligned]

theorem misalignedSupported_iff {c : Cfg} :
    misalignedSupported c = true ↔ c.misalignedOK = true ∨ c.ext.zicclsm = true := by simp [misalignedSupported]

theorem loadCause_eq (w : Why) : loadCause w = loadFault w := by cases w <;> rfl

theorem fetchCause_eq (w : Why) : fetchCause w = fetchFault w := by cases w <;> rfl

theorem storeCause_eq (w : Why) : storeCause w = storeFault w := by cases w <;> rfl

/-! ### The ordinary access -/

/-- An ordinary access raises nothing where it is aligned or may be misaligned, and permitted. -/
theorem State.accessFault_eq_none {s : State} {kinds : List AccessKind} {cause : Why → Cause} {mis : Cause} {ea : Word}
    {n : Nat} (ha : s.alignmentOk ea n) (hp : s.permitsAccess kinds ea n) :
    s.accessFault kinds cause mis ea n = none := by
  unfold State.accessFault
  unfold State.permitsAccess at hp
  split
  · rename_i h
    rw [if_pos (aligned_iff.mp h)] at hp
    rw [State.denial_eq_none.mpr hp]; rfl
  · rename_i h
    rw [if_neg fun e => h (aligned_iff.mpr e)] at hp
    rw [if_pos, State.firstDenied_eq_none.mpr]
    · rfl
    · intro a hm
      obtain ⟨i, hi, rfl⟩ := State.mem_addrs.mp hm
      exact hp i hi
    · exact misalignedSupported_iff.mpr (ha.resolve_left fun e => h (aligned_iff.mpr e))

theorem State.accessFault_misaligned {s : State} {kinds : List AccessKind} {cause : Why → Cause} {mis : Cause}
    {ea : Word} {n : Nat} (ha : ¬ s.alignmentOk ea n) : s.accessFault kinds cause mis ea n = some (mis, ea) := by
  unfold State.alignmentOk at ha
  rw [not_or] at ha
  rw [State.accessFault, if_neg (fun h => ha.1 (aligned_iff.mp h)),
    if_neg (fun h => ha.2 (misalignedSupported_iff.mp h))]

theorem State.accessFault_refused {s : State} {kinds : List AccessKind} {cause : Why → Cause} {mis : Cause} {ea : Word}
    {n : Nat} {w : Why} (ha : ea.toNat % n = 0) (hr : s.refuses kinds (s.addrs ea n) w) :
    s.accessFault kinds cause mis ea n = some (cause w, ea) := by
  rw [State.accessFault, if_pos (aligned_iff.mpr ha), State.denial_eq_some.mpr hr]; rfl

theorem State.addrs_split (s : State) (ea : Word) {k n : Nat} (h : k < n) :
    ∃ rest, s.addrs ea n = s.addrs ea k ++ s.byteAddr ea k :: rest := by
  obtain ⟨m, rfl⟩ : ∃ m, n = k + (m + 1) := ⟨n - k - 1, by omega⟩
  refine ⟨(List.range m).map fun i => s.byteAddr ea (k + (i + 1)), ?_⟩
  simp only [State.addrs, List.range_add, List.map_append, List.map_map, List.range_succ_eq_map, List.map_cons,
    Function.comp_def, Nat.add_zero]

theorem State.accessFault_byte {s : State} {kinds : List AccessKind} {cause : Why → Cause} {mis : Cause} {ea : Word}
    {n k : Nat} {w : Why} (hk : k < n) (hn : ea.toNat % n ≠ 0) (ha : s.alignmentOk ea n)
    (hp : ∀ i, i < k → s.permits kinds [s.byteAddr ea i]) (hr : s.refuses kinds [s.byteAddr ea k] w) :
    s.accessFault kinds cause mis ea n = some (cause w, BitVec.ofNat 64 (s.byteAddr ea k)) := by
  obtain ⟨rest, he⟩ := s.addrs_split ea hk
  rw [State.accessFault, if_neg (fun h => hn (aligned_iff.mp h)),
    if_pos (misalignedSupported_iff.mpr (ha.resolve_left hn)), he, State.firstDenied_append _ hr]
  · rfl
  · intro a hm
    obtain ⟨i, hi, rfl⟩ := State.mem_addrs.mp hm
    exact hp i hi

/-- An ordinary load that raises nothing uses the value loaded. -/
theorem State.load_ok {s : State} {kind : AccessKind} {ea : Word} {n : Nat} (use : Word → Out)
    (ha : s.alignmentOk ea n) (hp : s.permitsAccess [kind] ea n) :
    s.load kind ea n use = use (s.loadValue ea n) := by
  rw [State.load, State.accessFault_eq_none ha hp]

/-- An ordinary store that raises nothing goes on after it. -/
theorem State.store_ok {s : State} {kind : AccessKind} {ea : Word} {n : Nat} (v : Word) (after : State → Out)
    (ha : s.alignmentOk ea n) (hp : s.permitsAccess [kind] ea n) :
    s.store kind ea n v after = after (s.storeValue ea n v) := by
  rw [State.store, State.accessFault_eq_none ha hp]

/-- An ordinary load traps as `AccessTraps` says. -/
theorem State.load_traps {s : State} {kind : AccessKind} {ea : Word} {n : Nat} {use : Word → Out} {i : Instr}
    (h : exec i s = s.load kind ea n use) : AccessTraps s i kind loadFault .loadAddrMisaligned ea n := by
  refine ⟨fun ha => ?_, fun w ha hr => ?_, fun k w hk hn ha hp hr => ?_⟩
  · rw [h, State.load, State.accessFault_misaligned ha]; exact s.raise_tookTrap _ _
  · rw [h, State.load, State.accessFault_refused ha hr, ← loadCause_eq]; exact s.raise_tookTrap _ _
  · rw [h, State.load, State.accessFault_byte hk hn ha hp hr, ← loadCause_eq]; exact s.raise_tookTrap _ _

/-- An ordinary store traps as `AccessTraps` says. -/
theorem State.store_traps {s : State} {kind : AccessKind} {ea v : Word} {n : Nat} {after : State → Out} {i : Instr}
    (h : exec i s = s.store kind ea n v after) : AccessTraps s i kind storeFault .storeAddrMisaligned ea n := by
  refine ⟨fun ha => ?_, fun w ha hr => ?_, fun k w hk hn ha hp hr => ?_⟩
  · rw [h, State.store, State.accessFault_misaligned ha]; exact s.raise_tookTrap _ _
  · rw [h, State.store, State.accessFault_refused ha hr, ← storeCause_eq]; exact s.raise_tookTrap _ _
  · rw [h, State.store, State.accessFault_byte hk hn ha hp hr, ← storeCause_eq]; exact s.raise_tookTrap _ _

/-! ### Values loaded -/

/-- A draw from a list is a member of it. -/
theorem pick_mem {α : Type} (n : Nat) {l : List α} (d : α) (h : l ≠ []) : pick n l d ∈ l := by
  match l, h with
  | [a], _ => exact List.mem_cons_self ..
  | a :: b :: rest, _ =>
    have hlt : n % (rest.length + 2) < (a :: b :: rest).length := by
      simp only [List.length_cons]; exact Nat.mod_lt _ (Nat.succ_pos _)
    rw [pick, List.getD_eq_getElem?_getD, List.getElem?_eq_getElem hlt, Option.getD_some]
    exact List.getElem_mem hlt

/-- What a load sees of a byte is current where the copy is valid. -/
theorem State.loadContent_of_valid {s : State} {a : Nat} (h : (s.cacheAt a).valid = true) :
    s.loadContent a = s.content a := by rw [State.loadContent, if_pos h]

theorem State.loadByte_of_valid {s : State} {a : Nat} (h : (s.cacheAt a).valid = true) : s.loadByte a = s.byteAt a := by
  rw [State.loadByte, State.loadContent_of_valid h]; rfl

/-- The byte a load returns is one it may return. -/
theorem State.mayLoad_loadByte (s : State) (a : Nat) : s.mayLoad a (s.loadByte a) := by
  unfold State.mayLoad State.loadByte State.loadContent
  cases hv : (s.cacheAt a).valid with
  | true => exact .inl rfl
  | false =>
    rw [if_neg (by simp)]
    split
    · rename_i hn; exact .inr ⟨rfl, .inl hn⟩
    · by_cases h : (s.cacheAt a).may = []
      · rw [h]; exact .inl rfl
      · exact .inr ⟨rfl, .inr ⟨_, pick_mem _ _ h, rfl⟩⟩

/-- The bytes a load returns. -/
theorem State.mayLoadAll_loadBytes (s : State) (ea : Word) (n : Nat) :
    s.mayLoadAll ea n ((s.addrs ea n).map s.loadByte) := by
  refine ⟨by simp, fun i h => ?_⟩
  rw [List.getElem_map, s.getElem_addrs]
  exact s.mayLoad_loadByte _

theorem leNat_lt (l : List Byte) : leNat l < 2 ^ (8 * l.length) := by
  induction l with
  | nil => simp [leNat]
  | cons b rest ih =>
    have hb := b.isLt
    simp only [leNat, List.length_cons]
    have he : 2 ^ (8 * (rest.length + 1)) = 256 * 2 ^ (8 * rest.length) := by
      rw [show 8 * (rest.length + 1) = 8 + 8 * rest.length by omega, Nat.pow_add]
    omega

/-- The word of bytes is their value modulo 2^64. -/
theorem leWord_toNat (l : List Byte) : (leWord l).toNat = leNat l % 2 ^ 64 := by
  induction l with
  | nil => rfl
  | cons b rest ih =>
    have hb := b.isLt
    have hd : (b.setWidth 64 &&& (leWord rest <<< 8)) = 0 := by
      apply BitVec.eq_of_getLsbD_eq
      intro i hi
      simp only [BitVec.getLsbD_and, BitVec.getLsbD_setWidth, BitVec.getLsbD_shiftLeft]
      by_cases h : i < 8
      · simp [h]
      · simp [BitVec.getLsbD_of_ge b i (by omega)]
    have ha : b.setWidth 64 ||| (leWord rest <<< 8) = b.setWidth 64 + (leWord rest <<< 8) := by
      rw [BitVec.add_eq_or_of_and_eq_zero _ _ hd]
    simp only [leWord, leNat]
    rw [ha, BitVec.toNat_add, BitVec.toNat_shiftLeft, BitVec.toNat_setWidth, ih]
    rw [Nat.shiftLeft_eq]
    omega

theorem State.loadValue_toNat (s : State) (ea : Word) {n : Nat} (hn : n ≤ 8) :
    (s.loadValue ea n).toNat = leNat ((s.addrs ea n).map s.loadByte) := by
  rw [State.loadValue, leWord_toNat, Nat.mod_eq_of_lt]
  refine Nat.lt_of_lt_of_le (leNat_lt _) ?_
  simp only [List.length_map, State.length_addrs]
  exact Nat.pow_le_pow_right (by omega) (by omega)

end Sys2Proof.Machine
end

