-- ==== Sys2Proof/Laws/Invariant.lean ====
section
/-! SUPPORT. What the operations on the cached-data state and the fetch view do exactly, from a state that meets the
invariant, and that each keeps the invariant. -/

namespace Sys2Proof.Machine

/-! ### Folds of puts -/

theorem State.foldl_putCache_self (s m : State) (cells : List Host.Cell) (l : List (Nat × CacheByte))
    (hn : (cells.map Prod.fst).Nodup) (hl : sparseSorted none l = true) (c : Host.Cell) (hc : c ∈ cells) :
    (match sparseGet (cells.foldl (fun l c => m.putCache l c.1 (storedCache (s.cacheAt c.1) c.2)) l) c.1 with
      | some c => c
      | none => { valid := true, may := [m.content c.1] }) = storedCache (s.cacheAt c.1) c.2 := by
  induction cells generalizing l with
  | nil => simp at hc
  | cons d rest ih =>
    simp only [List.map_cons, List.nodup_cons] at hn
    rw [List.foldl_cons]
    rcases List.mem_cons.mp hc with rfl | hc
    · have hg : ∀ (cs : List Host.Cell) (l : List (Nat × CacheByte)), c.1 ∉ cs.map Prod.fst →
          sparseGet (cs.foldl (fun l c => m.putCache l c.1 (storedCache (s.cacheAt c.1) c.2)) l) c.1 =
            sparseGet l c.1 := by
        intro cs
        induction cs with
        | nil => intro l _; rfl
        | cons e cs ih =>
          intro l he
          simp only [List.map_cons, List.mem_cons, not_or] at he
          rw [List.foldl_cons, ih _ he.2, m.sparseGet_putCache_ne _ _ _ _ he.1]
      rw [hg _ _ hn.1]
      exact m.cacheOf_putCache c.1 _ hl
    · exact ih _ hn.2 (State.sorted_putCache _ _ hl) hc

theorem State.foldl_putVersions_self (m : State) (f : Nat → List FetchVersion) (us : List Nat)
    (l : List (Nat × List FetchVersion)) (hn : us.Nodup) (hl : sparseSorted none l = true) (u : Nat) (hu : u ∈ us) :
    (match sparseGet (us.foldl (fun l u => m.putVersions l u (f u)) l) u with
      | some vs => vs
      | none => [m.currentUnit u]) = f u := by
  induction us generalizing l with
  | nil => simp at hu
  | cons w rest ih =>
    simp only [List.nodup_cons] at hn
    rw [List.foldl_cons]
    rcases List.mem_cons.mp hu with rfl | hu
    · have hg : ∀ (vs : List Nat) (l : List (Nat × List FetchVersion)), u ∉ vs →
          sparseGet (vs.foldl (fun l u => m.putVersions l u (f u)) l) u = sparseGet l u := by
        intro vs
        induction vs with
        | nil => intro l _; rfl
        | cons e vs ih =>
          intro l he
          simp only [List.mem_cons, not_or] at he
          rw [List.foldl_cons, ih _ he.2, m.sparseGet_putVersions_ne _ _ _ _ he.1]
      rw [hg _ _ hn.1]
      exact m.versionsOf_putVersions u _ hl
    · exact ih _ hn.2 (State.sorted_putVersions _ _ hl) hu

/-! ### A store part, exactly -/

theorem State.writePart_content (s : State) (cells : List Host.Cell) (atomic : Bool) (hn : (cells.map Prod.fst).Nodup) (c : Host.Cell)
    (hc : c ∈ cells) : (s.writePart cells atomic).content c.1 = some c.2 := foldl_sparseSet_mem _ _ hn c hc

theorem State.writePart_content_outside (s : State) (cells : List Host.Cell) (atomic : Bool) (a : Nat) (h : a ∉ cells.map Prod.fst) :
    (s.writePart cells atomic).content a = s.content a :=
  foldl_sparseSet_ne _ _ _ fun _ hc e => h (e ▸ List.mem_map_of_mem (f := Prod.fst) hc)

/-- A byte stored is valid, and its value joins what memory may hold (48_cmo.md R380). -/
theorem State.writePart_cacheAt (s : State) (cells : List Host.Cell) (atomic : Bool) (hn : (cells.map Prod.fst).Nodup)
    (hs : sparseSorted none s.cache = true) (c : Host.Cell) (hc : c ∈ cells) :
    (s.writePart cells atomic).cacheAt c.1 = storedCache (s.cacheAt c.1) c.2 :=
  s.foldl_putCache_self (s.setMem cells) cells s.cache hn hs c hc

/-- The fetch view of a unit stored to holds its earlier states, before and after the store (20_memory.md R102). -/
theorem State.writePart_versionsAt (s : State) (cells : List Host.Cell) (atomic : Bool) (hs : sparseSorted none s.fetchView = true)
    (c : Host.Cell) (hc : c ∈ cells) :
    (s.writePart cells atomic).versionsAt (unitOf c.1) =
      storedVersions (unitOf c.1) cells atomic (s.versionsAt (unitOf c.1)) := by
  have hm : unitOf c.1 ∈ addNew [] (cells.map fun d : Host.Cell => unitOf d.1) :=
    mem_addNew.mpr (.inr (List.mem_map.mpr ⟨c, hc, rfl⟩))
  exact (s.setMem cells).foldl_putVersions_self (fun u => storedVersions u cells atomic (s.versionsAt u))
    _ s.fetchView (nodup_addNew List.nodup_nil) hs (unitOf c.1) hm

theorem sparseGet_of_mem_nodup {α : Type} {l : List (Nat × α)} (hn : (l.map Prod.fst).Nodup) {p : Nat × α}
    (hp : p ∈ l) : sparseGet l p.1 = some p.2 := by
  induction l with
  | nil => simp at hp
  | cons q rest ih =>
    obtain ⟨k, w⟩ := q
    simp only [List.map_cons, List.nodup_cons] at hn
    simp only [sparseGet]
    rcases List.mem_cons.mp hp with rfl | hp
    · simp
    · rw [if_neg]
      · exact ih hn.2 hp
      · intro e; exact hn.1 (e ▸ List.mem_map_of_mem (f := Prod.fst) hp)

theorem sparseGet_eq_none_of_not_mem {α : Type} {l : List (Nat × α)} {a : Nat} (h : a ∉ l.map Prod.fst) :
    sparseGet l a = none := by
  cases hg : sparseGet l a with
  | none => rfl
  | some v => exact absurd (List.mem_map_of_mem (f := Prod.fst) (mem_of_sparseGet hg)) h

/-- The current state of a unit after a store is the stored-to form of the one before. -/
theorem State.writePart_currentUnit (s : State) (cells : List Host.Cell) (atomic : Bool) (hn : (cells.map Prod.fst).Nodup) (u : Nat) :
    (s.writePart cells atomic).currentUnit u = applyCells u cells (s.currentUnit u) := by
  unfold State.currentUnit applyCells
  apply List.map_congr_left
  intro k hk
  rw [List.mem_range] at hk
  by_cases h : u + k ∈ cells.map Prod.fst
  · obtain ⟨c, hc, e⟩ := List.mem_map.mp h
    rw [← e, sparseGet_of_mem_nodup hn hc, s.writePart_content cells atomic hn c hc]
  · rw [sparseGet_eq_none_of_not_mem h, s.writePart_content_outside cells atomic _ h]
    have : k < ((List.range 4).map fun k => s.content (u + k)).length := by simpa using hk
    simp [List.getD_eq_getElem?_getD, hk]

/-! ### The default states -/

theorem State.cacheAt_eq (s : State) (a : Nat) :
    (∃ c, (a, c) ∈ s.cache ∧ s.cacheAt a = c) ∨ s.cacheAt a = { valid := true, may := [s.content a] } := by
  unfold State.cacheAt
  cases hg : sparseGet s.cache a with
  | none => exact .inr rfl
  | some c => exact .inl ⟨c, mem_of_sparseGet hg, rfl⟩

/-- The current content is among what memory may hold. -/
theorem Inv.content_mem_may {s : State} (h : Inv s) (a : Nat) : s.content a ∈ (s.cacheAt a).may := by
  rcases s.cacheAt_eq a with ⟨c, hc, e⟩ | e
  · rw [e]; exact (h.cacheEntries _ hc).2.2
  · rw [e]; exact List.mem_singleton.mpr rfl

theorem Inv.nodup_may {s : State} (h : Inv s) (a : Nat) : (s.cacheAt a).may.Nodup := by
  rcases s.cacheAt_eq a with ⟨c, hc, e⟩ | e
  · rw [e]; exact (h.cacheEntries _ hc).2.1
  · rw [e]; simp

theorem State.versionsAt_eq (s : State) (u : Nat) :
    (∃ vs, (u, vs) ∈ s.fetchView ∧ s.versionsAt u = vs) ∨ s.versionsAt u = [s.currentUnit u] := by
  unfold State.versionsAt
  cases hg : sparseGet s.fetchView u with
  | none => exact .inr rfl
  | some vs => exact .inl ⟨vs, mem_of_sparseGet hg, rfl⟩

theorem State.getD_currentUnit (s : State) (u : Nat) {k : Nat} (hk : k < 4) :
    (s.currentUnit u).getD k none = s.content (u + k) := by
  simp [State.currentUnit, List.getD_eq_getElem?_getD, hk]

/-- The latest state a fetch may see of a unit holds the current content of each byte whose copy is valid. -/
theorem Inv.head_versions {s : State} (h : Inv s) (u : Nat) :
    ∃ v rest, s.versionsAt u = v :: rest ∧
      ∀ k, k < 4 → (s.cacheAt (u + k)).valid = true → v.getD k none = s.content (u + k) := by
  rcases s.versionsAt_eq u with ⟨vs, hc, e⟩ | e
  · obtain ⟨v, hv, hk⟩ := (h.fetchEntries _ hc).2.2.2.2
    cases vs with
    | nil => cases hv
    | cons w rest => cases hv; exact ⟨_, rest, e, hk⟩
  · exact ⟨_, [], e, fun k hk _ => s.getD_currentUnit u hk⟩

theorem Inv.nodup_versions {s : State} (h : Inv s) (u : Nat) : (s.versionsAt u).Nodup := by
  rcases s.versionsAt_eq u with ⟨c, hc, e⟩ | e
  · rw [e]; exact (h.fetchEntries _ hc).2.2.1
  · rw [e]; simp

theorem length_applyCells (u : Nat) (cells : List Host.Cell) (v : FetchVersion) : (applyCells u cells v).length = 4 := by
  simp [applyCells]

theorem Inv.length_version {s : State} (h : Inv s) {u : Nat} {v : FetchVersion} (hv : v ∈ s.versionsAt u) :
    v.length = 4 := by
  rcases s.versionsAt_eq u with ⟨c, hc, e⟩ | e
  · rw [e] at hv; exact (h.fetchEntries _ hc).2.2.2.1 v hv
  · rw [e, List.mem_singleton] at hv; rw [hv]; simp [State.currentUnit]

/-! ### The states of a unit that a store adds -/

theorem getD_applyCells (u : Nat) (cells : List Host.Cell) (v : FetchVersion) {k : Nat} (hk : k < 4) :
    (applyCells u cells v).getD k none =
      match sparseGet cells (u + k) with
      | some b => some b
      | none => v.getD k none := by
  cases h : sparseGet cells (u + k) <;> simp [applyCells, List.getD_eq_getElem?_getD, hk, h]

/-- While a store proceeds each byte of a unit is as before or as stored. -/
theorem getD_storeStates {u : Nat} {cells : List Host.Cell} {v w : FetchVersion} (hw : w ∈ storeStates u cells v)
    {k : Nat} (hk : k < 4) :
    w.getD k none = v.getD k none ∨ ∃ c ∈ cells, c.1 = u + k ∧ w.getD k none = some c.2 := by
  have H : ∀ (cs : List Host.Cell) (vs : List FetchVersion) (w : FetchVersion),
      w ∈ cs.foldl (fun vs c => vs ++ vs.map (applyCells u [c])) vs →
        ∃ w' ∈ vs, w.getD k none = w'.getD k none ∨ ∃ c ∈ cs, c.1 = u + k ∧ w.getD k none = some c.2 := by
    intro cs
    induction cs with
    | nil => intro vs w hw; exact ⟨w, hw, .inl rfl⟩
    | cons c rest ih =>
      intro vs w hw
      obtain ⟨w', hw', h⟩ := ih _ w hw
      have lift : (∃ d ∈ rest, d.1 = u + k ∧ w.getD k none = some d.2) →
          ∃ d ∈ c :: rest, d.1 = u + k ∧ w.getD k none = some d.2 :=
        fun ⟨d, hd, h⟩ => ⟨d, List.mem_cons_of_mem _ hd, h⟩
      rcases List.mem_append.mp hw' with hw' | hw'
      · exact ⟨w', hw', h.imp_right lift⟩
      · obtain ⟨x, hx, rfl⟩ := List.mem_map.mp hw'
        refine ⟨x, hx, ?_⟩
        rcases h with h | h
        · rw [getD_applyCells u [c] x hk] at h
          by_cases hc : c.1 = u + k
          · rw [show sparseGet [c] (u + k) = some c.2 by simp [sparseGet, hc]] at h
            exact .inr ⟨c, List.mem_cons_self .., hc, h⟩
          · rw [show sparseGet [c] (u + k) = none by simp [sparseGet, hc]] at h
            exact .inl h
        · exact .inr (lift h)
  obtain ⟨w', hw', h⟩ := H _ _ w hw
  rw [List.mem_singleton] at hw'
  rw [hw'] at h
  exact h.imp_right fun ⟨c, hc, h⟩ => ⟨c, (List.mem_filter.mp hc).1, h⟩

theorem length_storeStates {u : Nat} {cells : List Host.Cell} {v w : FetchVersion} (hv : v.length = 4)
    (hw : w ∈ storeStates u cells v) : w.length = 4 := by
  have H : ∀ (cs : List Host.Cell) (vs : List FetchVersion), (∀ x ∈ vs, x.length = 4) →
      ∀ x ∈ cs.foldl (fun vs c => vs ++ vs.map (applyCells u [c])) vs, x.length = 4 := by
    intro cs
    induction cs with
    | nil => exact fun vs h => h
    | cons c rest ih =>
      intro vs h
      refine ih _ fun x hx => ?_
      rcases List.mem_append.mp hx with hx | hx
      · exact h x hx
      · obtain ⟨y, _, rfl⟩ := List.mem_map.mp hx
        exact length_applyCells _ _ _
  exact H _ _ (by simpa using hv) w hw

/-- The states of a unit after a store: the one after it, the earlier ones, and those while it proceeds. -/
theorem mem_storedVersions {u : Nat} {cells : List Host.Cell} {atomic : Bool} {vs : List FetchVersion}
    {v : FetchVersion} :
    v ∈ storedVersions u cells atomic vs ↔ v = applyCells u cells (vs.headD []) ∨ v ∈ vs ∨
      (atomic = false ∧ v ∈ storeStates u cells (vs.headD [])) := by
  simp only [storedVersions, List.mem_cons, List.mem_filter, mem_addNew, bne_iff_ne, ne_eq]
  by_cases h : v = applyCells u cells (vs.headD [])
  · simp only [h, true_or]
  · cases atomic <;> simp only [h, not_false_eq_true, and_true, false_or, if_true, if_false, List.not_mem_nil,
      Bool.true_eq_false, Bool.false_eq_true, false_and, or_false, true_and]

theorem nodup_storedVersions {u : Nat} {cells : List Host.Cell} {atomic : Bool} {vs : List FetchVersion}
    (h : vs.Nodup) : (storedVersions u cells atomic vs).Nodup := by
  rw [storedVersions, List.nodup_cons]
  exact ⟨by simp, (nodup_addNew h).filter _⟩

/-! ### What a store adds to the copies and to the fetch view -/

/-- F(a) is what the states of its unit hold at `a` (20_memory.md R102). -/
theorem State.mem_fetchSet {s : State} {a : Nat} {c : Content} :
    c ∈ s.fetchSet a ↔ ∃ v ∈ s.versionsAt (unitOf a), v.getD (a % 4) none = c := by
  simp [State.fetchSet, mem_addNew]

/-- A store part adds the bytes stored to what a fetch may see, and nothing else (20_memory.md R102). -/
theorem Inv.writePart_fetchSet {s : State} (h : Inv s) (cells : List Host.Cell) (atomic : Bool)
    (hn : (cells.map Prod.fst).Nodup) (a : Nat) (c : Content) :
    c ∈ (s.writePart cells atomic).fetchSet a ↔ c ∈ s.fetchSet a ∨ ∃ d ∈ cells, d.1 = a ∧ c = some d.2 := by
  have hk : a % 4 < 4 := Nat.mod_lt _ (by decide)
  rw [State.mem_fetchSet, State.mem_fetchSet]
  by_cases hin : ∃ d ∈ cells, unitOf d.1 = unitOf a
  · obtain ⟨d, hd, e⟩ := hin
    rw [← e, s.writePart_versionsAt cells atomic h.fetchView.1 d hd, e]
    obtain ⟨last, before, hvs, _⟩ := h.head_versions (unitOf a)
    have hl : (s.versionsAt (unitOf a)).headD [] = last := by rw [hvs]; rfl
    have hlm : last ∈ s.versionsAt (unitOf a) := by rw [hvs]; exact List.mem_cons_self ..
    constructor
    · rintro ⟨v, hv, rfl⟩
      rcases mem_storedVersions.mp hv with rfl | hv | ⟨_, hv⟩
      · rw [hl, getD_applyCells _ _ _ hk, unitOf_add_mod]
        split
        · rename_i b hb; exact .inr ⟨(a, b), mem_of_sparseGet hb, rfl, rfl⟩
        · exact .inl ⟨last, hlm, rfl⟩
      · exact .inl ⟨v, hv, rfl⟩
      · rw [hl] at hv
        rcases getD_storeStates hv hk with e | ⟨d, hd, e1, e2⟩
        · exact .inl ⟨last, hlm, e.symm⟩
        · exact .inr ⟨d, hd, by rw [e1, unitOf_add_mod], e2⟩
    · rintro (⟨v, hv, rfl⟩ | ⟨d, hd, rfl, rfl⟩)
      · exact ⟨v, mem_storedVersions.mpr (.inr (.inl hv)), rfl⟩
      · refine ⟨_, mem_storedVersions.mpr (.inl rfl), ?_⟩
        rw [getD_applyCells _ _ _ hk, unitOf_add_mod, sparseGet_of_mem_nodup hn hd]
  · rw [s.writePart_versionsAt_outside cells atomic _ (unitOf_mod a) fun x hx e => by
      obtain ⟨d, hd, rfl⟩ := List.mem_map.mp hx; exact hin ⟨d, hd, e⟩]
    refine ⟨.inl, ?_⟩
    rintro (h | ⟨d, hd, rfl, _⟩)
    · exact h
    · exact absurd ⟨d, hd, rfl⟩ hin

/-- What a store part of the bytes `byte i` at `addr i` leaves in the copies and in the fetch view. -/
theorem Inv.writePart_seen {s : State} (h : Inv s) {cells : List Host.Cell} (atomic : Bool)
    (hn : (cells.map Prod.fst).Nodup) {addr : Nat → Nat} {n : Nat} {byte : Nat → Byte}
    (hc : ∀ c, c ∈ cells ↔ ∃ i, i < n ∧ c = (addr i, byte i)) :
    StoreSeen s (s.writePart cells atomic) addr n byte := by
  have key : ∀ i, i < n → (s.writePart cells atomic).cacheAt (addr i) = storedCache (s.cacheAt (addr i)) (byte i) :=
    fun i hi => s.writePart_cacheAt cells atomic hn h.cache.1 (addr i, byte i) ((hc _).mpr ⟨i, hi, rfl⟩)
  refine ⟨fun i hi => by rw [key i hi]; rfl, fun i c hi => ?_, fun a c => ?_⟩
  · rw [key i hi]; simp [storedCache, mem_addNew]
  · rw [h.writePart_fetchSet cells atomic hn]
    refine or_congr_right ⟨?_, ?_⟩
    · rintro ⟨d, hd, rfl, rfl⟩
      obtain ⟨i, hi, rfl⟩ := (hc _).mp hd
      exact ⟨i, hi, rfl, rfl⟩
    · rintro ⟨i, hi, rfl, rfl⟩
      exact ⟨_, (hc _).mpr ⟨i, hi, rfl⟩, rfl, rfl⟩

/-! ### Entries of the lists after a fold of puts -/

theorem State.mem_putCache {s : State} {l : List (Nat × CacheByte)} {a : Nat} {c : CacheByte} {p : Nat × CacheByte}
    (h : p ∈ s.putCache l a c) : (p = (a, c) ∧ c ≠ { valid := true, may := [s.content a] }) ∨ p ∈ l := by
  unfold State.putCache at h
  split at h
  · exact .inr (mem_sparseErase h)
  · rename_i hc
    rcases mem_sparseSet h with e | e
    · exact .inl ⟨e, hc⟩
    · exact .inr e

theorem State.mem_putVersions {s : State} {l : List (Nat × List FetchVersion)} {u : Nat} {vs : List FetchVersion}
    {p : Nat × List FetchVersion} (h : p ∈ s.putVersions l u vs) :
    (p = (u, vs) ∧ vs ≠ [s.currentUnit u]) ∨ p ∈ l := by
  unfold State.putVersions at h
  split at h
  · exact .inr (mem_sparseErase h)
  · rename_i hc
    rcases mem_sparseSet h with e | e
    · exact .inl ⟨e, hc⟩
    · exact .inr e

/-- The key of a sorted list's entry is found with its value, or the key is put. -/
theorem State.mem_foldl_putCache {s m : State} {cells : List Host.Cell} {l : List (Nat × CacheByte)}
    {p : Nat × CacheByte}
    (h : p ∈ cells.foldl (fun l c => m.putCache l c.1 (storedCache (s.cacheAt c.1) c.2)) l) :
    (p.1 ∈ cells.map Prod.fst ∧ p.2 ≠ { valid := true, may := [m.content p.1] }) ∨ p ∈ l := by
  induction cells generalizing l with
  | nil => exact .inr h
  | cons c rest ih =>
    rw [List.foldl_cons] at h
    rcases ih h with h | h
    · exact .inl ⟨List.mem_cons_of_mem _ h.1, h.2⟩
    · rcases State.mem_putCache h with ⟨rfl, hc⟩ | h
      · exact .inl ⟨List.mem_cons_self .., hc⟩
      · exact .inr h

theorem State.mem_foldl_putVersions {m : State} {f : Nat → List FetchVersion} {us : List Nat}
    {l : List (Nat × List FetchVersion)} {p : Nat × List FetchVersion}
    (h : p ∈ us.foldl (fun l u => m.putVersions l u (f u)) l) :
    (p.1 ∈ us ∧ p.2 = f p.1 ∧ p.2 ≠ [m.currentUnit p.1]) ∨ p ∈ l := by
  induction us generalizing l with
  | nil => exact .inr h
  | cons u rest ih =>
    rw [List.foldl_cons] at h
    rcases ih h with h | h
    · exact .inl ⟨List.mem_cons_of_mem _ h.1, h.2⟩
    · rcases State.mem_putVersions h with ⟨rfl, hc⟩ | h
      · exact .inl ⟨List.mem_cons_self .., rfl, hc⟩
      · exact .inr h

theorem State.sorted_foldl_putVersions {m : State} {f : Nat → List FetchVersion} {us : List Nat}
    {l : List (Nat × List FetchVersion)} (h : sparseSorted none l = true) :
    sparseSorted none (us.foldl (fun l u => m.putVersions l u (f u)) l) = true := by
  induction us generalizing l with
  | nil => exact h
  | cons u rest ih => exact ih (State.sorted_putVersions _ _ h)

/-! ### The parts of the invariant that an update does not touch -/

/-- A listed fetch view stays right where the contents are kept and no copy becomes valid. -/
theorem State.fetchEntryOk_of {s t : State} {p : Nat × List FetchVersion} (h : s.fetchEntryOk p)
    (hc : ∀ k, k < 4 → t.content (p.1 + k) = s.content (p.1 + k))
    (hv : ∀ k, k < 4 → (t.cacheAt (p.1 + k)).valid = true → (s.cacheAt (p.1 + k)).valid = true) : t.fetchEntryOk p := by
  obtain ⟨h1, h2, h3, h4, v, h5, h6⟩ := h
  exact ⟨h1, State.currentUnit_congr hc ▸ h2, h3, h4, v, h5, fun k hk e => (h6 k hk (hv k hk e)).trans (hc k hk).symm⟩

/-- The invariant looks at XLEN, the registers, pc, ssp, the writable bits of ssp, IALIGN, and the three lists. -/
theorem Inv.of_eq {s t : State} (h : Inv s) (hc : t.cfg = s.cfg) (hr : t.regs = s.regs) (hp : t.pc = s.pc)
    (hs : t.ssp = s.ssp) (hm : t.mem = s.mem) (hk : t.cache = s.cache) (hf : t.fetchView = s.fetchView) : Inv t := by
  have hx : t.xlen = s.xlen := by rw [State.xlen, hc]; rfl
  have hct : ∀ a, t.content a = s.content a := fun a => by rw [State.content, hm]; rfl
  refine ⟨?_, ?_, ?_, ?_, ?_, ?_, ?_, ?_, ?_, ?_, ?_⟩
  · rw [hx, hm]; exact h.mem
  · rw [hx, hk]; exact h.cache
  · rw [hk]; intro p hpc
    have := h.cacheEntries p hpc
    unfold State.cacheEntryOk at *
    rwa [hct]
  · rw [hx, hf]; exact h.fetchView
  · rw [hf]; intro p hpc
    refine State.fetchEntryOk_of (h.fetchEntries p hpc) (fun k _ => hct _) fun k _ e => ?_
    rwa [State.cacheAt_congr hm hk] at e
  · rw [hr]; exact h.zero
  · rw [hr, hx]; exact h.regs
  · rw [hx, hp]; exact h.pc
  · rw [hc, hp]; exact h.pcAligned
  · rw [hx, hs]; exact h.ssp
  · rw [hc, hs]; exact h.sspAligned

/-- A store part keeps the invariant. -/
theorem Inv.writePart {s : State} (h : Inv s) (cells : List Host.Cell) (atomic : Bool) (hn : (cells.map Prod.fst).Nodup)
    (hlt : ∀ c ∈ cells, c.1 < 2 ^ s.xlen.bits) : Inv (s.writePart cells atomic) := by
  have sortedC : sparseSorted none (s.writePart cells atomic).cache = true := by
    show sparseSorted none (cells.foldl _ s.cache) = true
    generalize hl : s.cache = l
    have hl' : sparseSorted none l = true := hl ▸ h.cache.1
    clear hl
    generalize s.setMem cells = m
    clear hn hlt
    induction cells generalizing l with
    | nil => exact hl'
    | cons c rest ih => exact ih _ (State.sorted_putCache _ _ hl')
  have sortedF : sparseSorted none (s.writePart cells atomic).fetchView = true := by
    exact State.sorted_foldl_putVersions h.fetchView.1
  have memC : ∀ p ∈ (s.writePart cells atomic).cache, (p.1 ∈ cells.map Prod.fst ∧
      p.2 ≠ { valid := true, may := [(s.writePart cells atomic).content p.1] }) ∨ p ∈ s.cache :=
    fun p hp => State.mem_foldl_putCache (m := s.setMem cells) hp
  have memF : ∀ p ∈ (s.writePart cells atomic).fetchView, (p.1 ∈ addNew [] (cells.map fun c => unitOf c.1) ∧
      p.2 = storedVersions p.1 cells atomic (s.versionsAt p.1) ∧ p.2 ≠ [(s.writePart cells atomic).currentUnit p.1]) ∨ p ∈ s.fetchView :=
    fun p hp => State.mem_foldl_putVersions (m := s.setMem cells)
      (f := fun u => storedVersions u cells atomic (s.versionsAt u)) hp
  refine ⟨⟨?_, ?_⟩, ⟨sortedC, ?_⟩, ?_, ⟨sortedF, ?_⟩, ?_, h.zero, h.regs, h.pc, h.pcAligned, h.ssp, h.sspAligned⟩
  · exact s.writePart_wf cells atomic h.mem.1
  · intro p hp
    have hmem : p ∈ cells ∨ p ∈ s.mem := by
      change p ∈ cells.foldl (fun m c => sparseSet m c.1 c.2) s.mem at hp
      generalize s.mem = m at hp
      clear hn hlt sortedC sortedF memC memF
      induction cells generalizing m with
      | nil => exact .inr hp
      | cons c rest ih =>
        rcases ih _ hp with hp | hp
        · exact .inl (List.mem_cons_of_mem _ hp)
        · rcases mem_sparseSet hp with rfl | hp
          · exact .inl (List.mem_cons_self ..)
          · exact .inr hp
    rcases hmem with hp | hp
    · exact hlt p hp
    · exact h.mem.2 p hp
  · intro p hp
    rcases memC p hp with ⟨hp, _⟩ | hp
    · obtain ⟨c, hc, e⟩ := List.mem_map.mp hp
      rw [← e]; exact hlt c hc
    · exact h.cache.2 p hp
  · intro p hp
    by_cases hin : p.1 ∈ cells.map Prod.fst
    · obtain ⟨c, hc, e⟩ := List.mem_map.mp hin
      have hg : (s.writePart cells atomic).cacheAt p.1 = p.2 := by
        rw [State.cacheAt, sparseGet_of_mem sortedC hp]
      rw [← e, s.writePart_cacheAt cells atomic hn h.cache.1 c hc] at hg
      have hne : p.2 ≠ { valid := true, may := [(s.writePart cells atomic).content p.1] } := by
        rcases memC p hp with ⟨_, hne⟩ | hold
        · exact hne
        · intro heq
          have hgc : sparseGet (s.writePart cells atomic).cache p.1 = some p.2 := sparseGet_of_mem sortedC hp
          have hfold : ∀ (cs : List Host.Cell) (l : List (Nat × CacheByte)), sparseSorted none l = true →
              (cs.map Prod.fst).Nodup → p.1 ∈ cs.map Prod.fst → sparseGet
                (cs.foldl (fun l c => (s.setMem cells).putCache l c.1 (storedCache (s.cacheAt c.1) c.2)) l) p.1 ≠
                some { valid := true, may := [(s.setMem cells).content p.1] } := by
            intro cs
            induction cs with
            | nil => intro l _ _ hm; simp at hm
            | cons d rest ih =>
              intro l hl hnd hm
              simp only [List.map_cons, List.nodup_cons] at hnd
              rw [List.foldl_cons]
              by_cases hr : p.1 ∈ rest.map Prod.fst
              · exact ih _ (State.sorted_putCache _ _ hl) hnd.2 hr
              · have hd : p.1 = d.1 := by
                  rcases List.mem_cons.mp (by simpa using hm : p.1 ∈ d.1 :: rest.map Prod.fst) with e | e
                  · exact e
                  · exact absurd e hr
                have hkeep : ∀ (cs : List Host.Cell) (l : List (Nat × CacheByte)), p.1 ∉ cs.map Prod.fst →
                    sparseGet (cs.foldl (fun l c => (s.setMem cells).putCache l c.1
                      (storedCache (s.cacheAt c.1) c.2)) l) p.1 = sparseGet l p.1 := by
                  intro cs
                  induction cs with
                  | nil => intro l _; rfl
                  | cons e cs ih =>
                    intro l he
                    simp only [List.map_cons, List.mem_cons, not_or] at he
                    rw [List.foldl_cons, ih _ he.2, State.sparseGet_putCache_ne _ _ _ _ _ he.1]
                rw [hkeep rest _ hr, hd]
                unfold State.putCache
                split
                · rw [sparseGet_sparseErase_self _ hl]; simp
                · rename_i hx
                  rw [sparseGet_sparseSet_self]
                  intro hy
                  exact hx (Option.some.inj hy)
          exact hfold cells s.cache h.cache.1 hn hin (hgc.trans (by rw [heq]; rfl))
      refine ⟨hne, ?_, ?_⟩
      · rw [← hg]; exact nodup_addNew (h.nodup_may _)
      · rw [← hg, ← e, s.writePart_content cells atomic hn c hc]
        exact mem_addNew.mpr (.inr (List.mem_singleton.mpr rfl))
    · rcases memC p hp with ⟨hp', _⟩ | hp'
      · exact absurd hp' hin
      · have := h.cacheEntries p hp'
        unfold State.cacheEntryOk at *
        rwa [s.writePart_content_outside cells atomic _ hin]
  · intro p hp
    rcases memF p hp with ⟨hp, _⟩ | hp
    · rw [mem_addNew] at hp
      obtain ⟨c, hc, e⟩ := List.mem_map.mp (hp.resolve_left (by simp))
      have := hlt c hc
      have h2 := unitOf_le c.1
      rw [← e]
      exact Nat.lt_of_le_of_lt h2 this
    · exact h.fetchView.2 p hp
  · intro p hp
    by_cases hin : ∃ c ∈ cells, unitOf c.1 = p.1
    · obtain ⟨c, hc, e⟩ := hin
      have hg : (s.writePart cells atomic).versionsAt p.1 = p.2 := by
        rw [State.versionsAt, sparseGet_of_mem sortedF hp]
      rw [← e, s.writePart_versionsAt cells atomic h.fetchView.1 c hc, e] at hg
      have hmod : p.1 % 4 = 0 := e ▸ unitOf_mod c.1
      have hne : p.2 ≠ [(s.writePart cells atomic).currentUnit p.1] := by
        rcases memF p hp with ⟨_, _, hne⟩ | hold
        · exact hne
        · intro heq
          have hin' : p.1 ∈ addNew [] (cells.map fun c => unitOf c.1) :=
            mem_addNew.mpr (.inr (List.mem_map.mpr ⟨c, hc, e⟩))
          have hnd : (addNew [] (cells.map fun c => unitOf c.1)).Nodup := nodup_addNew List.nodup_nil
          have hgc : sparseGet (s.writePart cells atomic).fetchView p.1 = some p.2 := sparseGet_of_mem sortedF hp
          have hfold : ∀ (us : List Nat) (l : List (Nat × List FetchVersion)), sparseSorted none l = true →
              us.Nodup → p.1 ∈ us → sparseGet
                (us.foldl (fun l u => (s.setMem cells).putVersions l u
                  (storedVersions u cells atomic (s.versionsAt u))) l) p.1 ≠ some [(s.setMem cells).currentUnit p.1] := by
            intro us
            induction us with
            | nil => intro l _ _ hm; simp at hm
            | cons d rest ih =>
              intro l hl hnd hm
              simp only [List.nodup_cons] at hnd
              rw [List.foldl_cons]
              by_cases hr : p.1 ∈ rest
              · exact ih _ (State.sorted_putVersions _ _ hl) hnd.2 hr
              · have hd : p.1 = d := by
                  rcases List.mem_cons.mp hm with e | e
                  · exact e
                  · exact absurd e hr
                have hkeep : ∀ (us : List Nat) (l : List (Nat × List FetchVersion)), p.1 ∉ us →
                    sparseGet (us.foldl (fun l u => (s.setMem cells).putVersions l u
                      (storedVersions u cells atomic (s.versionsAt u))) l) p.1 = sparseGet l p.1 := by
                  intro us
                  induction us with
                  | nil => intro l _; rfl
                  | cons e us ih =>
                    intro l he
                    simp only [List.mem_cons, not_or] at he
                    rw [List.foldl_cons, ih _ he.2, State.sparseGet_putVersions_ne _ _ _ _ _ he.1]
                rw [hkeep rest _ hr, hd]
                unfold State.putVersions
                split
                · rw [sparseGet_sparseErase_self _ hl]; simp
                · rename_i hx
                  rw [sparseGet_sparseSet_self]
                  intro hy
                  exact hx (Option.some.inj hy)
          exact hfold _ s.fetchView h.fetchView.1 hnd hin' (hgc.trans (by rw [heq]; rfl))
      obtain ⟨last, before, hvs, hlast⟩ := h.head_versions p.1
      refine ⟨hmod, hne, ?_, ?_, applyCells p.1 cells last, ?_, ?_⟩
      · rw [← hg]; exact nodup_storedVersions (h.nodup_versions _)
      · rw [← hg]
        intro v hv
        rcases mem_storedVersions.mp hv with rfl | hv | ⟨_, hv⟩
        · exact length_applyCells _ _ _
        · exact h.length_version hv
        · refine length_storeStates ?_ hv
          rw [hvs]; exact h.length_version (hvs ▸ List.mem_cons_self ..)
      · rw [← hg, hvs]; rfl
      · intro k hk hv
        rw [getD_applyCells _ _ _ hk]
        by_cases hin : p.1 + k ∈ cells.map Prod.fst
        · obtain ⟨d, hd, ed⟩ := List.mem_map.mp hin
          rw [← ed, sparseGet_of_mem_nodup hn hd, s.writePart_content cells atomic hn d hd]
        · rw [sparseGet_eq_none_of_not_mem hin, s.writePart_content_outside cells atomic _ hin]
          rw [s.writePart_cacheAt_outside cells atomic _ hin] at hv
          exact hlast k hk hv
    · have hold : p ∈ s.fetchView := by
        rcases memF p hp with ⟨hp', _⟩ | hp'
        · rw [mem_addNew] at hp'
          obtain ⟨c, hc, e⟩ := List.mem_map.mp (hp'.resolve_left (by simp))
          exact absurd ⟨c, hc, e⟩ hin
        · exact hp'
      have hok := h.fetchEntries p hold
      have hout : ∀ k, k < 4 → p.1 + k ∉ cells.map Prod.fst := fun k hk hx => by
        obtain ⟨c, hc, e⟩ := List.mem_map.mp hx
        exact hin ⟨c, hc, by rw [e]; exact unitOf_add hok.1 hk⟩
      refine State.fetchEntryOk_of hok (fun k hk => s.writePart_content_outside cells atomic _ (hout k hk)) ?_
      intro k hk e
      rwa [s.writePart_cacheAt_outside cells atomic _ (hout k hk)] at e

theorem map_fst_zip_sublist {α β : Type} (l : List α) (m : List β) : ((l.zip m).map Prod.fst).Sublist l := by
  induction l generalizing m with
  | nil => simp
  | cons a l ih =>
    cases m with
    | nil => simp
    | cons b m => simpa using ih m

/-- A store keeps the invariant. -/
theorem Inv.writeBytes {s : State} (h : Inv s) (addrs : List Nat) (bytes : List Byte) (atomic : Bool)
    (hn : addrs.Nodup) (hlt : ∀ a ∈ addrs, a < 2 ^ s.xlen.bits) : Inv (s.writeBytes addrs bytes atomic) :=
  h.writePart _ _ (hn.sublist (map_fst_zip_sublist addrs bytes)) fun _ hc => hlt _ (List.of_mem_zip hc).1

theorem Inv.storeValue {s : State} (h : Inv s) (ea : Word) {n : Nat} (v : Word) (hn : n ≤ 2 ^ s.xlen.bits) :
    Inv (s.storeValue ea n v) := by
  refine h.writeBytes _ _ _ (s.nodup_addrs ea hn) ?_
  intro a ha
  obtain ⟨i, _, rfl⟩ := State.mem_addrs.mp ha
  exact s.byteAddr_lt ea i

/-- The cached-data state set is the one read. -/
theorem Inv.cacheAt_setCache {s : State} (h : Inv s) (a : Nat) (c : CacheByte) : (s.setCache a c).cacheAt a = c :=
  s.cacheOf_putCache a c h.cache.1

theorem State.cacheAt_setCache_ne (s : State) (a b : Nat) (c : CacheByte) (hb : b ≠ a) :
    (s.setCache a c).cacheAt b = s.cacheAt b := by
  unfold State.cacheAt
  rw [show sparseGet (s.setCache a c).cache b = sparseGet s.cache b from s.sparseGet_putCache_ne _ _ _ _ hb]
  rfl

/-- Setting the cached-data state of a byte keeps the invariant, where the state is a set that holds the content and does
not make the copy valid. -/
theorem Inv.setCache {s : State} (h : Inv s) {a : Nat} {c : CacheByte} (ha : a < 2 ^ s.xlen.bits)
    (hn : c.may.Nodup) (hc : s.content a ∈ c.may) (hv : c.valid = true → (s.cacheAt a).valid = true) :
    Inv (s.setCache a c) := by
  refine ⟨h.mem, ⟨State.sorted_putCache _ _ h.cache.1, ?_⟩, ?_, h.fetchView, ?_, h.zero, h.regs, h.pc,
    h.pcAligned, h.ssp, h.sspAligned⟩
  · intro p hp
    rcases State.mem_putCache hp with ⟨rfl, _⟩ | hp
    · exact ha
    · exact h.cache.2 p hp
  · intro p hp
    rcases State.mem_putCache hp with ⟨rfl, hne⟩ | hp
    · exact ⟨hne, hn, hc⟩
    · exact h.cacheEntries p hp
  · intro p hp
    refine State.fetchEntryOk_of (h.fetchEntries p hp) (fun _ _ => rfl) fun k _ e => ?_
    by_cases hk : p.1 + k = a
    · rw [hk, h.cacheAt_setCache] at e
      exact hk ▸ hv e
    · rwa [s.cacheAt_setCache_ne _ _ _ hk] at e

theorem State.cleanByte_eq (s : State) (a : Nat) :
    s.cleanByte a = if (s.cacheAt a).valid then s.setCache a { valid := true, may := [s.content a] } else s := by
  unfold State.cleanByte State.setCache
  split <;> rfl

theorem Inv.cleanByte {s : State} (h : Inv s) {a : Nat} (ha : a < 2 ^ s.xlen.bits) : Inv (s.cleanByte a) := by
  rw [State.cleanByte_eq]
  split
  · rename_i hv; exact h.setCache ha (by simp) (by simp) fun _ => hv
  · exact h

theorem Inv.flushByte {s : State} (h : Inv s) {a : Nat} (ha : a < 2 ^ s.xlen.bits) : Inv (s.flushByte a) := by
  unfold State.flushByte
  refine h.setCache ha ?_ ?_ (by simp)
  · simp only; split
    · simp
    · exact h.nodup_may a
  · simp only; split
    · simp
    · exact h.content_mem_may a

theorem Inv.invalByte {s : State} (h : Inv s) {a : Nat} (ha : a < 2 ^ s.xlen.bits) : Inv (s.invalByte a) :=
  h.setCache ha (h.nodup_may a) (h.content_mem_may a) (by simp)

/-- A unit that holds a byte whose copy is not valid is listed as stale. -/
theorem State.mem_staleUnits {s : State} {a : Nat} (h : (s.cacheAt a).valid = false) : unitOf a ∈ s.staleUnits := by
  rcases s.cacheAt_eq a with ⟨c, hc, e⟩ | e
  · rw [e] at h
    exact mem_addNew.mpr (.inr (List.mem_map.mpr ⟨(a, c), List.mem_filter.mpr ⟨hc, by simp [h]⟩, rfl⟩))
  · rw [e] at h; cases h

theorem State.loadedUnit_of_valid {s : State} {u : Nat} (h : ∀ k, k < 4 → (s.cacheAt (u + k)).valid = true) :
    s.loadedUnit u = s.currentUnit u :=
  List.map_congr_left fun k hk => State.loadContent_of_valid (h k (List.mem_range.mp hk))

/-- After FENCE.I a fetch sees of each unit the one state that loads see (20_memory.md R102). -/
theorem State.fenceFetch_versionsAt (s : State) {u : Nat} (hu : u % 4 = 0) :
    s.fenceFetch.versionsAt u = [s.loadedUnit u] := by
  by_cases hm : u ∈ s.staleUnits
  · exact s.foldl_putVersions_self (fun u => [s.loadedUnit u]) _ [] (nodup_addNew List.nodup_nil) rfl u hm
  · have hg : sparseGet s.fenceFetch.fetchView u = none := by
      cases hg : sparseGet s.fenceFetch.fetchView u with
      | none => rfl
      | some v =>
        rcases State.mem_foldl_putVersions (mem_of_sparseGet hg) with ⟨h, _⟩ | h
        · exact absurd h hm
        · simp at h
    rw [State.versionsAt, hg, State.loadedUnit_of_valid]
    · rfl
    · intro k hk
      cases hv : (s.cacheAt (u + k)).valid with
      | true => rfl
      | false => exact absurd (unitOf_add hu hk ▸ State.mem_staleUnits hv) hm

theorem Inv.fenceFetch {s : State} (h : Inv s) : Inv s.fenceFetch := by
  refine ⟨h.mem, h.cache, h.cacheEntries, ⟨State.sorted_foldl_putVersions rfl, ?_⟩, ?_, h.zero, h.regs, h.pc,
    h.pcAligned, h.ssp, h.sspAligned⟩
  · intro p hp
    rcases State.mem_foldl_putVersions hp with ⟨hp, _⟩ | hp
    · obtain ⟨q, hq, e⟩ := List.mem_map.mp ((mem_addNew.mp hp).resolve_left (by simp))
      exact e ▸ Nat.lt_of_le_of_lt (unitOf_le q.1) (h.cache.2 q (List.mem_filter.mp hq).1)
    · simp at hp
  · intro p hp
    rcases State.mem_foldl_putVersions hp with ⟨hp, hv, hne⟩ | hp
    · obtain ⟨q, hq, e⟩ := List.mem_map.mp ((mem_addNew.mp hp).resolve_left (by simp))
      refine ⟨e ▸ unitOf_mod q.1, hne, by rw [hv]; simp, by rw [hv]; simp [State.loadedUnit], s.loadedUnit p.1,
        by rw [hv]; rfl, ?_⟩
      intro k hk e
      rw [show (s.loadedUnit p.1).getD k none = s.loadContent (p.1 + k) by
        simp [State.loadedUnit, List.getD_eq_getElem?_getD, hk]]
      exact State.loadContent_of_valid (s := s) e
    · simp at hp

/-- Writing a register keeps the invariant. -/
theorem Inv.setX {s : State} (h : Inv s) (r : Reg) (v : Word) : Inv (s.setX r v) := by
  by_cases hr : r = 0
  · rw [hr]; exact h
  refine ⟨h.mem, h.cache, h.cacheEntries, h.fetchView, h.fetchEntries, ?_, ?_, h.pc, h.pcAligned, h.ssp,
    h.sspAligned⟩
  · have hn : r.toNat ≠ 0 := fun e => hr (BitVec.eq_of_toNat_eq e)
    simp only [State.setX, if_neg hr, Vector.getElem_set_ne _ _ hn]
    exact h.zero
  · intro q hq
    by_cases he : r.toNat = q
    · subst he
      simp only [State.setX, if_neg hr, Vector.getElem_set_self]
      exact wrap_lt _ _
    · simp only [State.setX, if_neg hr, Vector.getElem_set_ne _ _ he]
      exact h.regs q hq

/-- Writing ssp keeps the invariant. -/
theorem Inv.setSsp {s : State} (h : Inv s) (v : Word) : Inv (s.setSsp v) := by
  refine ⟨h.mem, h.cache, h.cacheEntries, h.fetchView, h.fetchEntries, h.zero, h.regs, h.pc, h.pcAligned,
    wrap_lt _ _, ?_⟩
  show (wrap s.xlen (v &&& sspMask s.cfg)).toNat % (if s.cfg.sxlenMayBe32 then 4 else 8) = 0
  have hmask : ∀ (m : Word) (k : Nat), m = ~~~(BitVec.ofNat 64 (2 ^ k - 1)) → k = 2 ∨ k = 3 →
      (v &&& m).toNat % 2 ^ k = 0 := by
    rintro m k rfl hk
    have hb : ∀ i, i < k → (v &&& ~~~(BitVec.ofNat 64 (2 ^ k - 1))).getLsbD i = false := by
      intro i hi
      rcases hk with rfl | rfl
      · have : i = 0 ∨ i = 1 := by omega
        rcases this with rfl | rfl <;> simp
      · have : i = 0 ∨ i = 1 ∨ i = 2 := by omega
        rcases this with rfl | rfl | rfl <;> simp
    apply Nat.eq_of_testBit_eq
    intro i
    rw [Nat.testBit_mod_two_pow, Nat.zero_testBit]
    by_cases hi : i < k
    · rw [show (v &&& ~~~(BitVec.ofNat 64 (2 ^ k - 1))).toNat.testBit i = false from hb i hi]; simp
    · simp [hi]
  rw [wrap_toNat]
  have hd : ∀ n k : Nat, n % 2 ^ k = 0 → k ≤ 3 → n % 2 ^ s.xlen.bits % 2 ^ k = 0 := by
    intro n k hn hk
    rw [Nat.mod_mod_of_dvd]
    · exact hn
    · cases s.xlen <;> exact Nat.pow_dvd_pow 2 (by simp only [Xlen.bits]; omega)
  unfold sspMask
  split
  · exact hd _ 2 (hmask _ 2 rfl (.inl rfl)) (by omega)
  · exact hd _ 3 (hmask _ 3 rfl (.inr rfl)) (by omega)

end Sys2Proof.Machine
end

