-- ==== Sys2Proof/Laws/Fetch.lean ====
section
/-! SUPPORT. What a fetch can do: the outcomes of `State.fetch`, and what a fetched byte is. -/

namespace Sys2Proof.Machine

/-- The four bytes at pc are the two parcels. -/
theorem State.addrs_parcels (s : State) : s.addrs s.pcv 4 = s.addrs s.pcv 2 ++ s.addrs (s.pcPlus 2) 2 := by
  have e : ∀ i, s.byteAddr (s.pcPlus 2) i = s.byteAddr s.pcv (2 + i) := by
    intro i
    unfold State.byteAddr State.pcPlus
    rw [wrap_toNat, wrap_toNat, BitVec.toNat_add, BitVec.toNat_add, wrap_toNat, BitVec.toNat_add]
    simp only [BitVec.toNat_ofNat]
    cases s.xlen <;> simp only [Xlen.bits] <;> omega
  have l4 : List.range 4 = [0, 1, 2, 3] := rfl
  have l2 : List.range 2 = [0, 1] := rfl
  simp only [State.addrs, l4, l2, List.map_cons, List.map_nil, e]; rfl

/-- A byte announces a second parcel where its low two bits are 11 (30_encoding.md R121). -/
theorem isLongByte_eq (b : Byte) : isLongByte b = (b.toNat % 4 == 3) := by
  unfold isLongByte; revert b; decide

/-- The outcomes of a fetch: refused at the first parcel, the second or the whole, or the bytes of one or two parcels
(20_memory.md R86, 60_exceptions.md R451). -/
theorem State.fetch_cases (s : State) :
    (∃ w, s.denial [.fetch] (s.addrs s.pcv 2) = some w ∧ s.fetch = .error (fetchCause w, s.pcv)) ∨
    (s.denial [.fetch] (s.addrs s.pcv 2) = none ∧
      if (s.fetchByte (s.byteAddr s.pcv 0)).toNat % 4 = 3 then
        (∃ w, s.denial [.fetch] (s.addrs (s.pcPlus 2) 2) = some w ∧ s.fetch = .error (fetchCause w, s.pcPlus 2)) ∨
        (s.denial [.fetch] (s.addrs (s.pcPlus 2) 2) = none ∧
          ((∃ w, s.denial [.fetch] (s.addrs s.pcv 4) = some w ∧ s.fetch = .error (fetchCause w, s.pcv)) ∨
           (s.denial [.fetch] (s.addrs s.pcv 4) = none ∧ s.fetch = .ok ((s.addrs s.pcv 4).map s.fetchByte))))
      else s.fetch = .ok ((s.addrs s.pcv 2).map s.fetchByte)) := by
  have hl : isLongByte (((s.addrs s.pcv 2).map s.fetchByte).getD 0 0) =
      ((s.fetchByte (s.byteAddr s.pcv 0)).toNat % 4 == 3) := isLongByte_eq (s.fetchByte (s.byteAddr s.pcv 0))
  unfold State.fetch State.fetchParcel
  cases h1 : s.denial [.fetch] (s.addrs s.pcv 2) with
  | some w => exact .inl ⟨w, rfl, rfl⟩
  | none =>
    refine .inr ⟨rfl, ?_⟩
    simp only [hl]
    split
    · rename_i hb
      simp only [hb, beq_self_eq_true, if_true]
      cases h2 : s.denial [.fetch] (s.addrs (s.pcPlus 2) 2) with
      | some w => exact .inl ⟨w, rfl, rfl⟩
      | none =>
        refine .inr ⟨rfl, ?_⟩
        cases h3 : s.denial [.fetch] (s.addrs s.pcv 4) with
        | some w => exact .inl ⟨w, rfl, rfl⟩
        | none => refine .inr ⟨rfl, ?_⟩; rw [State.addrs_parcels, List.map_append]
    · rename_i hb
      simp [hb]

/-- The whole state a fetch draws is one of the fetch view; none is drawn only where a copy of the unit is not valid. -/
theorem Inv.fetchedVersion_cases {s : State} (h : Inv s) (a : Nat) :
    (∃ v ∈ s.versionsAt (unitOf a), s.fetchedVersion a = some v) ∨
    (s.unitStale (unitOf a) = true ∧ s.fetchedVersion a = none) := by
  obtain ⟨v, rest, e, _⟩ := h.head_versions (unitOf a)
  have hp := pick_mem (s.draw (.fetchUnit (s.unitIndex a)))
    (l := (s.versionsAt (unitOf a)).map some ++ if s.unitStale (unitOf a) then [none] else []) none (by rw [e]; simp)
  change s.fetchedVersion a ∈ _ at hp
  rcases List.mem_append.mp hp with hp | hp
  · obtain ⟨v, hv, e⟩ := List.mem_map.mp hp; exact .inl ⟨v, hv, e.symm⟩
  · split at hp
    · rename_i hs; exact .inr ⟨hs, List.mem_singleton.mp hp⟩
    · simp at hp

/-- What a fetch sees of a byte behind the caches is current where the copy is valid, else a member of `may`. -/
theorem Inv.mayContent_cases {s : State} (h : Inv s) (a : Nat) :
    if (s.cacheAt a).valid then s.mayContent a = s.content a else s.mayContent a ∈ (s.cacheAt a).may := by
  unfold State.mayContent
  split
  · rfl
  · exact pick_mem _ _ (List.ne_nil_of_mem (h.content_mem_may a))

/-- All bytes of one unit are fetched from one state of it under Ziccif (20_memory.md R86). -/
theorem State.fetchedVersion_unit (s : State) {a b : Nat} (h : unitOf a = unitOf b) :
    s.fetchedVersion a = s.fetchedVersion b := by
  unfold State.fetchedVersion State.unitIndex; rw [h]

end Sys2Proof.Machine
end

