-- ==== Sys2Proof/Laws/Pair.lean ====
section
/-! SUPPORT. What a register-pair access can do: the parts it is cut into, and those performed before one is refused. -/

namespace Sys2Proof.Machine

/-- The runs of a list are not empty and make it up. -/
theorem cutRuns_flatten {α : Type} (l : List α) (mask : Nat) :
    (cutRuns mask l).flatten = l ∧ ∀ p ∈ cutRuns mask l, p ≠ [] := by
  induction l generalizing mask with
  | nil => simp [cutRuns]
  | cons a r ih =>
    obtain ⟨h1, h2⟩ := ih (mask / 2)
    unfold cutRuns
    split
    · rename_i e; rw [e] at h1; simp at h1; simp [← h1]
    · rename_i p ps e
      rw [e] at h1 h2
      split <;> simp_all

/-- The drawn order is an order of the parts. -/
theorem State.drawnOrder_perm (s : State) (parts : List (List Nat)) (k : Nat) : (s.drawnOrder k parts).Perm parts := by
  induction parts generalizing k with
  | nil => exact List.Perm.refl _
  | cons p ps ih =>
    refine (List.perm_insertIdx p _ ?_).trans ((ih (k + 1)).cons p)
    rw [(ih (k + 1)).length_eq]
    exact Nat.le_of_lt_succ (Nat.mod_lt _ (by omega))

/-- A list of lists that are not empty is made of segments of their join. -/
theorem segment_of_flatten {α : Type} (ps : List (List α)) (hne : ∀ p ∈ ps, p ≠ []) :
    ∀ p ∈ ps, ∃ i n, 0 < n ∧ i + n ≤ ps.flatten.length ∧ p = (ps.flatten.drop i).take n := by
  induction ps with
  | nil => simp
  | cons q qs ih =>
    intro p hp
    rcases List.mem_cons.mp hp with rfl | hp
    · exact ⟨0, p.length, List.length_pos_iff.mpr (hne p (List.mem_cons_self ..)), by simp, by simp⟩
    · obtain ⟨i, n, h1, h2, h3⟩ := ih (fun x hx => hne x (List.mem_cons_of_mem _ hx)) p hp
      refine ⟨q.length + i, n, h1, by simp only [List.flatten_cons, List.length_append]; omega, ?_⟩
      rw [h3]; simp [List.drop_append, List.drop_eq_nil_of_le]

/-- The parts of a pair access are the bytes of the access in some order, each once. -/
theorem State.pairParts_perm (s : State) (ea : Word) : (s.pairParts ea).flatten.Perm (s.addrs ea 8) := by
  unfold State.pairParts
  split
  · simp
  split
  · split
    · simp
    · simp
    · simp only [List.flatten_cons, List.flatten_nil, List.append_nil]
      exact List.perm_append_comm.trans (by rw [List.take_append_drop])
  · have h := (s.drawnOrder_perm (cutRuns (s.draw .pairCut) (s.addrs ea 8)) 0).flatten
    rwa [(cutRuns_flatten _ _).1] at h

/-- Each part of a pair access is one that 44_zilsd_zclsd.md R263 allows. -/
theorem State.pairParts_part (s : State) (ea : Word) :
    ∀ p ∈ s.pairParts ea, ∃ i n, pairPart ea i n ∧ p = s.partAddrs ea i n := by
  have low : pairPart ea 0 4 := ⟨by decide, by decide, fun _ => .inr ⟨rfl, rfl⟩⟩
  have high : pairPart ea 4 4 := ⟨by decide, by decide, fun _ => .inr ⟨rfl, rfl⟩⟩
  have upper : (s.addrs ea 8).drop 4 = s.partAddrs ea 4 4 := (List.take_of_length_le (by simp)).symm
  have whole : ∃ i n, pairPart ea i n ∧ s.addrs ea 8 = s.partAddrs ea i n := by
    refine ⟨0, 8, ⟨by decide, by decide, fun _ => .inl rfl⟩, ?_⟩
    rw [State.partAddrs, List.drop_zero, List.take_of_length_le (by simp)]
  intro p hp
  unfold State.pairParts at hp
  split at hp
  · rw [List.mem_singleton] at hp; exact hp ▸ whole
  split at hp
  · split at hp
    · rw [List.mem_singleton] at hp; exact hp ▸ whole
    · rcases List.mem_cons.mp hp with rfl | hp
      · exact ⟨0, 4, low, rfl⟩
      · exact ⟨4, 4, high, (List.mem_singleton.mp hp).trans upper⟩
    · rcases List.mem_cons.mp hp with rfl | hp
      · exact ⟨4, 4, high, upper⟩
      · exact ⟨0, 4, low, List.mem_singleton.mp hp⟩
  · rename_i ha
    obtain ⟨h1, h2⟩ := cutRuns_flatten (s.addrs ea 8) (s.draw .pairCut)
    obtain ⟨i, n, a, b, c⟩ := segment_of_flatten _ h2 p ((s.drawnOrder_perm _ 0).mem_iff.mp hp)
    rw [h1] at b c
    exact ⟨i, n, ⟨a, by simpa using b, fun h => absurd h (by simpa [aligned] using ha)⟩, c⟩

/-- The parts performed are permitted; where a part is refused it is the next one, and where none is, all are performed. -/
theorem State.runParts_spec (s : State) (kind : AccessKind) (parts : List (List Nat)) :
    (∀ p ∈ (s.runParts kind parts).1, p ∈ parts ∧ s.denial [kind] p = none) ∧
    match (s.runParts kind parts).2 with
    | none => (s.runParts kind parts).1 = parts
    | some f => ∃ p rest, parts = (s.runParts kind parts).1 ++ p :: rest ∧ s.denial [kind] p = some f.2 ∧
        f.1 = p.headD 0 := by
  induction parts with
  | nil => simp [State.runParts]
  | cons p ps ih =>
    unfold State.runParts
    cases h : s.denial [kind] p with
    | some w => exact ⟨by simp, p, ps, rfl, h, rfl⟩
    | none =>
      obtain ⟨h1, h2⟩ := ih
      simp only
      refine ⟨fun q hq => ?_, ?_⟩
      · rcases List.mem_cons.mp hq with rfl | hq
        · exact ⟨List.mem_cons_self .., h⟩
        · exact ⟨List.mem_cons_of_mem _ (h1 q hq).1, (h1 q hq).2⟩
      · split at h2
        · rw [h2]
        · obtain ⟨q, rest, a, b, c⟩ := h2
          exact ⟨q, rest, by rw [List.cons_append, ← a], b, c⟩

end Sys2Proof.Machine
end

