-- ==== Sys2Proof/Laws/PerInstr.lean ====
section
/-! SUPPORT. The per-instruction family `EncodedLength`: the length of every instruction's encoding is the one the low two
bits of its first byte announce to the fetch (30_encoding.md R121). -/

namespace Sys2Proof.Laws

/-- The encoding has a first byte, and three or one bytes after it, as its two low bits say. -/
def EncodedLength.Statement (i : Instr) : Prop :=
  ∃ b rest, encode i = b :: rest ∧ rest.length = if isLongByte b then 3 else 1

theorem EncodedLength.of_word {i : Instr} {w : BitVec 32} (h : encodeBits i = .w32 w)
    (ho : (fOpcode w).extractLsb' 0 2 = 3) : EncodedLength.Statement i :=
  ⟨_, _, by rw [encode, h]; rfl, by rw [isLongByte_of_op w ho]; rfl⟩

theorem EncodedLength.of_parcel {i : Instr} {v : BitVec 16} (h : encodeBits i = .w16 v) (ho : cOp v ≠ 3) :
    EncodedLength.Statement i :=
  ⟨_, _, by rw [encode, h]; rfl, by rw [isLongByte_of_cOp v ho]; rfl⟩

/-! ### One lemma for each instruction -/

theorem EncodedLength.fenceI (funct12 : BitVec 12) (rs1 : Reg) (rd : Reg)
    : EncodedLength.Statement (.fenceI funct12 rs1 rd) :=
  EncodedLength.of_word rfl (by rw [fOpcode_encI]; rfl)

theorem EncodedLength.csrrw (rd : Reg) (rs1 : Reg) (csr : BitVec 12) : EncodedLength.Statement (.csrrw rd rs1 csr) :=
  EncodedLength.of_word rfl (by rw [fOpcode_encI]; rfl)

theorem EncodedLength.csrrs (rd : Reg) (rs1 : Reg) (csr : BitVec 12) : EncodedLength.Statement (.csrrs rd rs1 csr) :=
  EncodedLength.of_word rfl (by rw [fOpcode_encI]; rfl)

theorem EncodedLength.csrrc (rd : Reg) (rs1 : Reg) (csr : BitVec 12) : EncodedLength.Statement (.csrrc rd rs1 csr) :=
  EncodedLength.of_word rfl (by rw [fOpcode_encI]; rfl)

theorem EncodedLength.csrrwi (rd : Reg) (uimm : BitVec 5) (csr : BitVec 12)
    : EncodedLength.Statement (.csrrwi rd uimm csr) :=
  EncodedLength.of_word rfl (by rw [fOpcode_encI]; rfl)

theorem EncodedLength.csrrsi (rd : Reg) (uimm : BitVec 5) (csr : BitVec 12)
    : EncodedLength.Statement (.csrrsi rd uimm csr) :=
  EncodedLength.of_word rfl (by rw [fOpcode_encI]; rfl)

theorem EncodedLength.csrrci (rd : Reg) (uimm : BitVec 5) (csr : BitVec 12)
    : EncodedLength.Statement (.csrrci rd uimm csr) :=
  EncodedLength.of_word rfl (by rw [fOpcode_encI]; rfl)

theorem EncodedLength.mul (rd : Reg) (rs1 : Reg) (rs2 : Reg) : EncodedLength.Statement (.mul rd rs1 rs2) :=
  EncodedLength.of_word rfl (by rw [fOpcode_encR]; rfl)

theorem EncodedLength.mulh (rd : Reg) (rs1 : Reg) (rs2 : Reg) : EncodedLength.Statement (.mulh rd rs1 rs2) :=
  EncodedLength.of_word rfl (by rw [fOpcode_encR]; rfl)

theorem EncodedLength.mulhsu (rd : Reg) (rs1 : Reg) (rs2 : Reg) : EncodedLength.Statement (.mulhsu rd rs1 rs2) :=
  EncodedLength.of_word rfl (by rw [fOpcode_encR]; rfl)

theorem EncodedLength.mulhu (rd : Reg) (rs1 : Reg) (rs2 : Reg) : EncodedLength.Statement (.mulhu rd rs1 rs2) :=
  EncodedLength.of_word rfl (by rw [fOpcode_encR]; rfl)

theorem EncodedLength.div (rd : Reg) (rs1 : Reg) (rs2 : Reg) : EncodedLength.Statement (.div rd rs1 rs2) :=
  EncodedLength.of_word rfl (by rw [fOpcode_encR]; rfl)

theorem EncodedLength.divu (rd : Reg) (rs1 : Reg) (rs2 : Reg) : EncodedLength.Statement (.divu rd rs1 rs2) :=
  EncodedLength.of_word rfl (by rw [fOpcode_encR]; rfl)

theorem EncodedLength.rem (rd : Reg) (rs1 : Reg) (rs2 : Reg) : EncodedLength.Statement (.rem rd rs1 rs2) :=
  EncodedLength.of_word rfl (by rw [fOpcode_encR]; rfl)

theorem EncodedLength.remu (rd : Reg) (rs1 : Reg) (rs2 : Reg) : EncodedLength.Statement (.remu rd rs1 rs2) :=
  EncodedLength.of_word rfl (by rw [fOpcode_encR]; rfl)

theorem EncodedLength.mulw (rd : Reg) (rs1 : Reg) (rs2 : Reg) : EncodedLength.Statement (.mulw rd rs1 rs2) :=
  EncodedLength.of_word rfl (by rw [fOpcode_encR]; rfl)

theorem EncodedLength.divw (rd : Reg) (rs1 : Reg) (rs2 : Reg) : EncodedLength.Statement (.divw rd rs1 rs2) :=
  EncodedLength.of_word rfl (by rw [fOpcode_encR]; rfl)

theorem EncodedLength.divuw (rd : Reg) (rs1 : Reg) (rs2 : Reg) : EncodedLength.Statement (.divuw rd rs1 rs2) :=
  EncodedLength.of_word rfl (by rw [fOpcode_encR]; rfl)

theorem EncodedLength.remw (rd : Reg) (rs1 : Reg) (rs2 : Reg) : EncodedLength.Statement (.remw rd rs1 rs2) :=
  EncodedLength.of_word rfl (by rw [fOpcode_encR]; rfl)

theorem EncodedLength.remuw (rd : Reg) (rs1 : Reg) (rs2 : Reg) : EncodedLength.Statement (.remuw rd rs1 rs2) :=
  EncodedLength.of_word rfl (by rw [fOpcode_encR]; rfl)

theorem EncodedLength.czeroEqz (rd : Reg) (rs1 : Reg) (rs2 : Reg) : EncodedLength.Statement (.czeroEqz rd rs1 rs2) :=
  EncodedLength.of_word rfl (by rw [fOpcode_encR]; rfl)

theorem EncodedLength.czeroNez (rd : Reg) (rs1 : Reg) (rs2 : Reg) : EncodedLength.Statement (.czeroNez rd rs1 rs2) :=
  EncodedLength.of_word rfl (by rw [fOpcode_encR]; rfl)

theorem EncodedLength.ldPair (rd : Reg) (rs1 : Reg) (imm : BitVec 12)
    : EncodedLength.Statement (.ldPair rd rs1 imm) :=
  EncodedLength.of_word rfl (by rw [fOpcode_encI]; rfl)

theorem EncodedLength.sdPair (rs2 : Reg) (rs1 : Reg) (imm : BitVec 12)
    : EncodedLength.Statement (.sdPair rs2 rs1 imm) :=
  EncodedLength.of_word rfl (by rw [fOpcode_encS]; rfl)

theorem EncodedLength.cLdspPair (rd : Reg) (off : BitVec 6) : EncodedLength.Statement (.cLdspPair rd off) :=
  EncodedLength.of_parcel rfl (by rw [cOp_encCLdsp]; decide)

theorem EncodedLength.cSdspPair (rs2 : Reg) (off : BitVec 6) : EncodedLength.Statement (.cSdspPair rs2 off) :=
  EncodedLength.of_parcel rfl (by rw [cOp_encCSdsp]; decide)

theorem EncodedLength.cLdPair (rd : BitVec 3) (rs1 : BitVec 3) (off : BitVec 5)
    : EncodedLength.Statement (.cLdPair rd rs1 off) :=
  EncodedLength.of_parcel rfl (by rw [cOp_encCMem]; decide)

theorem EncodedLength.cSdPair (rs2 : BitVec 3) (rs1 : BitVec 3) (off : BitVec 5)
    : EncodedLength.Statement (.cSdPair rs2 rs1 off) :=
  EncodedLength.of_parcel rfl (by rw [cOp_encCMem]; decide)

theorem EncodedLength.mopR0 (rd : Reg) (rs1 : Reg) : EncodedLength.Statement (.mopR0 rd rs1) :=
  EncodedLength.of_word rfl (by rw [fOpcode_encMopR]; rfl)

theorem EncodedLength.mopR1 (rd : Reg) (rs1 : Reg) : EncodedLength.Statement (.mopR1 rd rs1) :=
  EncodedLength.of_word rfl (by rw [fOpcode_encMopR]; rfl)

theorem EncodedLength.mopR2 (rd : Reg) (rs1 : Reg) : EncodedLength.Statement (.mopR2 rd rs1) :=
  EncodedLength.of_word rfl (by rw [fOpcode_encMopR]; rfl)

theorem EncodedLength.mopR3 (rd : Reg) (rs1 : Reg) : EncodedLength.Statement (.mopR3 rd rs1) :=
  EncodedLength.of_word rfl (by rw [fOpcode_encMopR]; rfl)

theorem EncodedLength.mopR4 (rd : Reg) (rs1 : Reg) : EncodedLength.Statement (.mopR4 rd rs1) :=
  EncodedLength.of_word rfl (by rw [fOpcode_encMopR]; rfl)

theorem EncodedLength.mopR5 (rd : Reg) (rs1 : Reg) : EncodedLength.Statement (.mopR5 rd rs1) :=
  EncodedLength.of_word rfl (by rw [fOpcode_encMopR]; rfl)

theorem EncodedLength.mopR6 (rd : Reg) (rs1 : Reg) : EncodedLength.Statement (.mopR6 rd rs1) :=
  EncodedLength.of_word rfl (by rw [fOpcode_encMopR]; rfl)

theorem EncodedLength.mopR7 (rd : Reg) (rs1 : Reg) : EncodedLength.Statement (.mopR7 rd rs1) :=
  EncodedLength.of_word rfl (by rw [fOpcode_encMopR]; rfl)

theorem EncodedLength.mopR8 (rd : Reg) (rs1 : Reg) : EncodedLength.Statement (.mopR8 rd rs1) :=
  EncodedLength.of_word rfl (by rw [fOpcode_encMopR]; rfl)

theorem EncodedLength.mopR9 (rd : Reg) (rs1 : Reg) : EncodedLength.Statement (.mopR9 rd rs1) :=
  EncodedLength.of_word rfl (by rw [fOpcode_encMopR]; rfl)

theorem EncodedLength.mopR10 (rd : Reg) (rs1 : Reg) : EncodedLength.Statement (.mopR10 rd rs1) :=
  EncodedLength.of_word rfl (by rw [fOpcode_encMopR]; rfl)

theorem EncodedLength.mopR11 (rd : Reg) (rs1 : Reg) : EncodedLength.Statement (.mopR11 rd rs1) :=
  EncodedLength.of_word rfl (by rw [fOpcode_encMopR]; rfl)

theorem EncodedLength.mopR12 (rd : Reg) (rs1 : Reg) : EncodedLength.Statement (.mopR12 rd rs1) :=
  EncodedLength.of_word rfl (by rw [fOpcode_encMopR]; rfl)

theorem EncodedLength.mopR13 (rd : Reg) (rs1 : Reg) : EncodedLength.Statement (.mopR13 rd rs1) :=
  EncodedLength.of_word rfl (by rw [fOpcode_encMopR]; rfl)

theorem EncodedLength.mopR14 (rd : Reg) (rs1 : Reg) : EncodedLength.Statement (.mopR14 rd rs1) :=
  EncodedLength.of_word rfl (by rw [fOpcode_encMopR]; rfl)

theorem EncodedLength.mopR15 (rd : Reg) (rs1 : Reg) : EncodedLength.Statement (.mopR15 rd rs1) :=
  EncodedLength.of_word rfl (by rw [fOpcode_encMopR]; rfl)

theorem EncodedLength.mopR16 (rd : Reg) (rs1 : Reg) : EncodedLength.Statement (.mopR16 rd rs1) :=
  EncodedLength.of_word rfl (by rw [fOpcode_encMopR]; rfl)

theorem EncodedLength.mopR17 (rd : Reg) (rs1 : Reg) : EncodedLength.Statement (.mopR17 rd rs1) :=
  EncodedLength.of_word rfl (by rw [fOpcode_encMopR]; rfl)

theorem EncodedLength.mopR18 (rd : Reg) (rs1 : Reg) : EncodedLength.Statement (.mopR18 rd rs1) :=
  EncodedLength.of_word rfl (by rw [fOpcode_encMopR]; rfl)

theorem EncodedLength.mopR19 (rd : Reg) (rs1 : Reg) : EncodedLength.Statement (.mopR19 rd rs1) :=
  EncodedLength.of_word rfl (by rw [fOpcode_encMopR]; rfl)

theorem EncodedLength.mopR20 (rd : Reg) (rs1 : Reg) : EncodedLength.Statement (.mopR20 rd rs1) :=
  EncodedLength.of_word rfl (by rw [fOpcode_encMopR]; rfl)

theorem EncodedLength.mopR21 (rd : Reg) (rs1 : Reg) : EncodedLength.Statement (.mopR21 rd rs1) :=
  EncodedLength.of_word rfl (by rw [fOpcode_encMopR]; rfl)

theorem EncodedLength.mopR22 (rd : Reg) (rs1 : Reg) : EncodedLength.Statement (.mopR22 rd rs1) :=
  EncodedLength.of_word rfl (by rw [fOpcode_encMopR]; rfl)

theorem EncodedLength.mopR23 (rd : Reg) (rs1 : Reg) : EncodedLength.Statement (.mopR23 rd rs1) :=
  EncodedLength.of_word rfl (by rw [fOpcode_encMopR]; rfl)

theorem EncodedLength.mopR24 (rd : Reg) (rs1 : Reg) : EncodedLength.Statement (.mopR24 rd rs1) :=
  EncodedLength.of_word rfl (by rw [fOpcode_encMopR]; rfl)

theorem EncodedLength.mopR25 (rd : Reg) (rs1 : Reg) : EncodedLength.Statement (.mopR25 rd rs1) :=
  EncodedLength.of_word rfl (by rw [fOpcode_encMopR]; rfl)

theorem EncodedLength.mopR26 (rd : Reg) (rs1 : Reg) : EncodedLength.Statement (.mopR26 rd rs1) :=
  EncodedLength.of_word rfl (by rw [fOpcode_encMopR]; rfl)

theorem EncodedLength.mopR27 (rd : Reg) (rs1 : Reg) : EncodedLength.Statement (.mopR27 rd rs1) :=
  EncodedLength.of_word rfl (by rw [fOpcode_encMopR]; rfl)

theorem EncodedLength.mopR28 (rd : Reg) (rs1 : Reg) : EncodedLength.Statement (.mopR28 rd rs1) :=
  EncodedLength.of_word rfl (by rw [fOpcode_encMopR]; rfl)

theorem EncodedLength.mopR29 (rd : Reg) (rs1 : Reg) : EncodedLength.Statement (.mopR29 rd rs1) :=
  EncodedLength.of_word rfl (by rw [fOpcode_encMopR]; rfl)

theorem EncodedLength.mopR30 (rd : Reg) (rs1 : Reg) : EncodedLength.Statement (.mopR30 rd rs1) :=
  EncodedLength.of_word rfl (by rw [fOpcode_encMopR]; rfl)

theorem EncodedLength.mopR31 (rd : Reg) (rs1 : Reg) : EncodedLength.Statement (.mopR31 rd rs1) :=
  EncodedLength.of_word rfl (by rw [fOpcode_encMopR]; rfl)

theorem EncodedLength.mopRR0 (rd : Reg) (rs1 : Reg) (rs2 : Reg) : EncodedLength.Statement (.mopRR0 rd rs1 rs2) :=
  EncodedLength.of_word rfl (by rw [fOpcode_encMopRR]; rfl)

theorem EncodedLength.mopRR1 (rd : Reg) (rs1 : Reg) (rs2 : Reg) : EncodedLength.Statement (.mopRR1 rd rs1 rs2) :=
  EncodedLength.of_word rfl (by rw [fOpcode_encMopRR]; rfl)

theorem EncodedLength.mopRR2 (rd : Reg) (rs1 : Reg) (rs2 : Reg) : EncodedLength.Statement (.mopRR2 rd rs1 rs2) :=
  EncodedLength.of_word rfl (by rw [fOpcode_encMopRR]; rfl)

theorem EncodedLength.mopRR3 (rd : Reg) (rs1 : Reg) (rs2 : Reg) : EncodedLength.Statement (.mopRR3 rd rs1 rs2) :=
  EncodedLength.of_word rfl (by rw [fOpcode_encMopRR]; rfl)

theorem EncodedLength.mopRR4 (rd : Reg) (rs1 : Reg) (rs2 : Reg) : EncodedLength.Statement (.mopRR4 rd rs1 rs2) :=
  EncodedLength.of_word rfl (by rw [fOpcode_encMopRR]; rfl)

theorem EncodedLength.mopRR5 (rd : Reg) (rs1 : Reg) (rs2 : Reg) : EncodedLength.Statement (.mopRR5 rd rs1 rs2) :=
  EncodedLength.of_word rfl (by rw [fOpcode_encMopRR]; rfl)

theorem EncodedLength.mopRR6 (rd : Reg) (rs1 : Reg) (rs2 : Reg) : EncodedLength.Statement (.mopRR6 rd rs1 rs2) :=
  EncodedLength.of_word rfl (by rw [fOpcode_encMopRR]; rfl)

theorem EncodedLength.mopRR7 (rd : Reg) (rs1 : Reg) (rs2 : Reg) : EncodedLength.Statement (.mopRR7 rd rs1 rs2) :=
  EncodedLength.of_word rfl (by rw [fOpcode_encMopRR]; rfl)

theorem EncodedLength.cMop1 : EncodedLength.Statement .cMop1 :=
  EncodedLength.of_parcel rfl (by rw [cOp_encCI]; decide)

theorem EncodedLength.cMop3 : EncodedLength.Statement .cMop3 :=
  EncodedLength.of_parcel rfl (by rw [cOp_encCI]; decide)

theorem EncodedLength.cMop5 : EncodedLength.Statement .cMop5 :=
  EncodedLength.of_parcel rfl (by rw [cOp_encCI]; decide)

theorem EncodedLength.cMop7 : EncodedLength.Statement .cMop7 :=
  EncodedLength.of_parcel rfl (by rw [cOp_encCI]; decide)

theorem EncodedLength.cMop9 : EncodedLength.Statement .cMop9 :=
  EncodedLength.of_parcel rfl (by rw [cOp_encCI]; decide)

theorem EncodedLength.cMop11 : EncodedLength.Statement .cMop11 :=
  EncodedLength.of_parcel rfl (by rw [cOp_encCI]; decide)

theorem EncodedLength.cMop13 : EncodedLength.Statement .cMop13 :=
  EncodedLength.of_parcel rfl (by rw [cOp_encCI]; decide)

theorem EncodedLength.cMop15 : EncodedLength.Statement .cMop15 :=
  EncodedLength.of_parcel rfl (by rw [cOp_encCI]; decide)

theorem EncodedLength.lpad (lpl : BitVec 20) : EncodedLength.Statement (.lpad lpl) :=
  EncodedLength.of_word rfl (by rw [fOpcode_encU]; rfl)

theorem EncodedLength.sspushX1 : EncodedLength.Statement .sspushX1 :=
  EncodedLength.of_word rfl (by rw [fOpcode_encMopRR]; rfl)

theorem EncodedLength.sspushX5 : EncodedLength.Statement .sspushX5 :=
  EncodedLength.of_word rfl (by rw [fOpcode_encMopRR]; rfl)

theorem EncodedLength.cSspushX1 : EncodedLength.Statement .cSspushX1 :=
  EncodedLength.of_parcel rfl (by rw [cOp_encCI]; decide)

theorem EncodedLength.sspopchkX1 : EncodedLength.Statement .sspopchkX1 :=
  EncodedLength.of_word rfl (by rw [fOpcode_encMopR]; rfl)

theorem EncodedLength.sspopchkX5 : EncodedLength.Statement .sspopchkX5 :=
  EncodedLength.of_word rfl (by rw [fOpcode_encMopR]; rfl)

theorem EncodedLength.cSspopchkX5 : EncodedLength.Statement .cSspopchkX5 :=
  EncodedLength.of_parcel rfl (by rw [cOp_encCI]; decide)

theorem EncodedLength.ssrdp (rd : Reg) : EncodedLength.Statement (.ssrdp rd) :=
  EncodedLength.of_word rfl (by rw [fOpcode_encMopR]; rfl)

theorem EncodedLength.ssamoswapW (rd : Reg) (rs1 : Reg) (rs2 : Reg) (aq : Bool) (rl : Bool)
    : EncodedLength.Statement (.ssamoswapW rd rs1 rs2 aq rl) :=
  EncodedLength.of_word rfl (by rw [fOpcode_encAmo]; rfl)

theorem EncodedLength.ssamoswapD (rd : Reg) (rs1 : Reg) (rs2 : Reg) (aq : Bool) (rl : Bool)
    : EncodedLength.Statement (.ssamoswapD rd rs1 rs2 aq rl) :=
  EncodedLength.of_word rfl (by rw [fOpcode_encAmo]; rfl)

theorem EncodedLength.ntlP1 : EncodedLength.Statement .ntlP1 := EncodedLength.of_word rfl (by rw [fOpcode_encR]; rfl)

theorem EncodedLength.ntlPall : EncodedLength.Statement .ntlPall :=
  EncodedLength.of_word rfl (by rw [fOpcode_encR]; rfl)

theorem EncodedLength.ntlS1 : EncodedLength.Statement .ntlS1 := EncodedLength.of_word rfl (by rw [fOpcode_encR]; rfl)

theorem EncodedLength.ntlAll : EncodedLength.Statement .ntlAll :=
  EncodedLength.of_word rfl (by rw [fOpcode_encR]; rfl)

theorem EncodedLength.cNtlP1 : EncodedLength.Statement .cNtlP1 :=
  EncodedLength.of_parcel rfl (by rw [cOp_encCR]; decide)

theorem EncodedLength.cNtlPall : EncodedLength.Statement .cNtlPall :=
  EncodedLength.of_parcel rfl (by rw [cOp_encCR]; decide)

theorem EncodedLength.cNtlS1 : EncodedLength.Statement .cNtlS1 :=
  EncodedLength.of_parcel rfl (by rw [cOp_encCR]; decide)

theorem EncodedLength.cNtlAll : EncodedLength.Statement .cNtlAll :=
  EncodedLength.of_parcel rfl (by rw [cOp_encCR]; decide)

theorem EncodedLength.pause : EncodedLength.Statement .pause :=
  EncodedLength.of_word rfl (by rw [fOpcode_encFence]; rfl)

theorem EncodedLength.cboInval (rs1 : Reg) : EncodedLength.Statement (.cboInval rs1) :=
  EncodedLength.of_word rfl (by rw [fOpcode_encI]; rfl)

theorem EncodedLength.cboClean (rs1 : Reg) : EncodedLength.Statement (.cboClean rs1) :=
  EncodedLength.of_word rfl (by rw [fOpcode_encI]; rfl)

theorem EncodedLength.cboFlush (rs1 : Reg) : EncodedLength.Statement (.cboFlush rs1) :=
  EncodedLength.of_word rfl (by rw [fOpcode_encI]; rfl)

theorem EncodedLength.cboZero (rs1 : Reg) : EncodedLength.Statement (.cboZero rs1) :=
  EncodedLength.of_word rfl (by rw [fOpcode_encI]; rfl)

theorem EncodedLength.prefetchI (rs1 : Reg) (imm : BitVec 7) : EncodedLength.Statement (.prefetchI rs1 imm) :=
  EncodedLength.of_word rfl (by rw [fOpcode_encR]; rfl)

theorem EncodedLength.prefetchR (rs1 : Reg) (imm : BitVec 7) : EncodedLength.Statement (.prefetchR rs1 imm) :=
  EncodedLength.of_word rfl (by rw [fOpcode_encR]; rfl)

theorem EncodedLength.prefetchW (rs1 : Reg) (imm : BitVec 7) : EncodedLength.Statement (.prefetchW rs1 imm) :=
  EncodedLength.of_word rfl (by rw [fOpcode_encR]; rfl)

theorem EncodedLength.add (rd : Reg) (rs1 : Reg) (rs2 : Reg) : EncodedLength.Statement (.add rd rs1 rs2) :=
  EncodedLength.of_word rfl (by rw [fOpcode_encR]; rfl)

theorem EncodedLength.sub (rd : Reg) (rs1 : Reg) (rs2 : Reg) : EncodedLength.Statement (.sub rd rs1 rs2) :=
  EncodedLength.of_word rfl (by rw [fOpcode_encR]; rfl)

theorem EncodedLength.and (rd : Reg) (rs1 : Reg) (rs2 : Reg) : EncodedLength.Statement (.and rd rs1 rs2) :=
  EncodedLength.of_word rfl (by rw [fOpcode_encR]; rfl)

theorem EncodedLength.or (rd : Reg) (rs1 : Reg) (rs2 : Reg) : EncodedLength.Statement (.or rd rs1 rs2) :=
  EncodedLength.of_word rfl (by rw [fOpcode_encR]; rfl)

theorem EncodedLength.xor (rd : Reg) (rs1 : Reg) (rs2 : Reg) : EncodedLength.Statement (.xor rd rs1 rs2) :=
  EncodedLength.of_word rfl (by rw [fOpcode_encR]; rfl)

theorem EncodedLength.addi (rd : Reg) (rs1 : Reg) (imm : BitVec 12) : EncodedLength.Statement (.addi rd rs1 imm) :=
  EncodedLength.of_word rfl (by rw [fOpcode_encI]; rfl)

theorem EncodedLength.ori (rd : Reg) (rs1 : Reg) (imm : BitVec 12) : EncodedLength.Statement (.ori rd rs1 imm) :=
  EncodedLength.of_word rfl (by rw [fOpcode_encI]; rfl)

theorem EncodedLength.lui (rd : Reg) (imm : BitVec 20) : EncodedLength.Statement (.lui rd imm) :=
  EncodedLength.of_word rfl (by rw [fOpcode_encU]; rfl)

theorem EncodedLength.auipc (rd : Reg) (imm : BitVec 20) : EncodedLength.Statement (.auipc rd imm) :=
  EncodedLength.of_word rfl (by rw [fOpcode_encU]; rfl)

theorem EncodedLength.jal (rd : Reg) (imm : BitVec 20) : EncodedLength.Statement (.jal rd imm) :=
  EncodedLength.of_word rfl (by rw [fOpcode_encJ]; rfl)

theorem EncodedLength.jalr (rd : Reg) (rs1 : Reg) (imm : BitVec 12) : EncodedLength.Statement (.jalr rd rs1 imm) :=
  EncodedLength.of_word rfl (by rw [fOpcode_encI]; rfl)

theorem EncodedLength.beq (rs1 : Reg) (rs2 : Reg) (imm : BitVec 12) : EncodedLength.Statement (.beq rs1 rs2 imm) :=
  EncodedLength.of_word rfl (by rw [fOpcode_encB]; rfl)

theorem EncodedLength.bne (rs1 : Reg) (rs2 : Reg) (imm : BitVec 12) : EncodedLength.Statement (.bne rs1 rs2 imm) :=
  EncodedLength.of_word rfl (by rw [fOpcode_encB]; rfl)

theorem EncodedLength.lw (rd : Reg) (rs1 : Reg) (imm : BitVec 12) : EncodedLength.Statement (.lw rd rs1 imm) :=
  EncodedLength.of_word rfl (by rw [fOpcode_encI]; rfl)

theorem EncodedLength.sh (rs2 : Reg) (rs1 : Reg) (imm : BitVec 12) : EncodedLength.Statement (.sh rs2 rs1 imm) :=
  EncodedLength.of_word rfl (by rw [fOpcode_encS]; rfl)

theorem EncodedLength.sw (rs2 : Reg) (rs1 : Reg) (imm : BitVec 12) : EncodedLength.Statement (.sw rs2 rs1 imm) :=
  EncodedLength.of_word rfl (by rw [fOpcode_encS]; rfl)

theorem EncodedLength.ldRv64 (rd : Reg) (rs1 : Reg) (imm : BitVec 12)
    : EncodedLength.Statement (.ldRv64 rd rs1 imm) :=
  EncodedLength.of_word rfl (by rw [fOpcode_encI]; rfl)

theorem EncodedLength.sdRv64 (rs2 : Reg) (rs1 : Reg) (imm : BitVec 12)
    : EncodedLength.Statement (.sdRv64 rs2 rs1 imm) :=
  EncodedLength.of_word rfl (by rw [fOpcode_encS]; rfl)

theorem EncodedLength.fence (fm : BitVec 4) (pred : BitVec 4) (succ : BitVec 4) (rs1 : Reg) (rd : Reg)
    : EncodedLength.Statement (.fence fm pred succ rs1 rd) :=
  EncodedLength.of_word rfl (by rw [fOpcode_encFence]; rfl)

theorem EncodedLength.ecall : EncodedLength.Statement .ecall := EncodedLength.of_word rfl (by rw [fOpcode_encI]; rfl)

theorem EncodedLength.ebreak : EncodedLength.Statement .ebreak :=
  EncodedLength.of_word rfl (by rw [fOpcode_encI]; rfl)

theorem EncodedLength.cLi (rd : Reg) (imm : BitVec 6) : EncodedLength.Statement (.cLi rd imm) :=
  EncodedLength.of_parcel rfl (by rw [cOp_encCI]; decide)

theorem EncodedLength.cAddi (rd : Reg) (imm : BitVec 6) : EncodedLength.Statement (.cAddi rd imm) :=
  EncodedLength.of_parcel rfl (by rw [cOp_encCI]; decide)

theorem EncodedLength.cAdd (rd : Reg) (rs2 : Reg) : EncodedLength.Statement (.cAdd rd rs2) :=
  EncodedLength.of_parcel rfl (by rw [cOp_encCR]; decide)

theorem EncodedLength.cLui (rd : Reg) (imm : BitVec 6) : EncodedLength.Statement (.cLui rd imm) :=
  EncodedLength.of_parcel rfl (by rw [cOp_encCI]; decide)

theorem EncodedLength.cAddi16sp (imm : BitVec 6) : EncodedLength.Statement (.cAddi16sp imm) :=
  EncodedLength.of_parcel rfl (by rw [cOp_encCAddi16sp]; decide)

theorem EncodedLength.cJr (rs1 : Reg) : EncodedLength.Statement (.cJr rs1) :=
  EncodedLength.of_parcel rfl (by rw [cOp_encCR]; decide)

theorem EncodedLength.cJalr (rs1 : Reg) : EncodedLength.Statement (.cJalr rs1) :=
  EncodedLength.of_parcel rfl (by rw [cOp_encCR]; decide)

theorem EncodedLength.cJ (off : BitVec 11) : EncodedLength.Statement (.cJ off) :=
  EncodedLength.of_parcel rfl (by rw [cOp_encCJ]; decide)

theorem EncodedLength.cJal (off : BitVec 11) : EncodedLength.Statement (.cJal off) :=
  EncodedLength.of_parcel rfl (by rw [cOp_encCJ]; decide)

theorem EncodedLength.cEbreak : EncodedLength.Statement .cEbreak :=
  EncodedLength.of_parcel rfl (by rw [cOp_encCR]; decide)

theorem EncodedLength.cLdRv64 (rd : BitVec 3) (rs1 : BitVec 3) (off : BitVec 5)
    : EncodedLength.Statement (.cLdRv64 rd rs1 off) :=
  EncodedLength.of_parcel rfl (by rw [cOp_encCMem]; decide)

theorem EncodedLength.cSdRv64 (rs2 : BitVec 3) (rs1 : BitVec 3) (off : BitVec 5)
    : EncodedLength.Statement (.cSdRv64 rs2 rs1 off) :=
  EncodedLength.of_parcel rfl (by rw [cOp_encCMem]; decide)

theorem EncodedLength.cLdspRv64 (rd : Reg) (off : BitVec 6) : EncodedLength.Statement (.cLdspRv64 rd off) :=
  EncodedLength.of_parcel rfl (by rw [cOp_encCLdsp]; decide)

theorem EncodedLength.cSdspRv64 (rs2 : Reg) (off : BitVec 6) : EncodedLength.Statement (.cSdspRv64 rs2 off) :=
  EncodedLength.of_parcel rfl (by rw [cOp_encCSdsp]; decide)

end Sys2Proof.Laws
end

