-- ==== Sys2Proof/Tests/Slice0.lean ====
section
/-! SUPPORT. Tests: ill-formed terms that WellFormed refuses, words decoded and encoded, one step of each kind of
instruction on small states, and for every obligation with hypotheses a state and operands that meet them. Expected
values are the spec's worked examples or hand calculation from its rules. -/

open Sys2Proof Sys2Proof.Machine

namespace Sys2Proof.Tests

/-! ### Configurations and states -/

/-- RV32 with every extension, misaligned accesses not supported. -/
def c32 : Cfg := { Cfg.reset with misalignedOK := false, ext := { Exts.all with zicclsm := false } }

/-- The same at XLEN=64. -/
def c64 : Cfg := c32.withXlen .rv64

/-- RV32 without Zicfiss. -/
def cNoSs : Cfg := { c32 with ext := { c32.ext with zicfiss := false } }

/-- RV32 without Zca, so IALIGN is 32. -/
def cNoZca : Cfg := { c32 with ext := { c32.ext with zca := false, zclsd := false, zcmop := false } }

/-- Change the set of extensions of `c32`. -/
def withExt (f : Exts → Exts) : Cfg := { c32 with ext := f c32.ext }

/-- Every enable on; CBIE selects an invalidate. -/
def envOn : EnvCfg := { cbie := 3, cbcfe := true, cbze := true, sse := true }

/-- A hart of configuration `c` in mode `p` with every enable on, pc 0x1000, ssp 0x8000, x10 = 0x2000, x11 = 7. -/
def hart (c : Cfg) (p : Priv) : State :=
  (({ State.reset with
      cfg := c, ssp := 0x8000,
      env := { Env.reset with
        priv := p, menvcfg := envOn, senvcfg := envOn, henvcfg := envOn, xLPE := true, xSSE := true } }).setX
    10 0x2000).setX 11 7

/-- The hart with accesses of the kinds refused from address `lo` on, for `len` bytes. -/
def deny (s : State) (lo len : Nat) (kinds : List AccessKind) (why : Why) : State :=
  { s with env := { s.env with denied := { lo := lo, len := len, kinds := kinds, why := why } :: s.env.denied } }

/-- Place bytes of program or data. -/
def place (s : State) (a : Nat) (bytes : List Byte) : State :=
  (bytes.zipIdx).foldl (fun t p => t.placeByte (a + p.2) p.1) s

/-- The little-endian bytes of a number. -/
def le (n w : Nat) : List Byte := (List.range n).map fun k => BitVec.ofNat 8 (w / 2 ^ (8 * k))

/-- A test on the state an outcome goes on in. -/
def goesOn (o : Out) (test : State → Bool) : Bool :=
  match o with
  | .next t => test t
  | _ => false

/-- The outcome is a trap of this cause and value. -/
def trapsWith (o : Out) (cause : Cause) (tval : Word) : Bool :=
  goesOn o fun t => t.trap.any fun r => r.cause == cause && r.tval == tval

/-! ### WellFormed refuses -/

theorem test_wellFormed_extension :
    [(withExt fun e => { e with zifencei := false }, Instr.fenceI 0 0 0),
      (withExt fun e => { e with zicsr := false }, .csrrw 1 1 0x011),
      (withExt fun e => { e with zicsr := false }, .csrrsi 1 1 0x011),
      (withExt fun e => { e with m := false, zmmul := false }, .mul 1 2 3),
      (withExt fun e => { e with m := false }, .div 1 2 3),
      (withExt fun e => { e with zicond := false }, .czeroEqz 1 2 3),
      (withExt fun e => { e with zilsd := false }, .ldPair 2 3 0),
      (withExt fun e => { e with zilsd := false }, .sdPair 2 3 0),
      (withExt fun e => { e with zclsd := false }, .cLdspPair 2 0),
      (withExt fun e => { e with zclsd := false }, .cSdPair 0 0 0),
      (withExt fun e => { e with zimop := false }, .mopR31 1 2),
      (withExt fun e => { e with zimop := false }, .mopRR0 1 2 3),
      (withExt fun e => { e with zcmop := false }, .cMop3),
      (withExt fun e => { e with zcmop := false }, .cSspushX1),
      (withExt fun e => { e with zicfilp := false }, .lpad 0),
      (withExt fun e => { e with zicfiss := false }, .sspushX1),
      (withExt fun e => { e with zicfiss := false }, .ssrdp 1),
      (withExt fun e => { e with zicfiss := false }, .ssamoswapW 1 2 3 false false),
      (withExt fun e => { e with zihintntl := false }, .ntlP1),
      (withExt fun e => { e with zihintntl := false }, .cNtlAll),
      (withExt fun e => { e with zihintpause := false }, .pause),
      (withExt fun e => { e with zicbom := false }, .cboInval 1),
      (withExt fun e => { e with zicboz := false }, .cboZero 1),
      (withExt fun e => { e with zicbop := false }, .prefetchI 1 0),
      (withExt fun e => { e with zca := false }, .cLi 1 0)].all (fun p => !p.2.wellFormed p.1) = true := by decide

theorem test_wellFormed_xlen :
    [(c32, Instr.mulw 1 2 3), (c32, .divw 1 2 3), (c32, .ldRv64 1 2 0), (c32, .sdRv64 1 2 0), (c32, .cLdRv64 1 2 0),
      (c32, .cSdRv64 1 2 0), (c32, .cLdspRv64 1 0), (c32, .cSdspRv64 1 0), (c32, .ssamoswapD 1 2 3 false false),
      (c64, .ldPair 2 3 0), (c64, .cLdspPair 2 0), (c64, .cJal 0)].all (fun p => !p.2.wellFormed p.1) = true := by
  decide

/-- Reserved operands, and operands whose code point is another instruction's (30_encoding.md R139, R140). -/
theorem test_wellFormed_operands :
    [Instr.ldPair 3 1 0, .sdPair 31 1 0, .cLdspPair 3 0, .cLdspPair 0 0, .cSdspPair 1 0, .cLdPair 1 0 0, .cSdPair 7 0 0,
      .ssrdp 0, .mopR28 0 1, .mopR28 0 5, .mopR28 3 0, .mopRR7 0 0 1, .mopRR7 0 0 5, .cMop1, .cMop5, .add 0 0 2,
      .add 0 0 5, .ori 0 1 0, .ori 0 1 0x021, .ori 0 1 0xFE3, .auipc 0 1, .fence 0 1 0 0 0, .cLui 2 1, .cLui 1 0,
      .cAddi16sp 0, .cJr 0, .cJalr 0, .cAdd 0 2, .cAdd 1 0].all (fun i => !i.wellFormed c32) = true := by decide

/-- Without the extension that takes a code point, the instruction that lies under it is well-formed. -/
theorem test_wellFormed_under :
    [(cNoSs, Instr.mopR28 0 1), (cNoSs, .cMop1), (withExt fun e => { e with zicfilp := false }, .auipc 0 1),
      (withExt fun e => { e with zicbop := false }, .ori 0 1 0x021),
      (withExt fun e => { e with zihintntl := false }, .add 0 0 2),
      (withExt fun e => { e with zihintpause := false }, .fence 0 1 0 0 0)].all (fun p => p.2.wellFormed p.1) = true := by
  decide

/-- Each dependency of 00_scope.md R4 and each constraint on the parameters. -/
theorem test_cfg_wf_refuses :
    [withExt fun e => { e with zicsr := false, zihpm := false, zicfilp := false, zicfiss := false },
      withExt fun e => { e with zicsr := false, zicntr := false, zicfilp := false, zicfiss := false },
      withExt fun e => { e with zmmul := false }, withExt fun e => { e with zilsd := false },
      withExt fun e => { e with zca := false, zclsd := false },
      withExt fun e => { e with zicsr := false, zicntr := false, zihpm := false, zicfiss := false },
      withExt fun e => { e with zimop := false }, withExt fun e => { e with zaamo := false },
      { c32 with xlen := .rv64 }, withExt fun e => { e with zicclsm := true }, { c32 with cbomLog := 5 },
      { withExt (fun e => { e with zic64b := false }) with cbozLog := 33 }, { c32 with sxlenMayBe32 := false },
      { c32 with hpmCounters := [(2, 64)] }, { c32 with hpmCounters := [(3, 0)] },
      { c32 with hpmCounters := [(3, 1), (3, 2)] }, { c32 with resetPc := 0x1001 }].all (fun c => !c.wf) = true := by
  decide

theorem test_cfg_wf_admits : [Cfg.reset, c32, c64, cNoZca].all Cfg.wf = true := by decide

/-! ### Words -/

/-- The decoder reads the bytes as the instruction, and the encoder writes them. -/
def reads (p : Cfg × Nat × Nat × Instr) : Bool :=
  (match decode p.1 (le p.2.1 p.2.2.1) with
    | .ok (i, []) => i == p.2.2.2
    | _ => false) && (encode p.2.2.2 == le p.2.1 p.2.2.1) && p.2.2.2.wellFormed p.1

/-- The decoder refuses the bytes. -/
def refused (p : Cfg × Nat × Nat) : Bool :=
  match decode p.1 (le p.2.1 p.2.2) with
  | .ok _ => false
  | .error _ => true

/-- Words of 30_encoding.md R127, 40_zifencei.md R162. -/
theorem test_decode_zifencei :
    [(c32, 4, 0x0000100F, Instr.fenceI 0 0 0), (c32, 4, 0xFFF19F8F, .fenceI 0xFFF 3 31)].all reads = true := by decide

/-- Words of 30_encoding.md R128, 95_test_vectors.md. -/
theorem test_decode_zicsr :
    [(c32, 4, 0x011090F3, Instr.csrrw 1 1 0x011), (c32, 4, 0xC0002173, .csrrs 2 0 0xC00),
      (c32, 4, 0xC0202373, .csrrs 6 0 0xC02), (c32, 4, 0x011332F3, .csrrc 5 6 0x011),
      (c32, 4, 0x011FD2F3, .csrrwi 5 31 0x011), (c32, 4, 0x01146FF3, .csrrsi 31 8 0x011),
      (c32, 4, 0xFFF0F073, .csrrci 0 1 0xFFF)].all reads = true := by decide

/-- Words of 30_encoding.md R129, 42_m_zmmul.md. -/
theorem test_decode_m :
    [(c32, 4, 0x02C58533, Instr.mul 10 11 12), (c32, 4, 0x02C59533, .mulh 10 11 12),
      (c32, 4, 0x02C5A533, .mulhsu 10 11 12), (c32, 4, 0x02C5B533, .mulhu 10 11 12),
      (c32, 4, 0x02C5C533, .div 10 11 12), (c32, 4, 0x02C5D533, .divu 10 11 12),
      (c32, 4, 0x02C5E533, .rem 10 11 12), (c32, 4, 0x02C5F533, .remu 10 11 12),
      (c32, 4, 0x027312B3, .mulh 5 6 7), (c64, 4, 0x02C5853B, .mulw 10 11 12),
      (c64, 4, 0x02C5C53B, .divw 10 11 12), (c64, 4, 0x02C5D53B, .divuw 10 11 12),
      (c64, 4, 0x02C5E53B, .remw 10 11 12), (c64, 4, 0x02C5F53B, .remuw 10 11 12)].all reads = true := by decide

/-- Words of 30_encoding.md R130, 43_zicond.md. -/
theorem test_decode_zicond :
    [(c32, 4, 0x0EC5D533, Instr.czeroEqz 10 11 12), (c32, 4, 0x0EC5F533, .czeroNez 10 11 12)].all reads = true := by decide

/-- Words of 30_encoding.md R131, 95_test_vectors.md. -/
theorem test_decode_pair :
    [(c32, 4, 0x00853703, Instr.ldPair 14 10 8), (c32, 4, 0x00013003, .ldPair 0 2 0),
      (c32, 4, 0x00013423, .sdPair 0 2 8), (c32, 4, 0xFE813C23, .sdPair 8 2 (-8)),
      (c32, 2, 0x6742, .cLdspPair 14 2), (c32, 2, 0xE42A, .cSdspPair 10 1), (c32, 2, 0x6510, .cLdPair 4 2 1),
      (c32, 2, 0xFFE0, .cSdPair 0 7 31)].all reads = true := by decide

/-- Words of 30_encoding.md R132, the formula of 45_zimop_zcmop.md R292. -/
theorem test_decode_mop_r :
    [(c32, 4, 0x81C5C573, Instr.mopR0 10 11), (c32, 4, 0x81D5C573, .mopR1 10 11),
      (c32, 4, 0x81E5C573, .mopR2 10 11), (c32, 4, 0x81F5C573, .mopR3 10 11), (c32, 4, 0x85C5C573, .mopR4 10 11),
      (c32, 4, 0x85D5C573, .mopR5 10 11), (c32, 4, 0x85E5C573, .mopR6 10 11), (c32, 4, 0x85F5C573, .mopR7 10 11),
      (c32, 4, 0x89C5C573, .mopR8 10 11), (c32, 4, 0x89D5C573, .mopR9 10 11), (c32, 4, 0x89E5C573, .mopR10 10 11),
      (c32, 4, 0x89F5C573, .mopR11 10 11), (c32, 4, 0x8DC5C573, .mopR12 10 11),
      (c32, 4, 0x8DD5C573, .mopR13 10 11), (c32, 4, 0x8DE5C573, .mopR14 10 11),
      (c32, 4, 0x8DF5C573, .mopR15 10 11), (c32, 4, 0xC1C5C573, .mopR16 10 11),
      (c32, 4, 0xC1D5C573, .mopR17 10 11), (c32, 4, 0xC1E5C573, .mopR18 10 11),
      (c32, 4, 0xC1F5C573, .mopR19 10 11), (c32, 4, 0xC5C5C573, .mopR20 10 11),
      (c32, 4, 0xC5D5C573, .mopR21 10 11), (c32, 4, 0xC5E5C573, .mopR22 10 11),
      (c32, 4, 0xC5F5C573, .mopR23 10 11), (c32, 4, 0xC9C5C573, .mopR24 10 11),
      (c32, 4, 0xC9D5C573, .mopR25 10 11), (c32, 4, 0xC9E5C573, .mopR26 10 11),
      (c32, 4, 0xC9F5C573, .mopR27 10 11), (c32, 4, 0xCDC5C573, .mopR28 10 11),
      (c32, 4, 0xCDD5C573, .mopR29 10 11), (c32, 4, 0xCDE5C573, .mopR30 10 11),
      (c32, 4, 0xCDF5C573, .mopR31 10 11)].all reads = true := by decide

/-- Words of 30_encoding.md R132, the formula of 45_zimop_zcmop.md R293. -/
theorem test_decode_mop_rr :
    [(c32, 4, 0x82C5C573, Instr.mopRR0 10 11 12), (c32, 4, 0x86C5C573, .mopRR1 10 11 12),
      (c32, 4, 0x8AC5C573, .mopRR2 10 11 12), (c32, 4, 0x8EC5C573, .mopRR3 10 11 12),
      (c32, 4, 0xC2C5C573, .mopRR4 10 11 12), (c32, 4, 0xC6C5C573, .mopRR5 10 11 12),
      (c32, 4, 0xCAC5C573, .mopRR6 10 11 12), (c32, 4, 0xCEC5C573, .mopRR7 10 11 12)].all reads = true := by decide

/-- Words of 30_encoding.md R133, 45_zimop_zcmop.md R297. -/
theorem test_decode_c_mop :
    [(cNoSs, 2, 0x6081, Instr.cMop1), (c32, 2, 0x6181, .cMop3), (cNoSs, 2, 0x6281, .cMop5),
      (c32, 2, 0x6381, .cMop7), (c32, 2, 0x6481, .cMop9), (c32, 2, 0x6581, .cMop11), (c32, 2, 0x6681, .cMop13),
      (c32, 2, 0x6781, .cMop15)].all reads = true := by decide

/-- Words of 30_encoding.md R134, R135, 46_cfi.md. -/
theorem test_decode_cfi :
    [(c32, 4, 0x12345017, Instr.lpad 0x12345), (c32, 4, 0x00000017, .lpad 0), (c32, 4, 0xCE104073, .sspushX1),
      (c32, 4, 0xCE504073, .sspushX5), (c32, 2, 0x6081, .cSspushX1), (c32, 4, 0xCDC0C073, .sspopchkX1),
      (c32, 4, 0xCDC2C073, .sspopchkX5), (c32, 2, 0x6281, .cSspopchkX5), (c32, 4, 0xCDC042F3, .ssrdp 5),
      (c32, 4, 0x4EC525AF, .ssamoswapW 11 10 12 true true), (c64, 4, 0x480530AF, .ssamoswapD 1 10 0 false false),
      (c64, 4, 0x4810B02F, .ssamoswapD 0 1 1 false false)].all reads = true := by decide

/-- Words of 30_encoding.md R136. -/
theorem test_decode_hints :
    [(c32, 4, 0x00200033, Instr.ntlP1), (c32, 4, 0x00300033, .ntlPall), (c32, 4, 0x00400033, .ntlS1),
      (c32, 4, 0x00500033, .ntlAll), (c32, 4, 0x0100000F, .pause), (c32, 2, 0x900A, .cNtlP1),
      (c32, 2, 0x900E, .cNtlPall), (c32, 2, 0x9012, .cNtlS1), (c32, 2, 0x9016, .cNtlAll)].all reads = true := by decide

/-- Words of 30_encoding.md R137, 48_cmo.md. -/
theorem test_decode_cmo :
    [(c32, 4, 0x0005200F, Instr.cboInval 10), (c32, 4, 0x0015200F, .cboClean 10),
      (c32, 4, 0x0025200F, .cboFlush 10), (c32, 4, 0x0045200F, .cboZero 10),
      (c32, 4, 0x00056013, .prefetchI 10 0), (c32, 4, 0x00156013, .prefetchR 10 0),
      (c32, 4, 0x00356013, .prefetchW 10 0), (c32, 4, 0xFE356013, .prefetchW 10 127)].all reads = true := by decide

/-- Words of 49_base_subset.md sections 2 to 5. -/
theorem test_decode_base :
    [(c32, 4, 0x00C58533, Instr.add 10 11 12), (c32, 4, 0x40C58533, .sub 10 11 12),
      (c32, 4, 0x00C5F533, .and 10 11 12), (c32, 4, 0x00C5E533, .or 10 11 12),
      (c32, 4, 0x00C5C533, .xor 10 11 12), (c32, 4, 0xFFC10113, .addi 2 2 (-4)),
      (c32, 4, 0x0F05E513, .ori 10 11 0x0F0), (c32, 4, 0xABCDE5B7, .lui 11 0xABCDE),
      (c32, 4, 0x00001517, .auipc 10 1), (c32, 4, 0x010000EF, .jal 1 8), (c32, 4, 0x0E0000EF, .jal 1 0x70),
      (c32, 4, 0xFFDFF06F, .jal 0 (-2)), (c32, 4, 0x004500E7, .jalr 1 10 4), (c32, 4, 0x00028463, .beq 5 0 4),
      (c32, 4, 0xFE419AE3, .bne 3 4 (-6)), (c32, 4, 0x02008063, .beq 1 0 16), (c32, 4, 0x0085A503, .lw 10 11 8),
      (c32, 4, 0x00639C23, .sh 6 7 24), (c32, 4, 0xFEC5AE23, .sw 12 11 (-4)),
      (c64, 4, 0xFF853603, .ldRv64 12 10 (-8)), (c64, 4, 0x00B53023, .sdRv64 11 10 0),
      (c32, 4, 0x0110000F, .fence 0 1 1 0 0), (c32, 4, 0x00000073, .ecall), (c32, 4, 0x00100073, .ebreak)].all reads = true := by decide

/-- Words of 49_base_subset.md section 6, 95_test_vectors.md. -/
theorem test_decode_compressed :
    [(c32, 2, 0x4581, Instr.cLi 11 0), (c32, 2, 0x4555, .cLi 10 21), (c32, 2, 0x1161, .cAddi 2 (-8)),
      (c32, 2, 0x952E, .cAdd 10 11), (c32, 2, 0x757D, .cLui 10 (-1)), (c32, 2, 0x713D, .cAddi16sp (-2)),
      (c32, 2, 0x8502, .cJr 10), (c32, 2, 0x9502, .cJalr 10), (c32, 2, 0xA021, .cJ 4), (c32, 2, 0x2021, .cJal 4),
      (c32, 2, 0x9002, .cEbreak), (c64, 2, 0x6510, .cLdRv64 4 2 1), (c64, 2, 0xFFE0, .cSdRv64 0 7 31),
      (c64, 2, 0x6282, .cLdspRv64 5 0), (c64, 2, 0xE42A, .cSdspRv64 10 1)].all reads = true := by decide

/-- Reserved words are refused: an odd pair, C.LDSP to x0, C.LUI of 0 to x2, C.JR x0, the zero parcel, JALR with funct3 1,
OP-32 on RV32, an AMO other than SSAMOSWAP, a SYSTEM word outside the MOPs, and the lengths above 32 bits. -/
theorem test_decode_refuses :
    [(c32, 4, 0x00853783), (c32, 2, 0x6002), (c32, 2, 0x6101), (c32, 2, 0x8002), (c32, 2, 0x0000), (c32, 4, 0x000510E7),
      (c32, 4, 0x02C5853B), (c32, 4, 0x00C5252F), (c32, 4, 0x80004073), (c32, 4, 0x0000001F), (c32, 4, 0x0000007F),
      (cNoZca, 2, 0x4581)].all refused = true := by decide

/-- Code points that two extensions share (30_encoding.md R139). -/
theorem test_decode_shared :
    [(cNoSs, 4, 0xCE104073, Instr.mopRR7 0 0 1), (cNoSs, 4, 0xCDC0C073, .mopR28 0 1),
      (withExt fun e => { e with zicfilp := false }, 4, 0x12345017, .auipc 0 0x12345),
      (withExt fun e => { e with zihintntl := false }, 4, 0x00200033, .add 0 0 2),
      (withExt fun e => { e with zihintpause := false }, 4, 0x0100000F, .fence 0 1 0 0 0),
      (withExt fun e => { e with zicbop := false }, 4, 0x00056013, .ori 0 10 0),
      (withExt fun e => { e with zihintntl := false }, 2, 0x900A, .cAdd 0 2)].all reads = true := by decide

/-- The opcode table's numbering of bits: the first byte holds bits 7..0. -/
theorem test_decodeTableWord :
    (decodeTableWord 32 0x02C58533 == some (.mul 10 11 12) && decodeTableWord 16 0x9502 == some (.cJalr 10) &&
      decodeTableWord 32 0x02C5853B == some (.mulw 10 11 12) && decodeTableWord 32 0xFFFFFFFF == none) = true := by
  decide

/-! ### One step -/

/-- x11 and x12 given, the result of an instruction that writes x10, and pc four bytes on. -/
def alu (c : Cfg) (a b : Word) (i : Instr) (v : Word) : Bool :=
  goesOn (exec i (((hart c .u).setX 11 a).setX 12 b)) fun t => t.x 10 == v && t.pcv == 0x1004

/-- The worked examples and corner cases of 42_m_zmmul.md R221 to R229 and R234, RV32. -/
theorem test_mul_div :
    (alu c32 7 0xFFFFFFFD (.mul 10 11 12) 0xFFFFFFEB && alu c32 0x12345678 0x9ABCDEF0 (.mulh 10 11 12) 0xF8CC93D6 &&
      alu c32 0xFFFFFFF9 0xFFFFFFFE (.mulhsu 10 11 12) 0xFFFFFFF9 &&
      alu c32 0x12345678 0x9ABCDEF0 (.mulhu 10 11 12) 0x0B00EA4E &&
      alu c32 0xFFFFFFF9 2 (.div 10 11 12) 0xFFFFFFFD && alu c32 0x80000000 0xFFFFFFFF (.div 10 11 12) 0x80000000 &&
      alu c32 5 0 (.divu 10 11 12) 0xFFFFFFFF && alu c32 0xFFFFFFF9 2 (.rem 10 11 12) 0xFFFFFFFF &&
      alu c32 0x80000000 0xFFFFFFFF (.rem 10 11 12) 0 && alu c32 5 0 (.remu 10 11 12) 5) = true := by decide

/-- Hand calculation from 42_m_zmmul.md R225 and R230 to R234, RV64. -/
theorem test_word_forms :
    (alu c64 0x80000000 2 (.mulw 10 11 12) 0 && alu c64 0x7FFFFFFF 2 (.mulw 10 11 12) 0xFFFFFFFFFFFFFFFE &&
      alu c64 0x180000000 0xFFFFFFFF (.divw 10 11 12) 0xFFFFFFFF80000000 &&
      alu c64 5 0x100000000 (.divuw 10 11 12) 0xFFFFFFFFFFFFFFFF &&
      alu c64 0xFFFFFFF9 2 (.remw 10 11 12) 0xFFFFFFFFFFFFFFFF &&
      alu c64 0x80000005 0 (.remuw 10 11 12) 0xFFFFFFFF80000005) = true := by decide

/-- 43_zicond.md R251, R252; 49_base_subset.md R411 to R415. -/
theorem test_zicond_and_base :
    (alu c32 0x1234 0 (.czeroEqz 10 11 12) 0 && alu c32 0x1234 0x80000000 (.czeroEqz 10 11 12) 0x1234 &&
      alu c32 0x1234 1 (.czeroNez 10 11 12) 0 && alu c32 0x1234 0 (.czeroNez 10 11 12) 0x1234 &&
      alu c32 0xFFFFFFFF 1 (.add 10 11 12) 0 && alu c32 0 1 (.sub 10 11 12) 0xFFFFFFFF &&
      alu c32 0xFF00 0x0FF0 (.and 10 11 12) 0x0F00 && alu c32 0xFF00 0x0FF0 (.or 10 11 12) 0xFFF0 &&
      alu c32 0xFF00 0x0FF0 (.xor 10 11 12) 0xF0F0 && alu c32 5 0 (.addi 10 11 (-6)) 0xFFFFFFFF &&
      alu c32 1 0 (.ori 10 11 (-16)) 0xFFFFFFF1 && alu c64 0 0 (.lui 10 0x80000) 0xFFFFFFFF80000000 &&
      alu c64 0 0 (.auipc 10 0xFFFFF) 0 && alu c32 9 9 (.mopR0 10 11) 0 && alu c32 9 9 (.mopRR3 10 11 12) 0) = true := by
  decide

/-- 49_base_subset.md R431 to R434. -/
theorem test_compressed_alu :
    (goesOn (exec (.cLi 10 (-1)) (hart c32 .u)) (fun t => t.x 10 == 0xFFFFFFFF && t.pcv == 0x1002) &&
      goesOn (exec (.cAddi 11 (-8)) (hart c32 .u)) (fun t => t.x 11 == 0xFFFFFFFF) &&
      goesOn (exec (.cAdd 10 11) (hart c32 .u)) (fun t => t.x 10 == 0x2007) &&
      goesOn (exec (.cLui 10 (-1)) (hart c32 .u)) (fun t => t.x 10 == 0xFFFFF000) &&
      goesOn (exec (.cAddi16sp (-2)) ((hart c32 .u).setX 2 0x100)) (fun t => t.x 2 == 0xE0)) = true := by decide

/-- The worked examples of 46_cfi.md R313 and 49_base_subset.md R421 to R424, R435 to R438: target, link, ELP. -/
theorem test_jumps :
    (goesOn (exec (.jalr 1 10 0) (hart c32 .u)) (fun t => t.pcv == 0x2000 && t.x 1 == 0x1004 && t.elp == .expected) &&
      goesOn (exec (.jalr 10 10 3) (hart c32 .u)) (fun t => t.pcv == 0x2002 && t.x 10 == 0x1004) &&
      goesOn (exec (.jalr 0 7 0) ((hart c32 .u).setX 7 0x3001)) (fun t => t.pcv == 0x3000 && t.elp == .no) &&
      goesOn (exec (.cJr 10) (hart c32 .u)) (fun t => t.pcv == 0x2000 && t.elp == .expected) &&
      goesOn (exec (.cJalr 1) ((hart c32 .u).setX 1 0x2000)) (fun t => t.pcv == 0x2000 && t.x 1 == 0x1002 && t.elp == .no) &&
      goesOn (exec (.jal 1 8) (hart c32 .u)) (fun t => t.pcv == 0x1010 && t.x 1 == 0x1004 && t.elp == .no) &&
      goesOn (exec (.cJ (-4)) (hart c32 .u)) (fun t => t.pcv == 0xFF8) &&
      goesOn (exec (.cJal 4) (hart c32 .u)) (fun t => t.pcv == 0x1008 && t.x 1 == 0x1002) &&
      goesOn (exec (.beq 0 1 4) (hart c32 .u)) (fun t => t.pcv == 0x1008) &&
      goesOn (exec (.beq 0 10 4) (hart c32 .u)) (fun t => t.pcv == 0x1004) &&
      goesOn (exec (.bne 10 11 (-6)) (hart c32 .u)) (fun t => t.pcv == 0xFF4) &&
      trapsWith (exec (.jal 1 1) (hart cNoZca .u)) .instrAddrMisaligned 0x1002) = true := by decide

/-- Little-endian words, sign extension and wrap-around (20_memory.md R72, 49_base_subset.md R425 to R428, R440). -/
theorem test_load_store :
    (goesOn (exec (.lw 10 10 0) (place (hart c64 .u) 0x2000 [0x78, 0x56, 0x34, 0x92])) (fun t =>
        t.x 10 == 0xFFFFFFFF92345678) &&
      goesOn (exec (.ldRv64 0 10 0) (hart c64 .u)) (fun t => t.x 0 == 0 && t.pcv == 0x1004) &&
      goesOn (exec (.sh 11 10 0) ((hart c32 .u).setX 11 0xABCD1234)) (fun t =>
        t.byteAt 0x2000 == 0x34 && t.byteAt 0x2001 == 0x12 && t.content 0x2002 == none) &&
      goesOn (exec (.sw 11 0 (-4)) ((hart c32 .u).setX 11 0xABCD1234)) (fun t =>
        t.byteAt 0xFFFFFFFC == 0x34 && t.byteAt 0xFFFFFFFF == 0xAB) &&
      goesOn (exec (.cSdRv64 3 2 1) (hart c64 .u)) (fun t => t.byteAt 0x2008 == 7 && t.content 0x2000 == none) &&
      goesOn (exec (.cSdspRv64 11 0) ((hart c64 .u).setX 2 0x3000)) (fun t => t.byteAt 0x3000 == 7) &&
      goesOn (exec (.cLdRv64 4 2 0) (place (hart c64 .u) 0x2000 (le 8 0x1122334455667788))) (fun t =>
        t.x 12 == 0x1122334455667788 && t.pcv == 0x1002) &&
      goesOn (exec (.cLdspRv64 5 1) (place ((hart c64 .u).setX 2 0x1FF8) 0x2000 (le 8 9))) (fun t => t.x 5 == 9) &&
      goesOn (exec (.sdRv64 11 10 (-8)) (hart c64 .u)) (fun t => t.byteAt 0x1FF8 == 7 && t.byteAt 0x1FFF == 0) &&
      trapsWith (exec (.lw 10 10 2) (hart c32 .u)) .loadAddrMisaligned 0x2002 &&
      trapsWith (exec (.sh 10 10 1) (hart c32 .u)) .storeAddrMisaligned 0x2001 &&
      trapsWith (exec (.sw 11 10 0) (deny (hart c32 .u) 0x2003 1 [.store] .page)) .storePageFault 0x2000) = true := by
  decide

/-- 44_zilsd_zclsd.md R261 to R271: the even register is the low word; x0; a base inside the pair; an odd register. -/
theorem test_pairs :
    (goesOn (exec (.ldPair 14 10 0) (place (hart c32 .u) 0x2000 (le 8 0x1122334455667788))) (fun t =>
        t.x 14 == 0x55667788 && t.x 15 == 0x11223344) &&
      goesOn (exec (.ldPair 10 10 0) (place (hart c32 .u) 0x2000 (le 8 0x1122334455667788))) (fun t =>
        t.x 10 == 0x55667788 && t.x 11 == 0x11223344) &&
      goesOn (exec (.ldPair 0 10 0) ((hart c32 .u).setX 1 5)) (fun t => t.x 1 == 5 && t.pcv == 0x1004) &&
      goesOn (exec (.sdPair 10 10 0) (hart c32 .u)) (fun t => t.byteAt 0x2001 == 0x20 && t.byteAt 0x2004 == 7) &&
      goesOn (exec (.sdPair 0 10 0) ((hart c32 .u).setX 1 5)) (fun t => t.byteAt 0x2004 == 0) &&
      goesOn (exec (.cLdspPair 14 2) (place ((hart c32 .u).setX 2 0x1FF0) 0x2000 (le 8 3))) (fun t => t.x 14 == 3) &&
      goesOn (exec (.cSdspPair 10 2) ((hart c32 .u).setX 2 0x1FF0)) (fun t => t.byteAt 0x2004 == 7) &&
      goesOn (exec (.cLdPair 6 2 0) (place (hart c32 .u) 0x2000 (le 8 3))) (fun t => t.x 14 == 3 && t.pcv == 0x1002) &&
      goesOn (exec (.cSdPair 2 2 0) (hart c32 .u)) (fun t => t.byteAt 0x2004 == 7) &&
      trapsWith (exec (.ldPair 14 10 4) (hart c32 .u)) .loadAddrMisaligned 0x2004 &&
      goesOn (exec (.ldPair 11 10 0) (hart c32 .u)) (fun t => t.trap.any fun r => r.cause == .illegalInstruction)) = true := by decide

/-- 41_zicsr_counters.md R171 to R178, R191, 10_state.md R45; the ssp examples of 46_cfi.md R333. -/
theorem test_csr :
    (goesOn (exec (.csrrw 1 10 0x011) (hart c32 .u)) (fun t => t.x 1 == 0x8000 && t.sspv == 0x2000) &&
      goesOn (exec (.csrrw 0 11 0x011) (hart c32 .u)) (fun t => t.sspv == 4) &&
      goesOn (exec (.csrrw 0 11 0x011) (hart { c64 with sxlenMayBe32 := false } .u)) (fun t => t.sspv == 0) &&
      goesOn (exec (.csrrs 1 11 0x011) (hart c32 .u)) (fun t => t.sspv == 0x8004) &&
      goesOn (exec (.csrrc 10 10 0x011) (hart c32 .u)) (fun t => t.x 10 == 0x8000 && t.sspv == 0x8000) &&
      goesOn (exec (.csrrwi 1 31 0x011) (hart c32 .u)) (fun t => t.sspv == 28) &&
      goesOn (exec (.csrrsi 1 8 0x011) (hart c32 .u)) (fun t => t.sspv == 0x8008) &&
      goesOn (exec (.csrrci 1 8 0x011) { hart c32 .u with ssp := 0x800C }) (fun t => t.sspv == 0x8004) &&
      goesOn (exec (.csrrs 6 0 0xC02) { hart c32 .u with instret := 0x100000005 }) (fun t =>
        t.x 6 == 5 && t.instret == 0x100000006) &&
      goesOn (exec (.csrrs 6 0 0xC82) { hart c32 .u with instret := 0x100000005 }) (fun t => t.x 6 == 1) &&
      goesOn (exec (.csrrw 0 1 0xC00) (hart c32 .u)) (fun t => t.trap.any fun r => r.cause == .illegalInstruction) &&
      goesOn (exec (.csrrs 1 0 0xC82) (hart c64 .u)) (fun t => t.trap.any fun r => r.cause == .illegalInstruction) &&
      goesOn (exec (.csrrs 1 0 0x011) { hart c32 .vs with env := { Env.reset with
        priv := .vs, menvcfg := envOn } }) (fun t => t.trap.any fun r => r.cause == .virtualInstruction)) = true := by
  decide

/-- The worked examples of 46_cfi.md R315 and R316. -/
theorem test_landing_pads :
    (goesOn (step { place ((hart c32 .u).setX 7 0x12345ABC) 0x1000 (le 4 0x12345017) with elp := .expected }) (fun t =>
        t.elp == .no && t.pcv == 0x1004) &&
      trapsWith (step { place ((hart c32 .u).setX 7 0x12346000) 0x1000 (le 4 0x12345017) with elp := .expected })
        .softwareCheck 2 &&
      goesOn (step { place (hart c32 .u) 0x1000 (le 4 0x00000017) with elp := .expected }) (fun t => t.elp == .no) &&
      trapsWith (step { place (hart c32 .u) 0x1002 (le 4 0x00000017) with elp := .expected, pc := 0x1002 })
        .softwareCheck 2 &&
      trapsWith (step { place (hart c32 .u) 0x1000 (le 2 0x4581) with elp := .expected }) .softwareCheck 2 &&
      trapsWith (step { place (hart c32 .u) 0x1000 (le 2 0x0000) with elp := .expected }) .softwareCheck 2 &&
      goesOn (exec (.lpad 1) (hart c32 .u)) (fun t => t.trap.isNone && t.pcv == 0x1004)) = true := by decide

/-- 46_cfi.md R320 to R331: push, pop and check, read, swap; inactive in M-mode. -/
theorem test_shadow_stack :
    (goesOn (exec .sspushX5 ((hart c32 .u).setX 5 0x1234)) (fun t => t.sspv == 0x7FFC && t.byteAt 0x7FFC == 0x34) &&
      goesOn (exec .cSspushX1 ((hart c32 .u).setX 1 0x1234)) (fun t => t.sspv == 0x7FFC && t.pcv == 0x1002) &&
      goesOn (exec .sspushX1 ((hart c64 .u).setX 1 0x1234)) (fun t => t.sspv == 0x7FF8 && t.byteAt 0x7FF9 == 0x12) &&
      goesOn (exec .sspopchkX1 (place ((hart c32 .u).setX 1 0x1234) 0x8000 (le 4 0x1234))) (fun t => t.sspv == 0x8004) &&
      trapsWith (exec .sspopchkX5 (place ((hart c32 .u).setX 5 0x1235) 0x8000 (le 4 0x1234))) .softwareCheck 3 &&
      goesOn (exec .cSspopchkX5 (place ((hart c32 .u).setX 5 0x1234) 0x8000 (le 4 0x1234))) (fun t => t.pcv == 0x1002) &&
      goesOn (exec (.ssrdp 5) (hart c32 .u)) (fun t => t.x 5 == 0x8000) &&
      goesOn (exec (.ssrdp 5) (hart c32 .m)) (fun t => t.x 5 == 0) &&
      goesOn (exec .sspushX1 (hart c32 .m)) (fun t => t.sspv == 0x8000 && t.mem.isEmpty) &&
      goesOn (exec (.ssamoswapW 11 10 12 true true)
          (place (((hart c64 .s).setX 10 0x80000FF8).setX 12 0xAAAAAAAA55555555) 0x80000FF8 (le 4 0x80000FF8)))
        (fun t => t.x 11 == 0xFFFFFFFF80000FF8 && t.byteAt 0x80000FF8 == 0x55 && t.content 0x80000FFC == none) &&
      goesOn (exec (.ssamoswapD 1 10 0 false false) (place (hart c64 .s) 0x2000 (le 8 0x2000)))
        (fun t => t.x 1 == 0x2000 && t.byteAt 0x2001 == 0) &&
      trapsWith (exec (.ssamoswapW 1 10 11 false false) ((hart c32 .s).setX 10 0x2002)) .storeAddrMisaligned 0x2002 &&
      trapsWith (exec .sspushX1 (deny (hart c32 .u) 0x7FFF 1 [.ssStore] .access)) .storeAccessFault 0x7FFC) = true := by
  decide

/-- 40_zifencei.md R161, 47_hints.md, 48_cmo.md R389, 49_base_subset.md R429, R430, R439: what only advances, what traps. -/
theorem test_hints_and_calls :
    (goesOn (exec (.fenceI 1 2 3) { hart c32 .u with fetchView := [(0x2000, [[none, none, none, none], []])] }) (fun t =>
        t.fetchView.isEmpty && t.pcv == 0x1004) &&
      goesOn (exec .pause (hart c32 .u)) (fun t => t.pcv == 0x1004) &&
      goesOn (exec .ntlP1 (hart c32 .u)) (fun t => t.pcv == 0x1004 && t.instret == 1) &&
      goesOn (exec .cNtlAll (hart c32 .u)) (fun t => t.pcv == 0x1002) &&
      goesOn (exec .cMop7 (hart c32 .u)) (fun t => t.pcv == 0x1002) &&
      goesOn (exec (.prefetchR 10 1) (hart c32 .u)) (fun t => t.pcv == 0x1004 && t.mem.isEmpty) &&
      goesOn (exec (.fence 0 15 15 0 0) (hart c32 .u)) (fun t => t.pcv == 0x1004) &&
      trapsWith (exec .ecall (hart c32 .u)) .ecallU 0 && trapsWith (exec .ecall (hart c32 .vs)) .ecallVS 0 &&
      goesOn (exec .ebreak (hart c32 .u)) (fun t => (t.trap.any fun r => r.cause == .breakpoint) && t.instret == 0) &&
      goesOn (exec .cEbreak (hart c32 .s)) (fun t => t.trap.any fun r => r.cause == .breakpoint && r.epc == 0x1000)) =
      true := by decide

/-- The worked example of 48_cmo.md R387 and the table of R380; the gates of R373 to R375. -/
theorem test_cmo :
    (goesOn (exec (.cboZero 10) (place ((hart c32 .u).setX 10 0x80001234) 0x800011FF (List.replicate 66 0xEE))) (fun t =>
        t.byteAt 0x80001200 == 0 && t.byteAt 0x8000123F == 0 && t.byteAt 0x800011FF == 0xEE && t.byteAt 0x80001240 == 0xEE) &&
      goesOn (exec (.cboFlush 10) (place (hart c32 .u) 0x2000 [5])) (fun t =>
        t.cacheAt 0x2000 == { valid := false, may := [some 5] } && t.cacheAt 0x203F == { valid := false, may := [none] } &&
        t.cacheAt 0x2040 == { valid := true, may := [none] }) &&
      goesOn (exec (.cboInval 10) (hart c32 .u)) (fun t => (t.cacheAt 0x2000).valid == false) &&
      goesOn (exec (.cboClean 10) { hart c32 .u with cache := [(0x2000, { valid := true, may := [some 1, none] })] })
        (fun t => t.cacheAt 0x2000 == { valid := true, may := [none] }) &&
      goesOn (exec (.cboInval 10) { hart c32 .vu with env := { (hart c32 .vu).env with henvcfg := EnvCfg.off } })
        (fun t => t.trap.any fun r => r.cause == .virtualInstruction) &&
      goesOn (exec (.cboZero 10) { hart c32 .u with env := { (hart c32 .u).env with senvcfg := EnvCfg.off } })
        (fun t => t.trap.any fun r => r.cause == .illegalInstruction) &&
      trapsWith (exec (.cboClean 11) (deny (hart c32 .m) 0 64 [.load, .store, .fetch] .guest)) .storeGuestPageFault 7 &&
      (match exec (.cboFlush 11) (deny (hart c32 .m) 0 1 [.load] .page) with
        | .fault .cboBlockNotUniform => true
        | _ => false)) = true := by decide +kernel

/-- A store with a state of memory behind it: sw leaves a second state of the unit, sh a third, and no mixture of the
low half of the first with the high half of the last; the fetch of a non-aligned store sees its bytes in either order
(20_memory.md R76, R102, 70_reset_and_hazards.md R497). -/
theorem test_fetch_view :
    (((((hart c32 .u).storeValue 0x2000 4 0x44332211).storeValue 0x2002 2 0x6655).versionsAt 0x2000 ==
        [[some 0x11, some 0x22, some 0x55, some 0x66], [some 0x11, some 0x22, some 0x33, some 0x44],
          [none, none, none, none]]) &&
      (((hart { c32 with misalignedOK := true } .u).storeValue 0x2001 2 0x2211).versionsAt 0x2000 ==
        [[none, some 0x11, some 0x22, none], [none, none, none, none], [none, some 0x11, none, none],
          [none, none, some 0x22, none]])) = true := by decide

/-- FENCE.I while memory and the copy differ: a fetch keeps what a load saw then, not the byte stored later alone
(20_memory.md R102, 40_zifencei.md R161). -/
theorem test_fence_after_invalidate :
    (goesOn (exec (.fenceI 0 0 0)
        { hart c32 .u with mem := [(0x2000, 7)], cache := [(0x2000, { valid := false, may := [none] })] }) (fun t =>
      t.fetchSet 0x2000 == [none] && (t.storeValue 0x2000 1 9).fetchSet 0x2000 == [some 9, none])) = true := by decide

/-- The hart with accesses of the kind that start at 0x2000 and are at least four bytes long refused. -/
def denyWords (kind : AccessKind) : State :=
  { hart c32 .u with env := { (hart c32 .u).env with denied :=
      [{ lo := 0x2000, len := 1, kinds := [kind], why := .access, scope := .starting 4 8 }] } }

/-- A refusal that depends on the length of the access: the word is refused, its halfword is not (10_state.md R52). -/
theorem test_permission_by_length :
    (trapsWith (exec (.sw 11 10 0) (denyWords .store)) .storeAccessFault 0x2000 &&
      goesOn (exec (.sh 11 10 0) (denyWords .store)) (fun t => t.byteAt 0x2000 == 7)) = true := by decide

/-! ### Witnesses: for each obligation with hypotheses, a state and operands that meet them, clause by clause -/

/-- Memory permitted everywhere. -/
theorem permits_of_none {s : State} (h : s.env.denied = []) (kinds : List AccessKind) (addrs : List Nat) :
    s.permits kinds addrs := by
  intro d hd; rw [h] at hd; cases hd

theorem permitsAccess_of_none {s : State} (h : s.env.denied = []) (kinds : List AccessKind) (ea : Word) (n : Nat) :
    s.permitsAccess kinds ea n := by
  unfold State.permitsAccess
  split
  · exact permits_of_none h _ _
  · exact fun _ _ => permits_of_none h _ _

theorem pairPermits_of_none {s : State} (h : s.env.denied = []) (kind : AccessKind) (ea : Word) : s.pairPermits kind ea :=
  fun _ _ _ => permits_of_none h _ _

/-- A pair access with a byte whose every access of the kind is refused is refused however it is cut. -/
theorem pairRefused_of {s : State} {kind : AccessKind} {ea : Word} {j : Nat} (hj : j < 8) {d : Denial}
    (hd : d ∈ s.env.denied) (hk : kind ∈ d.kinds) (hs : d.scope = .touching) (hr : d.inRange (s.byteAddr ea j)) :
    s.pairRefused kind ea := by
  refine ⟨j, hj, ?_⟩
  rintro ⟨i, n, _, h1, h2, hp⟩
  refine hp d hd ⟨⟨kind, List.mem_singleton.mpr rfl, hk⟩, ?_⟩
  rw [hs]
  refine ⟨_, ?_, hr⟩
  rw [State.partAddrs, List.mem_take_iff_getElem]
  exact ⟨j - i, by simp; omega, by rw [List.getElem_drop, State.getElem_addrs]; congr 1; omega⟩

theorem permits_of {s : State} {kinds : List AccessKind} {addrs : List Nat}
    (h : (s.denial kinds addrs == none) = true) : s.permits kinds addrs := State.denial_eq_none.mp (by simpa using h)

theorem permits_each_of {s : State} {kinds : List AccessKind} {ea : Word} {k : Nat}
    (h : ((s.addrs ea k).all fun a => s.denial kinds [a] == none) = true) :
    ∀ i, i < k → s.permits kinds [s.byteAddr ea i] :=
  fun i hi => permits_of (List.all_eq_true.mp h _ (State.mem_addrs.mpr ⟨i, hi, rfl⟩))

theorem refuses_of {s : State} {kinds : List AccessKind} {addrs : List Nat} {w : Why}
    (h : (s.denial kinds addrs == some w) = true) : s.refuses kinds addrs w := State.denial_eq_some.mp (by simpa using h)

theorem not_permits_of {s : State} {kinds : List AccessKind} {addrs : List Nat} {w : Why}
    (h : (s.denial kinds addrs == some w) = true) : ¬ s.permits kinds addrs := by
  intro hp; rw [State.denial_eq_none.mpr hp] at h; cases w <;> simp at h

/-- The outcome goes on to a state that passes the test. -/
theorem goesOn_exists {o : Out} {test : State → Bool} (h : goesOn o test = true) : ∃ t, o = .next t ∧ test t = true := by
  cases o with
  | next t => exact ⟨t, rfl, h⟩
  | fault f => cases h
  | refused r => cases h

/-- A hart with a program, a byte whose copy is not valid, and a unit that a fetch may see in two states. -/
def busy : State :=
  { place (hart c32 .u) 0x1000 (le 4 0x02C58533) with
    cache := [(0x2000, { valid := false, may := [none, some 5] })],
    fetchView := [(0x3000, [[none, none, none, none], [some 1, none, none, none]])] }

theorem busy_inv : Inv busy := by
  refine ⟨⟨by decide, by decide +kernel⟩, ⟨by decide +kernel, by decide +kernel⟩, ?_,
    ⟨by decide, by decide +kernel⟩, ?_, by decide +kernel, by decide +kernel, by decide +kernel,
    by decide, by decide +kernel, by decide +kernel⟩
  · intro p hp
    have : p = (0x2000, { valid := false, may := [none, some 5] }) := by simpa [busy] using hp
    subst this; unfold State.cacheEntryOk; decide
  · intro p hp
    have : p = (0x3000, [[none, none, none, none], [some 1, none, none, none]]) := by simpa [busy] using hp
    subst this; unfold State.fetchEntryOk; decide

theorem witness_DecodeOfEncode : (Instr.ssrdp 31).wellFormed c32 = true ∧ (Instr.cSdPair 6 7 31).wellFormed c32 = true := by
  decide

theorem witness_EncodeOfDecode : decode c32 [0x33, 0x85, 0xC5, 0x02, 0xFF] = .ok (.mul 10 11 12, [0xFF]) := by rfl

/-- No landing pad required, and required of an LPAD; the zero parcel, and MUL without M and Zmmul. -/
theorem witness_StepRunsTheDecodedInstruction :
    (busy.trap = none ∧ busy.fetch = .ok (le 4 0x02C58533) ∧
      decode busy.cfg (le 4 0x02C58533) = .ok (.mul 10 11 12, []) ∧ ¬ (busy.lpeActive ∧ busy.elp = .expected)) ∧
    (∃ s : State, s.trap = none ∧ s.fetch = .ok (le 4 0x00000017) ∧
      decode s.cfg (le 4 0x00000017) = .ok (.lpad 0, []) ∧ s.lpeActive ∧ s.elp = .expected) ∧
    (∃ s : State, s.trap = none ∧ s.fetch = .ok (le 2 0) ∧ (∀ i rest, decode s.cfg (le 2 0) ≠ .ok (i, rest)) ∧
      ¬ (s.lpeActive ∧ s.elp = .expected)) ∧
    ∃ s : State, s.trap = none ∧ s.fetch = .ok (le 4 0x02C58533) ∧
      (∀ i rest, decode s.cfg (le 4 0x02C58533) ≠ .ok (i, rest)) ∧ ¬ (s.lpeActive ∧ s.elp = .expected) :=
  ⟨⟨rfl, rfl, rfl, by intro h; cases h.2⟩,
    ⟨{ place (hart c32 .u) 0x1000 (le 4 0x00000017) with elp := .expected }, rfl, rfl, rfl, ⟨rfl, rfl⟩, rfl⟩,
    ⟨place (hart c32 .u) 0x1000 (le 2 0), rfl, rfl, (fun _ _ h => nomatch h), fun h => nomatch h.2⟩,
    { busy with cfg := withExt fun e => { e with m := false, zmmul := false } }, rfl, rfl,
    (fun _ _ h => nomatch h), fun h => nomatch h.2⟩

theorem witness_CoherentFetchSeesMemory :
    (∃ s : State, s.fetchView = [] ∧ (∀ i, i < 4 → (s.cacheAt (s.byteAddr s.pcv i)).valid = true) ∧
      s.permits [.fetch] (s.addrs s.pcv 2) ∧ (s.byteAt (s.byteAddr s.pcv 0)).toNat % 4 = 1) ∧
    (∃ s : State, s.fetchView = [] ∧ (∀ i, i < 4 → (s.cacheAt (s.byteAddr s.pcv i)).valid = true) ∧
      s.permits [.fetch] (s.addrs s.pcv 2) ∧ (s.byteAt (s.byteAddr s.pcv 0)).toNat % 4 = 3 ∧
      s.permits [.fetch] (s.addrs (s.after 2) 2) ∧ s.permits [.fetch] (s.addrs s.pcv 4)) ∧
    Inv busy ∧ busy.fetch = .ok (le 4 0x02C58533) ∧ busy.cfg.ext.ziccif = true :=
  ⟨⟨place (hart c32 .u) 0x1000 (le 2 0x4581), rfl, by decide, permits_of_none rfl _ _, by decide⟩,
    ⟨place (hart c32 .u) 0x1000 (le 4 0x02C58533), rfl, by decide, permits_of_none rfl _ _, by decide,
      permits_of_none rfl _ _, permits_of_none rfl _ _⟩, busy_inv, rfl, rfl⟩

/-- A fetch that `Permitted` refuses at the length 4 alone. -/
def denyLong (s : State) (why : Why) : State :=
  { s with env := { s.env with denied := [{ lo := 0x1000, len := 1, kinds := [.fetch], why := why, scope := .starting 4 4 }] } }

/-- The first parcel refused, the second alone, and the four bytes though each parcel is permitted. -/
theorem witness_RefusedFetchTraps :
    ∀ w, (∃ s : State, s.trap = none ∧ s.refuses [.fetch] (s.addrs s.pcv 2) w) ∧
      (∃ s : State, s.trap = none ∧ s.permits [.fetch] (s.addrs s.pcv 2) ∧
        (s.fetchByte (s.byteAddr s.pcv 0)).toNat % 4 = 3 ∧ s.refuses [.fetch] (s.addrs (s.after 2) 2) w) ∧
      ∃ s : State, s.trap = none ∧ s.permits [.fetch] (s.addrs s.pcv 2) ∧
        (s.fetchByte (s.byteAddr s.pcv 0)).toNat % 4 = 3 ∧ s.permits [.fetch] (s.addrs (s.after 2) 2) ∧
        s.refuses [.fetch] (s.addrs s.pcv 4) w := by
  refine fun w => ⟨⟨deny (hart c32 .u) 0x1001 1 [.fetch] w, rfl, refuses_of ?_⟩,
    ⟨deny busy 0x1003 1 [.fetch] w, rfl, permits_of ?_, ?_, refuses_of ?_⟩,
    denyLong busy w, rfl, permits_of ?_, ?_, permits_of ?_, refuses_of ?_⟩ <;> cases w <;> decide

theorem witness_StepKeepsInvariant : Inv busy ∧ ∃ t, step busy = .next t :=
  ⟨busy_inv, (goesOn_exists (test := fun t => t.x 10 == 0) (by decide)).imp fun _ h => h.1⟩

/-- An instruction that completes, and one that takes an exception. -/
theorem witness_InstretCountsRetired :
    (∃ t, step busy = .next t ∧ t.trap.isNone = true) ∧
    ∃ s t : State, step s = .next t ∧ t.trap.isSome = true :=
  ⟨goesOn_exists (by decide), place (hart c32 .u) 0x1000 (le 4 0x73), goesOn_exists (by decide +kernel)⟩

/-- An instruction that traps, and a step whose fetch is refused. -/
theorem witness_EveryTrapIsRecordedExactly :
    (busy.trap = none ∧ ∃ t, exec .ecall busy = .next t ∧ t.trap ≠ none) ∧
    ∃ s t : State, s.trap = none ∧ step s = .next t ∧ t.trap ≠ none := by
  refine ⟨⟨rfl, ?_⟩, deny busy 0x1000 1 [.fetch] .page, ?_⟩
  · obtain ⟨t, h, ht⟩ := goesOn_exists (o := exec .ecall busy) (test := fun t => t.trap.isSome) (by decide)
    exact ⟨t, h, by intro e; simp [e] at ht⟩
  · obtain ⟨t, h, ht⟩ := goesOn_exists (o := step (deny busy 0x1000 1 [.fetch] .page)) (test := fun t => t.trap.isSome)
      (by decide)
    exact ⟨t, rfl, h, by intro e; simp [e] at ht⟩

theorem witness_TrappedStateHasNoSuccessor :
    ({ busy with trap := some { cause := .ecallU, epc := 0, tval := 0, priv := .u, elp := .no } } : State).trap ≠ none := by
  simp

theorem witness_OnlyNamedInstructionsChangeElpAndSsp :
    ∃ t, exec (.mul 1 2 3) busy = .next t ∧ changesElp (.mul 1 2 3) = false ∧ changesSsp (.mul 1 2 3) = false :=
  ⟨_, rfl, rfl, rfl⟩

theorem witness_OnlyStoresChangeMemory : ∃ t, exec (.mul 1 2 3) busy = .next t ∧ stores (.mul 1 2 3) = false :=
  ⟨_, rfl, rfl⟩

theorem witness_OnlyDestinationsAreWritten : ∃ t, exec (.mul 1 2 3) busy = .next t := ⟨_, rfl⟩

theorem witness_LoadReturnsWhatWasStored : Inv busy ∧ 0 ≤ 8 ∧ 8 ≤ 8 := ⟨busy_inv, by decide, by decide⟩

/-- A byte whose copy is not valid, a unit seen in two states, and an aligned store to it. -/
theorem witness_StoreAddsToTheFetchView :
    Inv busy ∧ 8 ≤ 8 ∧ (0x3000 : Word).toNat % 8 = 0 ∧ (∀ k, k < 4 → (busy.cacheAt (0x3000 + k)).valid = true) ∧
    (busy.versionsAt 0x3000).length = 2 ∧ (busy.cacheAt 0x2000).valid = false :=
  ⟨busy_inv, by decide, by decide, by decide, by decide, by decide⟩

/-- Each row of the table, at both widths. -/
theorem witness_DivisionSpecialCases :
    busy.ux 0 = 0 ∧ busy.ux32 0 = 0 ∧
    (∃ s : State, s.ix 11 = -(2 ^ (s.xlen.bits - 1)) ∧ s.ix 12 = -1) ∧
    ∃ s : State, s.ix32 11 = -(2 ^ 31) ∧ s.ix32 12 = -1 ∧ s.xlen = .rv64 :=
  ⟨by decide, by decide +kernel,
    ⟨(busy.setX 11 0x80000000).setX 12 0xFFFFFFFF, by decide, by decide +kernel⟩,
    ((hart c64 .u).setX 11 0x180000000).setX 12 0xFFFFFFFF, by decide, by decide +kernel, rfl⟩

theorem witness_DirectJumpsComplete :
    busy.targetOk (truncTo busy.xlen ((busy.pcv.toNat : Int) + 2 * (-1 : BitVec 20).toInt)) ∧
    busy.targetOk (truncTo busy.xlen ((busy.pcv.toNat : Int) + 2 * (1 : BitVec 11).toInt)) := by
  unfold State.targetOk; decide

theorem witness_IndirectJumpsComplete :
    busy.targetOk (truncTo busy.xlen (2 * ((busy.ux 11 + (-1 : BitVec 12).toInt) / 2))) ∧
    busy.targetOk (truncTo busy.xlen (2 * (busy.ux 11 / 2))) := by
  unfold State.targetOk; decide

/-- Both ways of the comparison, with an aligned target. -/
theorem witness_BranchesComplete :
    busy.ux 0 = busy.ux 1 ∧ busy.ux 10 ≠ busy.ux 11 ∧
    busy.targetOk (truncTo busy.xlen ((busy.pcv.toNat : Int) + 2 * (2047 : BitVec 12).toInt)) := by
  unfold State.targetOk; decide

theorem witness_MisalignedTargetTraps :
    (∃ s : State, ¬ s.targetOk (truncTo s.xlen ((s.pcv.toNat : Int) + 2 * (1 : BitVec 20).toInt)) ∧
      ¬ s.targetOk (truncTo s.xlen ((s.pcv.toNat : Int) + 2 * (1 : BitVec 12).toInt)) ∧
      ¬ s.targetOk (truncTo s.xlen ((s.pcv.toNat : Int) + 2 * (1 : BitVec 11).toInt)) ∧
      ¬ s.targetOk (truncTo s.xlen (2 * (s.ux 11 / 2))) ∧
      ¬ s.targetOk (truncTo s.xlen (2 * ((s.ux 11 + (0 : BitVec 12).toInt) / 2)))) ∧
    Inv busy ∧ busy.cfg.ext.zca = true :=
  ⟨⟨hart cNoZca .u, by unfold State.targetOk; decide⟩, busy_inv, rfl⟩

/-- RV64 for the 8-byte forms: aligned, and misaligned where that is supported, up to the top of the address space. -/
theorem witness_LoadsComplete :
    (∃ s : State, s.alignmentOk (s.effAddr 10 (immI s.xlen 0)) 4 ∧
      s.permitsAccess [.load] (s.effAddr 10 (immI s.xlen 0)) 4) ∧
    ∃ s : State, s.alignmentOk (s.effAddr 0 (immI s.xlen (-1))) 8 ∧ s.permitsAccess [.load] (s.effAddr 0 (immI s.xlen (-1))) 8 ∧
      s.alignmentOk (s.effAddr (cReg 2) (offMem 31)) 8 ∧ s.permitsAccess [.load] (s.effAddr (cReg 2) (offMem 31)) 8 ∧
      s.alignmentOk (s.effAddr 2 (offSp 63)) 8 ∧ s.permitsAccess [.load] (s.effAddr 2 (offSp 63)) 8 :=
  ⟨⟨busy, .inl (by decide), permitsAccess_of_none rfl _ _ _⟩,
    hart { c64 with misalignedOK := true } .u, .inr (.inl rfl), permitsAccess_of_none rfl _ _ _, .inl (by decide),
    permitsAccess_of_none rfl _ _ _, .inl (by decide), permitsAccess_of_none rfl _ _ _⟩

theorem witness_StoresComplete :
    (∃ s : State, s.alignmentOk (s.effAddr 10 (immI s.xlen 0)) 2 ∧ s.permitsAccess [.store] (s.effAddr 10 (immI s.xlen 0)) 2 ∧
      s.alignmentOk (s.effAddr 10 (immI s.xlen (-4))) 4 ∧ s.permitsAccess [.store] (s.effAddr 10 (immI s.xlen (-4))) 4) ∧
    ∃ s : State, s.alignmentOk (s.effAddr 0 (immI s.xlen (-1))) 8 ∧ s.permitsAccess [.store] (s.effAddr 0 (immI s.xlen (-1))) 8 ∧
      s.alignmentOk (s.effAddr (cReg 2) (offMem 31)) 8 ∧ s.permitsAccess [.store] (s.effAddr (cReg 2) (offMem 31)) 8 ∧
      s.alignmentOk (s.effAddr 2 (offSp 63)) 8 ∧ s.permitsAccess [.store] (s.effAddr 2 (offSp 63)) 8 :=
  ⟨⟨busy, .inl (by decide), permitsAccess_of_none rfl _ _ _, .inl (by decide +kernel), permitsAccess_of_none rfl _ _ _⟩,
    hart { c64 with misalignedOK := true } .u, .inr (.inl rfl), permitsAccess_of_none rfl _ _ _, .inl (by decide),
    permitsAccess_of_none rfl _ _ _, .inl (by decide), permitsAccess_of_none rfl _ _ _⟩

/-- The three clauses of `AccessTraps` for one kind of access at one address, on three states. -/
structure TrapClauses (kind : AccessKind) (ea : Word) (n : Nat) (c : Cfg) : Prop where
  misaligned : ¬ (hart c .u).alignmentOk (ea + 1) n
  refused : ea.toNat % n = 0 ∧ ∀ w, (deny (hart c .u) (ea.toNat + n - 1) 1 [kind] w).refuses [kind]
    ((hart c .u).addrs ea n) w
  bytewise : (ea + 1).toNat % n ≠ 0 ∧ (hart { c with misalignedOK := true } .u).alignmentOk (ea + 1) n ∧ ∀ w,
    (∀ i, i < n - 1 → (deny (hart c .u) (ea.toNat + n) 1 [kind] w).permits [kind] [(hart c .u).byteAddr (ea + 1) i]) ∧
    (deny (hart c .u) (ea.toNat + n) 1 [kind] w).refuses [kind] [(hart c .u).byteAddr (ea + 1) (n - 1)] w

theorem trapClauses_load4 : TrapClauses .load 0x2000 4 c32 :=
  ⟨by unfold State.alignmentOk; decide, ⟨rfl, fun w => refuses_of (by cases w <;> decide +kernel)⟩,
    by decide, .inr (.inl rfl), fun w => ⟨permits_each_of (by cases w <;> decide), refuses_of (by cases w <;> decide +kernel)⟩⟩

theorem trapClauses_load8 : TrapClauses .load 0x2000 8 c64 :=
  ⟨by unfold State.alignmentOk; decide, ⟨rfl, fun w => refuses_of (by cases w <;> decide +kernel)⟩,
    by decide, .inr (.inl rfl), fun w => ⟨permits_each_of (by cases w <;> decide), refuses_of (by cases w <;> decide +kernel)⟩⟩

theorem trapClauses_store2 : TrapClauses .store 0x2000 2 c32 :=
  ⟨by unfold State.alignmentOk; decide, ⟨rfl, fun w => refuses_of (by cases w <;> decide +kernel)⟩,
    by decide, .inr (.inl rfl), fun w => ⟨permits_each_of (by cases w <;> decide), refuses_of (by cases w <;> decide +kernel)⟩⟩

theorem trapClauses_store4 : TrapClauses .store 0x2000 4 c32 :=
  ⟨by unfold State.alignmentOk; decide, ⟨rfl, fun w => refuses_of (by cases w <;> decide +kernel)⟩,
    by decide, .inr (.inl rfl), fun w => ⟨permits_each_of (by cases w <;> decide), refuses_of (by cases w <;> decide +kernel)⟩⟩

theorem trapClauses_store8 : TrapClauses .store 0x2000 8 c64 :=
  ⟨by unfold State.alignmentOk; decide, ⟨rfl, fun w => refuses_of (by cases w <;> decide +kernel)⟩,
    by decide, .inr (.inl rfl), fun w => ⟨permits_each_of (by cases w <;> decide), refuses_of (by cases w <;> decide +kernel)⟩⟩

/-- x10 = 0x2000 addresses the accesses of `TrapClauses`. -/
theorem witness_LoadsAndStoresTrap :
    (hart c32 .u).effAddr 10 (immI .rv32 0) = 0x2000 ∧ (hart c64 .u).effAddr 10 (immI .rv64 1) = 0x2000 + 1 ∧
    TrapClauses .load 0x2000 4 c32 ∧ TrapClauses .load 0x2000 8 c64 ∧ TrapClauses .store 0x2000 2 c32 ∧
    TrapClauses .store 0x2000 4 c32 ∧ TrapClauses .store 0x2000 8 c64 :=
  ⟨by decide, by decide +kernel, trapClauses_load4, trapClauses_load8, trapClauses_store2, trapClauses_store4,
    trapClauses_store8⟩

/-- A pair above x0 and the pair of x0, at an aligned address. -/
theorem witness_PairLoadsComplete :
    (0 : Reg).toNat % 2 = 0 ∧ (30 : Reg).toNat % 2 = 0 ∧ busy.alignmentOk (busy.effAddr 10 (immI busy.xlen 8)) 8 ∧
    busy.pairPermits .load (busy.effAddr 10 (immI busy.xlen 8)) ∧ busy.alignmentOk (busy.effAddr 2 (offSp 63)) 8 ∧
    busy.pairPermits .load (busy.effAddr 2 (offSp 63)) :=
  ⟨rfl, rfl, .inl (by decide), pairPermits_of_none rfl _ _, .inl (by decide), pairPermits_of_none rfl _ _⟩

theorem witness_PairStoresComplete :
    (0 : Reg).toNat % 2 = 0 ∧ (30 : Reg).toNat % 2 = 0 ∧ busy.alignmentOk (busy.effAddr 10 (immI busy.xlen 8)) 8 ∧
    busy.pairPermits .store (busy.effAddr 10 (immI busy.xlen 8)) ∧ busy.alignmentOk (busy.effAddr 2 (offSp 63)) 8 ∧
    busy.pairPermits .store (busy.effAddr 2 (offSp 63)) :=
  ⟨rfl, rfl, .inl (by decide), pairPermits_of_none rfl _ _, .inl (by decide), pairPermits_of_none rfl _ _⟩

/-- The upper half of the pair refused. -/
theorem witness_PairTrapsKeepTheBase :
    ∀ k, ∃ s : State, (10 : Reg).toNat % 2 = 0 ∧ s.alignmentOk (s.effAddr 10 (immI s.xlen 0)) 8 ∧
      s.pairRefused k (s.effAddr 10 (immI s.xlen 0)) := by
  intro k
  refine ⟨deny (hart c32 .u) 0x2004 4 [k] .page, rfl, .inl (show ((hart c32 .u).effAddr 10 (immI .rv32 0)).toNat % 8 = 0 by
    decide), pairRefused_of (j := 7) (by decide) (List.mem_cons_self ..) (List.mem_cons_self ..) rfl ?_⟩
  show 0x2004 ≤ (hart c32 .u).byteAddr ((hart c32 .u).effAddr 10 (immI .rv32 0)) 7 ∧
    (hart c32 .u).byteAddr ((hart c32 .u).effAddr 10 (immI .rv32 0)) 7 < 0x2004 + 4
  decide

theorem witness_OddOrMisalignedPairTraps :
    (31 : Reg).toNat % 2 = 1 ∧ (7 : BitVec 3).toNat % 2 = 1 ∧ (30 : Reg).toNat % 2 = 0 ∧ (cReg 6).toNat % 2 = 0 ∧
    ¬ (hart c32 .u).alignmentOk ((hart c32 .u).effAddr 10 (immI .rv32 4)) 8 := by
  unfold State.alignmentOk; decide

theorem witness_CsrInstructionsOnSsp : busy.cfg.ext.zicfiss = true ∧ ¬ busy.sseIllegal ∧ ¬ busy.sseVirtual := by
  unfold State.sseIllegal State.sseVirtual; decide

/-- Each refusal: the enables off, a CSR that does not exist, a write to a counter, a counter that is not enabled. -/
theorem witness_RefusedCsrAccessTraps :
    (∃ s : State, s.cfg.ext.zicfiss = true ∧ s.sseIllegal) ∧
    (∃ s : State, s.cfg.ext.zicfiss = true ∧ ¬ s.sseIllegal ∧ s.sseVirtual) ∧
    ¬ csrExists c32 0x300 ∧ (csrWrites (.csrrw 0 1 0xC00) ∧ 0xC00 ≤ (0xC00 : BitVec 12).toNat) ∧
    ∃ s : State, ¬ s.counterOpen ((0xC83 : BitVec 12).toNat % 32) := by
  refine ⟨⟨{ hart c32 .u with env := { Env.reset with priv := .u } }, rfl, .inl ⟨by decide, rfl⟩⟩,
    ⟨{ hart c32 .vs with env := { Env.reset with priv := .vs, menvcfg := envOn } }, rfl, ?_, .inl ⟨rfl, rfl⟩⟩, ?_,
    ⟨trivial, by decide⟩,
    { hart c32 .u with env := { Env.reset with priv := .u, counterEnabled := 7 } }, ?_⟩
  · unfold State.sseIllegal; decide
  · unfold csrExists
    rintro (⟨h, _⟩ | ⟨k, hk, _, h⟩)
    · exact absurd h (by decide)
    · have : (0x300 : BitVec 12).toNat = 768 := rfl
      omega
  · unfold State.counterOpen; decide

/-- The counters 0, 1, 2, an implemented and an unimplemented hpmcounter, low and high. -/
theorem witness_CounterReads :
    busy.counterOpen 0 ∧ busy.counterOpen 31 ∧ busy.cfg.ext.zicntr = true ∧ busy.cfg.ext.zihpm = true ∧ busy.xlen = .rv32 ∧
    (∀ w', (31, w') ∈ busy.cfg.hpmCounters ↔ w' = 64) ∧
    (∀ w, (3, w) ∉ ({ c32 with hpmCounters := [] } : Cfg).hpmCounters) ∧
    ({ c32 with hpmCounters := [] } : Cfg).hpmUnimplFaults = false := by
  refine ⟨.inr (by decide), .inr (by decide +kernel), rfl, rfl, rfl, ?_, by simp, rfl⟩
  intro w'
  show (31, w') ∈ (List.range 29).map (fun k => (k + 3, 64)) ↔ w' = 64
  simp only [List.mem_map, List.mem_range, Prod.mk.injEq]
  exact ⟨fun ⟨k, _, _, h⟩ => h.symm, fun h => ⟨28, by omega, by omega, h.symm⟩⟩

/-- Not required; required with a misaligned pc, a label that differs, and a label that matches. -/
theorem witness_LpadChecksAndClears :
    ¬ (busy.lpeActive ∧ busy.elp = .expected) ∧
    ∃ s : State, s.lpeActive ∧ s.elp = .expected ∧ s.pcv.toNat % 4 = 0 ∧
      ((0xFFFFF : BitVec 20).toNat ≠ 0 ∧ (0xFFFFF : BitVec 20).toNat ≠ (s.x 7).toNat / 2 ^ 12 % 2 ^ 20) ∧
      (0x12345 : BitVec 20).toNat = (s.x 7).toNat / 2 ^ 12 % 2 ^ 20 ∧
      ({ s with pc := 0x1002 } : State).pcv.toNat % 4 ≠ 0 :=
  ⟨fun h => (nomatch h.2), { (hart c32 .u).setX 7 0x12345ABC with elp := .expected }, ⟨rfl, rfl⟩, rfl, by decide,
    by decide, by decide +kernel, by decide +kernel⟩

theorem witness_LandingPadIsRequired :
    (∃ s : State, ∃ bytes, s.trap = none ∧ s.fetch = .ok bytes ∧ s.lpeActive ∧ s.elp = .expected ∧
      s.pcv.toNat % 4 = 0 ∧ bytes.length = 4 ∧ leNat bytes % 2 ^ 12 = 0x017 ∧ leNat bytes / 2 ^ 12 = 0) ∧
    ∃ s : State, ∃ bytes, s.trap = none ∧ s.fetch = .ok bytes ∧ s.lpeActive ∧ s.elp = .expected ∧ bytes.length = 2 :=
  ⟨⟨{ place (hart c32 .u) 0x1000 (le 4 0x017) with elp := .expected }, le 4 0x017, rfl, rfl, ⟨rfl, rfl⟩, rfl,
      by decide, rfl, by decide +kernel, by decide +kernel⟩,
    { place (hart c32 .u) 0x1000 (le 2 0x4581) with elp := .expected }, le 2 0x4581, rfl, rfl, ⟨rfl, rfl⟩, rfl, rfl⟩

theorem busy_sseActive : busy.sseActive := by
  unfold State.sseActive State.sseIllegal State.sseVirtual; decide

theorem witness_ShadowStackPushes :
    busy.cfg.wf = true ∧ busy.sseActive ∧ busy.alignmentOk busy.belowSsp busy.xlen.bytes ∧
    busy.permitsAccess [.ssStore] busy.belowSsp busy.xlen.bytes :=
  ⟨by decide, busy_sseActive, .inl (by decide +kernel), permitsAccess_of_none rfl _ _ _⟩

/-- What a load of valid bytes may return is what they hold. -/
theorem mayLoadAll_valid {s : State} {ea : Word} {n : Nat} {bs : List Byte}
    (hv : ∀ i, i < n → (s.cacheAt (s.byteAddr ea i)).valid = true) (h : s.mayLoadAll ea n bs) :
    bs = (s.addrs ea n).map s.byteAt := by
  obtain ⟨hl, hb⟩ := h
  apply List.ext_getElem
  · simp [hl]
  · intro i h1 h2
    rcases hb i h1 with e | ⟨e, _⟩
    · rw [e]; simp [State.getElem_addrs]
    · rw [hv i (hl ▸ h1)] at e; cases e

/-- The top of the shadow stack equal to x11 = 7, and different from it. -/
theorem witness_ShadowStackPopsAreChecked :
    ∃ s : State, s.cfg.wf = true ∧ s.sseActive ∧ s.alignmentOk s.sspv s.xlen.bytes ∧
      s.permitsAccess [.ssLoad] s.sspv s.xlen.bytes ∧
      (∀ bs, s.mayLoadAll s.sspv s.xlen.bytes bs → leNat bs = (s.x 1).toNat) ∧
      ∀ bs, s.mayLoadAll s.sspv s.xlen.bytes bs → leNat bs ≠ (s.x 5).toNat := by
  refine ⟨place ((hart c32 .u).setX 1 0x1234) 0x8000 (le 4 0x1234), by decide, ?_, .inl (by decide +kernel),
    permitsAccess_of_none rfl _ _ _, ?_, ?_⟩
  · unfold State.sseActive State.sseIllegal State.sseVirtual; decide
  · intro bs h
    rw [mayLoadAll_valid (by decide) h]; decide +kernel
  · intro bs h
    rw [mayLoadAll_valid (by decide) h]; decide +kernel

theorem witness_InactiveShadowStackRevertsToMops : ¬ (hart c32 .m).sseActive ∧ busy.sseActive :=
  ⟨fun h => h.2.2.2.1 rfl, busy_sseActive⟩

/-- The clauses of `AccessTraps` at the two addresses of the shadow stack. -/
theorem witness_ShadowStackAccessTraps :
    busy.sseActive ∧ (hart c32 .u).belowSsp = 0x7FFC ∧ (hart c32 .u).sspv = 0x8000 ∧
    (∃ s : State, s.sseActive ∧ ¬ s.alignmentOk s.sspv s.xlen.bytes ∧ ¬ s.alignmentOk s.belowSsp s.xlen.bytes) ∧
    (∀ w, (deny (hart c32 .u) 0x7FFF 1 [.ssStore] w).refuses [.ssStore] ((hart c32 .u).addrs 0x7FFC 4) w) ∧
    (∀ w, (deny (hart c32 .u) 0x8003 1 [.ssLoad] w).refuses [.ssLoad] ((hart c32 .u).addrs 0x8000 4) w) ∧
    ∃ s : State, s.sseActive ∧ s.sspv.toNat % s.xlen.bytes ≠ 0 ∧ s.alignmentOk s.sspv s.xlen.bytes ∧
      (∀ i, i < 7 → s.permits [.ssLoad] [s.byteAddr s.sspv i]) ∧ s.refuses [.ssLoad] [s.byteAddr s.sspv 7] .guest ∧
      s.belowSsp.toNat % s.xlen.bytes ≠ 0 ∧ ∀ i, i < 7 → s.permits [.ssStore] [s.byteAddr s.belowSsp i] := by
  refine ⟨busy_sseActive, by decide, by decide +kernel, ⟨{ hart c64 .u with ssp := 0x8004 }, ?_, ?_, ?_⟩,
    fun w => refuses_of (by cases w <;> decide), fun w => refuses_of (by cases w <;> decide +kernel),
    deny { hart { c64 with misalignedOK := true } .u with ssp := 0x8004 } 0x800B 1 [.ssLoad] .guest, ?_, by decide,
    .inr (.inl rfl), permits_each_of (by decide), refuses_of (by decide +kernel), by decide +kernel,
    permits_each_of (by decide)⟩
  · unfold State.sseActive State.sseIllegal State.sseVirtual; decide
  · unfold State.alignmentOk; decide
  · unfold State.alignmentOk; decide
  · unfold State.sseActive State.sseIllegal State.sseVirtual; decide

theorem witness_PushThenPopRestoresSsp :
    Inv busy ∧ busy.cfg.wf = true ∧ busy.sseActive ∧ busy.alignmentOk busy.belowSsp busy.xlen.bytes ∧
    busy.permitsAccess [.ssStore, .ssLoad] busy.belowSsp busy.xlen.bytes :=
  ⟨busy_inv, by decide, busy_sseActive, .inl (by decide +kernel), permitsAccess_of_none rfl _ _ _⟩

theorem hart_swapOpen (p : Priv) : (hart c64 p).swapOpen := by
  unfold State.swapOpen State.sseIllegal State.sseVirtual; cases p <;> decide

theorem witness_ShadowStackSwapsComplete :
    ∃ s : State, s.swapOpen ∧ (s.x 10).toNat % 4 = 0 ∧ s.permits [.ssLoad, .ssStore] (s.addrs (s.x 10) 4) ∧
      (s.x 10).toNat % 8 = 0 ∧ s.permits [.ssLoad, .ssStore] (s.addrs (s.x 10) 8) :=
  ⟨hart c64 .m, hart_swapOpen .m, by decide, permits_of_none rfl _ _, by decide +kernel, permits_of_none rfl _ _⟩

theorem witness_ShadowStackSwapGate :
    (∃ s : State, s.sseIllegal) ∧ (∃ s : State, s.cfg.sModeImplemented = false) ∧
    ∃ s : State, ¬ s.sseIllegal ∧ s.cfg.sModeImplemented = true ∧ s.sseVirtual := by
  refine ⟨⟨{ hart c64 .s with env := { Env.reset with priv := .s } }, .inl ⟨by decide, rfl⟩⟩,
    ⟨hart { c64 with sModeImplemented := false } .m, rfl⟩,
    { hart c64 .vu with env := { Env.reset with priv := .vu, menvcfg := envOn } }, ?_, rfl, .inr ⟨rfl, rfl⟩⟩
  unfold State.sseIllegal; decide

theorem witness_ShadowStackSwapTraps :
    (hart c64 .s).swapOpen ∧ ((hart c64 .s).x 11).toNat % 4 ≠ 0 ∧ ((hart c64 .s).x 11).toNat % 8 ≠ 0 ∧
    ∀ w, ∃ s : State, s.swapOpen ∧ (s.x 10).toNat % 8 = 0 ∧ (s.x 10).toNat % 4 = 0 ∧
      s.refuses [.ssLoad, .ssStore] (s.addrs (s.x 10) 8) w ∧ s.refuses [.ssLoad, .ssStore] (s.addrs (s.x 10) 4) w :=
  ⟨hart_swapOpen .s, by decide, by decide +kernel, fun w =>
    ⟨deny (hart c64 .s) 0x2003 1 [.ssStore] w, hart_swapOpen .s,
      show ((hart c64 .s).x 10).toNat % 8 = 0 by decide, show ((hart c64 .s).x 10).toNat % 4 = 0 by decide +kernel,
      refuses_of (by cases w <;> decide), refuses_of (by cases w <;> decide +kernel)⟩⟩

/-- The hart with its enables as given. -/
def gated (p : Priv) (m s h : EnvCfg) : State :=
  { hart c32 p with env := { Env.reset with priv := p, menvcfg := m, senvcfg := s, henvcfg := h } }

/-- Each gate by the machine's, the supervisor's and the hypervisor's field. -/
theorem witness_CboGates :
    ((gated .s .off envOn envOn).cbieIllegal ∧ (gated .u envOn .off envOn).cbieIllegal) ∧
    (¬ (gated .vs envOn envOn .off).cbieIllegal ∧ (gated .vs envOn envOn .off).cbieVirtual) ∧
    (gated .s .off envOn envOn).bitIllegal EnvCfg.cbcfe ∧
    (¬ (gated .vu envOn .off envOn).bitIllegal EnvCfg.cbcfe ∧ (gated .vu envOn .off envOn).bitVirtual EnvCfg.cbcfe) ∧
    (gated .u envOn .off envOn).bitIllegal EnvCfg.cbze ∧
    (¬ (gated .vs envOn envOn .off).bitIllegal EnvCfg.cbze ∧ (gated .vs envOn envOn .off).bitVirtual EnvCfg.cbze) := by
  unfold State.cbieIllegal State.cbieVirtual State.bitIllegal State.bitVirtual; decide

theorem busy_gates :
    ¬ busy.cbieIllegal ∧ ¬ busy.cbieVirtual ∧ ¬ busy.bitIllegal EnvCfg.cbcfe ∧ ¬ busy.bitVirtual EnvCfg.cbcfe ∧
    ¬ busy.bitIllegal EnvCfg.cbze ∧ ¬ busy.bitVirtual EnvCfg.cbze := by
  unfold State.cbieIllegal State.cbieVirtual State.bitIllegal State.bitVirtual; decide

theorem witness_CleanAndFlushComplete :
    Inv busy ∧ busy.cfg.wf = true ∧ ¬ busy.bitIllegal EnvCfg.cbcfe ∧ ¬ busy.bitVirtual EnvCfg.cbcfe ∧ busy.manageOk 10 :=
  ⟨busy_inv, by decide, busy_gates.2.2.1, busy_gates.2.2.2.1, by decide +kernel, .inl (permits_of_none rfl _ _)⟩

theorem witness_InvalidateCompletes :
    Inv busy ∧ busy.cfg.wf = true ∧ ¬ busy.cbieIllegal ∧ ¬ busy.cbieVirtual ∧ busy.manageOk 10 :=
  ⟨busy_inv, by decide, busy_gates.1, busy_gates.2.1, by decide +kernel, .inl (permits_of_none rfl _ _)⟩

theorem witness_CboZeroCompletes :
    Inv busy ∧ busy.cfg.wf = true ∧ ¬ busy.bitIllegal EnvCfg.cbze ∧ ¬ busy.bitVirtual EnvCfg.cbze ∧
    busy.blockUniform (busy.blockAddrs (cbozBlock busy.cfg) (busy.x 11)) = true ∧
    busy.permits [.store, .cboZero] (busy.blockAddrs (cbozBlock busy.cfg) (busy.x 11)) :=
  ⟨busy_inv, by decide, busy_gates.2.2.2.2.1, busy_gates.2.2.2.2.2, by decide +kernel, permits_of_none rfl _ _⟩

/-- The byte 0x2000 lies in the flushed block, and a load of it may return 5 after the flush; a clean; an invalidate that
CBIE turns into a flush. -/
theorem witness_FlushIsInvisibleToLoads :
    Inv busy ∧ busy.cfg.hasNonCoherentAgents = false ∧
    (∃ t, exec (.cboFlush 10) busy = .next t ∧ t.mayLoad 0x2000 5 ∧ t.mayFetch 0x2000 (some 5)) ∧
    (∃ t, exec (.cboClean 10) busy = .next t ∧ t.trap.isNone = true) ∧
    ∃ s : State, s.cbieFlush ∧ ∃ t, exec (.cboInval 10) s = .next t ∧ t.trap.isNone = true := by
  refine ⟨busy_inv, rfl, ?_, goesOn_exists (by decide),
    { busy with env := { busy.env with menvcfg := { envOn with cbie := 1 } } }, .inl ⟨by decide, rfl⟩,
    goesOn_exists (by decide)⟩
  obtain ⟨t, h, ht⟩ := goesOn_exists (o := exec (.cboFlush 10) busy)
    (test := fun t => t.cacheAt 0x2000 == { valid := false, may := [none, some 5] }) (by decide)
  have e : t.cacheAt 0x2000 = { valid := false, may := [none, some 5] } := by simpa using ht
  exact ⟨t, h, .inr ⟨by rw [e], .inr ⟨some 5, by rw [e]; simp, rfl⟩⟩, .inr ⟨by rw [e], by rw [e]; simp⟩⟩

/-- A block of mixed protection; a block refused altogether, for each reason; CBO.ZERO refused. -/
theorem witness_RefusedCboTraps :
    (¬ busy.cbieIllegal ∧ ¬ busy.cbieVirtual ∧ ¬ busy.bitIllegal EnvCfg.cbcfe ∧ ¬ busy.bitVirtual EnvCfg.cbcfe ∧
      ¬ busy.bitIllegal EnvCfg.cbze ∧ ¬ busy.bitVirtual EnvCfg.cbze) ∧
    (deny busy 0x2000 1 [.load] .page).blockUniform (busy.blockAddrs 64 (busy.x 10)) = false ∧
    ∀ w, ∃ s : State, s.blockUniform (s.blockAddrs (cbomBlock s.cfg) (s.x 10)) = true ∧
      (∀ k ∈ [AccessKind.load, .store, .fetch], s.refuses [k] (s.blockAddrs (cbomBlock s.cfg) (s.x 10)) w) ∧
      s.blockUniform (s.blockAddrs (cbozBlock s.cfg) (s.x 10)) = true ∧
      s.refuses [.store, .cboZero] (s.blockAddrs (cbozBlock s.cfg) (s.x 10)) w := by
  refine ⟨busy_gates, by decide, fun w => ⟨deny busy 0x2000 64 [.load, .store, .fetch, .cboZero] w,
    by cases w <;> decide, fun k hk => refuses_of ?_, by cases w <;> decide +kernel,
    refuses_of (by cases w <;> decide)⟩⟩
  simp only [List.mem_cons, List.not_mem_nil, or_false] at hk
  rcases hk with rfl | rfl | rfl <;> cases w <;> decide

end Sys2Proof.Tests
end

section
/-! What an instruction can do, said once: the updates it may make, and the three ways it ends. Every property of all
instructions follows from `exec_does` by an induction over `Updates`, without a second case split over `Instr`. -/

namespace Sys2Proof.Machine

/-! ### The updates an instruction may make -/

/-- `u` comes from `s` by updates that the instruction `i` is entitled to: of its destinations, of ELP and ssp where it
may change them, of the counters last read, of memory where it is a storing instruction, of the cached-data state of
bytes, and of the fetch view by a collapse. -/
inductive Updates (i : Instr) (s : State) : State → Prop
  | refl : Updates i s s
  | setX {u : State} (h : Updates i s u) {rd : Reg} (hr : rd ≠ 0 → rd ∈ writtenRegs i) (v : Word) :
      Updates i s (u.setX rd v)
  | setElp {u : State} (h : Updates i s u) (hi : changesElp i = true) (e : Elp) : Updates i s (u.setElp e)
  | setSsp {u : State} (h : Updates i s u) (hi : changesSsp i = true) (v : Word) : Updates i s (u.setSsp v)
  | counters {u : State} (h : Updates i s u) (cycle time : BitVec 64) :
      Updates i s { u with cycle := cycle, time := time }
  | writePart {u : State} (h : Updates i s u) (hi : stores i = true) {cells : List Host.Cell} (atomic : Bool)
      (hn : (cells.map Prod.fst).Nodup) (hlt : ∀ c ∈ cells, c.1 < 2 ^ s.xlen.bits) :
      Updates i s (u.writePart cells atomic)
  | cleanByte {u : State} (h : Updates i s u) {a : Nat} (ha : a < 2 ^ s.xlen.bits) : Updates i s (u.cleanByte a)
  | flushByte {u : State} (h : Updates i s u) {a : Nat} (ha : a < 2 ^ s.xlen.bits) : Updates i s (u.flushByte a)
  | invalByte {u : State} (h : Updates i s u) {a : Nat} (ha : a < 2 ^ s.xlen.bits) : Updates i s (u.invalByte a)
  | fenceFetch {u : State} (h : Updates i s u) : Updates i s u.fenceFetch

namespace Updates

variable {i : Instr} {s u : State}

/-- No update touches the configuration, the environment inputs, pc, instret or the trap record. -/
theorem sameFlow (h : Updates i s u) : SameFlow s u := by
  induction h with
  | refl => exact SameFlow.refl s
  | setX | setElp | setSsp | counters | writePart | cleanByte | flushByte | invalByte | fenceFetch =>
    rename_i ih
    exact ⟨ih.cfg, ih.env, ih.pc, ih.instret, ih.trap⟩

theorem xlen (h : Updates i s u) : u.xlen = s.xlen := congrArg Cfg.xlen h.sameFlow.cfg

/-- ELP changes only by the instructions that may change it. -/
theorem elp (h : Updates i s u) (hi : changesElp i = false) : u.elp = s.elp := by
  induction h with
  | refl => rfl
  | setElp _ he => rw [hi] at he; cases he
  | setX | setSsp | counters | writePart | cleanByte | flushByte | invalByte | fenceFetch => rename_i ih; exact ih

/-- ssp changes only by the instructions that may change it. -/
theorem ssp (h : Updates i s u) (hi : changesSsp i = false) : u.ssp = s.ssp := by
  induction h with
  | refl => rfl
  | setSsp _ he => rw [hi] at he; cases he
  | setX | setElp | counters | writePart | cleanByte | flushByte | invalByte | fenceFetch => rename_i ih; exact ih

/-- An x register outside the destinations reads as before. -/
theorem x (h : Updates i s u) {r : Reg} (hr : r ∉ writtenRegs i) : u.x r = s.x r := by
  induction h with
  | refl => rfl
  | @setX u _ rd hrd v ih =>
    by_cases h0 : rd = 0
    · subst h0; exact ih
    · exact (u.x_setX_ne rd r v fun e => hr (e ▸ hrd h0)).trans ih
  | setElp | setSsp | counters | writePart | cleanByte | flushByte | invalByte | fenceFetch => rename_i ih; exact ih

/-- Every update keeps the invariant. -/
theorem inv (h : Updates i s u) (hs : Inv s) : Inv u := by
  induction h with
  | refl => exact hs
  | setX _ _ v ih => exact ih.setX _ v
  | setElp _ _ e ih => exact ih.of_eq rfl rfl rfl rfl rfl rfl rfl
  | setSsp _ _ v ih => exact ih.setSsp v
  | counters _ _ _ ih => exact ih.of_eq rfl rfl rfl rfl rfl rfl rfl
  | writePart hu _ atomic hn hlt ih => exact ih.writePart _ atomic hn fun c hc => hu.xlen ▸ hlt c hc
  | cleanByte hu ha ih => exact ih.cleanByte (hu.xlen ▸ ha)
  | flushByte hu ha ih => exact ih.flushByte (hu.xlen ▸ ha)
  | invalByte hu ha ih => exact ih.invalByte (hu.xlen ▸ ha)
  | fenceFetch _ ih => exact ih.fenceFetch

/-- A store of at most 8 bytes is one of the updates of a storing instruction. -/
theorem storeValue (h : Updates i s u) (hi : stores i = true) (ea : Word) {n : Nat} (hn : n ≤ 8) (v : Word) :
    Updates i s (u.storeValue ea n v) := by
  refine h.writePart hi _ ?_ fun c hc => ?_
  · rw [map_fst_zip_leBytes]
    exact u.nodup_addrs ea (hn.trans (Xlen.eight_le u.xlen))
  · obtain ⟨k, _, rfl⟩ := mem_zip_leBytes.mp hc
    exact h.xlen ▸ u.byteAddr_lt ea k

/-- A store of bytes at the addresses of an access that fits in the address space is one of the updates of a storing
instruction. -/
theorem writeBytes (hi : stores i = true) (ea : Word) {n : Nat} (hn : n ≤ 2 ^ s.xlen.bits) (bytes : List Byte)
    (atomic : Bool) : Updates i s (s.writeBytes (s.addrs ea n) bytes atomic) := by
  refine refl.writePart hi atomic ((s.nodup_addrs ea hn).sublist (map_fst_zip_sublist _ bytes)) fun c hc => ?_
  obtain ⟨k, _, e⟩ := State.mem_addrs.mp (List.of_mem_zip hc).1
  exact e ▸ s.byteAddr_lt ea k

/-- Reading a CSR changes at most the counters last read. -/
theorem csrRead (i : Instr) (s : State) (id : CsrId) : Updates i s (s.csrRead id).2 := by
  cases id with
  | ssp | instret hi | hpm k hi => exact refl
  | cycle hi => exact refl.counters _ s.time
  | time hi => exact refl.counters s.cycle _

/-- Writing a CSR changes at most ssp. -/
theorem csrWrite (h : Updates i s u) (hi : changesSsp i = true) (id : CsrId) (v : Word) :
    Updates i s (u.csrWrite id v) := by
  cases id with
  | ssp => exact h.setSsp hi v
  | cycle hi | time hi | instret hi | hpm k hi => exact h

/-- An operation on cached-data states, on every byte of an access. -/
theorem foldl_addrs {op : State → Nat → State}
    (hop : ∀ u a, Updates i s u → a < 2 ^ s.xlen.bits → Updates i s (op u a)) (ea : Word) (n : Nat) :
    Updates i s ((s.addrs ea n).foldl op s) := by
  refine List.foldlRecOn _ op refl fun u hu a ha => ?_
  obtain ⟨k, _, rfl⟩ := State.mem_addrs.mp ha
  exact hop u _ hu (s.byteAddr_lt ea k)

/-- The clean of CBO.CLEAN is a clean or a flush. -/
theorem cleanOp (h : Updates i s u) {a : Nat} (ha : a < 2 ^ s.xlen.bits) : Updates i s (s.cleanOp u a) := by
  unfold State.cleanOp
  split
  · exact h.flushByte ha
  · exact h.cleanByte ha

/-- The invalidate of CBO.INVAL is an invalidate or a flush. -/
theorem invalOp (h : Updates i s u) {a : Nat} (ha : a < 2 ^ s.xlen.bits) : Updates i s (s.invalOp u a) := by
  unfold State.invalOp
  split
  · exact h.flushByte ha
  · exact h.invalByte ha

/-- Writing the pair of a destination. -/
theorem setPair (h : Updates i s u) {rd : Reg} (h0 : rd ∈ writtenRegs i) (h1 : rd + 1 ∈ writtenRegs i) (v : Word) :
    Updates i s (u.setPair rd v) := by
  unfold State.setPair
  split
  · exact h
  · exact (h.setX (fun _ => h0) _).setX (fun _ => h1) _

/-- A register of the pair of a trapping load is written or left. -/
theorem partialHalf (h : Updates i s u) {rd : Reg} {k : Nat} (hk : rd + BitVec.ofNat 5 k ∈ writtenRegs i) (base : Reg)
    (ea : Word) (loaded : List Nat) : Updates i s (s.partialHalf rd base ea loaded k u) := by
  unfold State.partialHalf
  split
  · exact h.setX (fun _ => hk) _
  · exact h

/-- A part of a pair store is one of the updates of a storing instruction. -/
theorem storePart (h : Updates i s u) (hi : stores i = true) (ea v : Word) {cells : List Host.Cell}
    (hc : cells.Sublist ((s.addrs ea 8).zip (leBytes 8 v))) : Updates i s (u.storePart ea cells) := by
  refine h.writePart hi _ ?_ fun c hm => ?_
  · have hn := s.nodup_addrs ea (Xlen.eight_le s.xlen)
    rw [← map_fst_zip_leBytes s ea v 8] at hn
    exact hn.sublist (hc.map Prod.fst)
  · obtain ⟨k, _, rfl⟩ := mem_zip_leBytes.mp (hc.subset hm)
    exact s.byteAddr_lt ea k

end Updates

/-! ### The ways an instruction ends -/

/-- The outcomes an instruction may have: it retires after its updates, at the pc that follows its encoding or at an
aligned target; it takes an exception after updates that left ssp, ELP and the counters; or it stops. -/
inductive Does (i : Instr) (s : State) : Out → Prop
  | retires {u : State} {a : Word} (h : Updates i s u) (ha : a = s.pcPlus (encode i).length ∨ s.targetOk a) :
      Does i s (u.retireTo a)
  | raises {u : State} (h : Updates i s u) (hk : SpecialKept s u) (c : Cause) (v : Word) : Does i s (u.raise c v)
  | stops (f : Fault) : Does i s (.fault f)

theorem SpecialKept.refl (s : State) : SpecialKept s s := ⟨rfl, rfl, rfl, rfl⟩

theorem MemOnly.specialKept {s u : State} (h : MemOnly s u) : SpecialKept s u :=
  ⟨State.sspv_congr h.cfg h.ssp, h.elp, h.cycle, h.time⟩

/-- A block is no larger than the address space. -/
theorem cbozBlock_le (c : Cfg) : cbozBlock c ≤ 2 ^ c.xlen.bits := by
  unfold cbozBlock
  split
  · cases c.xlen <;> decide
  · exact Nat.pow_le_pow_right (by decide) (Nat.min_le_right _ _)

namespace Does

variable {i : Instr} {s u : State}

/-- The next states of an instruction: its updates, then the pc and the counts of retiring, or the trap record. -/
theorem next {o : Out} {t : State} (h : Does i s o) (ho : o = .next t) :
    ∃ u, Updates i s u ∧
      ((∃ a, (a = s.pcPlus (encode i).length ∨ s.targetOk a) ∧ Retired u t a) ∨
        SpecialKept s u ∧ ∃ c v, Raised u t c v) := by
  cases h with
  | @retires u a h ha =>
    obtain ⟨t', ht, r⟩ := u.retireTo_next a
    cases ht.symm.trans ho
    exact ⟨u, h, .inl ⟨a, ha, r⟩⟩
  | @raises u h hk c v =>
    obtain ⟨t', ht, r⟩ := u.raise_next c v
    cases ht.symm.trans ho
    exact ⟨u, h, .inr ⟨hk, c, v, r⟩⟩
  | stops f => cases ho

/-- The instruction retires past its encoding. -/
theorem retire (h : Updates i s u) {n : Nat} (hn : n = (encode i).length) : Does i s (u.retire n) :=
  .retires h (.inl (by rw [h.sameFlow.pcPlus, hn]))

/-- The instruction takes an exception before any update. -/
theorem raise (c : Cause) (v : Word) : Does i s (s.raise c v) := .raises .refl (.refl s) c v

/-- Writing a destination and retiring. -/
theorem write {rd : Reg} (hr : rd ∈ writtenRegs i) (v : Word) {n : Nat} (hn : n = (encode i).length) :
    Does i s ((s.setX rd v).retire n) := .retire (.setX .refl (fun _ => hr) v) hn

/-- A jump goes to an aligned target, or takes the exception of a misaligned one. -/
theorem jump {rd : Reg} (hr : rd ≠ 0 → rd ∈ writtenRegs i) (link t : Word) {e : Elp}
    (he : e = s.elp ∨ changesElp i = true) : Does i s (s.jump rd link t e) := by
  unfold State.jump
  split
  · rename_i ha
    rcases he with rfl | he
    · exact .retires (u := s.setX rd link) (.setX .refl hr link) (.inr ha)
    · exact .retires (.setElp (.setX .refl hr link) he e) (.inr ha)
  · exact .raise _ _

/-- A branch jumps, or goes on to the next instruction. -/
theorem branch (taken : Bool) (imm : BitVec 12) (hn : 4 = (encode i).length) : Does i s (s.branch taken imm) := by
  unfold State.branch
  split
  · exact .jump (fun h => absurd rfl h) _ _ (.inl rfl)
  · exact .retire .refl hn

/-- A load uses the value, or takes an exception. -/
theorem load {kind : AccessKind} {ea : Word} {n : Nat} {use : Word → Out} (h : ∀ v, Does i s (use v)) :
    Does i s (s.load kind ea n use) := by
  unfold State.load
  split
  · exact .raise _ _
  · exact h _

/-- A store goes on after the bytes are written, or takes an exception. -/
theorem store (hi : stores i = true) {kind : AccessKind} {ea : Word} {n : Nat} (hn : n ≤ 8) {v : Word}
    {after : State → Out} (h : ∀ u, Updates i s u → Does i s (after u)) : Does i s (s.store kind ea n v after) := by
  unfold State.store
  split
  · exact .raise _ _
  · exact h _ (.storeValue .refl hi ea hn v)

/-- A shadow-stack push stores and moves ssp; inactive, it only retires. -/
theorem ssPush (hi : stores i = true) (hs : changesSsp i = true) {n : Nat} (hn : n = (encode i).length) (src : Reg) :
    Does i s (s.ssPush n src) := by
  have h8 : s.xlen.bytes ≤ 8 := by cases s.xlen <;> decide
  unfold State.ssPush
  split
  · exact .store hi h8 fun u hu => .retire (.setSsp hu hs _) hn
  · exact .retire .refl hn

/-- A shadow-stack pop moves ssp where the check passes; inactive, it only retires. -/
theorem ssPopchk (hs : changesSsp i = true) {n : Nat} (hn : n = (encode i).length) (src : Reg) :
    Does i s (s.ssPopchk n src) := by
  unfold State.ssPopchk
  split
  · refine .load fun v => ?_
    split
    · exact .retire (.setSsp .refl hs _) hn
    · exact .raise _ _
  · exact .retire .refl hn

/-- LPAD clears ELP, or takes the landing-pad fault; where no landing pad is required it only retires. -/
theorem lpad (lpl : BitVec 20) : Does (.lpad lpl) s (execLpad lpl s) := by
  unfold execLpad
  split
  · split
    · exact .raise _ _
    split
    · exact .raise _ _
    · exact .retire (.setElp .refl rfl _) rfl
  · exact .retire .refl rfl

/-- SSAMOSWAP stores and writes its destination, or takes an exception. -/
theorem ssAmoSwap (hi : stores i = true) {rd : Reg} (hr : rd ∈ writtenRegs i) (hn : 4 = (encode i).length) {n : Nat}
    (h8 : n ≤ 8) (j : Instr) (rs1 rs2 : Reg) (extend : Word → Word) :
    Does i s (s.ssAmoSwap j n rd rs1 rs2 extend) := by
  unfold State.ssAmoSwap
  split
  · exact .raise _ _
  split
  · exact .raise _ _
  split
  · exact .raise _ _
  · exact .retire (.setX (.storeValue .refl hi _ h8 _) (fun _ => hr) _) hn

/-- A CSR instruction reads, writes ssp at most, and writes its destination, or takes an exception. -/
theorem csrOp (hs : changesSsp i = true) {rd : Reg} (hr : rd ∈ writtenRegs i) (hn : 4 = (encode i).length)
    (a : BitVec 12) (reads writes : Bool) (f : Word → Word) : Does i s (csrOp i a rd reads writes f s) := by
  unfold Machine.csrOp
  split
  · exact .raise _ _
  split
  · exact .raise _ _
  · rename_i id _
    refine .retire (.setX ?_ (fun _ => hr) _) hn
    have hread : Updates i s (if reads then s.csrRead id else (0, s)).2 := by
      split
      · exact .csrRead i s id
      · exact .refl
    split
    · exact hread.csrWrite hs id _
    · exact hread

/-- A management CBO performs its operation on the bytes of the block, takes an exception, or stops. -/
theorem manageBlock {op : State → Nat → State}
    (hop : ∀ u a, Updates i s u → a < 2 ^ s.xlen.bits → Updates i s (op u a)) (hn : 4 = (encode i).length)
    (j : Instr) (gate : Option Cause) (rs1 : Reg) : Does i s (s.manageBlock j gate op rs1) := by
  unfold State.manageBlock
  split
  · exact .raise _ _
  split
  · split
    · exact .raise _ _
    · exact .retire (.foldl_addrs hop _ _) hn
  · exact .stops _

/-- CBO.ZERO stores zeros to the block, takes an exception, or stops. -/
theorem cboZero (rs1 : Reg) : Does (.cboZero rs1) s (execCboZero rs1 s) := by
  unfold execCboZero
  split
  · exact .raise _ _
  split
  · split
    · exact .raise _ _
    · exact .retire (.writeBytes rfl _ (cbozBlock_le s.cfg) _ _) rfl
  · exact .stops _

/-- A pair load writes the pair, or traps after writing some of it. -/
theorem loadPair {rd : Reg} (h0 : rd ∈ writtenRegs i) (h1 : rd + 1 ∈ writtenRegs i) {n : Nat}
    (hn : n = (encode i).length) (base : Reg) (ea : Word) : Does i s (s.loadPair n rd base ea) := by
  have hz : rd + BitVec.ofNat 5 0 ∈ writtenRegs i := by simpa using h0
  unfold State.loadPair
  split
  · exact .raise _ _
  dsimp only
  split
  · exact .retire (.setPair .refl h0 h1 _) hn
  · refine .raises (.partialHalf (.partialHalf .refl hz _ _ _) h1 _ _ _) ?_ _ _
    unfold State.partialHalf
    split <;> split <;> exact ⟨rfl, rfl, rfl, rfl⟩

/-- A pair store stores the bytes, or traps after storing some parts. -/
theorem storePair (hi : stores i = true) {n : Nat} (hn : n = (encode i).length) (ea v : Word) :
    Does i s (s.storePair n ea v) := by
  unfold State.storePair
  split
  · exact .raise _ _
  dsimp only
  split
  · exact .retire (.storePart .refl hi ea v (List.Sublist.refl _)) hn
  · refine .raises ?_ (MemOnly.specialKept (foldl_keeps _ _ (fun u _ h => h.trans (u.storePart_memOnly _ _)) _ _
      (MemOnly.refl s))) _ _
    exact List.foldlRecOn _ _ .refl fun u hu p _ => hu.storePart hi ea v List.filter_sublist

/-- An instruction that is illegal where a test of its operands fails. -/
theorem orIllegal {o : Out} (h : Does i s o) {p : Prop} [Decidable p] (c : Cause) (j : Instr) :
    Does i s (if p then o else s.raiseIllegal c j) := by
  split
  · exact h
  · exact .raise _ _

end Does

/-! ### Every instruction -/

/-- Every instruction makes updates it is entitled to and then retires, takes an exception or stops: the one case split
over `Instr`. -/
theorem exec_does (i : Instr) (s : State) : Does i s (exec i s) := by
  have single : ∀ rd : Reg, rd ∈ [rd] := fun rd => List.mem_singleton_self rd
  have pair0 : ∀ rd : Reg, rd ∈ [rd, rd + 1] := fun rd => List.mem_cons_self ..
  have pair1 : ∀ rd : Reg, rd + 1 ∈ [rd, rd + 1] := fun rd => List.mem_cons_of_mem _ (List.mem_singleton_self _)
  unfold exec
  cases i
  case fenceI => exact .retire (.fenceFetch .refl) rfl
  case csrrw rd _ _ | csrrs rd _ _ | csrrc rd _ _ | csrrwi rd _ _ | csrrsi rd _ _ | csrrci rd _ _ =>
    exact .csrOp rfl (single rd) rfl _ _ _ _
  case mul rd _ _ | mulh rd _ _ | mulhsu rd _ _ | mulhu rd _ _ | div rd _ _ | divu rd _ _ | rem rd _ _ | remu rd _ _
    | mulw rd _ _ | divw rd _ _ | divuw rd _ _ | remw rd _ _ | remuw rd _ _ => exact .write (single rd) _ rfl
  case czeroEqz rd _ _ | czeroNez rd _ _ => exact .write (single rd) _ rfl
  case ldPair rd _ _ | cLdspPair rd _ => exact .orIllegal (.loadPair (pair0 rd) (pair1 rd) rfl _ _) _ _
  case cLdPair rd _ _ => exact .orIllegal (.loadPair (pair0 (cReg rd)) (pair1 (cReg rd)) rfl _ _) _ _
  case sdPair | cSdspPair | cSdPair => exact .orIllegal (.storePair rfl rfl _ _) _ _
  case mopR0 rd _ | mopR1 rd _ | mopR2 rd _ | mopR3 rd _ | mopR4 rd _ | mopR5 rd _ | mopR6 rd _ | mopR7 rd _
    | mopR8 rd _ | mopR9 rd _ | mopR10 rd _ | mopR11 rd _ | mopR12 rd _ | mopR13 rd _ | mopR14 rd _ | mopR15 rd _
    | mopR16 rd _ | mopR17 rd _ | mopR18 rd _ | mopR19 rd _ | mopR20 rd _ | mopR21 rd _ | mopR22 rd _ | mopR23 rd _
    | mopR24 rd _ | mopR25 rd _ | mopR26 rd _ | mopR27 rd _ | mopR28 rd _ | mopR29 rd _ | mopR30 rd _ | mopR31 rd _
    | mopRR0 rd _ _ | mopRR1 rd _ _ | mopRR2 rd _ _ | mopRR3 rd _ _ | mopRR4 rd _ _ | mopRR5 rd _ _ | mopRR6 rd _ _
    | mopRR7 rd _ _ => exact .write (single rd) _ rfl
  case cMop1 | cMop3 | cMop5 | cMop7 | cMop9 | cMop11 | cMop13 | cMop15 => exact .retire .refl rfl
  case ntlP1 | ntlPall | ntlS1 | ntlAll | cNtlP1 | cNtlPall | cNtlS1 | cNtlAll | pause | prefetchI | prefetchR
    | prefetchW | fence => exact .retire .refl rfl
  case lpad lpl => exact .lpad lpl
  case sspushX1 | sspushX5 | cSspushX1 => exact .ssPush rfl rfl rfl _
  case sspopchkX1 | sspopchkX5 | cSspopchkX5 => exact .ssPopchk rfl rfl _
  case ssrdp rd => exact .write (single rd) _ rfl
  case ssamoswapW rd _ _ _ _ | ssamoswapD rd _ _ _ _ => exact .ssAmoSwap rfl (single rd) rfl (by decide) _ _ _ _
  case cboInval =>
    refine .manageBlock (fun u a hu ha => ?_) rfl _ _ _
    split
    · exact hu.flushByte ha
    · exact hu.invalOp ha
  case cboClean => exact .manageBlock (fun u a hu ha => hu.cleanOp ha) rfl _ _ _
  case cboFlush => exact .manageBlock (fun u a hu ha => hu.flushByte ha) rfl _ _ _
  case cboZero rs1 => exact .cboZero rs1
  case add rd _ _ | sub rd _ _ | and rd _ _ | or rd _ _ | xor rd _ _ | addi rd _ _ | ori rd _ _ | lui rd _ | auipc rd _
    | cLi rd _ | cAddi rd _ | cAdd rd _ | cLui rd _ => exact .write (single rd) _ rfl
  case cAddi16sp => exact .write (single 2) _ rfl
  case jal rd _ => exact .jump (fun _ => single rd) _ _ (.inl rfl)
  case jalr rd _ _ => exact .jump (fun _ => single rd) _ _ (.inr rfl)
  case cJr => exact .jump (fun h => absurd rfl h) _ _ (.inr rfl)
  case cJalr => exact .jump (fun _ => single 1) _ _ (.inr rfl)
  case cJ => exact .jump (fun h => absurd rfl h) _ _ (.inl rfl)
  case cJal => exact .jump (fun _ => single 1) _ _ (.inl rfl)
  case beq | bne => exact .branch _ _ rfl
  case lw rd _ _ | ldRv64 rd _ _ | cLdspRv64 rd _ => exact .load fun _ => .write (single rd) _ rfl
  case cLdRv64 rd _ _ => exact .load fun _ => .write (single (cReg rd)) _ rfl
  case sh | sw | sdRv64 | cSdRv64 | cSdspRv64 => exact .store rfl (by decide) fun u hu => .retire hu rfl
  case ecall | ebreak | cEbreak => exact .raise _ _
/-- Every next state of an instruction comes from its updates, by retiring or by the record of an exception. -/
theorem exec_next {i : Instr} {s t : State} (h : exec i s = .next t) :
    ∃ u, Updates i s u ∧
      ((∃ a, (a = s.pcPlus (encode i).length ∨ s.targetOk a) ∧ Retired u t a) ∨
        SpecialKept s u ∧ ∃ c v, Raised u t c v) := (exec_does i s).next h

end Sys2Proof.Machine
end

section
/-! The length of what the decoder reads: without Zca only instructions of four bytes. -/

namespace Sys2Proof

/-- Every instruction among the results is encoded in four bytes. -/
def AllLong (o : Option Instr) : Prop := ∀ i, o = some i → (encode i).length = 4

@[simp] theorem allLong_none : AllLong none := fun _ h => by cases h

@[simp] theorem allLong_some {i : Instr} : AllLong (some i) ↔ (encode i).length = 4 :=
  ⟨fun h => h i rfl, fun h _ e => Option.some.inj e ▸ h⟩

@[simp] theorem allLong_whenHas {b : Bool} {i : Instr} : AllLong (whenHas b i) ↔ (b = true → (encode i).length = 4) := by
  cases b <;> simp [whenHas]

@[simp] theorem allLong_ite {p : Prop} [Decidable p] {a b : Option Instr} :
    AllLong (if p then a else b) ↔ (p → AllLong a) ∧ (¬ p → AllLong b) := by
  by_cases h : p <;> simp [h]

/-- A choice between two instructions has four bytes where each has. -/
theorem length_encode_ite {p : Prop} [Decidable p] {i j : Instr} :
    (encode (if p then i else j)).length = 4 ↔ (p → (encode i).length = 4) ∧ (¬ p → (encode j).length = 4) := by
  by_cases h : p <;> simp [h]

theorem length_encode_mopROf (n : BitVec 5) (rd rs1 : Reg) : (encode (mopROf n rd rs1)).length = 4 := by
  unfold mopROf
  split <;> rfl

theorem length_encode_mopRROf (n : BitVec 3) (rd rs1 rs2 : Reg) : (encode (mopRROf n rd rs1 rs2)).length = 4 := by
  unfold mopRROf
  split <;> rfl

/-! Each decoder of a major opcode: every branch of it answers an instruction of four bytes, or none. -/

theorem decLoad_long (c : Cfg) (w : BitVec 32) : AllLong (decLoad c w) := by
  simp [decLoad, encode, encodeBits, Encoding.bytes]

theorem decStore_long (c : Cfg) (w : BitVec 32) : AllLong (decStore c w) := by
  simp [decStore, encode, encodeBits, Encoding.bytes]

theorem decMiscMem_long (c : Cfg) (w : BitVec 32) : AllLong (decMiscMem c w) := by
  simp [decMiscMem, encode, encodeBits, Encoding.bytes]

theorem decOpImm_long (c : Cfg) (w : BitVec 32) : AllLong (decOpImm c w) := by
  simp [decOpImm, encode, encodeBits, Encoding.bytes]

theorem decOp_long (c : Cfg) (w : BitVec 32) : AllLong (decOp c w) := by
  simp [decOp, encode, encodeBits, Encoding.bytes]

theorem decOp32_long (c : Cfg) (w : BitVec 32) : AllLong (decOp32 c w) := by
  simp [decOp32, encode, encodeBits, Encoding.bytes]

theorem decAmo_long (c : Cfg) (w : BitVec 32) : AllLong (decAmo c w) := by
  simp [decAmo, encode, encodeBits, Encoding.bytes]

theorem decMop_long (c : Cfg) (w : BitVec 32) : AllLong (decMop c w) := by
  simp only [decMop, allLong_ite, allLong_some, allLong_whenHas, allLong_none, length_encode_ite,
    length_encode_mopROf, length_encode_mopRROf]
  simp [encode, encodeBits, Encoding.bytes]

theorem decSystem_long (c : Cfg) (w : BitVec 32) : AllLong (decSystem c w) := by
  simp [decSystem, decMop_long, encode, encodeBits, Encoding.bytes]

theorem decBranch_long (w : BitVec 32) : AllLong (decBranch w) := by
  simp [decBranch, encode, encodeBits, Encoding.bytes]

/-- The 32-bit decoder reads instructions of four bytes. -/
theorem decode32_long (c : Cfg) (w : BitVec 32) : AllLong (decode32 c w) := by
  simp only [decode32, allLong_ite, allLong_some, allLong_none, length_encode_ite, decLoad_long, decStore_long,
    decMiscMem_long, decOpImm_long, decOp_long, decOp32_long, decAmo_long, decSystem_long, decBranch_long]
  simp [encode, encodeBits, Encoding.bytes]

/-- What the decoder reads has four bytes, but with Zca (30_encoding.md R121). -/
theorem decode_long {c : Cfg} {bytes rest : List Byte} {i : Instr} (h : decode c bytes = .ok (i, rest)) :
    (encode i).length = 4 ∨ c.ext.zca = true := by
  unfold decode at h
  split at h
  · split at h
    · split at h
      · split at h
        · rename_i j hj
          cases h
          exact .inl (decode32_long c _ i hj)
        · cases h
      · cases h
    · split at h
      · rename_i j hj
        unfold decode16 at hj
        split at hj
        · rename_i hz; exact .inr hz
        · cases hj
      · cases h
  · cases h

end Sys2Proof
end

section
/-! The properties of every instruction and of every step that follow from `exec_does`. -/

namespace Sys2Proof.Machine

/-! ### What no instruction changes but those named -/

/-- Retiring and taking an exception leave the setup, ELP, ssp and the x registers. -/
structure Aside (u t : State) : Prop where
  setup : SetupKept u t
  elp : t.elp = u.elp
  ssp : t.ssp = u.ssp
  regs : t.regs = u.regs

theorem Retired.aside {u t : State} {a : Word} (r : Retired u t a) : Aside u t := ⟨⟨r.cfg, r.env⟩, r.elp, r.ssp, r.regs⟩

theorem Raised.aside {u t : State} {c : Cause} {v : Word} (r : Raised u t c v) : Aside u t :=
  ⟨⟨r.cfg, r.env⟩, r.elp, r.ssp, r.regs⟩

/-- Every next state of an instruction has the setup, ELP, ssp and the x registers that its updates left. -/
theorem exec_aside {i : Instr} {s t : State} (h : exec i s = .next t) : ∃ u, Updates i s u ∧ Aside u t := by
  obtain ⟨u, hu, ⟨a, _, r⟩ | ⟨_, c, v, r⟩⟩ := exec_next h
  · exact ⟨u, hu, r.aside⟩
  · exact ⟨u, hu, r.aside⟩

/-- Settles O13, by the updates each instruction is entitled to. -/
theorem onlyNamedInstructionsChangeElpAndSsp : Obligations.OnlyNamedInstructionsChangeElpAndSsp := by
  intro i s t h
  obtain ⟨u, hu, k⟩ := exec_aside h
  have hcfg : t.cfg = s.cfg := k.setup.cfg.trans hu.sameFlow.cfg
  refine ⟨fun he => k.elp.trans (hu.elp he), fun hs => ?_, hcfg, k.setup.env.trans hu.sameFlow.env⟩
  exact State.sspv_congr hcfg (k.ssp.trans (hu.ssp hs))

/-- Settles O15, by the updates each instruction is entitled to. -/
theorem onlyDestinationsAreWritten : Obligations.OnlyDestinationsAreWritten := by
  intro i s t h r hr
  obtain ⟨u, hu, k⟩ := exec_aside h
  exact (State.x_congr k.setup.cfg k.regs r).trans (hu.x hr)

/-! ### The invariant -/

/-- Every instruction has two or four bytes. -/
theorem length_encode (i : Instr) : (encode i).length = 4 ∨ (encode i).length = 2 := by
  unfold encode
  cases encodeBits i with
  | w16 w => exact .inr rfl
  | w32 w => exact .inl rfl

/-- The low XLEN bits of a cell are a multiple of IALIGN/8 as the cell is. -/
theorem wrap_mod_ialign (x : Xlen) (v : Word) (b : Bool) :
    (wrap x v).toNat % (if b then 2 else 4) = v.toNat % (if b then 2 else 4) := by
  rw [wrap_toNat]
  apply Nat.mod_mod_of_dvd
  cases x <;> cases b <;> decide

/-- The length of an instruction, of four bytes or with Zca of any, is a multiple of IALIGN/8. -/
theorem length_encode_mod {i : Instr} {c : Cfg} (hi : (encode i).length = 4 ∨ c.ext.zca = true) :
    (encode i).length % (if c.ext.zca then 2 else 4) = 0 := by
  rcases length_encode i with h | h <;> rw [h] at hi ⊢
  · split <;> rfl
  · rw [if_pos (hi.resolve_left (by decide))]

/-- The next pc of an instruction is a multiple of IALIGN/8. -/
theorem Inv.nextPc_aligned {s : State} (h : Inv s) {i : Instr} (hi : (encode i).length = 4 ∨ s.cfg.ext.zca = true)
    {a : Word} (ha : a = s.pcPlus (encode i).length ∨ s.targetOk a) :
    a.toNat % (if s.cfg.ext.zca then 2 else 4) = 0 := by
  rcases ha with rfl | ha
  · have hpc := h.pcAligned
    have hlen := length_encode_mod hi
    rw [State.pcPlus, wrap_mod_ialign, BitVec.toNat_add, State.pcv, wrap_of_lt h.pc, BitVec.toNat_ofNat]
    by_cases hz : s.cfg.ext.zca = true
    · rw [if_pos hz] at hpc hlen ⊢; omega
    · rw [if_neg hz] at hpc hlen ⊢; omega
  · exact ha

/-- Retiring at an aligned pc keeps the invariant. -/
theorem Inv.retired {u t : State} {a : Word} (h : Inv u) (r : Retired u t a)
    (ha : a.toNat % (if u.cfg.ext.zca then 2 else 4) = 0) : Inv t := by
  have hm : Inv { u with pc := wrap u.xlen a } :=
    ⟨h.mem, h.cache, h.cacheEntries, h.fetchView, h.fetchEntries, h.zero, h.regs, wrap_lt _ _,
     (wrap_mod_ialign _ _ _).trans ha, h.ssp, h.sspAligned⟩
  exact hm.of_eq r.cfg r.regs r.pc r.ssp r.mem r.cache r.fetchView

/-- Taking an exception keeps the invariant. -/
theorem Inv.raised {u t : State} {c : Cause} {v : Word} (h : Inv u) (r : Raised u t c v) : Inv t :=
  h.of_eq r.cfg r.regs r.pc r.ssp r.mem r.cache r.fetchView

/-- An instruction of four bytes, or of any length with Zca, keeps the invariant. -/
theorem Inv.exec {i : Instr} {s t : State} (h : Inv s) (hi : (encode i).length = 4 ∨ s.cfg.ext.zca = true)
    (ht : exec i s = .next t) : Inv t := by
  obtain ⟨u, hu, ⟨a, ha, r⟩ | ⟨_, c, v, r⟩⟩ := exec_next ht
  · refine (hu.inv h).retired r ?_
    rw [hu.sameFlow.cfg]
    exact h.nextPc_aligned hi ha
  · exact (hu.inv h).raised r

/-! ### The step -/

/-- A step takes an exception, of the fetch, of the landing-pad check or of bytes that are no instruction, or runs the
instruction it fetched and decoded (60_exceptions.md R460, R465). -/
theorem step_next {s t : State} (h : step s = .next t) :
    s.trap = none ∧ ((∃ c v, Raised s t c v) ∨
      ∃ bytes i rest, s.fetch = .ok bytes ∧ decode s.cfg bytes = .ok (i, rest) ∧ exec i s = .next t) := by
  have raised : ∀ c v, s.raise c v = .next t → ∃ c v, Raised s t c v := by
    intro c v h
    obtain ⟨t', ht, r⟩ := s.raise_next c v
    cases ht.symm.trans h
    exact ⟨c, v, r⟩
  unfold step at h
  split at h
  · cases h
  · rename_i htrap
    refine ⟨htrap, ?_⟩
    split at h
    · exact .inl (raised _ _ h)
    · rename_i bytes hf
      unfold State.runBytes at h
      split at h
      · rename_i i rest hd
        split at h
        · exact .inl (raised _ _ h)
        · exact .inr ⟨bytes, i, rest, hf, hd, h⟩
      · split at h <;> exact .inl (raised _ _ h)

/-- Settles O9: a step takes an exception or runs an instruction that the decoder read, and both keep the invariant. -/
theorem stepKeepsInvariant : Obligations.StepKeepsInvariant := by
  intro s t h ht
  obtain ⟨_, ⟨c, v, r⟩ | ⟨bytes, i, rest, _, hd, he⟩⟩ := step_next ht
  · exact h.raised r
  · exact h.exec (decode_long hd) he

end Sys2Proof.Machine
end

section
/-! Reset, the step on decoded bytes, and the additions. -/

namespace Sys2Proof.Machine

/-! ### Reset -/

/-- Settles O1: the reset value is the one R56 states. -/
theorem resetExpectsNoLandingPad : Obligations.ResetExpectsNoLandingPad := by
  unfold Obligations.ResetExpectsNoLandingPad State.reset
  rfl

/-- Every register is zero at reset. -/
theorem State.reset_regs (r : Nat) (h : r < 32) : State.reset.regs[r] = 0 := Vector.getElem_replicate h

/-- Settles O2: the lists are empty, the registers and ssp zero, and pc is `Cfg.resetPc`. -/
theorem resetMeetsInvariant : Obligations.ResetMeetsInvariant where
  mem := ⟨rfl, fun _ h => by cases h⟩
  cache := ⟨rfl, fun _ h => by cases h⟩
  cacheEntries := fun _ h => by cases h
  fetchView := ⟨rfl, fun _ h => by cases h⟩
  fetchEntries := fun _ h => by cases h
  zero := State.reset_regs 0 (by decide)
  regs := fun r h => by rw [State.reset_regs r h]; decide
  pc := by decide
  pcAligned := by decide
  ssp := by decide
  sspAligned := by decide

/-! ### The step on decoded bytes -/

/-- A landing pad is required where Zicfilp is active and ELP expects one (46_cfi.md R315). -/
theorem State.lpRequired_iff (s : State) : s.lpRequired = true ↔ s.lpeActive ∧ s.elp = .expected := by
  simp [State.lpRequired, State.xLPE, State.lpeActive]

theorem leWord_eq (bytes : List Byte) : leWord bytes = BitVec.ofNat 64 (leNat bytes) := by
  apply BitVec.eq_of_toNat_eq
  rw [leWord_toNat, BitVec.toNat_ofNat]

/-- A running hart goes on from the bytes it fetched. -/
theorem step_of_fetch {s : State} {bytes : List Byte} (ht : s.trap = none) (hf : s.fetch = .ok bytes) :
    step s = s.runBytes bytes := by
  rw [step, ht]
  simp only [hf]

/-- Bytes that decode run as their instruction, unless a landing pad is required and the instruction is none. -/
theorem State.runBytes_ok {s : State} {bytes rest : List Byte} {i : Instr} (hd : decode s.cfg bytes = .ok (i, rest))
    (hl : s.lpRequired = false ∨ isLpadInstr i = true) : s.runBytes bytes = exec i s := by
  rw [State.runBytes, hd]
  exact if_neg (by rcases hl with h | h <;> simp [h])

/-- Bytes that are no instruction are illegal, unless a landing pad is required. -/
theorem State.runBytes_error {s : State} {bytes : List Byte} {e : DecodeError} (hd : decode s.cfg bytes = .error e)
    (hl : s.lpRequired = false) :
    s.runBytes bytes = s.raise .illegalInstruction (s.illegalTval (leWord bytes)) := by
  rw [State.runBytes, hd]
  exact if_neg (by simp [hl])

/-- The trap value of an illegal instruction is 0 or its bits. -/
theorem State.illegalTval_cases (s : State) (bits : Word) : s.illegalTval bits = 0 ∨ s.illegalTval bits = bits := by
  unfold State.illegalTval
  split
  · exact .inl rfl
  · exact .inr rfl

/-- Settles O6, by what follows a fetch of bytes that decode and of bytes that do not. -/
theorem stepRunsTheDecodedInstruction : Obligations.StepRunsTheDecodedInstruction := by
  intro s bytes ht hf
  rw [step_of_fetch ht hf]
  refine ⟨fun i rest hd hl => State.runBytes_ok hd ?_, fun hd hl => ?_⟩
  · rcases hl with hl | ⟨lpl, rfl⟩
    · exact .inl (Bool.eq_false_iff.mpr (mt s.lpRequired_iff.mp hl))
    · exact .inr rfl
  · cases hr : decode s.cfg bytes with
    | ok p => exact absurd hr (hd p.1 p.2)
    | error e =>
      rw [State.runBytes_error hr (Bool.eq_false_iff.mpr (mt s.lpRequired_iff.mp hl)), leWord_eq]
      obtain ⟨t, h, k⟩ := s.raise_tookTrap .illegalInstruction (s.illegalTval (BitVec.ofNat 64 (leNat bytes)))
      exact ⟨t, _, h, s.illegalTval_cases _, k⟩

/-! ### Additions -/

theorem wrap_add (x : Xlen) (v w : Word) : wrap x (v + w) = truncTo x ((v.toNat : Int) + w.toNat) := by
  rw [wrap_eq_truncTo, BitVec.toNat_add]
  apply truncTo_congr
  cases x <;> simp only [Xlen.bits] <;> omega

theorem wrap_sub (x : Xlen) (v w : Word) : wrap x (v - w) = truncTo x ((v.toNat : Int) - w.toNat) := by
  rw [wrap_eq_truncTo, BitVec.toNat_sub]
  apply truncTo_congr
  cases x <;> simp only [Xlen.bits] <;> omega

/-- Adding an XLEN-bit value adds the integer it stands for. -/
theorem wrap_add_truncTo (x : Xlen) (v : Word) (n : Int) : wrap x (v + truncTo x n) = truncTo x ((v.toNat : Int) + n) := by
  rw [wrap_add, truncTo_toNat]
  exact truncTo_congr (Int.add_emod_emod _ _ _)

/-- The I-immediate is its signed value (30_encoding.md R124). -/
theorem immI_eq (x : Xlen) (imm : BitVec 12) : immI x imm = truncTo x imm.toInt := rfl

/-- The CI immediate is its signed value (49_base_subset.md R431). -/
theorem immCI_eq (x : Xlen) (imm : BitVec 6) : immCI x imm = truncTo x imm.toInt := rfl

/-- The C.ADDI16SP immediate is 16 times its signed value (49_base_subset.md R434). -/
theorem immCAddi16sp_eq (x : Xlen) (imm : BitVec 6) : immCAddi16sp x imm = truncTo x (16 * imm.toInt) := by
  have h : (imm ++ (0 : BitVec 4)).toInt = 16 * imm.toInt := BitVec.toInt_append_zero
  exact congrArg (truncTo x) h

/-- An instruction that writes an XLEN-bit value to a register and retires. -/
theorem wrote_of_exec {i : Instr} {s : State} {rd : Reg} {v : Word} {k : Int} {n : Nat}
    (h : exec i s = (s.setX rd v).retire n) (hv : v = truncTo s.xlen k) :
    ∃ t, exec i s = .next t ∧ WroteReg s t rd (truncTo s.xlen k) n := by
  rw [h, hv]
  exact s.setX_retire rd n (wrap_wrap _ _)

/-- Settles O20: each result is a sum, a difference or an immediate modulo 2^XLEN. -/
theorem additionResults : Obligations.AdditionResults := by
  intro s rd rs1 rs2 i12 i6
  refine ⟨wrote_of_exec rfl (wrap_add ..), wrote_of_exec rfl (wrap_sub ..), wrote_of_exec rfl (wrap_add ..),
    wrote_of_exec rfl ?_, wrote_of_exec rfl ?_, wrote_of_exec rfl ?_, wrote_of_exec rfl (immCI_eq ..)⟩
  · rw [immI_eq]; exact wrap_add_truncTo ..
  · rw [immCI_eq]; exact wrap_add_truncTo ..
  · rw [immCAddi16sp_eq]; exact wrap_add_truncTo ..

end Sys2Proof.Machine
end

section
/-! The CSR space, the access checks and the six CSR instructions. -/

namespace Sys2Proof.Machine

/-! ### The SSE chain (46_cfi.md R330, R333) -/

/-- The illegal-instruction lines of the chain. -/
theorem State.sseGate_illegal {s : State} (h : s.sseIllegal) (needS : Bool) :
    s.sseGate needS = some .illegalInstruction := by
  unfold State.sseGate
  rcases h with h | h
  · rw [if_pos h]
  · simp only [if_pos h, ite_self]

/-- The virtual-instruction lines of the chain, where no line before them applies. -/
theorem State.sseGate_virtual {s : State} {needS : Bool} (hi : ¬ s.sseIllegal) (hv : s.sseVirtual)
    (hS : needS = true → s.cfg.sModeImplemented = true) : s.sseGate needS = some .virtualInstruction := by
  unfold State.sseIllegal at hi
  rw [not_or] at hi
  unfold State.sseGate
  rw [if_neg hi.1, if_neg fun h => by simp [hS h.1] at h, if_neg hi.2]
  rcases hv with hv | hv
  · rw [if_pos hv]
  · simp only [if_pos hv, ite_self]

/-- The chain is passed where no line of it applies. -/
theorem State.sseGate_open {s : State} {needS : Bool} (hi : ¬ s.sseIllegal) (hv : ¬ s.sseVirtual)
    (hS : needS = true → s.cfg.sModeImplemented = true) : s.sseGate needS = none := by
  unfold State.sseIllegal at hi
  unfold State.sseVirtual at hv
  rw [not_or] at hi hv
  unfold State.sseGate
  rw [if_neg hi.1, if_neg fun h => by simp [hS h.1] at h, if_neg hi.2, if_neg hv.1, if_neg hv.2]

/-! ### CSR addresses (10_state.md R40, R41) -/

/-- csr[11:10] = 11 exactly from 0xC00 on. -/
theorem csrReadOnly_iff {a : BitVec 12} : csrReadOnly a = true ↔ 0xC00 ≤ a.toNat := by
  have h := a.isLt
  rw [csrReadOnly, beq_iff_eq, ← BitVec.toNat_inj, BitVec.extractLsb'_toNat, Nat.shiftRight_eq_div_pow]
  change a.toNat / 2 ^ 10 % 2 ^ 2 = 3 ↔ _
  omega

/-- A width is listed for hpmcounter `k` where it is implemented. -/
theorem hpmWidth_isSome {c : Cfg} {k : Nat} : (hpmWidth c k).isSome = true ↔ ∃ w, (k, w) ∈ c.hpmCounters := by
  simp [hpmWidth]

/-- A counter number names a CSR exactly where the counter exists. -/
theorem counterCsr_isSome {c : Cfg} {k : Nat} {hi : Bool} :
    (counterCsr c k hi).isSome = true ↔ counterExists c k := by
  unfold counterCsr counterExists
  match k with
  | 0 | 1 | 2 => cases c.ext.zicntr <;> simp
  | k + 3 => rw [← hpmWidth_isSome]; cases c.ext.zihpm <;> simp

/-- 0x011 is ssp where Zicfiss is implemented. -/
theorem csrAt_ssp {c : Cfg} (h : c.ext.zicfiss = true) : csrAt c 0x011 = some .ssp := by
  rw [csrAt, if_pos rfl, if_pos h]

theorem isRv64_eq_false {c : Cfg} : c.isRv64 = false ↔ c.xlen = .rv32 := by
  unfold Cfg.isRv64
  cases c.xlen <;> decide

/-- The address of counter `k`, its low half or on RV32 its high half. -/
structure CounterAddr (c : Cfg) (a : BitVec 12) (k : Nat) (hi : Bool) : Prop where
  lt : k < 32
  toNat : a.toNat = (if hi then 0xC80 else 0xC00) + k
  half : hi = true → c.xlen = .rv32

namespace CounterAddr

variable {c : Cfg} {a : BitVec 12} {k : Nat} {hi : Bool}

/-- The fields of a counter's address: the counter number, the half, and the lowest privilege level. -/
theorem fields (h : CounterAddr c a k hi) :
    (a.extractLsb' 0 5).toNat = k ∧ (a.extractLsb' 5 7).toNat = (if hi then 0x64 else 0x60) ∧
      (a.extractLsb' 8 2).toNat = 0 := by
  have hk := h.lt
  have ha := h.toNat
  simp only [BitVec.extractLsb'_toNat, Nat.shiftRight_eq_div_pow]
  cases hi <;> simp only [if_true, if_false, Bool.false_eq_true] at ha ⊢ <;> omega

theorem csrAt_eq (h : CounterAddr c a k hi) : csrAt c a = counterCsr c k hi := by
  obtain ⟨hk, hhalf, _⟩ := h.fields
  have h011 : a ≠ 0x011 := by
    rintro rfl
    have := h.toNat
    cases hi <;> simp at this <;> omega
  unfold csrAt
  rw [if_neg h011, hk]
  cases hi with
  | false => rw [if_pos (BitVec.eq_of_toNat_eq hhalf)]
  | true =>
    have hne : a.extractLsb' 5 7 ≠ 0x60 := fun e => by rw [e] at hhalf; cases hhalf
    have hx : c.isRv64 = false := isRv64_eq_false.mpr (h.half rfl)
    rw [if_neg hne, if_pos (BitVec.eq_of_toNat_eq hhalf), hx]
    rfl

end CounterAddr

/-- A CSR address that names a CSR is that of ssp or of a counter. -/
theorem csrAt_cases {c : Cfg} {a : BitVec 12} {id : CsrId} (h : csrAt c a = some id) :
    (a = 0x011 ∧ c.ext.zicfiss = true ∧ id = .ssp) ∨
      ∃ k hi, CounterAddr c a k hi ∧ counterCsr c k hi = some id := by
  have hlt : (a.extractLsb' 0 5).toNat < 32 := (a.extractLsb' 0 5).isLt
  have split : ∀ m : BitVec 7, a.extractLsb' 5 7 = m → a.toNat = 32 * m.toNat + (a.extractLsb' 0 5).toNat := by
    rintro m rfl
    have := a.isLt
    simp only [BitVec.extractLsb'_toNat, Nat.shiftRight_eq_div_pow]
    omega
  unfold csrAt at h
  split at h
  · rename_i ha
    split at h
    · rename_i hz; cases h; exact .inl ⟨ha, hz, rfl⟩
    · cases h
  split at h
  · rename_i hm
    exact .inr ⟨_, false, ⟨hlt, split _ hm, by simp⟩, h⟩
  split at h
  · rename_i hm
    split at h
    · cases h
    · rename_i hx
      exact .inr ⟨_, true, ⟨hlt, split _ hm, fun _ => isRv64_eq_false.mp (Bool.eq_false_iff.mpr hx)⟩, h⟩
  · cases h

/-- A CSR that does not exist has no address. -/
theorem csrAt_eq_none {c : Cfg} {a : BitVec 12} (h : ¬ csrExists c a) : csrAt c a = none := by
  cases hc : csrAt c a with
  | none => rfl
  | some id =>
    refine absurd ?_ h
    rcases csrAt_cases hc with ⟨ha, hz, _⟩ | ⟨k, hi, hk, hs⟩
    · exact .inl ⟨ha, hz⟩
    · have he : counterExists c k := counterCsr_isSome.mp (by rw [hs]; rfl)
      have ha := hk.toNat
      cases hi with
      | false => exact .inr ⟨k, hk.lt, he, .inl ha⟩
      | true => exact .inr ⟨k, hk.lt, he, .inr ⟨hk.half rfl, ha⟩⟩

/-! ### The access checks (41_zicsr_counters.md R178) -/

/-- A CSR that does not exist is refused. -/
theorem State.csrRefused_absent {s : State} {a : BitVec 12} (h : csrAt s.cfg a = none) (writes : Bool) :
    s.csrRefused a writes = some .illegalInstruction := by
  rw [State.csrRefused, h]

/-- A write to a read-only address is refused. -/
theorem State.csrRefused_readOnly {s : State} {a : BitVec 12} (h : csrReadOnly a = true) :
    s.csrRefused a true = some .illegalInstruction := by
  unfold State.csrRefused
  split
  · rfl
  · rw [h]; rfl

/-- An access to ssp is refused as the SSE chain says (46_cfi.md R333). -/
theorem State.csrRefused_ssp {s : State} (h : s.cfg.ext.zicfiss = true) (writes : Bool) :
    s.csrRefused 0x011 writes = s.sseGate false := by
  rw [State.csrRefused, csrAt_ssp h]
  cases writes <;> rfl

/-- The CSRs of `counterCsr` are counters, gated by `counterAllowed`. -/
theorem State.csrGate_counter {s : State} {c : Cfg} {k : Nat} {hi : Bool} {id : CsrId} (h : counterCsr c k hi = some id)
    (a : BitVec 12) :
    s.csrGate id a = if s.counterAllowed (a.extractLsb' 0 5).toNat then none else some .illegalInstruction := by
  cases id with
  | ssp => unfold counterCsr at h; split_ifs at h <;> cases h
  | cycle hi | time hi | instret hi | hpm n hi => rfl

theorem State.counterAllowed_iff {s : State} {k : Nat} : s.counterAllowed k = true ↔ s.counterOpen k := by
  simp [State.counterAllowed, State.counterOpen]

/-- An access to a counter that exists is refused where it writes or the counter's gate is closed. -/
theorem State.csrRefused_counter {s : State} {a : BitVec 12} {k : Nat} {hi : Bool} (ha : CounterAddr s.cfg a k hi)
    {id : CsrId} (hc : counterCsr s.cfg k hi = some id) (writes : Bool) :
    s.csrRefused a writes = if writes || !s.counterAllowed k then some .illegalInstruction else none := by
  obtain ⟨hk, _, hl⟩ := ha.fields
  have hro : csrReadOnly a = true := csrReadOnly_iff.mpr (by rw [ha.toNat]; split <;> omega)
  rw [State.csrRefused, ha.csrAt_eq, hc]
  simp only [State.csrGate_counter hc, hro, hk, hl, Nat.not_lt_zero, if_false, Bool.and_true]
  cases writes <;> cases s.counterAllowed k <;> rfl

/-- A counter's address names the counter of its five low bits. -/
theorem CounterAddr.mod {c : Cfg} {a : BitVec 12} {k : Nat} {hi : Bool} (h : CounterAddr c a k hi) :
    a.toNat % 32 = k := by
  have hk := h.lt
  rw [h.toNat]
  split <;> omega

/-- A counter whose gate is closed is refused. -/
theorem State.csrRefused_closed {s : State} {a : BitVec 12} (ha : 0xC00 ≤ a.toNat) (h : ¬ s.counterOpen (a.toNat % 32))
    (writes : Bool) : s.csrRefused a writes = some .illegalInstruction := by
  cases hc : csrAt s.cfg a with
  | none => exact State.csrRefused_absent hc writes
  | some id =>
    rcases csrAt_cases hc with ⟨rfl, _⟩ | ⟨k, hi, hk, hs⟩
    · exact absurd ha (by decide)
    · rw [hk.mod, ← State.counterAllowed_iff] at h
      rw [State.csrRefused_counter hk hs, Bool.eq_false_iff.mpr h, Bool.not_false, Bool.or_true]
      rfl

/-- A read of a counter that exists and whose gate is open is not refused. -/
theorem State.csrRefused_open {s : State} {a : BitVec 12} {k : Nat} {hi : Bool} (ha : CounterAddr s.cfg a k hi)
    {id : CsrId} (hc : counterCsr s.cfg k hi = some id) (ho : s.counterOpen k) : s.csrRefused a false = none := by
  rw [State.csrRefused_counter ha hc, State.counterAllowed_iff.mpr ho]
  rfl

/-! ### The CSR instructions -/

/-- A refused access raises its exception on the instruction. -/
theorem csrOp_refused {s : State} {a : BitVec 12} {writes : Bool} {c : Cause} (h : s.csrRefused a writes = some c)
    (i : Instr) (rd : Reg) (reads : Bool) (f : Word → Word) :
    TookIllegal s (csrOp i a rd reads writes f s) c i := by
  rw [csrOp, h]
  exact s.raiseIllegal_took c i

/-- An access that is not refused and only reads writes what it read to its destination. -/
theorem csrOp_read {s : State} {a : BitVec 12} {id : CsrId} (h : s.csrRefused a false = none)
    (ha : csrAt s.cfg a = some id) (i : Instr) (rd : Reg) (f : Word → Word) :
    csrOp i a rd true false f s = ((s.csrRead id).2.setX rd (s.csrRead id).1).retire 4 := by
  rw [csrOp, h]
  simp only [ha]
  rfl

section
variable (rd : Reg) (rs1 uimm : BitVec 5) (a : BitVec 12) (s : State)

theorem exec_csrrw :
    exec (.csrrw rd rs1 a) s = csrOp (.csrrw rd rs1 a) a rd (readsWhenRd rd) true (fun _ => s.x rs1) s := rfl

theorem exec_csrrs :
    exec (.csrrs rd rs1 a) s = csrOp (.csrrs rd rs1 a) a rd true (writesWhenSrc rs1) (fun t => t ||| s.x rs1) s := rfl

theorem exec_csrrc :
    exec (.csrrc rd rs1 a) s = csrOp (.csrrc rd rs1 a) a rd true (writesWhenSrc rs1) (fun t => t &&& ~~~(s.x rs1)) s := rfl

theorem exec_csrrwi :
    exec (.csrrwi rd uimm a) s = csrOp (.csrrwi rd uimm a) a rd (readsWhenRd rd) true (fun _ => immZ uimm) s := rfl

theorem exec_csrrsi :
    exec (.csrrsi rd uimm a) s = csrOp (.csrrsi rd uimm a) a rd true (writesWhenSrc uimm) (fun t => t ||| immZ uimm) s := rfl

theorem exec_csrrci :
    exec (.csrrci rd uimm a) s = csrOp (.csrrci rd uimm a) a rd true (writesWhenSrc uimm) (fun t => t &&& ~~~(immZ uimm)) s := rfl

end

/-- Each CSR instruction is one access, which writes exactly where 41_zicsr_counters.md R177 says. -/
theorem exec_csrForms {s : State} {rd src : BitVec 5} {a : BitVec 12} {i : Instr} (h : i ∈ csrForms rd src a) :
    ∃ reads writes f, exec i s = csrOp i a rd reads writes f s ∧ (csrWrites i → writes = true) := by
  simp only [csrForms, List.mem_cons, List.not_mem_nil, or_false] at h
  rcases h with rfl | rfl | rfl | rfl | rfl | rfl
  · exact ⟨_, _, _, exec_csrrw .., fun _ => rfl⟩
  · exact ⟨_, _, _, exec_csrrs .., fun hw => bne_iff_ne.mpr hw⟩
  · exact ⟨_, _, _, exec_csrrc .., fun hw => bne_iff_ne.mpr hw⟩
  · exact ⟨_, _, _, exec_csrrwi .., fun _ => rfl⟩
  · exact ⟨_, _, _, exec_csrrsi .., fun hw => bne_iff_ne.mpr hw⟩
  · exact ⟨_, _, _, exec_csrrci .., fun hw => bne_iff_ne.mpr hw⟩

/-- Settles O42, by the order of the access checks. -/
theorem refusedCsrAccessTraps : Obligations.RefusedCsrAccessTraps := by
  intro s rd src a i hi
  obtain ⟨reads, writes, f, he, hw⟩ := exec_csrForms (s := s) hi
  rw [he]
  refine ⟨fun hz ha => ?_, fun h => csrOp_refused ?_ i rd reads f⟩
  · subst ha
    refine ⟨fun h => csrOp_refused ?_ i rd reads f, fun h hv => csrOp_refused ?_ i rd reads f⟩
    · rw [State.csrRefused_ssp hz, State.sseGate_illegal h]
    · rw [State.csrRefused_ssp hz, State.sseGate_virtual h hv (by simp)]
  · rcases h with h | ⟨h, ha⟩ | ⟨ha, ho⟩
    · exact State.csrRefused_absent (csrAt_eq_none h) writes
    · rw [hw h]
      exact State.csrRefused_readOnly (csrReadOnly_iff.mpr ha)
    · exact State.csrRefused_closed ha ho writes

end Sys2Proof.Machine
end

section
/-! The CSR instructions on ssp, and the reads of the counters. -/

namespace Sys2Proof.Machine

/-! ### Low XLEN bits of bitwise operations -/

theorem wrap_and (x : Xlen) (v w : Word) : wrap x (v &&& w) = wrap x v &&& w := by
  cases x with
  | rv64 => rfl
  | rv32 =>
    apply BitVec.eq_of_getLsbD_eq
    intro k hk
    by_cases h : k < 32 <;> simp [wrap, h, hk]

theorem wrap_or (x : Xlen) (v w : Word) : wrap x (v ||| w) = wrap x v ||| wrap x w := by
  cases x with
  | rv64 => rfl
  | rv32 =>
    apply BitVec.eq_of_getLsbD_eq
    intro k hk
    by_cases h : k < 32 <;> simp [wrap, h, hk]

/-- A CSR immediate is an XLEN-bit value. -/
theorem wrap_immZ (x : Xlen) (uimm : BitVec 5) : wrap x (immZ uimm) = immZ uimm := by
  have h := uimm.isLt
  apply wrap_of_lt
  rw [immZ, BitVec.toNat_setWidth]
  cases x <;> simp only [Xlen.bits] <;> omega

/-- Clearing the low `k` bits is shifting them out and back. -/
theorem ushiftRight_shiftLeft_eq_and (v : Word) (k : Nat) :
    (v >>> k) <<< k = v &&& (BitVec.allOnes 64 <<< k) := by
  apply BitVec.eq_of_getLsbD_eq
  intro i hi
  by_cases h : i < k
  · simp [h]
  · have he : k + (i - k) = i := by omega
    have hlt : i - k < 64 := by omega
    simp only [BitVec.getLsbD_and, BitVec.getLsbD_shiftLeft, BitVec.getLsbD_ushiftRight, BitVec.getLsbD_allOnes, he,
      hi, hlt, h, decide_true, decide_false, Bool.not_false, Bool.and_true, Bool.true_and]

/-- Masking the writable bits of ssp gives the value as ssp holds it (10_state.md R45). -/
theorem and_sspMask (c : Cfg) (v : Word) : v &&& sspMask c = sspHolds c v := by
  unfold sspMask sspHolds
  split <;> rw [ushiftRight_shiftLeft_eq_and] <;> rfl

/-- A read of ssp is a value as ssp holds it. -/
theorem State.sspHolds_sspv (s : State) : sspHolds s.cfg s.sspv = s.sspv := by
  rw [← and_sspMask, State.sspv, wrap_and, BitVec.and_assoc, BitVec.and_self]

/-- After a write of an XLEN-bit value ssp holds it. -/
theorem State.sspv_setSsp_of_wrap {s : State} {v : Word} (h : wrap s.xlen v = v) :
    (s.setSsp v).sspv = sspHolds s.cfg v := by
  rw [s.sspv_setSsp, wrap_and, h, and_sspMask]

/-! ### Writing a register after an update of the special state -/

/-- `u` differs from `s` in ssp, ELP, cycle and time at most. -/
structure SpecialOnly (s u : State) : Prop where
  flow : SameFlow s u
  regs : u.regs = s.regs
  mem : u.mem = s.mem
  cache : u.cache = s.cache
  fetchView : u.fetchView = s.fetchView

theorem SpecialOnly.refl (s : State) : SpecialOnly s s := ⟨SameFlow.refl s, rfl, rfl, rfl, rfl⟩

theorem State.setSsp_specialOnly (s : State) (v : Word) : SpecialOnly s (s.setSsp v) :=
  ⟨⟨rfl, rfl, rfl, rfl, rfl⟩, rfl, rfl, rfl, rfl⟩

/-- A read of a CSR changes at most the counters last read. -/
theorem State.csrRead_specialOnly (s : State) (id : CsrId) : SpecialOnly s (s.csrRead id).2 := by
  cases id with
  | ssp | cycle hi | time hi | instret hi | hpm n hi => exact ⟨⟨rfl, rfl, rfl, rfl, rfl⟩, rfl, rfl, rfl, rfl⟩

/-- What is left by an instruction of `len` bytes that completed and wrote `v` to `rd`, but for ssp, ELP, cycle and
time. -/
structure WroteAside (s t : State) (rd : Reg) (v : Word) (len : Nat) : Prop where
  value : t.x rd = if rd = 0 then 0 else v
  done : Completed s t (s.after len)
  regs : RegsKept s t [rd]
  mem : MemKept s t []
  caches : CachesKept s t []

/-- Writing a register after an update of the special state, and retiring. -/
theorem SpecialOnly.setX_retire {s u : State} (h : SpecialOnly s u) (rd : Reg) {v : Word} (n : Nat)
    (hv : wrap s.xlen v = v) :
    ∃ t, (u.setX rd v).retire n = .next t ∧ WroteAside s t rd v n ∧ SpecialKept u t := by
  have hx : u.xlen = s.xlen := congrArg Cfg.xlen h.flow.cfg
  have hf : SameFlow s (u.setX rd v) := ⟨h.flow.cfg, h.flow.env, h.flow.pc, h.flow.instret, h.flow.trap⟩
  obtain ⟨t, ht, r, c⟩ := hf.retire n
  refine ⟨t, ht, ⟨?_, c, fun q hq => ?_, fun a _ => ?_, fun a _ => ?_, fun w _ _ => ?_⟩,
    ⟨r.sspv, r.elp, r.cycle, r.time⟩⟩
  · rw [r.x, u.x_setX_self, hx, hv]
  · rw [r.x, u.regsKept_setX rd v q hq, State.x_congr h.flow.cfg h.regs]
  · exact (r.byteAt a).trans (State.byteAt_congr h.mem a)
  · exact (r.cacheAt a).trans (State.cacheAt_congr h.mem h.cache a)
  · exact (r.versionsAt w).trans (State.versionsAt_congr h.mem h.fetchView w)

/-! ### The CSR instructions on ssp -/

/-- An access to ssp that is allowed, `old` the value read and `new` the one ssp is given or keeps. -/
theorem csrOp_ssp {s : State} (hz : s.cfg.ext.zicfiss = true) (hi : ¬ s.sseIllegal) (hv : ¬ s.sseVirtual) (i : Instr)
    {rd : Reg} {reads writes : Bool} {f : Word → Word} {new : Word} (hr : reads = true ∨ rd = 0)
    (hnew : (if writes then f (if reads then s.sspv else 0) else s.sspv) = new) (hw : wrap s.xlen new = new) :
    ∃ t, csrOp i 0x011 rd reads writes f s = .next t ∧ SspAccessed s t rd (sspHolds s.cfg new) := by
  have hop : csrOp i 0x011 rd reads writes f s =
      ((if writes then s.setSsp new else s).setX rd (if reads then s.sspv else 0)).retire 4 := by
    rw [csrOp, State.csrRefused_ssp hz, State.sseGate_open hi hv (by simp), csrAt_ssp hz]
    cases reads <;> cases writes <;> cases hnew <;> rfl
  have hu : SpecialOnly s (if writes then s.setSsp new else s) := by
    split
    · exact s.setSsp_specialOnly new
    · exact .refl s
  have hssp : (if writes then s.setSsp new else s).sspv = sspHolds s.cfg new := by
    split
    · exact State.sspv_setSsp_of_wrap hw
    · rename_i hn; rw [if_neg hn] at hnew; rw [← hnew, s.sspHolds_sspv]
  have hold : wrap s.xlen (if reads then s.sspv else 0) = if reads then s.sspv else 0 := by
    split
    · exact s.wrap_sspv
    · exact wrap_zero _
  obtain ⟨t, ht, k, ks⟩ := hu.setX_retire rd 4 hold
  refine ⟨t, hop.trans ht, ?_, ks.ssp.trans hssp, ks.elp.trans ?_, ⟨ks.cycle.trans ?_, ks.time.trans ?_⟩, k.done, k.regs,
    k.mem, k.caches⟩
  · rw [k.value]
    rcases hr with rfl | rfl <;> rfl
  all_goals split <;> rfl

/-- A write form of a CSR instruction reads unless its destination is x0 (41_zicsr_counters.md R177). -/
theorem readsWhenRd_or (rd : Reg) : readsWhenRd rd = true ∨ rd = 0 := by
  by_cases h : rd = 0
  · exact .inr h
  · exact .inl (bne_iff_ne.mpr h)

/-- The set and clear forms write nothing where the source is 0, so ssp holds `v` after them where source 0 would have
made no difference (41_zicsr_counters.md R177). -/
theorem ite_writesWhenSrc {src : BitVec 5} {v w : Word} (h : src = 0 → v = w) :
    (if writesWhenSrc src then v else w) = v := by
  by_cases h0 : src = 0
  · rw [h h0, ite_self]
  · exact if_pos (bne_iff_ne.mpr h0)

/-- Settles O41, form by form. -/
theorem csrInstructionsOnSsp : Obligations.CsrInstructionsOnSsp := by
  intro s rd rs1 uimm hz hi hv p hp
  have hx : rs1 = 0 → s.x rs1 = 0 := fun h => by rw [h]; rfl
  have hu : uimm = 0 → immZ uimm = 0 := fun h => by rw [h]; rfl
  have or0 : ∀ m, m = 0 → s.sspv ||| m = s.sspv := fun m h => by rw [h]; exact BitVec.or_zero
  have and0 : ∀ m, m = 0 → s.sspv &&& ~~~m = s.sspv := fun m h => by rw [h]; exact BitVec.and_allOnes
  have hor : ∀ m, wrap s.xlen m = m → wrap s.xlen (s.sspv ||| m) = s.sspv ||| m := fun m h => by
    rw [wrap_or, s.wrap_sspv, h]
  have hand : ∀ m, wrap s.xlen (s.sspv &&& m) = s.sspv &&& m := fun m => by rw [wrap_and, s.wrap_sspv]
  simp only [List.mem_cons, List.not_mem_nil, or_false] at hp
  rcases hp with rfl | rfl | rfl | rfl | rfl | rfl <;> dsimp only
  · rw [exec_csrrw]
    exact csrOp_ssp hz hi hv _ (readsWhenRd_or rd) rfl (s.wrap_x rs1)
  · rw [exec_csrrs]
    exact csrOp_ssp hz hi hv _ (.inl rfl) (ite_writesWhenSrc fun h => or0 _ (hx h)) (hor _ (s.wrap_x rs1))
  · rw [exec_csrrc]
    exact csrOp_ssp hz hi hv _ (.inl rfl) (ite_writesWhenSrc fun h => and0 _ (hx h)) (hand _)
  · rw [exec_csrrwi]
    exact csrOp_ssp hz hi hv _ (readsWhenRd_or rd) rfl (wrap_immZ _ uimm)
  · rw [exec_csrrsi]
    exact csrOp_ssp hz hi hv _ (.inl rfl) (ite_writesWhenSrc fun h => or0 _ (hu h)) (hor _ (wrap_immZ _ uimm))
  · rw [exec_csrrci]
    exact csrOp_ssp hz hi hv _ (.inl rfl) (ite_writesWhenSrc fun h => and0 _ (hu h)) (hand _)

end Sys2Proof.Machine
end

section
/-! Reads of the counters (41_zicsr_counters.md R181, R191, R201). -/

namespace Sys2Proof.Machine

/-! ### The values a counter reads as -/

/-- A half of a counter is the counter shifted down by nothing or by 32, modulo 2^XLEN. -/
theorem counterHalf_eq {x : Xlen} {hi : Bool} (h : hi = true → x = .rv32) (v : BitVec 64) :
    counterHalf x hi v = truncTo x ((v.toNat : Int) / (if hi then 2 ^ 32 else 1)) := by
  cases hi with
  | false => exact (wrap_eq_truncTo x v).trans (congrArg _ (Int.ediv_one _).symm)
  | true =>
    have hv := v.isLt
    obtain rfl := h rfl
    apply BitVec.eq_of_toNat_eq
    have ht := truncTo_toNat .rv32 ((v.toNat : Int) / 2 ^ 32)
    simp only [counterHalf, if_true, BitVec.toNat_setWidth, BitVec.extractLsb'_toNat, Nat.shiftRight_eq_div_pow]
    simp only [Xlen.bits] at ht
    omega

theorem truncTo_zero (x : Xlen) : truncTo x 0 = 0 := by cases x <;> rfl

/-- A half of a counter is an XLEN-bit value. -/
theorem wrap_counterHalf {x : Xlen} {hi : Bool} (h : hi = true → x = .rv32) (v : BitVec 64) :
    wrap x (counterHalf x hi v) = counterHalf x hi v := by
  rw [counterHalf_eq h]
  exact wrap_wrap _ _

/-- The width found for hpmcounter `k` is one listed. -/
theorem mem_of_hpmWidth {c : Cfg} {k w : Nat} (h : hpmWidth c k = some w) : (k, w) ∈ c.hpmCounters := by
  obtain ⟨p, hp, rfl⟩ := Option.map_eq_some_iff.mp h
  have hk : p.1 = k := by simpa using List.find?_some hp
  exact hk ▸ List.mem_of_find?_eq_some hp

/-- An hpmcounter that is not implemented is zero (D12). -/
theorem State.hpmValue_of_absent {s : State} {k : Nat} (h : ∀ w, (k, w) ∉ s.cfg.hpmCounters) : s.hpmValue k = 0 := by
  cases hw : hpmWidth s.cfg k with
  | none => rw [State.hpmValue, hw]
  | some w => exact absurd (mem_of_hpmWidth hw) (h w)

/-- An hpmcounter implemented with the width `w` is below 2^w. -/
theorem State.hpmValue_lt {s : State} {k w : Nat} (h : ∀ w', (k, w') ∈ s.cfg.hpmCounters ↔ w' = w) :
    (s.hpmValue k).toNat < 2 ^ w := by
  obtain ⟨w', hw⟩ := Option.isSome_iff_exists.mp (hpmWidth_isSome.mpr ⟨w, (h w).mpr rfl⟩)
  obtain rfl := (h w').mp (mem_of_hpmWidth hw)
  rw [State.hpmValue, hw]
  exact Nat.lt_of_le_of_lt (by simpa using Nat.mod_le _ _) (Nat.mod_lt _ (Nat.two_pow_pos _))

/-! ### The CSRs of the counter numbers -/

theorem counterCsr_hpm {c : Cfg} {k : Nat} (hi : Bool) (hk : 3 ≤ k) (hz : c.ext.zihpm = true)
    (he : (∃ w, (k, w) ∈ c.hpmCounters) ∨ c.hpmUnimplFaults = false) : counterCsr c k hi = some (.hpm k hi) := by
  rw [← hpmWidth_isSome] at he
  unfold counterCsr
  rw [if_neg (by omega), if_neg (by omega), if_neg (by omega), hz]
  rcases he with he | he <;> simp [he]

theorem counterAddr_ofNat {c : Cfg} {k : Nat} {hi : Bool} (hk : k < 32) (h : hi = true → c.xlen = .rv32) :
    CounterAddr c (BitVec.ofNat 12 ((if hi then 0xC80 else 0xC00) + k)) k hi := by
  refine ⟨hk, ?_, h⟩
  rw [BitVec.toNat_ofNat, Nat.mod_eq_of_lt]
  split <;> omega

/-! ### The instructions that read -/

/-- The reading forms are accesses that do not write. -/
theorem exec_csrReadForms {s : State} {rd : Reg} {a : BitVec 12} {i : Instr} (h : i ∈ csrReadForms rd a) :
    ∃ f, exec i s = csrOp i a rd true false f s := by
  simp only [csrReadForms, List.mem_cons, List.not_mem_nil, or_false] at h
  rcases h with rfl | rfl | rfl | rfl
  · exact ⟨_, exec_csrrs ..⟩
  · exact ⟨_, exec_csrrc ..⟩
  · exact ⟨_, exec_csrrsi ..⟩
  · exact ⟨_, exec_csrrci ..⟩

/-- A reading form on a counter that exists, with its gate open, writes what it read to its destination. -/
theorem exec_counterRead {s : State} {rd : Reg} {a : BitVec 12} {i : Instr} {k : Nat} {hi : Bool} {id : CsrId}
    (h : i ∈ csrReadForms rd a) (ha : CounterAddr s.cfg a k hi) (hc : counterCsr s.cfg k hi = some id)
    (ho : s.counterOpen k) : exec i s = ((s.csrRead id).2.setX rd (s.csrRead id).1).retire 4 := by
  obtain ⟨f, he⟩ := exec_csrReadForms (s := s) h
  rw [he]
  exact csrOp_read (State.csrRefused_open ha hc ho) (ha.csrAt_eq.trans hc) i rd f

/-- The clock never shows less than time did. -/
theorem le_clock (time clock : BitVec 64) : time ≤ if clock < time then time else clock := by
  split
  · exact BitVec.le_refl _
  · rename_i h; exact BitVec.not_lt.mp h

/-- A read of a half of cycle or time, which `u` keeps as the last value read. -/
theorem counterRead_retire {s u : State} (h : SpecialOnly s u) (hs : u.sspv = s.sspv) (he : u.elp = s.elp) (rd : Reg)
    {hi : Bool} (hx : hi = true → s.xlen = .rv32) (v : BitVec 64) :
    ∃ t, (u.setX rd (counterHalf s.xlen hi v)).retire 4 = .next t ∧ t.cycle = u.cycle ∧ t.time = u.time ∧
      CounterRead s t rd (truncTo s.xlen ((v.toNat : Int) / (if hi then 2 ^ 32 else 1))) := by
  obtain ⟨t, ht, w, k⟩ := h.setX_retire rd 4 (wrap_counterHalf hx v)
  rw [counterHalf_eq hx] at w
  exact ⟨t, ht, k.cycle, k.time, w.value, k.ssp.trans hs, k.elp.trans he, w.done, w.regs, w.mem, w.caches⟩

/-- A read of a half of a counter that no read changes. -/
theorem counterHalf_retire {s : State} (rd : Reg) {hi : Bool} (hx : hi = true → s.xlen = .rv32) (v : BitVec 64) :
    ∃ t, (s.setX rd (counterHalf s.xlen hi v)).retire 4 = .next t ∧
      WroteReg s t rd (truncTo s.xlen ((v.toNat : Int) / (if hi then 2 ^ 32 else 1))) 4 := by
  rw [← counterHalf_eq hx]
  exact s.setX_retire rd 4 (wrap_counterHalf hx v)

/-- Settles O43, counter by counter. -/
theorem counterReads : Obligations.CounterReads := by
  intro s rd k hk ho hcntr hhpm hi hx i hm
  have ha : CounterAddr s.cfg _ k hi := counterAddr_ofNat hk hx
  have read : ∀ {id : CsrId}, counterCsr s.cfg k hi = some id →
      exec i s = ((s.csrRead id).2.setX rd (s.csrRead id).1).retire 4 := fun hc => exec_counterRead hm ha hc ho
  refine ⟨?cycle, ?time, ?instret, ?absent, ?hpm⟩
  case cycle =>
    rintro rfl
    rw [read (id := .cycle hi) (by simp [counterCsr, hcntr])]
    obtain ⟨t, ht, hc, htime, w⟩ := counterRead_retire (s.csrRead_specialOnly (.cycle hi)) rfl rfl rd hx
      (s.cycle + Config.cycleAdvance s.tick)
    exact ⟨t, ht, htime, by rw [hc]; exact w⟩
  case time =>
    rintro rfl
    rw [read (id := .time hi) (by simp [counterCsr, hcntr])]
    obtain ⟨t, ht, hc, htime, w⟩ := counterRead_retire (s.csrRead_specialOnly (.time hi)) rfl rfl rd hx
      (if Config.clock s.tick < s.time then s.time else Config.clock s.tick)
    exact ⟨t, ht, hc, by rw [htime]; exact le_clock _ _, by rw [htime]; exact w⟩
  case instret =>
    rintro rfl
    rw [read (id := .instret hi) (by simp [counterCsr, hcntr])]
    exact counterHalf_retire rd hx s.instret
  case absent =>
    intro h3 hw hf
    rw [read (counterCsr_hpm hi h3 (hhpm h3) (.inr hf))]
    obtain ⟨t, ht, w⟩ := counterHalf_retire rd hx (s.hpmValue k)
    rw [State.hpmValue_of_absent hw] at w
    exact ⟨t, ht, by simpa [truncTo_zero] using w⟩
  case hpm =>
    intro h3 w hw
    rw [read (counterCsr_hpm hi h3 (hhpm h3) (.inl ⟨w, (hw w).mpr rfl⟩))]
    obtain ⟨t, ht, k⟩ := counterHalf_retire rd hx (s.hpmValue k)
    exact ⟨t, _, ht, by exact_mod_cast State.hpmValue_lt hw, k⟩

end Sys2Proof.Machine
end

section
/-! Memory: which instructions change it, and what a load sees of a store. -/

namespace Sys2Proof.Machine

/-! ### Only stores change memory -/

/-- Memory is left by the updates of an instruction that does not store. -/
theorem Updates.mem {i : Instr} {s u : State} (h : Updates i s u) (hi : stores i = false) : u.mem = s.mem := by
  induction h with
  | refl => rfl
  | writePart _ hst => rw [hi] at hst; cases hst
  | setX | setElp | setSsp | counters | cleanByte | flushByte | invalByte | fenceFetch => rename_i ih; exact ih

/-- Settles O14, by the updates each instruction is entitled to: retiring and the record of a trap leave memory. -/
theorem onlyStoresChangeMemory : Obligations.OnlyStoresChangeMemory := by
  intro i s t h hi a _
  obtain ⟨u, hu, ⟨_, _, r⟩ | ⟨_, _, _, r⟩⟩ := exec_next h
  · exact State.byteAt_congr (r.mem.trans (hu.mem hi)) a
  · exact State.byteAt_congr (r.mem.trans (hu.mem hi)) a

/-! ### A load after a store -/

theorem leNat_append (l m : List Byte) : leNat (l ++ m) = leNat l + 2 ^ (8 * l.length) * leNat m := by
  induction l with
  | nil => simp [leNat]
  | cons b rest ih =>
    have he : 2 ^ (8 * (rest.length + 1)) = 256 * 2 ^ (8 * rest.length) := by rw [Nat.mul_succ, Nat.pow_add]; omega
    simp only [List.cons_append, leNat, ih, List.length_cons, he]
    ring

/-- The little-endian bytes of a value stand for its low part (20_memory.md R72). -/
theorem leNat_leBytes (n : Nat) (v : Word) : leNat (leBytes n v) = v.toNat % 2 ^ (8 * n) := by
  induction n with
  | zero => simp [leBytes, leNat, Nat.mod_one]
  | succ n ih =>
    have hs : leBytes (n + 1) v = leBytes n v ++ [v.extractLsb' (8 * n) 8] := by simp [leBytes, List.range_succ]
    rw [hs, leNat_append, ih, length_leBytes, Nat.mul_succ, Nat.pow_add, Nat.mod_mul]
    simp [leNat, BitVec.extractLsb'_toNat, Nat.shiftRight_eq_div_pow]

/-- What a store of at most 8 bytes adds to the copies and to the fetch view of the bytes stored. -/
theorem Inv.storeValue_seen {s : State} (h : Inv s) (ea : Word) {n : Nat} (hn : n ≤ 8) (v : Word) :
    StoreSeen s (s.storeValue ea n v) (s.byteAddr ea) n fun i => v.extractLsb' (8 * i) 8 := by
  refine h.writePart_seen _ ?_ fun c => mem_zip_leBytes
  rw [map_fst_zip_leBytes]
  exact s.nodup_addrs ea (hn.trans (Xlen.eight_le _))

/-- The bytes a load returns after a store to the same bytes: the stored copies are valid and current. -/
theorem Inv.loadBytes_storeValue {s : State} (h : Inv s) (ea : Word) {n : Nat} (hn : n ≤ 8) (v : Word) :
    ((s.storeValue ea n v).addrs ea n).map (s.storeValue ea n v).loadByte = leBytes n v := by
  rw [State.addrs_congr (s.storeValue_memOnly ea n v).cfg, State.addrs, List.map_map]
  refine List.map_congr_left fun i hi => ?_
  rw [List.mem_range] at hi
  have hvalid := (h.storeValue_seen ea hn v).valid i hi
  exact (State.loadByte_of_valid hvalid).trans (s.storeValue_bytes ea v (hn.trans (Xlen.eight_le _)) i hi)

/-- Settles O16: the bytes loaded are those of the value stored. -/
theorem loadReturnsWhatWasStored : Obligations.LoadReturnsWhatWasStored := by
  intro s ea v n h hn
  rw [State.loadValue, h.loadBytes_storeValue ea hn, leWord_eq, leNat_leBytes]

/-! ### The fetch view after a store -/

/-- Two states of a unit are equal where they hold the same four bytes. -/
theorem FetchVersion.ext_getD {v w : FetchVersion} (hv : v.length = 4) (hw : w.length = 4)
    (h : ∀ k, k < 4 → v.getD k none = w.getD k none) : v = w := by
  refine List.ext_getElem (hv.trans hw.symm) fun k hkv hkw => ?_
  simpa [hkv, hkw] using h k (hv ▸ hkv)

theorem State.length_currentUnit (s : State) (u : Nat) : (s.currentUnit u).length = 4 := by simp [State.currentUnit]

/-- The latest state a fetch may see of a unit is the current one where every copy of it is valid. -/
theorem Inv.headD_versions {s : State} (h : Inv s) {u : Nat} (hv : ∀ k, k < 4 → (s.cacheAt (u + k)).valid = true) :
    (s.versionsAt u).headD [] = s.currentUnit u := by
  obtain ⟨v, rest, e, hk⟩ := h.head_versions u
  have hmem : v ∈ s.versionsAt u := e ▸ List.mem_cons_self ..
  rw [e, List.headD_cons]
  exact FetchVersion.ext_getD (h.length_version hmem) (s.length_currentUnit u) fun k hk4 =>
    (hk k hk4 (hv k hk4)).trans (s.getD_currentUnit u hk4).symm

/-- The current state of a unit whose copies are valid is one a fetch may see. -/
theorem Inv.currentUnit_mem_versions {s : State} (h : Inv s) {u : Nat}
    (hv : ∀ k, k < 4 → (s.cacheAt (u + k)).valid = true) : s.currentUnit u ∈ s.versionsAt u := by
  obtain ⟨v, rest, e, _⟩ := h.head_versions u
  rw [← h.headD_versions hv, e]
  exact List.mem_cons_self ..

/-- At an address that begins no unit a fetch sees the current content alone. -/
theorem Inv.versionsAt_of_mod {s : State} (h : Inv s) {u : Nat} (hu : u % 4 ≠ 0) :
    s.versionsAt u = [s.currentUnit u] := by
  rcases s.versionsAt_eq u with ⟨vs, hm, _⟩ | e
  · exact absurd (h.fetchEntries _ hm).1 hu
  · exact e

/-- A single-copy atomic store adds to the states of a unit whose copies are valid the one it leaves in memory, and no
other (70_reset_and_hazards.md R497). -/
theorem Inv.mem_versionsAt_writePart {s : State} (h : Inv s) {cells : List Host.Cell}
    (hn : (cells.map Prod.fst).Nodup) {u : Nat} (hu : u % 4 = 0) (hv : ∀ k, k < 4 → (s.cacheAt (u + k)).valid = true)
    {w : FetchVersion} (hw : w ∈ (s.writePart cells true).versionsAt u) :
    w ∈ s.versionsAt u ∨ w = (s.writePart cells true).currentUnit u := by
  by_cases hin : ∃ c ∈ cells, unitOf c.1 = u
  · obtain ⟨c, hc, rfl⟩ := hin
    rw [s.writePart_versionsAt cells true h.fetchView.1 c hc, mem_storedVersions, h.headD_versions hv] at hw
    rcases hw with hw | hw | ⟨hf, _⟩
    · exact .inr (hw.trans (s.writePart_currentUnit cells true hn _).symm)
    · exact .inl hw
    · cases hf
  · rw [s.writePart_versionsAt_outside cells true u hu] at hw
    · exact .inl hw
    · intro a ha e
      obtain ⟨c, hc, rfl⟩ := List.mem_map.mp ha
      exact hin ⟨c, hc, e⟩

/-- Settles O17: byte by byte by what a store part adds; an aligned store is single-copy atomic. -/
theorem storeAddsToTheFetchView : Obligations.StoreAddsToTheFetchView := by
  intro s ea v n h hn
  have hn' : n ≤ 2 ^ s.xlen.bits := hn.trans (Xlen.eight_le _)
  refine ⟨h.storeValue_seen ea hn v, fun ha u w hv hw => ?_⟩
  by_cases hu : u % 4 = 0
  · have he : s.storeValue ea n v = s.writePart ((s.addrs ea n).zip (leBytes n v)) true := by
      rw [State.storeValue, aligned_iff.mpr ha]; rfl
    rw [he] at hw ⊢
    refine h.mem_versionsAt_writePart ?_ hu hv hw
    rw [map_fst_zip_leBytes]
    exact s.nodup_addrs ea hn'
  · rw [(h.storeValue ea v hn').versionsAt_of_mod hu] at hw
    exact .inr (List.mem_singleton.mp hw)

/-! ### FENCE.I -/

theorem State.getD_loadedUnit (s : State) (u : Nat) {k : Nat} (hk : k < 4) :
    (s.loadedUnit u).getD k none = s.loadContent (u + k) := by
  simp [State.loadedUnit, List.getD_eq_getElem?_getD, hk]

/-- After FENCE.I a fetch of a byte sees the one content that a load sees (20_memory.md R102). -/
theorem State.fenceFetch_fetchSet (s : State) (a : Nat) : s.fenceFetch.fetchSet a = [s.loadContent a] := by
  rw [State.fetchSet, s.fenceFetch_versionsAt (unitOf_mod a), List.map_singleton,
    s.getD_loadedUnit _ (Nat.mod_lt _ (by decide)), unitOf_add_mod]
  rfl

/-- Retiring leaves what a fetch may see of a byte. -/
theorem Retired.fetchSet {u t : State} {a : Word} (r : Retired u t a) (b : Nat) : t.fetchSet b = u.fetchSet b := by
  rw [State.fetchSet, State.fetchSet, r.versionsAt]

/-- Settles O18, by the fetch view that FENCE.I leaves. -/
theorem fenceICollapsesTheFetchView : Obligations.FenceICollapsesTheFetchView := by
  intro s funct12 rs1 rd
  have hf : SameFlow s s.fenceFetch := ⟨rfl, rfl, rfl, rfl, rfl⟩
  obtain ⟨t, ht, r, done⟩ := hf.retire 4
  refine ⟨t, ht, done, fun q _ => r.x q, fun a _ => r.byteAt a, ⟨r.sspv, r.elp, r.cycle, r.time⟩, r.cacheAt,
    fun a => ⟨s.loadContent a, ?_, s.mayLoad_loadByte a, State.loadContent_of_valid⟩⟩
  rw [r.fetchSet, s.fenceFetch_fetchSet]

end Sys2Proof.Machine
end

section
/-! The ordinary loads and stores, and the accesses that trap. -/

namespace Sys2Proof.Machine

/-! ### The ordinary loads and stores as their meanings -/

section

variable {s : State} {r rs1 : Reg} {imm : BitVec 12} {r' rs1' : BitVec 3} {off5 : BitVec 5} {off6 : BitVec 6}

theorem exec_lw : exec (.lw r rs1 imm) s = s.load .load (s.effAddr rs1 (immI s.xlen imm)) 4 fun v =>
    (s.setX r (sext32 s.xlen (v.setWidth 32))).retire 4 := rfl

theorem exec_ldRv64 : exec (.ldRv64 r rs1 imm) s = s.load .load (s.effAddr rs1 (immI s.xlen imm)) 8 fun v =>
    (s.setX r v).retire 4 := rfl

theorem exec_cLdRv64 : exec (.cLdRv64 r' rs1' off5) s = s.load .load (s.effAddr (cReg rs1') (offMem off5)) 8 fun v =>
    (s.setX (cReg r') v).retire 2 := rfl

theorem exec_cLdspRv64 : exec (.cLdspRv64 r off6) s = s.load .load (s.effAddr 2 (offSp off6)) 8 fun v =>
    (s.setX r v).retire 2 := rfl

theorem exec_sh : exec (.sh r rs1 imm) s = s.store .store (s.effAddr rs1 (immI s.xlen imm)) 2 (s.x r) fun t =>
    t.retire 4 := rfl

theorem exec_sw : exec (.sw r rs1 imm) s = s.store .store (s.effAddr rs1 (immI s.xlen imm)) 4 (s.x r) fun t =>
    t.retire 4 := rfl

theorem exec_sdRv64 : exec (.sdRv64 r rs1 imm) s = s.store .store (s.effAddr rs1 (immI s.xlen imm)) 8 (s.x r) fun t =>
    t.retire 4 := rfl

theorem exec_cSdRv64 : exec (.cSdRv64 r' rs1' off5) s =
    s.store .store (s.effAddr (cReg rs1') (offMem off5)) 8 (s.x (cReg r')) fun t => t.retire 2 := rfl

theorem exec_cSdspRv64 : exec (.cSdspRv64 r off6) s = s.store .store (s.effAddr 2 (offSp off6)) 8 (s.x r) fun t =>
    t.retire 2 := rfl

end

/-! ### Loads -/

/-- A register takes the low XLEN bits of the value written. -/
theorem State.setX_wrap (s : State) (rd : Reg) (v : Word) : s.setX rd (wrap s.xlen v) = s.setX rd v := by
  simp only [State.setX, wrap_wrap]

/-- A permitted load that writes `f` of the value to `rd` and retires; `g` is what the register holds for the bytes. -/
theorem State.load_wroteReg {i : Instr} {s : State} {kind : AccessKind} {ea : Word} {n len : Nat} {rd : Reg}
    {f : Word → Word} {g : List Byte → Word}
    (h : exec i s = s.load kind ea n fun v => (s.setX rd (f v)).retire len) (ha : s.alignmentOk ea n)
    (hp : s.permitsAccess [kind] ea n) (hg : ∀ bs : List Byte, bs.length = n → wrap s.xlen (f (leWord bs)) = g bs) :
    ∃ t bs, exec i s = .next t ∧ s.mayLoadAll ea n bs ∧ WroteReg s t rd (g bs) len := by
  have hv := hg ((s.addrs ea n).map s.loadByte) (by simp)
  obtain ⟨t, ht, w⟩ := s.setX_retire rd (v := g ((s.addrs ea n).map s.loadByte)) len (by rw [← hv, wrap_wrap])
  refine ⟨t, _, ?_, s.mayLoadAll_loadBytes ea n, w⟩
  rw [h, State.load_ok _ ha hp, ← ht, ← hv, State.setX_wrap]
  rfl

/-- The signed value of a 32-bit word. -/
theorem signedVal_toNat (b : BitVec 32) : signedVal 32 b.toNat = b.toInt := by
  rw [BitVec.toInt_eq_toNat_cond, signedVal]
  split <;> split <;> omega

/-- `sext_XLEN` of a 32-bit value is `trunc_XLEN` of its signed value. -/
theorem sext32_eq_truncTo (x : Xlen) (b : BitVec 32) : sext32 x b = truncTo x (signedVal 32 b.toNat) := by
  rw [signedVal_toNat]
  rfl

/-- The word of four bytes, sign-extended (49_base_subset.md R425). -/
theorem sext32_leWord (x : Xlen) {bs : List Byte} (h : bs.length = 4) :
    sext32 x ((leWord bs).setWidth 32) = truncTo x (signedVal 32 (leNat bs)) := by
  have hlt := leNat_lt bs
  rw [h] at hlt
  have hn : ((leWord bs).setWidth 32).toNat = leNat bs := by
    rw [BitVec.toNat_setWidth, leWord_toNat]
    omega
  rw [sext32_eq_truncTo, hn]

/-- The value of at most eight bytes, cut to XLEN bits. -/
theorem wrap_leWord (x : Xlen) {bs : List Byte} (h : bs.length ≤ 8) : wrap x (leWord bs) = truncTo x (leNat bs) := by
  have hlt : leNat bs < 2 ^ 64 := (leNat_lt bs).trans_le (Nat.pow_le_pow_right (by decide) (by omega))
  rw [wrap_eq_truncTo, leWord_toNat, Nat.mod_eq_of_lt hlt]

/-- Settles O34: LW sign-extends the four bytes, the doubleword loads keep the eight. -/
theorem loadsComplete : Obligations.LoadsComplete := by
  intro s rd rs1 i12 rd' rs1' o5 o6
  have word : ∀ bs : List Byte, bs.length = 4 →
      wrap s.xlen (sext32 s.xlen ((leWord bs).setWidth 32)) = truncTo s.xlen (signedVal 32 (leNat bs)) :=
    fun bs hb => by rw [sext32_leWord _ hb, truncTo, wrap_wrap]
  have double : ∀ bs : List Byte, bs.length = 8 → wrap s.xlen (leWord bs) = truncTo s.xlen (leNat bs) :=
    fun bs hb => wrap_leWord _ hb.le
  refine ⟨fun ha hp => State.load_wroteReg exec_lw ha hp word, ?_⟩
  simp only [List.forall_mem_cons, List.not_mem_nil, false_implies, implies_true, and_true]
  exact ⟨fun ha hp => State.load_wroteReg exec_ldRv64 ha hp double,
    fun ha hp => State.load_wroteReg exec_cLdRv64 ha hp double,
    fun ha hp => State.load_wroteReg exec_cLdspRv64 ha hp double⟩

/-! ### Stores -/

/-- Retiring leaves the copies and the fetch view. -/
theorem Retired.cachesKept {u t : State} {a : Word} (r : Retired u t a) (l : List Nat) : CachesKept u t l :=
  ⟨fun b _ => r.cacheAt b, fun w _ _ => r.versionsAt w⟩

/-- Retiring leaves what a store did to the copies and to the fetch view. -/
theorem StoreSeen.retired {s u t : State} {addr : Nat → Nat} {n : Nat} {byte : Nat → Byte} {a : Word}
    (h : StoreSeen s u addr n byte) (r : Retired u t a) : StoreSeen s t addr n byte := by
  refine ⟨fun i hi => ?_, fun i c hi => ?_, fun b c => ?_⟩
  · rw [r.cacheAt]; exact h.valid i hi
  · rw [r.cacheAt]; exact h.may i c hi
  · rw [r.fetchSet]; exact h.fetch b c

/-- A store of at most 8 bytes that is performed, and retiring. -/
theorem State.storeValue_retire (s : State) (ea : Word) {n : Nat} (hn : n ≤ 8) (v : Word) (len : Nat) :
    ∃ t, (s.storeValue ea n v).retire len = .next t ∧ Stored s t ea n v len := by
  have hm := s.storeValue_memOnly ea n v
  have hk := hm.specialKept
  obtain ⟨t, ht, r, done⟩ := hm.sameFlow.retire len
  refine ⟨t, ht, fun i hi => ?_, done, fun q _ => ?_, fun a ha => ?_, ?_, ?_, fun h => ?_⟩
  · rw [r.byteAt]; exact s.storeValue_bytes ea v (hn.trans (Xlen.eight_le _)) i hi
  · rw [r.x]; exact State.x_congr hm.cfg hm.regs q
  · rw [r.byteAt]; exact s.storeValue_memKept ea n v a ha
  · exact ⟨r.sspv.trans hk.ssp, r.elp.trans hk.elp, r.cycle.trans hk.cycle, r.time.trans hk.time⟩
  · exact (s.storeValue_cachesKept ea n v).trans (r.cachesKept _)
  · exact (h.storeValue_seen ea hn v).retired r

/-- A permitted store of at most 8 bytes that retires. -/
theorem State.store_stored {i : Instr} {s : State} {kind : AccessKind} {ea v : Word} {n len : Nat}
    (h : exec i s = s.store kind ea n v fun t => t.retire len) (hn : n ≤ 8) (ha : s.alignmentOk ea n)
    (hp : s.permitsAccess [kind] ea n) : ∃ t, exec i s = .next t ∧ Stored s t ea n v len := by
  rw [h, State.store_ok _ _ ha hp]
  exact s.storeValue_retire ea hn v len

/-- Settles O35, store by store. -/
theorem storesComplete : Obligations.StoresComplete := by
  intro s rs2 rs1 i12 rs2' rs1' o5 o6
  simp only [List.forall_mem_cons, List.not_mem_nil, false_implies, implies_true, and_true]
  exact ⟨State.store_stored exec_sh (by decide), State.store_stored exec_sw (by decide),
    State.store_stored exec_sdRv64 (by decide), State.store_stored exec_cSdRv64 (by decide),
    State.store_stored exec_cSdspRv64 (by decide)⟩

/-! ### Accesses that trap -/

/-- Settles O36, by what an ordinary load and an ordinary store do where they trap. -/
theorem loadsAndStoresTrap : Obligations.LoadsAndStoresTrap := by
  intro s rd rs1 i12 rd' rs1' o5 o6
  simp only [List.forall_mem_cons, List.not_mem_nil, false_implies, implies_true, and_true]
  exact ⟨⟨State.load_traps exec_lw, State.load_traps exec_ldRv64, State.load_traps exec_cLdRv64,
      State.load_traps exec_cLdspRv64⟩,
    State.store_traps exec_sh, State.store_traps exec_sw, State.store_traps exec_sdRv64,
    State.store_traps exec_cSdRv64, State.store_traps exec_cSdspRv64⟩

/-- The enable of the shadow stack as the instructions compute it (46_cfi.md R320). -/
theorem State.sseActive.xSSE {s : State} (h : s.sseActive) : s.xSSE = true := by
  obtain ⟨henv, hext, hS, hm, hi, hv⟩ := h
  simp [State.xSSE, henv, hext, hS, hm, State.sseGate_open hi hv fun _ => hS]

/-- A push stores to the address below ssp (46_cfi.md R322). -/
theorem State.pushAddr_eq (s : State) : s.pushAddr = s.belowSsp := by
  have hb : (BitVec.ofNat 64 s.xlen.bytes).toNat = s.xlen.bytes := by cases s.xlen <;> rfl
  rw [State.pushAddr, wrap_sub, hb]
  rfl

/-- A push of an active shadow stack is a store below ssp. -/
theorem State.ssPush_of_active {s : State} (h : s.sseActive) (len : Nat) (src : Reg) :
    s.ssPush len src = s.store .ssStore s.belowSsp s.xlen.bytes (s.x src) fun t =>
      (t.setSsp s.belowSsp).retire len := by
  rw [State.ssPush, if_pos h.xSSE, s.pushAddr_eq]

/-- A pop of an active shadow stack is a load at ssp. -/
theorem State.ssPopchk_of_active {s : State} (h : s.sseActive) (len : Nat) (src : Reg) :
    s.ssPopchk len src = s.load .ssLoad s.sspv s.xlen.bytes fun v =>
      if v = s.x src then (s.setSsp (s.sspv + BitVec.ofNat 64 s.xlen.bytes)).retire len
      else s.raise .softwareCheck shadowStackFault := if_pos h.xSSE

/-- Settles O49: an active push is a store, an active pop a load. -/
theorem shadowStackAccessTraps : Obligations.ShadowStackAccessTraps := by
  intro s h
  have push := s.ssPush_of_active h
  have pop := s.ssPopchk_of_active h
  simp only [List.forall_mem_cons, List.not_mem_nil, false_implies, implies_true, and_true]
  exact ⟨⟨State.store_traps (push 4 1), State.store_traps (push 4 5), State.store_traps (push 2 1)⟩,
    State.load_traps (pop 4 1), State.load_traps (pop 4 5), State.load_traps (pop 2 5)⟩

/-- How SSAMOSWAP of `n` bytes traps where its gate is open: misaligned, or refused (20_memory.md R79, R80). -/
theorem State.swapOpen.ssAmoSwap_traps {s : State} (h : s.swapOpen) {i j : Instr} {n : Nat} {rd rs1 rs2 : Reg}
    {extend : Word → Word} (he : exec i s = s.ssAmoSwap j n rd rs1 rs2 extend) :
    ((s.x rs1).toNat % n ≠ 0 → ∃ t, exec i s = .next t ∧ TookTrap s t
      (if s.cfg.misalignedAmoIsAccessFault then .storeAccessFault else .storeAddrMisaligned) (s.x rs1)) ∧
    (∀ w, (s.x rs1).toNat % n = 0 → s.refuses [.ssLoad, .ssStore] (s.addrs (s.x rs1) n) w →
      ∃ t, exec i s = .next t ∧ TookTrap s t (storeFault w) (s.x rs1)) := by
  obtain ⟨hS, hi, hv⟩ := h
  rw [he, State.ssAmoSwap, State.sseGate_open hi hv fun _ => hS]
  refine ⟨fun ha => ?_, fun w ha hr => ?_⟩
  · have hf : aligned (s.x rs1) n = false := Bool.eq_false_iff.mpr (mt aligned_iff.mp ha)
    simp only [hf, if_true]
    exact s.raise_tookTrap _ _
  · simp only [aligned_iff.mpr ha, Bool.true_eq_false, if_false, State.denial_eq_some.mpr hr, storeCause_eq]
    exact s.raise_tookTrap _ _

theorem exec_ssamoswapW {s : State} {rd rs1 rs2 : Reg} {aq rl : Bool} :
    exec (.ssamoswapW rd rs1 rs2 aq rl) s = s.ssAmoSwap (.ssamoswapW rd rs1 rs2 aq rl) 4 rd rs1 rs2 fun t =>
      sext32 s.xlen (t.setWidth 32) := rfl

theorem exec_ssamoswapD {s : State} {rd rs1 rs2 : Reg} {aq rl : Bool} :
    exec (.ssamoswapD rd rs1 rs2 aq rl) s = s.ssAmoSwap (.ssamoswapD rd rs1 rs2 aq rl) 8 rd rs1 rs2 fun t => t := rfl

/-- Settles O53, for both widths. -/
theorem shadowStackSwapTraps : Obligations.ShadowStackSwapTraps := by
  intro s rd rs1 rs2 aq rl h
  simp only [List.forall_mem_cons, List.not_mem_nil, false_implies, implies_true, and_true]
  exact ⟨h.ssAmoSwap_traps exec_ssamoswapW, h.ssAmoSwap_traps exec_ssamoswapD⟩

/-! ### Reserved and misaligned pairs -/

theorem evenReg_iff {r : Reg} : evenReg r = true ↔ r.toNat % 2 = 0 := beq_iff_eq

/-- A compressed register field is even as the register it names is (30_encoding.md R122). -/
theorem cReg_mod (f : BitVec 3) : (cReg f).toNat % 2 = f.toNat % 2 := by
  revert f
  decide

theorem evenCReg_iff {r : BitVec 3} : evenCReg r = true ↔ (cReg r).toNat % 2 = 0 := by
  rw [cReg_mod]
  exact beq_iff_eq

theorem State.pairMisaligned_iff {s : State} {ea : Word} : s.pairMisaligned ea = true ↔ ¬ s.alignmentOk ea 8 := by
  rw [State.alignmentOk, ← aligned_iff, ← misalignedSupported_iff, State.pairMisaligned, not_or]
  simp

/-- A misaligned pair load traps where misaligned accesses are not supported (20_memory.md R78). -/
theorem State.loadPair_misaligned {s : State} {ea : Word} (h : ¬ s.alignmentOk ea 8) (len : Nat) (rd base : Reg) :
    ∃ t, s.loadPair len rd base ea = .next t ∧ TookTrap s t .loadAddrMisaligned ea := by
  rw [State.loadPair, if_pos (State.pairMisaligned_iff.mpr h)]
  exact s.raise_tookTrap _ _

/-- A misaligned pair store traps where misaligned accesses are not supported (20_memory.md R78). -/
theorem State.storePair_misaligned {s : State} {ea : Word} (h : ¬ s.alignmentOk ea 8) (len : Nat) (v : Word) :
    ∃ t, s.storePair len ea v = .next t ∧ TookTrap s t .storeAddrMisaligned ea := by
  rw [State.storePair, if_pos (State.pairMisaligned_iff.mpr h)]
  exact s.raise_tookTrap _ _

section

variable {s : State} {r rs1 : Reg} {imm : BitVec 12} {r' rs1' : BitVec 3} {off5 : BitVec 5} {off6 : BitVec 6}

theorem exec_ldPair : exec (.ldPair r rs1 imm) s =
    if evenReg r then s.loadPair 4 r rs1 (s.effAddr rs1 (immI s.xlen imm))
    else s.raiseIllegal .illegalInstruction (.ldPair r rs1 imm) := rfl

theorem exec_sdPair : exec (.sdPair r rs1 imm) s =
    if evenReg r then s.storePair 4 (s.effAddr rs1 (immI s.xlen imm)) (s.pairValue r)
    else s.raiseIllegal .illegalInstruction (.sdPair r rs1 imm) := rfl

theorem exec_cLdspPair : exec (.cLdspPair r off6) s =
    if evenReg r && r != 0 then s.loadPair 2 r 2 (s.effAddr 2 (offSp off6))
    else s.raiseIllegal .illegalInstruction (.cLdspPair r off6) := rfl

theorem exec_cSdspPair : exec (.cSdspPair r off6) s =
    if evenReg r then s.storePair 2 (s.effAddr 2 (offSp off6)) (s.pairValue r)
    else s.raiseIllegal .illegalInstruction (.cSdspPair r off6) := rfl

theorem exec_cLdPair : exec (.cLdPair r' rs1' off5) s =
    if evenCReg r' then s.loadPair 2 (cReg r') (cReg rs1') (s.effAddr (cReg rs1') (offMem off5))
    else s.raiseIllegal .illegalInstruction (.cLdPair r' rs1' off5) := rfl

theorem exec_cSdPair : exec (.cSdPair r' rs1' off5) s =
    if evenCReg r' then s.storePair 2 (s.effAddr (cReg rs1') (offMem off5)) (s.pairValue (cReg r'))
    else s.raiseIllegal .illegalInstruction (.cSdPair r' rs1' off5) := rfl

end

section

variable {i : Instr} {s : State} {b : Bool} {o : Out}

/-- An instruction is illegal where the test of its operands fails. -/
theorem tookIllegal_of_test (h : exec i s = if b then o else s.raiseIllegal .illegalInstruction i) (hb : b = false) :
    TookIllegal s (exec i s) .illegalInstruction i := by
  rw [h, hb]
  exact s.raiseIllegal_took _ i

/-- An instruction has its effect where the test of its operands passes. -/
theorem exec_of_test (h : exec i s = if b then o else s.raiseIllegal .illegalInstruction i) (hb : b = true) :
    exec i s = o := h.trans (if_pos hb)

end

/-- The test of the operand of C.LDSP passes on an even register that is not x0. -/
theorem evenReg_and_ne {r : Reg} (h : r.toNat % 2 = 0) (h0 : r ≠ 0) : (evenReg r && r != 0) = true := by
  rw [evenReg_iff.mpr h, bne_iff_ne.mpr h0]
  rfl

/-- Settles O40: the test of the operands comes first, then the alignment. -/
theorem oddOrMisalignedPairTraps : Obligations.OddOrMisalignedPairTraps := by
  intro s rd rs1 i12 rd' rs1' o5 o6
  refine ⟨fun hodd => ?_, fun hodd => ?_, tookIllegal_of_test exec_cLdspPair rfl, ?_⟩
  · have he : evenReg rd = false := Bool.eq_false_iff.mpr fun h => by rw [evenReg_iff] at h; omega
    have he0 : (evenReg rd && rd != 0) = false := by rw [he]; rfl
    simp only [List.forall_mem_cons, List.not_mem_nil, false_implies, implies_true, and_true]
    exact ⟨tookIllegal_of_test exec_ldPair he, tookIllegal_of_test exec_sdPair he,
      tookIllegal_of_test exec_cLdspPair he0, tookIllegal_of_test exec_cSdspPair he⟩
  · have he : evenCReg rd' = false := Bool.eq_false_iff.mpr fun h => by rw [evenCReg_iff, cReg_mod] at h; omega
    simp only [List.forall_mem_cons, List.not_mem_nil, false_implies, implies_true, and_true]
    exact ⟨tookIllegal_of_test exec_cLdPair he, tookIllegal_of_test exec_cSdPair he⟩
  · simp only [List.forall_mem_append, List.forall_mem_cons, List.not_mem_nil, false_implies, implies_true, and_true]
    refine ⟨⟨fun h hm => ?_, fun h hm => ?_, fun h hm => ?_, fun h hm => ?_, fun h hm => ?_⟩, fun p hp h hm => ?_⟩
    · rw [exec_of_test exec_ldPair (evenReg_iff.mpr h)]; exact State.loadPair_misaligned hm _ _ _
    · rw [exec_of_test exec_cLdPair (evenCReg_iff.mpr h)]; exact State.loadPair_misaligned hm _ _ _
    · rw [exec_of_test exec_sdPair (evenReg_iff.mpr h)]; exact State.storePair_misaligned hm _ _
    · rw [exec_of_test exec_cSdPair (evenCReg_iff.mpr h)]; exact State.storePair_misaligned hm _ _
    · rw [exec_of_test exec_cSdspPair (evenReg_iff.mpr h)]; exact State.storePair_misaligned hm _ _
    · split at hp
      · cases hp
      · rename_i h0
        rw [List.mem_singleton.mp hp] at h hm ⊢
        rw [exec_of_test exec_cLdspPair (evenReg_and_ne h h0)]
        exact State.loadPair_misaligned hm _ _ _

end Sys2Proof.Machine
end

section
/-! The instruction fetch: what it answers, and where it is refused. -/

namespace Sys2Proof.Machine

/-! ### The bytes fetched -/

/-- The bytes of a fetch that is not refused: one parcel or two. -/
theorem State.fetch_ok {s : State} {bytes : List Byte} (h : s.fetch = .ok bytes) :
    ∃ n, bytes = (s.addrs s.pcv n).map s.fetchByte := by
  rcases s.fetch_cases with ⟨w, _, e⟩ | ⟨_, e⟩
  · rw [e] at h; cases h
  split at e
  · rcases e with ⟨w, _, e⟩ | ⟨_, ⟨w, _, e⟩ | ⟨_, e⟩⟩
    · rw [e] at h; cases h
    · rw [e] at h; cases h
    · rw [e] at h; cases h; exact ⟨4, rfl⟩
  · rw [e] at h; cases h; exact ⟨2, rfl⟩

/-- The byte fetched at a position. -/
theorem State.getElem?_fetchBytes (s : State) (ea : Word) {n i : Nat} (hi : i < n) :
    ((s.addrs ea n).map s.fetchByte)[i]? = some (contentByte (s.byteAddr ea i) (s.fetchContent (s.byteAddr ea i))) := by
  simp [State.addrs, hi, State.fetchByte]

/-- With nothing listed in the fetch view a fetch of a byte whose copy is valid sees memory. -/
theorem State.fetchByte_of_coherent {s : State} {a : Nat} (hf : s.fetchView = [])
    (hv : (s.cacheAt a).valid = true) : s.fetchByte a = s.byteAt a := by
  have hk : a % 4 < 4 := Nat.mod_lt _ (by decide)
  have hvs : s.versionsAt (unitOf a) = [s.currentUnit (unitOf a)] := by rw [State.versionsAt, hf]; rfl
  have hcur : (s.currentUnit (unitOf a)).getD (a % 4) none = s.content a := by
    rw [s.getD_currentUnit _ hk, unitOf_add_mod]
  have hset : s.fetchSet a = [s.content a] := by
    rw [State.fetchSet, hvs, List.map_singleton, hcur]
    rfl
  suffices h : s.fetchContent a = s.content a by rw [State.fetchByte, h]; rfl
  by_cases hz : s.cfg.ext.ziccif = true
  · rw [State.fetchContent, if_pos hz]
    have hp := pick_mem (s.draw (.fetchUnit (s.unitIndex a)))
      (l := (s.versionsAt (unitOf a)).map some ++ if s.unitStale (unitOf a) then [none] else []) none (by simp [hvs])
    change s.fetchedVersion a ∈ _ at hp
    split
    · rename_i v hd
      have : v = s.currentUnit (unitOf a) := by simpa [hd, hvs] using hp
      rw [this, hcur]
    · rw [State.mayContent, if_pos hv]
  · rw [State.fetchContent, if_neg hz, hset, if_pos hv]
    rfl

/-- The current content of a byte whose copy is valid is one a fetch may see. -/
theorem Inv.content_mem_fetchSet {s : State} (h : Inv s) {a : Nat} (hv : (s.cacheAt a).valid = true) :
    s.content a ∈ s.fetchSet a := by
  obtain ⟨v, rest, e, hk⟩ := h.head_versions (unitOf a)
  have := hk (a % 4) (Nat.mod_lt _ (by decide))
  rw [unitOf_add_mod] at this
  exact State.mem_fetchSet.mpr ⟨v, e ▸ List.mem_cons_self .., this hv⟩

/-- What a fetch sees of a byte is one of the contents it may see (20_memory.md R102, 48_cmo.md R380). -/
theorem Inv.mayFetch_fetchContent {s : State} (h : Inv s) (a : Nat) : s.mayFetch a (s.fetchContent a) := by
  unfold State.fetchContent
  split
  · rcases h.fetchedVersion_cases a with ⟨v, hv, e⟩ | ⟨_, e⟩
    · rw [e]; exact .inl (State.mem_fetchSet.mpr ⟨v, hv, rfl⟩)
    · rw [e]
      have hm := h.mayContent_cases a
      split at hm
      · rename_i hv; exact .inl (hm ▸ h.content_mem_fetchSet hv)
      · rename_i hv; exact .inr ⟨Bool.eq_false_iff.mpr hv, hm⟩
  · obtain ⟨v, rest, e, _⟩ := h.head_versions (unitOf a)
    have hne : v.getD (a % 4) none ∈ s.fetchSet a := State.mem_fetchSet.mpr ⟨v, e ▸ List.mem_cons_self .., rfl⟩
    rcases mem_addNew.mp (pick_mem (s.draw (.fetchByte a))
        (l := addNew (s.fetchSet a) (if (s.cacheAt a).valid then [] else (s.cacheAt a).may)) (s.content a)
        (List.ne_nil_of_mem (mem_addNew.mpr (.inl hne)))) with hp | hp
    · exact .inl hp
    · split at hp
      · cases hp
      · rename_i hv; rw [if_neg hv]; exact .inr ⟨Bool.eq_false_iff.mpr hv, hp⟩

/-- The unit as the memory behind the caches holds it, byte by byte (48_cmo.md R380; log 49). -/
def State.behindCaches (s : State) (u : Nat) : FetchVersion := (List.range 4).map fun k => s.mayContent (u + k)

theorem State.getD_behindCaches (s : State) (u : Nat) {k : Nat} (hk : k < 4) :
    (s.behindCaches u).getD k none = s.mayContent (u + k) := by
  simp [State.behindCaches, List.getD_eq_getElem?_getD, hk]

/-- The memory behind the caches is a state of a stale unit that a fetch may see whole. -/
theorem Inv.mayFetchUnit_behindCaches {s : State} (h : Inv s) {u : Nat} (hs : s.unitStale u = true) :
    s.mayFetchUnit u (s.behindCaches u) := by
  refine .inr ⟨by simpa [State.unitStale] using hs, by simp [State.behindCaches], fun k hk => ?_⟩
  rw [s.getD_behindCaches u hk]
  exact h.mayContent_cases (u + k)

/-- Under Ziccif all bytes of a unit are fetched from one state of it (20_memory.md R86). -/
theorem Inv.fetchUnit {s : State} (h : Inv s) (hz : s.cfg.ext.ziccif = true) (u : Nat) :
    ∃ v, s.mayFetchUnit u v ∧ ∀ a, unitOf a = u → s.fetchContent a = v.getD (a % 4) none := by
  by_cases hu : u % 4 = 0
  · have huu : unitOf u = u := unitOf_add hu (k := 0) (by decide)
    have drawn : ∀ a, unitOf a = u → s.fetchedVersion a = s.fetchedVersion u :=
      fun a ha => s.fetchedVersion_unit (ha.trans huu.symm)
    rcases h.fetchedVersion_cases u with ⟨v, hv, e⟩ | ⟨hs, e⟩
    · refine ⟨v, .inl (huu ▸ hv), fun a ha => ?_⟩
      rw [State.fetchContent, if_pos hz, drawn a ha, e]
    · refine ⟨s.behindCaches u, h.mayFetchUnit_behindCaches (huu ▸ hs), fun a ha => ?_⟩
      rw [State.fetchContent, if_pos hz, drawn a ha, e, s.getD_behindCaches u (Nat.mod_lt _ (by decide)), ← ha,
        unitOf_add_mod]
  · obtain ⟨v, rest, e, _⟩ := h.head_versions u
    exact ⟨v, .inl (e ▸ List.mem_cons_self ..), fun a ha => absurd (ha ▸ unitOf_mod a) hu⟩

/-- With the fetch permitted the bytes are those of one parcel, or of two where the first byte says so. -/
theorem State.fetch_permitted {s : State} (h2 : s.permits [.fetch] (s.addrs s.pcv 2))
    (h4 : (s.fetchByte (s.byteAddr s.pcv 0)).toNat % 4 = 3 →
      s.permits [.fetch] (s.addrs (s.after 2) 2) ∧ s.permits [.fetch] (s.addrs s.pcv 4)) :
    s.fetch = .ok ((s.addrs s.pcv (if (s.fetchByte (s.byteAddr s.pcv 0)).toNat % 4 = 3 then 4 else 2)).map
      s.fetchByte) := by
  simp only [← State.denial_eq_none, ← s.pcPlus_eq_after] at h2 h4
  rcases s.fetch_cases with ⟨w, hw, _⟩ | ⟨_, e⟩
  · rw [h2] at hw; cases hw
  split at e
  · rename_i hb
    rw [if_pos hb]
    rcases e with ⟨w, hw, _⟩ | ⟨_, ⟨w, hw, _⟩ | ⟨_, e⟩⟩
    · rw [(h4 hb).1] at hw; cases hw
    · rw [(h4 hb).2] at hw; cases hw
    · exact e
  · rename_i hb
    rw [if_neg hb]
    exact e

/-- Settles O7: a coherent fetch view holds memory; else each byte is drawn from what a fetch may see. -/
theorem coherentFetchSeesMemory : Obligations.CoherentFetchSeesMemory := by
  refine ⟨fun s hf hv h2 h4 => ?_, fun s bytes h hb => ?_⟩
  · have byte : ∀ i, i < 4 → s.fetchByte (s.byteAddr s.pcv i) = s.byteAt (s.byteAddr s.pcv i) :=
      fun i hi => State.fetchByte_of_coherent hf (hv i hi)
    rw [← byte 0 (by decide)] at h4 ⊢
    rw [State.fetch_permitted h2 h4]
    refine congrArg Except.ok (List.map_congr_left fun a ha => ?_)
    obtain ⟨i, hi, rfl⟩ := State.mem_addrs.mp ha
    exact byte i (hi.trans_le (by split <;> decide))
  · obtain ⟨n, rfl⟩ := State.fetch_ok hb
    rw [List.length_map, State.length_addrs]
    refine ⟨fun i hi => ⟨_, h.mayFetch_fetchContent _, s.getElem?_fetchBytes s.pcv hi⟩, fun hz u => ?_⟩
    obtain ⟨v, hv, hall⟩ := h.fetchUnit hz u
    exact ⟨v, hv, fun i hi hu => by rw [s.getElem?_fetchBytes s.pcv hi, hall _ hu]⟩

/-! ### A refused fetch -/

/-- A refused fetch takes its exception (60_exceptions.md R451). -/
theorem step_of_refused {s : State} {e : Cause × Word} (ht : s.trap = none) (hf : s.fetch = .error e) :
    ∃ t, step s = .next t ∧ TookTrap s t e.1 e.2 := by
  rw [step, ht]
  simp only [hf]
  exact s.raise_tookTrap e.1 e.2

/-- Settles O8, parcel by parcel in the order in which a fetch asks for permission. -/
theorem refusedFetchTraps : Obligations.RefusedFetchTraps := by
  intro s w ht
  simp only [← State.denial_eq_none, ← State.denial_eq_some, ← s.pcPlus_eq_after, ← fetchCause_eq]
  have traps : ∀ a, s.fetch = .error (fetchCause w, a) → ∃ t, step s = .next t ∧ TookTrap s t (fetchCause w) a :=
    fun _ hf => step_of_refused ht hf
  rcases s.fetch_cases with ⟨v, hv, e⟩ | ⟨hn, e⟩
  · refine ⟨fun h1 => ?_, fun h1 => ?_⟩
    · cases hv.symm.trans h1; exact traps _ e
    · cases hv.symm.trans h1
  · refine ⟨fun h1 => (by cases hn.symm.trans h1), fun _ hb => ?_⟩
    rw [if_pos hb] at e
    rcases e with ⟨v, hv, e⟩ | ⟨hn, e⟩
    · refine ⟨fun h2 => ?_, fun h2 => ?_⟩
      · cases hv.symm.trans h2; exact traps _ e
      · cases hv.symm.trans h2
    · refine ⟨fun h2 => (by cases hn.symm.trans h2), fun _ h3 => ?_⟩
      rcases e with ⟨v, hv, e⟩ | ⟨hn, _⟩
      · cases hv.symm.trans h3; exact traps _ e
      · cases hn.symm.trans h3

end Sys2Proof.Machine
end

section
/-! Cache blocks: CBO.ZERO, and what the flush and the clean leave of the copies. -/

namespace Sys2Proof.Machine

/-! ### The bytes of a block -/

/-- The size of a block divides the size of the address space. -/
theorem cbozBlock_dvd (c : Cfg) : cbozBlock c ∣ 2 ^ c.xlen.bits := by
  unfold cbozBlock
  split
  · cases c.xlen <;> decide
  · exact Nat.pow_dvd_pow 2 (Nat.min_le_right _ _)

/-- Byte `i` of the block that holds `a`: the block begins at a multiple of its size and does not wrap. -/
theorem State.byteAddr_blockBase {s : State} {size i : Nat} {a : Word} (hd : size ∣ 2 ^ s.xlen.bits)
    (ha : a.toNat < 2 ^ s.xlen.bits) (hi : i < size) :
    s.byteAddr (blockBase size a) i = size * (a.toNat / size) + i := by
  obtain ⟨m, hm⟩ := hd
  have hdiv := Nat.div_add_mod a.toNat size
  have hlast : size * (a.toNat / size) + size ≤ 2 ^ s.xlen.bits := by
    rw [hm, ← Nat.mul_succ]
    exact Nat.mul_le_mul_left _ (Nat.div_lt_of_lt_mul (hm ▸ ha))
  have hx := Xlen.two_pow_le s.xlen
  rw [State.byteAddr, wrap_toNat, blockBase, BitVec.toNat_add, BitVec.toNat_sub, BitVec.toNat_ofNat,
    BitVec.toNat_ofNat]
  generalize size * (a.toNat / size) = base at *
  generalize a.toNat % size = off at *
  have hb : (2 ^ 64 - off % 2 ^ 64 + a.toNat) % 2 ^ 64 = base := by omega
  rw [hb, Nat.mod_eq_of_lt (a := i) (by omega), Nat.mod_eq_of_lt (by omega), Nat.mod_eq_of_lt (by omega)]

/-- The bytes of a block are those with its number (48_cmo.md R377). -/
theorem State.mem_blockAddrs {s : State} {size : Nat} (hd : size ∣ 2 ^ s.xlen.bits) (rs1 : Reg) (a : Nat) :
    a ∈ s.blockAddrs size (s.x rs1) ↔ s.inBlock size rs1 a := by
  have hsize : 0 < size := Nat.pos_of_dvd_of_pos hd (Nat.two_pow_pos _)
  rw [State.blockAddrs, State.mem_addrs, State.inBlock]
  constructor
  · rintro ⟨i, hi, rfl⟩
    rw [State.byteAddr_blockBase hd (s.x_lt rs1) hi, Nat.mul_add_div hsize, Nat.div_eq_of_lt hi, Nat.add_zero]
  · intro h
    have hi := Nat.mod_lt a hsize
    exact ⟨a % size, hi, by rw [State.byteAddr_blockBase hd (s.x_lt rs1) hi, ← h, Nat.div_add_mod]⟩

/-! ### CBO.ZERO -/

/-- The gate of CBO.ZERO is open where neither test of the envcfg field applies (48_cmo.md R375). -/
theorem State.zeroGate_open {s : State} (hi : ¬ s.bitIllegal EnvCfg.cbze) (hv : ¬ s.bitVirtual EnvCfg.cbze) :
    s.zeroGate = none := by
  have hi' : ¬ ((s.env.priv ≠ .m ∧ s.env.menvcfg.cbze = false) ∨
      (s.env.priv = .u ∧ s.senvOff (!s.env.senvcfg.cbze) = true)) := by
    simpa [State.bitIllegal, State.senvOff] using hi
  have hv' : ¬ ((s.env.priv = .vs ∧ s.env.henvcfg.cbze = false) ∨
      (s.env.priv = .vu ∧ (s.env.henvcfg.cbze && s.env.senvcfg.cbze) = false)) := by
    simpa [State.bitVirtual] using hv
  rw [State.zeroGate, if_neg hi', if_neg hv']

/-- CBO.ZERO, enabled and permitted, stores zeros to the block and retires. -/
theorem exec_cboZero_permitted {s : State} {rs1 : Reg} (hi : ¬ s.bitIllegal EnvCfg.cbze)
    (hv : ¬ s.bitVirtual EnvCfg.cbze) (hu : s.blockUniform (s.blockAddrs (cbozBlock s.cfg) (s.x rs1)) = true)
    (hp : s.permits [.store, .cboZero] (s.blockAddrs (cbozBlock s.cfg) (s.x rs1))) :
    exec (.cboZero rs1) s = (s.writeBytes (s.blockAddrs (cbozBlock s.cfg) (s.x rs1))
      (List.replicate (cbozBlock s.cfg) 0) false).retire 4 := by
  change execCboZero rs1 s = _
  rw [execCboZero, State.zeroGate_open hi hv]
  simp only [hu, if_true, State.denial_eq_none.mpr hp]

/-- The cells of a store of one byte to every address of an access. -/
theorem mem_zip_replicate {s : State} {ea : Word} {n : Nat} {b : Byte} {c : Host.Cell} :
    c ∈ (s.addrs ea n).zip (List.replicate n b) ↔ ∃ i, i < n ∧ c = (s.byteAddr ea i, b) := by
  have hz : (s.addrs ea n).zip (List.replicate n b) = (List.range n).map fun i => (s.byteAddr ea i, b) := by
    rw [State.addrs, ← List.zip_map', List.map_const', List.length_range]
  rw [hz]
  simp only [List.mem_map, List.mem_range]
  exact ⟨fun ⟨i, h, e⟩ => ⟨i, h, e.symm⟩, fun ⟨i, h, e⟩ => ⟨i, h, e.symm⟩⟩

section

variable (s : State) (ea : Word) {n : Nat} (b : Byte) (atomic : Bool)

theorem State.nodup_zip_addrs (hn : n ≤ 2 ^ s.xlen.bits) (bytes : List Byte) :
    (((s.addrs ea n).zip bytes).map Prod.fst).Nodup :=
  (s.nodup_addrs ea hn).sublist (map_fst_zip_sublist _ bytes)

/-- Every byte of a store of one byte to the addresses of an access reads as that byte. -/
theorem State.writeBytes_replicate_byteAt (hn : n ≤ 2 ^ s.xlen.bits) {a : Nat} (ha : a ∈ s.addrs ea n) :
    (s.writeBytes (s.addrs ea n) (List.replicate n b) atomic).byteAt a = b := by
  obtain ⟨i, hi, rfl⟩ := State.mem_addrs.mp ha
  have hc := s.writePart_content _ atomic (s.nodup_zip_addrs ea hn _) (s.byteAddr ea i, b)
    (mem_zip_replicate.mpr ⟨i, hi, rfl⟩)
  rw [State.byteAt, State.writeBytes, hc]
  rfl

/-- What a store of one byte to the addresses of an access adds to their copies and to the fetch view. -/
theorem Inv.writeBytes_replicate_seen {s : State} (h : Inv s) (hn : n ≤ 2 ^ s.xlen.bits) :
    StoreSeen s (s.writeBytes (s.addrs ea n) (List.replicate n b) atomic) (s.byteAddr ea) n fun _ => b :=
  h.writePart_seen atomic (s.nodup_zip_addrs ea hn _) fun _ => mem_zip_replicate

end

/-- Settles O57: zeros to the bytes of the block, and every other byte as before. -/
theorem cboZeroCompletes : Obligations.CboZeroCompletes := by
  intro s rs1 _ hi hv hu hp
  have block := State.mem_blockAddrs (s := s) (cbozBlock_dvd s.cfg) rs1
  have hn : cbozBlock s.cfg ≤ 2 ^ s.xlen.bits := cbozBlock_le s.cfg
  have hm := s.writeBytes_memOnly (s.blockAddrs (cbozBlock s.cfg) (s.x rs1)) (List.replicate (cbozBlock s.cfg) 0) false
  have hk := hm.specialKept
  obtain ⟨t, ht, r, done⟩ := hm.sameFlow.retire 4
  have caches := (s.writeBytes_cachesKept (s.blockAddrs (cbozBlock s.cfg) (s.x rs1)) _ _).trans (r.cachesKept _)
  refine ⟨t, (exec_cboZero_permitted hi hv hu hp).trans ht, done, fun q _ => ?regs, ?special, fun a ha => ?zeroed,
    fun a ha => ⟨?outside, caches.cache a (mt (block a).mp ha)⟩, caches, fun h => ?seen⟩
  case regs => exact (r.x q).trans (State.x_congr hm.cfg hm.regs q)
  case special => exact ⟨r.sspv.trans hk.ssp, r.elp.trans hk.elp, r.cycle.trans hk.cycle, r.time.trans hk.time⟩
  case zeroed => exact (r.byteAt a).trans (s.writeBytes_replicate_byteAt _ _ _ hn ((block a).mpr ha))
  case outside =>
    rw [r.byteAt, State.byteAt, s.writeBytes_content_outside _ _ _ a (mt (block a).mp ha)]
    rfl
  case seen => exact (h.writeBytes_replicate_seen _ _ _ hn).retired r

/-! ### What a flush and a clean leave of the copies -/

/-- `t` has the memory and the fetch view of `s`, no copy is valid that was not, and behind a copy that is not valid
memory may hold only the current content, or what it might hold before behind a copy that was not valid either. -/
structure CopiesNarrowed (s t : State) : Prop where
  cfg : t.cfg = s.cfg
  content : ∀ a, t.content a = s.content a
  versions : ∀ u, t.versionsAt u = s.versionsAt u
  valid : ∀ a, (t.cacheAt a).valid = true → (s.cacheAt a).valid = true
  may : ∀ a, (t.cacheAt a).valid = false → ∀ c ∈ (t.cacheAt a).may,
    c = s.content a ∨ ((s.cacheAt a).valid = false ∧ c ∈ (s.cacheAt a).may)

namespace CopiesNarrowed

variable {s t u : State}

theorem refl (s : State) : CopiesNarrowed s s :=
  ⟨rfl, fun _ => rfl, fun _ => rfl, fun _ h => h, fun _ hv _ hc => .inr ⟨hv, hc⟩⟩

theorem trans (h : CopiesNarrowed s t) (k : CopiesNarrowed t u) : CopiesNarrowed s u := by
  refine ⟨k.cfg.trans h.cfg, fun a => (k.content a).trans (h.content a), fun w => (k.versions w).trans (h.versions w),
    fun a hv => h.valid a (k.valid a hv), fun a hv c hc => ?_⟩
  rcases k.may a hv c hc with e | ⟨hv', hc'⟩
  · exact .inl (e.trans (h.content a))
  · exact h.may a hv' c hc'

/-- Only memory, the copies and the fetch view are looked at. -/
theorem of_eq (h : CopiesNarrowed s t) (hc : u.cfg = t.cfg) (hm : u.mem = t.mem) (hk : u.cache = t.cache)
    (hf : u.fetchView = t.fetchView) : CopiesNarrowed s u := by
  have cache : ∀ a, u.cacheAt a = t.cacheAt a := State.cacheAt_congr hm hk
  refine ⟨hc.trans h.cfg, fun a => ?_, fun w => (State.versionsAt_congr hm hf w).trans (h.versions w), fun a => ?_,
    fun a => ?_⟩
  · rw [← h.content a, State.content, hm]; rfl
  · rw [cache]; exact h.valid a
  · rw [cache]; exact h.may a

theorem retired {a : Word} (h : CopiesNarrowed s t) (r : Retired t u a) : CopiesNarrowed s u :=
  h.of_eq r.cfg r.mem r.cache r.fetchView

theorem raised {c : Cause} {v : Word} (h : CopiesNarrowed s t) (r : Raised t u c v) : CopiesNarrowed s u :=
  h.of_eq r.cfg r.mem r.cache r.fetchView

/-- A load may return only what it might before, where no agent is non-coherent. -/
theorem mayLoad (h : CopiesNarrowed s t) (hn : s.cfg.hasNonCoherentAgents = false) {a : Nat} {b : Byte}
    (hb : t.mayLoad a b) : s.mayLoad a b := by
  have hbyte : t.byteAt a = s.byteAt a := congrArg (contentByte a) (h.content a)
  rcases hb with e | ⟨hv, ha | ⟨c, hc, e⟩⟩
  · exact .inl (e.trans hbyte)
  · rw [h.cfg, hn] at ha; cases ha
  · rcases h.may a hv c hc with rfl | ⟨hv', hc'⟩
    · exact .inl e
    · exact .inr ⟨hv', .inr ⟨c, hc', e⟩⟩

/-- A fetch of a byte may see only what it might before. -/
theorem mayFetch (h : CopiesNarrowed s t) (hs : Inv s) {a : Nat} {c : Content} (hc : t.mayFetch a c) :
    s.mayFetch a c := by
  rcases hc with hc | ⟨hv, hc⟩
  · refine .inl (State.mem_fetchSet.mpr ?_)
    rw [← h.versions]
    exact State.mem_fetchSet.mp hc
  · rcases h.may a hv c hc with rfl | hc'
    · cases hsv : (s.cacheAt a).valid with
      | true => exact .inl (hs.content_mem_fetchSet hsv)
      | false => exact .inr ⟨hsv, hs.content_mem_may a⟩
    · exact .inr hc'

/-- A fetch under Ziccif may see only the whole states it might before: a unit behind whose valid copies memory holds
the current state is seen in that state. -/
theorem mayFetchUnit (h : CopiesNarrowed s t) (hs : Inv s) {w : Nat} {v : FetchVersion} (hv : t.mayFetchUnit w v) :
    s.mayFetchUnit w v := by
  rcases hv with hv | ⟨_, hlen, hbytes⟩
  · exact .inl (h.versions w ▸ hv)
  have current : ∀ k, k < 4 → (s.cacheAt (w + k)).valid = true → v.getD k none = s.content (w + k) := by
    intro k hk hsv
    have hb := hbytes k hk
    split at hb
    · exact hb.trans (h.content _)
    · rename_i htv
      rcases h.may _ (Bool.eq_false_iff.mpr htv) _ hb with e | ⟨hf, _⟩
      · exact e
      · rw [hsv] at hf; cases hf
  have behind : ∀ k, k < 4 → (s.cacheAt (w + k)).valid = false → v.getD k none ∈ (s.cacheAt (w + k)).may := by
    intro k hk hsv
    have htv : (t.cacheAt (w + k)).valid = false := Bool.eq_false_iff.mpr fun e => by
      rw [h.valid _ e] at hsv; cases hsv
    have hb := hbytes k hk
    rw [if_neg (Bool.eq_false_iff.mp htv)] at hb
    rcases h.may _ htv _ hb with e | ⟨_, hc⟩
    · exact e ▸ hs.content_mem_may _
    · exact hc
  by_cases hstale : ∃ k, k < 4 ∧ (s.cacheAt (w + k)).valid = false
  · refine .inr ⟨hstale, hlen, fun k hk => ?_⟩
    split
    · rename_i hsv; exact current k hk hsv
    · rename_i hsv; exact behind k hk (Bool.eq_false_iff.mpr hsv)
  · have hvalid : ∀ k, k < 4 → (s.cacheAt (w + k)).valid = true := fun k hk =>
      Bool.eq_true_of_not_eq_false fun e => hstale ⟨k, hk, e⟩
    have hcur : v = s.currentUnit w := FetchVersion.ext_getD hlen (s.length_currentUnit w) fun k hk =>
      (current k hk (hvalid k hk)).trans (s.getD_currentUnit w hk).symm
    exact .inl (hcur ▸ hs.currentUnit_mem_versions hvalid)

end CopiesNarrowed

/-- Setting the cached-data state of one byte narrows the copies where the new state is narrower than the old. -/
theorem Inv.setCache_narrowed {s : State} (h : Inv s) {a : Nat} {c : CacheByte}
    (hv : c.valid = true → (s.cacheAt a).valid = true)
    (hm : c.valid = false → ∀ d ∈ c.may, d = s.content a ∨ ((s.cacheAt a).valid = false ∧ d ∈ (s.cacheAt a).may)) :
    CopiesNarrowed s (s.setCache a c) := by
  have hself := h.cacheAt_setCache a c
  refine ⟨rfl, fun _ => rfl, fun _ => rfl, fun b => ?_, fun b => ?_⟩
  · by_cases hb : b = a
    · rw [hb, hself]; exact hv
    · rw [s.cacheAt_setCache_ne a b c hb]; exact id
  · by_cases hb : b = a
    · rw [hb, hself]; exact hm
    · rw [s.cacheAt_setCache_ne a b c hb]; exact fun hf d hd => .inr ⟨hf, hd⟩

theorem Inv.cleanByte_narrowed {s : State} (h : Inv s) (a : Nat) : CopiesNarrowed s (s.cleanByte a) := by
  rw [State.cleanByte_eq]
  split
  · rename_i hv; exact h.setCache_narrowed (fun _ => hv) fun hf => by cases hf
  · exact .refl s

theorem Inv.flushByte_narrowed {s : State} (h : Inv s) (a : Nat) : CopiesNarrowed s (s.flushByte a) := by
  refine h.setCache_narrowed (fun hf => by cases hf) fun _ d hd => ?_
  dsimp only at hd
  split at hd
  · exact .inl (List.mem_singleton.mp hd)
  · rename_i hv; exact .inr ⟨Bool.eq_false_iff.mpr hv, hd⟩

/-- A narrowing operation on every byte of a block narrows the copies. -/
theorem Inv.foldl_narrowed {s : State} (h : Inv s) {op : State → Nat → State}
    (hop : ∀ u a, Inv u → a < 2 ^ u.xlen.bits → Inv (op u a) ∧ CopiesNarrowed u (op u a)) (ea : Word) (n : Nat) :
    CopiesNarrowed s ((s.addrs ea n).foldl op s) := by
  refine (List.foldlRecOn (motive := fun u => Inv u ∧ CopiesNarrowed s u) _ op ⟨h, .refl s⟩ fun u hu a ha => ?_).2
  obtain ⟨hinv, hnar⟩ := hu
  obtain ⟨k, _, rfl⟩ := State.mem_addrs.mp ha
  have hx : u.xlen = s.xlen := congrArg Cfg.xlen hnar.cfg
  obtain ⟨hinv', hnar'⟩ := hop u _ hinv (hx ▸ s.byteAddr_lt ea k)
  exact ⟨hinv', hnar.trans hnar'⟩

/-- The next state of an exception holds its record. -/
theorem State.raised_of_next {s t : State} {c : Cause} {v : Word} (h : s.raise c v = .next t) : Raised s t c v := by
  obtain ⟨t', ht, r⟩ := s.raise_next c v
  cases ht.symm.trans h
  exact r

/-- The next states of a management CBO: the record of an exception, or the operation on every byte of the block. -/
theorem State.manageBlock_next {s t : State} {i : Instr} {gate : Option Cause} {op : State → Nat → State} {rs1 : Reg}
    (h : s.manageBlock i gate op rs1 = .next t) :
    (∃ c v, Raised s t c v) ∨
      ∃ a, Retired ((s.blockAddrs (cbomBlock s.cfg) (s.x rs1)).foldl op s) t a := by
  unfold State.manageBlock at h
  split at h
  · exact .inl ⟨_, _, State.raised_of_next h⟩
  split at h
  · split at h
    · exact .inl ⟨_, _, State.raised_of_next h⟩
    · obtain ⟨t', ht, r⟩ := State.retireTo_next _ (State.pcPlus _ 4)
      cases ht.symm.trans h
      exact .inr ⟨_, r⟩
  · cases h

/-- A management CBO with a narrowing operation narrows the copies, whatever its outcome. -/
theorem Inv.manageBlock_narrowed {s t : State} (hs : Inv s) {i : Instr} {gate : Option Cause}
    {op : State → Nat → State} {rs1 : Reg}
    (hop : ∀ u a, Inv u → a < 2 ^ u.xlen.bits → Inv (op u a) ∧ CopiesNarrowed u (op u a))
    (h : s.manageBlock i gate op rs1 = .next t) : CopiesNarrowed s t := by
  rcases State.manageBlock_next h with ⟨c, v, r⟩ | ⟨a, r⟩
  · exact (CopiesNarrowed.refl s).raised r
  · exact (hs.foldl_narrowed hop _ _).retired r

/-- CBIE selects a flush as the instruction computes it (48_cmo.md R373). -/
theorem State.invalIsFlush_iff (s : State) : s.invalIsFlush = true ↔ s.cbieFlush := by
  simp [State.invalIsFlush, State.cbieFlush, State.senvOff, or_assoc]

/-- Settles O58: each of the three performs a flush or a clean on every byte, and both narrow the copies. -/
theorem flushIsInvisibleToLoads : Obligations.FlushIsInvisibleToLoads := by
  intro s t i rs1 hs hn hi h
  have flush : ∀ u a, Inv u → a < 2 ^ u.xlen.bits → Inv (u.flushByte a) ∧ CopiesNarrowed u (u.flushByte a) :=
    fun u a hu ha => ⟨hu.flushByte ha, hu.flushByte_narrowed a⟩
  have narrowed : CopiesNarrowed s t := by
    rcases hi with rfl | rfl | ⟨rfl, hf⟩
    · exact hs.manageBlock_narrowed flush h
    · refine hs.manageBlock_narrowed (op := s.cleanOp) (fun u a hu ha => ?_) h
      rw [State.cleanOp, hn]
      exact ⟨hu.cleanByte ha, hu.cleanByte_narrowed a⟩
    · change s.manageBlock _ _ (if s.invalIsFlush then State.flushByte else s.invalOp) rs1 = _ at h
      rw [if_pos (s.invalIsFlush_iff.mpr hf)] at h
      exact hs.manageBlock_narrowed flush h
  exact ⟨fun a b => narrowed.mayLoad hn, fun a c => narrowed.mayFetch hs, fun u v => narrowed.mayFetchUnit hs⟩

end Sys2Proof.Machine
end

section
/-! Register pairs: what a pair access leaves that is refused however it is cut. -/

namespace Sys2Proof.Machine

/-! ### The parts of a pair access -/

/-- The bytes after a displaced address are those after the displacement. -/
theorem State.byteAddr_add (s : State) (ea : Word) (i j : Nat) :
    s.byteAddr (ea + BitVec.ofNat 64 i) j = s.byteAddr ea (i + j) := by
  rw [State.byteAddr, State.byteAddr, BitVec.ofNat_add, BitVec.add_assoc]

/-- The bytes of a part are those of an access at its first byte. -/
theorem State.partAddrs_eq (s : State) (ea : Word) {i n : Nat} (h : i + n ≤ 8) :
    s.partAddrs ea i n = s.addrs (ea + BitVec.ofNat 64 i) n := by
  refine List.ext_getElem ?_ fun k hk _ => ?_
  · simp [State.partAddrs]; omega
  · simp only [State.partAddrs, List.getElem_take, List.getElem_drop, State.getElem_addrs, State.byteAddr_add]

section

variable {s : State} {ea : Word} {i n : Nat}

/-- Which bytes of the access lie in a part. -/
theorem State.byteAddr_mem_partAddrs (h : pairPart ea i n) {j : Nat} (hj : j < 8) :
    s.byteAddr ea j ∈ s.partAddrs ea i n ↔ i ≤ j ∧ j < i + n := by
  obtain ⟨_, hin, _⟩ := h
  have h8 := Xlen.eight_le s.xlen
  rw [s.partAddrs_eq ea hin, State.mem_addrs]
  constructor
  · rintro ⟨k, hk, e⟩
    rw [State.byteAddr_add] at e
    have := s.byteAddr_inj ea (by omega) (by omega) e
    omega
  · exact fun ⟨h1, h2⟩ => ⟨j - i, by omega, by rw [State.byteAddr_add, Nat.add_sub_cancel' h1]⟩

/-- The first byte of a part. -/
theorem State.headD_partAddrs (h : pairPart ea i n) : (s.partAddrs ea i n).headD 0 = s.byteAddr ea i := by
  obtain ⟨hn, hin, _⟩ := h
  obtain ⟨m, rfl⟩ := Nat.exists_eq_succ_of_ne_zero hn.ne'
  rw [s.partAddrs_eq ea hin, State.addrs, List.range_succ_eq_map, List.map_cons, List.headD_cons, State.byteAddr_add]
  rfl

/-- A byte of a part that is permitted lies in a permitted part. -/
theorem State.inPermittedPart_of_mem {kind : AccessKind} {q : List Nat} (hq : q ∈ s.pairParts ea)
    (hd : s.denial [kind] q = none) {j : Nat} (hj : j < 8) (hm : s.byteAddr ea j ∈ q) :
    s.inPermittedPart kind ea j := by
  obtain ⟨i, n, hp, rfl⟩ := s.pairParts_part ea q hq
  obtain ⟨h1, h2⟩ := (State.byteAddr_mem_partAddrs hp hj).mp hm
  exact ⟨i, n, hp, h1, h2, State.denial_eq_none.mp hd⟩

end

/-- A pair access performed the parts `performed` and stopped at the part of `n` bytes from byte `i`, refused
for `w`. -/
structure PairStopped (s : State) (kind : AccessKind) (ea : Word) (performed : List (List Nat)) (w : Why) (i n : Nat) :
    Prop where
  part : pairPart ea i n
  refused : s.refuses [kind] (s.partAddrs ea i n) w
  performed : ∀ j, j < 8 → s.byteAddr ea j ∈ performed.flatten → (j < i ∨ i + n ≤ j) ∧ s.inPermittedPart kind ea j

/-- A pair access that is refused however it is cut stops at a part. -/
theorem State.pairRefused.stopped {s : State} {kind : AccessKind} {ea : Word} (h : s.pairRefused kind ea) :
    ∃ performed w i n, s.runParts kind (s.pairParts ea) = (performed, some (s.byteAddr ea i, w)) ∧
      PairStopped s kind ea performed w i n := by
  obtain ⟨hperf, hstop⟩ := s.runParts_spec kind (s.pairParts ea)
  generalize hr : s.runParts kind (s.pairParts ea) = r at *
  obtain ⟨performed, stop⟩ := r
  dsimp only at hperf hstop
  have permitted : ∀ j, j < 8 → s.byteAddr ea j ∈ performed.flatten → s.inPermittedPart kind ea j := by
    intro j hj hm
    obtain ⟨q, hq, hmq⟩ := List.mem_flatten.mp hm
    exact State.inPermittedPart_of_mem (hperf q hq).1 (hperf q hq).2 hj hmq
  have hperm := s.pairParts_perm ea
  cases stop with
  | none =>
    obtain ⟨j, hj, hno⟩ := h
    rw [← hstop] at hperm
    exact absurd (permitted j hj (hperm.mem_iff.mpr (State.mem_addrs.mpr ⟨j, hj, rfl⟩))) hno
  | some f =>
    obtain ⟨first, w⟩ := f
    obtain ⟨p, rest, hsplit, hd, hfirst⟩ := hstop
    obtain ⟨i, n, hp, rfl⟩ := s.pairParts_part ea p (hsplit ▸ List.mem_append_right _ (List.mem_cons_self ..))
    have hfirst : first = s.byteAddr ea i := hfirst.trans (State.headD_partAddrs hp)
    have hnodup := hperm.nodup_iff.mpr (s.nodup_addrs ea (Xlen.eight_le s.xlen))
    rw [hsplit, List.flatten_append, List.flatten_cons, List.nodup_append] at hnodup
    obtain ⟨_, _, hdisj⟩ := hnodup
    refine ⟨performed, w, i, n, hfirst ▸ rfl, hp, State.denial_eq_some.mp hd, fun j hj hm => ⟨?_, permitted j hj hm⟩⟩
    have hout := mt (State.byteAddr_mem_partAddrs (s := s) hp hj).mpr fun hin =>
      hdisj _ hm _ (List.mem_append_left _ hin) rfl
    omega

/-! ### The record of the trap -/

/-- The record of an exception raised after updates that left the flow, ssp, ELP and the counters. -/
theorem Raised.recorded {s u t : State} {c : Cause} {v : Word} (hf : SameFlow s u) (hk : SpecialKept s u)
    (r : Raised u t c v) : TrapRecorded s t c v := by
  have hpc : u.pcv = s.pcv := State.pcv_congr hf.cfg hf.pc
  refine ⟨?_, (State.pcv_congr r.cfg r.pc).trans hpc, r.instret.trans hf.instret, ⟨?_, r.elp.trans hk.elp,
    r.cycle.trans hk.cycle, r.time.trans hk.time⟩, r.cfg.trans hf.cfg, r.env.trans hf.env⟩
  · rw [r.record, hpc, hf.env, hk.elp]
  · exact (State.sspv_congr r.cfg r.ssp).trans hk.ssp

/-! ### A refused pair load -/

/-- The value of four bytes is an XLEN-bit one. -/
theorem wrap_leWord_word (x : Xlen) {bs : List Byte} (h : bs.length = 4) :
    wrap x (leWord bs) = BitVec.ofNat 64 (leNat bs) := by
  have hlt : leNat bs < 2 ^ 32 := by simpa [h] using leNat_lt bs
  rw [leWord_eq, wrap_of_lt]
  rw [BitVec.toNat_ofNat]
  cases x <;> simp only [Xlen.bits] <;> omega

/-- `u` differs from `s` in the x registers at most. -/
structure RegsOnly (s u : State) : Prop where
  flow : SameFlow s u
  special : SpecialKept s u
  mem : u.mem = s.mem
  cache : u.cache = s.cache
  fetchView : u.fetchView = s.fetchView

section

variable {s u : State} {rd base : Reg} {ea : Word} {loaded : List Nat} {k : Nat}

/-- A register of the pair of a trapping load is left, or it is written where the load may write it. -/
theorem State.partialHalf_cases (s u : State) (rd base : Reg) (ea : Word) (loaded : List Nat) (k : Nat) :
    s.partialHalf rd base ea loaded k u = u ∨
    (rd ≠ 0 ∧ rd + BitVec.ofNat 5 k ≠ base ∧ (∀ a ∈ s.halfAddrs ea k, a ∈ loaded) ∧
      s.partialHalf rd base ea loaded k u =
        u.setX (rd + BitVec.ofNat 5 k) (leWord ((s.halfAddrs ea k).map s.loadByte))) := by
  unfold State.partialHalf
  split
  · rename_i hc
    obtain ⟨h0, hb, hall, _⟩ := hc
    exact .inr ⟨h0, hb, by simpa using hall, rfl⟩
  · exact .inl rfl

theorem State.partialHalf_regsOnly (h : RegsOnly s u) : RegsOnly s (s.partialHalf rd base ea loaded k u) := by
  rcases s.partialHalf_cases u rd base ea loaded k with e | ⟨_, _, _, e⟩ <;> rw [e]
  · exact h
  · obtain ⟨⟨h1, h2, h3, h4, h5⟩, ⟨k1, k2, k3, k4⟩, hm, hc, hf⟩ := h
    exact ⟨⟨h1, h2, h3, h4, h5⟩, ⟨k1, k2, k3, k4⟩, hm, hc, hf⟩

/-- The base register, every register that is not the one the half is for, and all registers where the pair is that of
x0, read as before. -/
theorem State.partialHalf_x_kept {r : Reg} (h : r = base ∨ r ≠ rd + BitVec.ofNat 5 k ∨ rd = 0) :
    (s.partialHalf rd base ea loaded k u).x r = u.x r := by
  rcases s.partialHalf_cases u rd base ea loaded k with e | ⟨h0, hb, _, e⟩ <;> rw [e]
  refine u.x_setX_ne _ r _ ?_
  rcases h with rfl | h | h
  · exact hb.symm
  · exact h
  · exact absurd h h0

/-- The bytes of a half are those of an access at its first byte. -/
theorem State.halfAddrs_eq (s : State) (ea : Word) {k : Nat} (hk : k < 2) :
    s.halfAddrs ea k = s.addrs (ea + BitVec.ofNat 64 (4 * k)) 4 := s.partAddrs_eq ea (i := 4 * k) (n := 4) (by omega)

/-- The register that a half is for reads as before, or the half was loaded and the register holds it. -/
theorem State.partialHalf_x_self (hk : k < 2) (hx : u.xlen = s.xlen) (hne : rd + BitVec.ofNat 5 k ≠ 0) :
    (s.partialHalf rd base ea loaded k u).x (rd + BitVec.ofNat 5 k) = u.x (rd + BitVec.ofNat 5 k) ∨
    ((∀ a ∈ s.halfAddrs ea k, a ∈ loaded) ∧ ∃ bs, s.mayLoadAll (ea + BitVec.ofNat 64 (4 * k)) 4 bs ∧
      (s.partialHalf rd base ea loaded k u).x (rd + BitVec.ofNat 5 k) = BitVec.ofNat 64 (leNat bs)) := by
  rcases s.partialHalf_cases u rd base ea loaded k with e | ⟨_, _, hall, e⟩
  · exact .inl (by rw [e])
  · refine .inr ⟨hall, _, s.mayLoadAll_loadBytes _ 4, ?_⟩
    rw [e, u.x_setX_self, if_neg hne, hx, s.halfAddrs_eq ea hk, wrap_leWord_word _ (by simp)]

end

/-- A half of a pair access that was performed lies outside the part refused and in permitted ones. -/
theorem PairStopped.half {s : State} {kind : AccessKind} {ea : Word} {performed : List (List Nat)} {w : Why}
    {i n k : Nat} (h : PairStopped s kind ea performed w i n) (hk : k < 2)
    (hall : ∀ a ∈ s.halfAddrs ea k, a ∈ performed.flatten) :
    ∀ j, 4 * k ≤ j → j < 4 * k + 4 → (j < i ∨ i + n ≤ j) ∧ s.inPermittedPart kind ea j := by
  intro j h1 h2
  refine h.performed j (by omega) (hall _ ?_)
  rw [s.halfAddrs_eq ea hk]
  exact State.mem_addrs.mpr ⟨j - 4 * k, by omega, by rw [State.byteAddr_add, Nat.add_sub_cancel' h1]⟩

/-- Where the low half was performed the part refused lies in the high one. -/
theorem PairStopped.low {s : State} {kind : AccessKind} {ea : Word} {performed : List (List Nat)} {w : Why} {i n : Nat}
    (h : PairStopped s kind ea performed w i n) (hall : ∀ a ∈ s.halfAddrs ea 0, a ∈ performed.flatten) :
    4 ≤ i ∧ ∀ j, j < 4 → s.inPermittedPart kind ea j := by
  have half := h.half (k := 0) (by decide) hall
  obtain ⟨hn, _, _⟩ := h.part
  refine ⟨Nat.le_of_not_lt fun hi => ?_, fun j hj => (half j (by omega) (by omega)).2⟩
  have := (half i (by omega) (by omega)).1
  omega

/-- Where the high half was performed the part refused lies in the low one. -/
theorem PairStopped.high {s : State} {kind : AccessKind} {ea : Word} {performed : List (List Nat)} {w : Why} {i n : Nat}
    (h : PairStopped s kind ea performed w i n) (hall : ∀ a ∈ s.halfAddrs ea 1, a ∈ performed.flatten) :
    i + n ≤ 4 ∧ ∀ j, 4 ≤ j → j < 8 → s.inPermittedPart kind ea j := by
  have half := h.half (k := 1) (by decide) hall
  obtain ⟨hn, hin, _⟩ := h.part
  refine ⟨Nat.le_of_not_lt fun hi => ?_, fun j hj hj8 => (half j (by omega) (by omega)).2⟩
  have := (half (max i 4) (by omega) (by omega)).1
  omega

/-- The odd register of an even pair is neither x0 nor the even one (44_zilsd_zclsd.md R261). -/
theorem pair_regs_ne {rd : Reg} (h : rd.toNat % 2 = 0) : rd + 1 ≠ 0 ∧ rd ≠ rd + 1 := by
  revert rd
  decide

/-- A pair load that is refused however it is cut (44_zilsd_zclsd.md R271). -/
theorem State.loadPair_refused {s : State} {ea : Word} {rd : Reg} (heven : rd.toNat % 2 = 0) (ha : s.alignmentOk ea 8)
    (h : s.pairRefused .load ea) (len : Nat) (base : Reg) :
    ∃ t w i n, s.loadPair len rd base ea = .next t ∧ PairLoadTrapped s t rd base ea w i n := by
  obtain ⟨performed, w, i, n, hrun, hstop⟩ := h.stopped
  obtain ⟨hne0, hne1⟩ := pair_regs_ne heven
  have hzero : rd + BitVec.ofNat 5 0 = rd := BitVec.add_zero rd
  have hs : RegsOnly s s := ⟨.refl s, .refl s, rfl, rfl, rfl⟩
  generalize hu0 : s.partialHalf rd base ea performed.flatten 0 s = u0
  generalize hu1 : s.partialHalf rd base ea performed.flatten 1 u0 = u1
  have h0 : RegsOnly s u0 := hu0 ▸ State.partialHalf_regsOnly hs
  have h1 : RegsOnly s u1 := hu1 ▸ State.partialHalf_regsOnly h0
  obtain ⟨t, ht, r⟩ := u1.raise_next (loadCause w) (BitVec.ofNat 64 (s.byteAddr ea i))
  have hx : ∀ q, t.x q = u1.x q := State.x_congr r.cfg r.regs
  have keep1 : ∀ {q}, q = base ∨ q ≠ rd + 1 ∨ rd = 0 → u1.x q = u0.x q := fun hq => hu1 ▸ State.partialHalf_x_kept hq
  have keep0 : ∀ {q}, q = base ∨ q ≠ rd ∨ rd = 0 → u0.x q = s.x q := fun hq =>
    hu0 ▸ State.partialHalf_x_kept (hzero.symm ▸ hq)
  refine ⟨t, w, i, n, ?exec, hstop.part, hstop.refused, loadCause_eq w ▸ r.recorded h1.flow h1.special, ?base, ?low,
    ?high, ?regs, fun a _ => State.byteAt_congr (r.mem.trans h1.mem) a,
    fun a _ => State.cacheAt_congr (r.mem.trans h1.mem) (r.cache.trans h1.cache) a,
    fun v _ _ => State.versionsAt_congr (r.mem.trans h1.mem) (r.fetchView.trans h1.fetchView) v⟩
  case exec =>
    have hm : s.pairMisaligned ea = false := Bool.eq_false_iff.mpr fun e => State.pairMisaligned_iff.mp e ha
    rw [State.loadPair, hm, hrun, ← ht, ← hu1, ← hu0]
    rfl
  case base => rw [hx, keep1 (.inl rfl), keep0 (.inl rfl)]
  case low =>
    rw [hx, keep1 (.inr (.inl hne1))]
    by_cases hr : rd = 0
    · exact .inl (keep0 (.inr (.inr hr)))
    have hself := State.partialHalf_x_self (s := s) (u := s) (base := base) (ea := ea) (loaded := performed.flatten)
      (k := 0) (by decide) rfl (hzero.symm ▸ hr)
    have hea : ea + BitVec.ofNat 64 (4 * 0) = ea := BitVec.add_zero ea
    rw [hzero, hu0, hea] at hself
    exact hself.imp_right fun ⟨hall, hbs⟩ => ⟨(hstop.low hall).1, (hstop.low hall).2, hbs⟩
  case high =>
    rw [hx, ← keep0 (q := rd + 1) (.inr (.inl hne1.symm))]
    have hself := State.partialHalf_x_self (s := s) (u := u0) (base := base) (ea := ea) (loaded := performed.flatten)
      (k := 1) (by decide) (congrArg Cfg.xlen h0.flow.cfg) hne0
    rw [hu1] at hself
    exact hself.imp_right fun ⟨hall, hbs⟩ => ⟨(hstop.high hall).1, (hstop.high hall).2, hbs⟩
  case regs =>
    intro q hq
    rw [hx]
    by_cases hr : rd = 0
    · rw [keep1 (.inr (.inr hr)), keep0 (.inr (.inr hr))]
    · simp only [pairRegs, if_neg hr, List.mem_cons, List.not_mem_nil, or_false, not_or] at hq
      rw [keep1 (.inr (.inl hq.2)), keep0 (.inr (.inl hq.1))]

/-! ### A refused pair store -/

/-- The 64-bit operand of a pair, in arithmetic (44_zilsd_zclsd.md R261, R262). -/
theorem State.pairValue_eq (s : State) (r : Reg) : s.pairValue r = s.pairOperand r := by
  unfold State.pairValue State.pairOperand
  split
  · rfl
  · apply BitVec.eq_of_toNat_eq
    have hlow : (s.x r).toNat % 2 ^ 32 < 2 ^ 32 := Nat.mod_lt _ (by decide)
    have hhigh : (s.x (r + 1)).toNat % 2 ^ 32 < 2 ^ 32 := Nat.mod_lt _ (by decide)
    rw [BitVec.toNat_append, BitVec.toNat_setWidth, BitVec.toNat_setWidth, ← Nat.shiftLeft_add_eq_or_of_lt hlow,
      Nat.shiftLeft_eq, BitVec.toNat_ofNat]
    omega

section

variable {s : State} {ea v : Word}

/-- The cells of a part are the bytes of the value at the addresses of the part. -/
theorem State.mem_pairCells {q : List Nat} {c : Host.Cell} :
    c ∈ s.pairCells ea v q ↔ ∃ j, j < 8 ∧ s.byteAddr ea j ∈ q ∧ c = (s.byteAddr ea j, v.extractLsb' (8 * j) 8) := by
  rw [State.pairCells, List.mem_filter, mem_zip_leBytes]
  constructor
  · rintro ⟨⟨j, hj, rfl⟩, hq⟩
    exact ⟨j, hj, by simpa using hq, rfl⟩
  · rintro ⟨j, hj, hq, rfl⟩
    exact ⟨⟨j, hj, rfl⟩, by simpa using hq⟩

theorem State.nodup_pairCells (s : State) (ea v : Word) (q : List Nat) :
    ((s.pairCells ea v q).map Prod.fst).Nodup :=
  (s.nodup_zip_addrs ea (Xlen.eight_le s.xlen) _).sublist (List.filter_sublist.map Prod.fst)

/-- A byte of the access after a part is stored is as before or, where the part holds it, stored. -/
theorem State.storePart_byteAt (u : State) (q : List Nat) {j : Nat} (hj : j < 8) :
    (u.storePart ea (s.pairCells ea v q)).byteAt (s.byteAddr ea j) = u.byteAt (s.byteAddr ea j) ∨
    (s.byteAddr ea j ∈ q ∧
      (u.storePart ea (s.pairCells ea v q)).byteAt (s.byteAddr ea j) = v.extractLsb' (8 * j) 8) := by
  by_cases hq : s.byteAddr ea j ∈ q
  · refine .inr ⟨hq, ?_⟩
    have hc := u.writePart_content (s.pairCells ea v q) (aligned ea 4) (s.nodup_pairCells ea v q)
      (s.byteAddr ea j, v.extractLsb' (8 * j) 8) (State.mem_pairCells.mpr ⟨j, hj, hq, rfl⟩)
    rw [State.byteAt, State.storePart, hc]
    rfl
  · refine .inl ?_
    rw [State.byteAt, State.storePart, u.writePart_content_outside]
    · rfl
    · intro hm
      obtain ⟨c, hc, e⟩ := List.mem_map.mp hm
      obtain ⟨k, _, hk, rfl⟩ := State.mem_pairCells.mp hc
      exact hq (e ▸ hk)

/-- A byte of the access after parts are stored is as before or, where one of them holds it, stored. -/
theorem State.foldl_storePart_byteAt (u : State) (parts : List (List Nat)) {j : Nat} (hj : j < 8) :
    (parts.foldl (fun t p => t.storePart ea (s.pairCells ea v p)) u).byteAt (s.byteAddr ea j) =
      u.byteAt (s.byteAddr ea j) ∨
    (s.byteAddr ea j ∈ parts.flatten ∧
      (parts.foldl (fun t p => t.storePart ea (s.pairCells ea v p)) u).byteAt (s.byteAddr ea j) =
        v.extractLsb' (8 * j) 8) := by
  induction parts generalizing u with
  | nil => exact .inl rfl
  | cons q rest ih =>
    rw [List.foldl_cons, List.flatten_cons, List.mem_append]
    rcases ih (u.storePart ea (s.pairCells ea v q)) with e | ⟨hm, e⟩
    · rw [e]
      exact (State.storePart_byteAt u q hj).imp_right fun ⟨hq, e⟩ => ⟨.inl hq, e⟩
    · exact .inr ⟨.inr hm, e⟩

/-- Storing a part of the access leaves every byte outside the access. -/
theorem State.storePart_kept (u : State) (q : List Nat) :
    MemKept u (u.storePart ea (s.pairCells ea v q)) (s.addrs ea 8) ∧
    CachesKept u (u.storePart ea (s.pairCells ea v q)) (s.addrs ea 8) := by
  have hsub : ∀ a ∈ (s.pairCells ea v q).map Prod.fst, a ∈ s.addrs ea 8 := by
    intro a ha
    obtain ⟨c, hc, rfl⟩ := List.mem_map.mp ha
    obtain ⟨j, hj, _, rfl⟩ := State.mem_pairCells.mp hc
    exact State.mem_addrs.mpr ⟨j, hj, rfl⟩
  refine ⟨fun a ha => ?_, (u.writePart_cachesKept _ _).mono hsub⟩
  rw [State.byteAt, State.storePart, u.writePart_content_outside _ _ a fun hm => ha (hsub a hm)]
  rfl

end

/-- A pair store that is refused however it is cut (44_zilsd_zclsd.md R271). -/
theorem State.storePair_refused {s : State} {ea : Word} (ha : s.alignmentOk ea 8) (h : s.pairRefused .store ea)
    (len : Nat) (v : Word) :
    ∃ t w i n, s.storePair len ea v = .next t ∧ PairStoreTrapped s t ea v w i n := by
  obtain ⟨performed, w, i, n, hrun, hstop⟩ := h.stopped
  generalize hu : performed.foldl (fun t p => t.storePart ea (s.pairCells ea v p)) s = u
  have bytes : ∀ j, j < 8 → u.byteAt (s.byteAddr ea j) = s.byteAt (s.byteAddr ea j) ∨
      (s.byteAddr ea j ∈ performed.flatten ∧ u.byteAt (s.byteAddr ea j) = v.extractLsb' (8 * j) 8) :=
    fun j hj => hu ▸ State.foldl_storePart_byteAt s performed hj
  obtain ⟨hm, hmem, hcaches⟩ : MemOnly s u ∧ MemKept s u (s.addrs ea 8) ∧ CachesKept s u (s.addrs ea 8) := by
    rw [← hu]
    refine foldl_keeps (fun u => MemOnly s u ∧ MemKept s u (s.addrs ea 8) ∧ CachesKept s u (s.addrs ea 8)) _
      (fun t p ⟨hm, hmem, hcaches⟩ => ?_) performed s ⟨.refl s, fun _ _ => rfl, .refl s _⟩
    obtain ⟨hmem', hcaches'⟩ := State.storePart_kept (s := s) (ea := ea) (v := v) t p
    exact ⟨hm.trans (t.storePart_memOnly _ _), fun a ha => (hmem' a ha).trans (hmem a ha), hcaches.trans hcaches'⟩
  obtain ⟨t, ht, r⟩ := u.raise_next (storeCause w) (BitVec.ofNat 64 (s.byteAddr ea i))
  have hb : ∀ a, t.byteAt a = u.byteAt a := State.byteAt_congr r.mem
  refine ⟨t, w, i, n, ?exec, hstop.part, hstop.refused,
    storeCause_eq w ▸ r.recorded hm.sameFlow hm.specialKept,
    fun q _ => State.x_congr (r.cfg.trans hm.cfg) (r.regs.trans hm.regs) q, fun j hj => ?bytes,
    fun a ha => (hb a).trans (hmem a ha), hcaches.trans ⟨fun a _ => State.cacheAt_congr r.mem r.cache a,
      fun w _ _ => State.versionsAt_congr r.mem r.fetchView w⟩⟩
  case exec =>
    have hm : s.pairMisaligned ea = false := Bool.eq_false_iff.mpr fun e => State.pairMisaligned_iff.mp e ha
    rw [State.storePair, hm, hrun, ← ht, ← hu]
    rfl
  case bytes =>
    rw [hb]
    refine (bytes j hj).imp_right fun ⟨hin, e⟩ => ?_
    obtain ⟨hout, hperm⟩ := hstop.performed j hj hin
    exact ⟨hout, hperm, e⟩

/-- Settles O39: the parts performed before the refused one are permitted and lie outside it. -/
theorem pairTrapsKeepTheBase : Obligations.PairTrapsKeepTheBase := by
  intro s rd rs1 i12 rd' rs1' o5 o6
  refine ⟨?_, ?_⟩
  · simp only [List.forall_mem_append, List.forall_mem_cons, List.not_mem_nil, false_implies, implies_true, and_true]
    refine ⟨⟨fun h ha hr => ?_, fun h ha hr => ?_⟩, fun p hp h ha hr => ?_⟩
    · rw [exec_of_test exec_ldPair (evenReg_iff.mpr h)]; exact State.loadPair_refused h ha hr _ _
    · rw [exec_of_test exec_cLdPair (evenCReg_iff.mpr h)]; exact State.loadPair_refused h ha hr _ _
    · split at hp
      · cases hp
      · rename_i h0
        rw [List.mem_singleton.mp hp] at h ha hr ⊢
        rw [exec_of_test exec_cLdspPair (evenReg_and_ne h h0)]
        exact State.loadPair_refused h ha hr _ _
  · simp only [List.forall_mem_cons, List.not_mem_nil, false_implies, implies_true, and_true, ← s.pairValue_eq]
    refine ⟨fun h ha hr => ?_, fun h ha hr => ?_, fun h ha hr => ?_⟩
    · rw [exec_of_test exec_sdPair (evenReg_iff.mpr h)]; exact State.storePair_refused ha hr _ _
    · rw [exec_of_test exec_cSdPair (evenCReg_iff.mpr h)]; exact State.storePair_refused ha hr _ _
    · rw [exec_of_test exec_cSdspPair (evenReg_iff.mpr h)]; exact State.storePair_refused ha hr _ _

end Sys2Proof.Machine
end

section
/-! The encoding formats as equations of fields. -/

namespace Sys2Proof

/-! ### A concatenation as a field -/

/-- A concatenation is a field of a word when its parts are the two halves of that field. -/
theorem append_eq_field_iff {k n m : Nat} (w : BitVec k) (st : Nat) (x : BitVec n) (y : BitVec m) :
    x ++ y = w.extractLsb' st (n + m) ↔ x = w.extractLsb' (st + m) n ∧ y = w.extractLsb' st m := by
  rw [← extractLsb'_append_adjacent w st n m]
  constructor
  · intro h
    have h1 := congrArg (BitVec.extractLsb' m n) h
    have h2 := congrArg (BitVec.extractLsb' 0 m) h
    rw [extractLsb'_append_high _ _ _ _ (by omega), extractLsb'_append_high _ _ _ _ (by omega)] at h1
    rw [extractLsb'_append_low _ _ _ _ (by omega), extractLsb'_append_low _ _ _ _ (by omega)] at h2
    simpa using And.intro h1 h2
  · rintro ⟨rfl, rfl⟩
    rfl

/-! ### The fields of the 32-bit formats (30_encoding.md R121, 49_base_subset.md R410)

Each format is a list of equations on the fields that the decoder tests and reads. Read from left to right, with
`rfl` for the word, it gives the fields of an encoding; from right to left it puts a word together again. -/

theorem encR_eq_iff {f7 : BitVec 7} {rs2 rs1 : Reg} {f3 : BitVec 3} {rd : Reg} {op : BitVec 7} {w : BitVec 32} :
    encR f7 rs2 rs1 f3 rd op = w ↔
      fFunct7 w = f7 ∧ fRs2 w = rs2 ∧ fRs1 w = rs1 ∧ fFunct3 w = f3 ∧ fRd w = rd ∧ fOpcode w = op := by
  conv_lhs => rw [← BitVec.extractLsb'_eq_self (x := w), encR]
  iterate 5 erw [append_eq_field_iff]
  simp only [Nat.reduceAdd, fFunct7, fRs2, fRs1, fFunct3, fRd, fOpcode]
  grind

theorem encI_eq_iff {imm : BitVec 12} {rs1 : Reg} {f3 : BitVec 3} {rd : Reg} {op : BitVec 7} {w : BitVec 32} :
    encI imm rs1 f3 rd op = w ↔
      fFunct12 w = imm ∧ fRs1 w = rs1 ∧ fFunct3 w = f3 ∧ fRd w = rd ∧ fOpcode w = op := by
  conv_lhs => rw [← BitVec.extractLsb'_eq_self (x := w), encI]
  iterate 4 erw [append_eq_field_iff]
  simp only [Nat.reduceAdd, fFunct12, fRs1, fFunct3, fRd, fOpcode]
  grind

theorem encS_eq_iff {imm : BitVec 12} {rs2 rs1 : Reg} {f3 : BitVec 3} {op : BitVec 7} {w : BitVec 32} :
    encS imm rs2 rs1 f3 op = w ↔
      fImmS w = imm ∧ fRs2 w = rs2 ∧ fRs1 w = rs1 ∧ fFunct3 w = f3 ∧ fOpcode w = op := by
  conv_lhs => rw [← BitVec.extractLsb'_eq_self (x := w), encS]
  iterate 5 erw [append_eq_field_iff]
  conv_rhs => rw [← BitVec.extractLsb'_eq_self (x := imm), fImmS]
  erw [append_eq_field_iff]
  simp only [Nat.reduceAdd, fFunct7, fRs2, fRs1, fFunct3, fRd, fOpcode]
  grind

theorem encU_eq_iff {imm : BitVec 20} {rd : Reg} {op : BitVec 7} {w : BitVec 32} :
    encU imm rd op = w ↔ fImm20 w = imm ∧ fRd w = rd ∧ fOpcode w = op := by
  conv_lhs => rw [← BitVec.extractLsb'_eq_self (x := w), encU]
  iterate 2 erw [append_eq_field_iff]
  simp only [Nat.reduceAdd, fImm20, fRd, fOpcode]
  grind

theorem encB_eq_iff {imm : BitVec 12} {rs2 rs1 : Reg} {f3 : BitVec 3} {w : BitVec 32} :
    encB imm rs2 rs1 f3 = w ↔
      fImmB w = imm ∧ fRs2 w = rs2 ∧ fRs1 w = rs1 ∧ fFunct3 w = f3 ∧ fOpcode w = opBranch := by
  conv_lhs => rw [← BitVec.extractLsb'_eq_self (x := w), encB]
  iterate 7 erw [append_eq_field_iff]
  conv_rhs => rw [← BitVec.extractLsb'_eq_self (x := imm), fImmB]
  iterate 3 erw [append_eq_field_iff]
  simp only [Nat.reduceAdd, fRs2, fRs1, fFunct3, fOpcode]
  grind

theorem encJ_eq_iff {imm : BitVec 20} {rd : Reg} {w : BitVec 32} :
    encJ imm rd = w ↔ fImmJ w = imm ∧ fRd w = rd ∧ fOpcode w = opJal := by
  conv_lhs => rw [← BitVec.extractLsb'_eq_self (x := w), encJ]
  iterate 5 erw [append_eq_field_iff]
  conv_rhs => rw [← BitVec.extractLsb'_eq_self (x := imm), fImmJ]
  iterate 3 erw [append_eq_field_iff]
  simp only [Nat.reduceAdd, fRd, fOpcode]
  grind

theorem ofBool_eq_iff {b : Bool} {v : BitVec 1} : BitVec.ofBool b = v ↔ (v == 1#1) = b := by
  revert b v; decide

theorem encAmo_eq_iff {f5 : BitVec 5} {aq rl : Bool} {rs2 rs1 : Reg} {f3 : BitVec 3} {rd : Reg} {w : BitVec 32} :
    encAmo f5 aq rl rs2 rs1 f3 rd = w ↔
      w.extractLsb' 27 5 = f5 ∧ (w.extractLsb' 26 1 == 1#1) = aq ∧ (w.extractLsb' 25 1 == 1#1) = rl ∧
      fRs2 w = rs2 ∧ fRs1 w = rs1 ∧ fFunct3 w = f3 ∧ fRd w = rd ∧ fOpcode w = opAmo := by
  conv_lhs => rw [← BitVec.extractLsb'_eq_self (x := w), encAmo]
  iterate 7 erw [append_eq_field_iff]
  simp only [Nat.reduceAdd, fRs2, fRs1, fFunct3, fRd, fOpcode, ← ofBool_eq_iff]
  grind

theorem encFence_eq_iff {fm pred succ : BitVec 4} {rs1 rd : Reg} {w : BitVec 32} :
    encFence fm pred succ rs1 rd = w ↔ w.extractLsb' 28 4 = fm ∧ w.extractLsb' 24 4 = pred ∧
      w.extractLsb' 20 4 = succ ∧ fRs1 w = rs1 ∧ fFunct3 w = 0 ∧ fRd w = rd ∧ fOpcode w = opMiscMem := by
  conv_lhs => rw [← BitVec.extractLsb'_eq_self (x := w), encFence]
  iterate 6 erw [append_eq_field_iff]
  simp only [Nat.reduceAdd, fRs1, fFunct3, fRd, fOpcode]
  grind

theorem encMopR_eq_iff {n : BitVec 5} {rs1 rd : Reg} {w : BitVec 32} :
    encMopR n rs1 rd = w ↔
      w.extractLsb' 31 1 = 1 ∧ w.extractLsb' 28 2 = 0 ∧ w.extractLsb' 25 1 = 0 ∧ w.extractLsb' 22 3 = 7 ∧
      w.extractLsb' 30 1 ++ w.extractLsb' 26 2 ++ w.extractLsb' 20 2 = n ∧
      fRs1 w = rs1 ∧ fFunct3 w = 4 ∧ fRd w = rd ∧ fOpcode w = opSystem := by
  conv_lhs => rw [← BitVec.extractLsb'_eq_self (x := w), encMopR]
  iterate 10 erw [append_eq_field_iff]
  conv_rhs => rw [← BitVec.extractLsb'_eq_self (x := n)]
  iterate 2 erw [append_eq_field_iff]
  simp only [Nat.reduceAdd, fRs1, fFunct3, fRd, fOpcode]
  grind

theorem encMopRR_eq_iff {n : BitVec 3} {rs2 rs1 rd : Reg} {w : BitVec 32} :
    encMopRR n rs2 rs1 rd = w ↔
      w.extractLsb' 31 1 = 1 ∧ w.extractLsb' 28 2 = 0 ∧ w.extractLsb' 25 1 = 1 ∧
      w.extractLsb' 30 1 ++ w.extractLsb' 26 2 = n ∧
      fRs2 w = rs2 ∧ fRs1 w = rs1 ∧ fFunct3 w = 4 ∧ fRd w = rd ∧ fOpcode w = opSystem := by
  conv_lhs => rw [← BitVec.extractLsb'_eq_self (x := w), encMopRR]
  iterate 9 erw [append_eq_field_iff]
  conv_rhs => rw [← BitVec.extractLsb'_eq_self (x := n)]
  erw [append_eq_field_iff]
  simp only [Nat.reduceAdd, fRs2, fRs1, fFunct3, fRd, fOpcode]
  grind

/-! ### The fields of the 16-bit formats (30_encoding.md R122, 49_base_subset.md R410, R434) -/

theorem encCR_eq_iff {f4 : BitVec 4} {rd rs2 : Reg} {op : BitVec 2} {h : BitVec 16} :
    encCR f4 rd rs2 op = h ↔
      cFunct3 h = f4.extractLsb' 1 3 ∧ cBit12 h = f4.extractLsb' 0 1 ∧ cRd h = rd ∧ cRs2 h = rs2 ∧ cOp h = op := by
  conv_lhs => rw [← BitVec.extractLsb'_eq_self (x := h), encCR, ← BitVec.extractLsb'_eq_self (x := f4),
    ← extractLsb'_append_adjacent f4 0 3 1]
  iterate 4 erw [append_eq_field_iff]
  simp only [Nat.reduceAdd, cFunct3, cBit12, cRd, cRs2, cOp]
  grind

theorem encCI_eq_iff {f3 : BitVec 3} {rd : Reg} {imm : BitVec 6} {op : BitVec 2} {h : BitVec 16} :
    encCI f3 rd imm op = h ↔ cFunct3 h = f3 ∧ cRd h = rd ∧ cImm6 h = imm ∧ cOp h = op := by
  conv_lhs => rw [← BitVec.extractLsb'_eq_self (x := h), encCI]
  iterate 4 erw [append_eq_field_iff]
  conv_rhs => rw [← BitVec.extractLsb'_eq_self (x := imm), cImm6]
  erw [append_eq_field_iff]
  simp only [Nat.reduceAdd, cFunct3, cBit12, cRd, cRs2, cOp]
  grind

theorem encCLdsp_eq_iff {rd : Reg} {off : BitVec 6} {h : BitVec 16} :
    encCLdsp rd off = h ↔ cFunct3 h = 3 ∧ cRd h = rd ∧ cOffLdsp h = off ∧ cOp h = 2 := by
  conv_lhs => rw [← BitVec.extractLsb'_eq_self (x := h), encCLdsp]
  iterate 5 erw [append_eq_field_iff]
  conv_rhs => rw [← BitVec.extractLsb'_eq_self (x := off), cOffLdsp]
  iterate 2 erw [append_eq_field_iff]
  simp only [Nat.reduceAdd, cFunct3, cRd, cOp]
  grind

theorem encCSdsp_eq_iff {rs2 : Reg} {off : BitVec 6} {h : BitVec 16} :
    encCSdsp rs2 off = h ↔ cFunct3 h = 7 ∧ cOffSdsp h = off ∧ cRs2 h = rs2 ∧ cOp h = 2 := by
  conv_lhs => rw [← BitVec.extractLsb'_eq_self (x := h), encCSdsp]
  iterate 4 erw [append_eq_field_iff]
  conv_rhs => rw [← BitVec.extractLsb'_eq_self (x := off), cOffSdsp]
  erw [append_eq_field_iff]
  simp only [Nat.reduceAdd, cFunct3, cRs2, cOp]
  grind

theorem encCMem_eq_iff {f3 : BitVec 3} {off : BitVec 5} {rs1 rd : BitVec 3} {h : BitVec 16} :
    encCMem f3 off rs1 rd = h ↔ cFunct3 h = f3 ∧ cOffMem h = off ∧ cRs1P h = rs1 ∧ cRdP h = rd ∧ cOp h = 0 := by
  conv_lhs => rw [← BitVec.extractLsb'_eq_self (x := h), encCMem]
  iterate 5 erw [append_eq_field_iff]
  conv_rhs => rw [← BitVec.extractLsb'_eq_self (x := off), cOffMem]
  erw [append_eq_field_iff]
  simp only [Nat.reduceAdd, cFunct3, cRs1P, cRdP, cOp]
  grind

theorem encCAddi16sp_eq_iff {imm : BitVec 6} {h : BitVec 16} :
    encCAddi16sp imm = h ↔ cFunct3 h = 3 ∧ cRd h = 2 ∧ cImmAddi16sp h = imm ∧ cOp h = 1 := by
  conv_lhs => rw [← BitVec.extractLsb'_eq_self (x := h), encCAddi16sp]
  iterate 7 erw [append_eq_field_iff]
  conv_rhs => rw [← BitVec.extractLsb'_eq_self (x := imm), cImmAddi16sp]
  iterate 4 erw [append_eq_field_iff]
  simp only [Nat.reduceAdd, cFunct3, cRd, cOp]
  grind

theorem encCJ_eq_iff {f3 : BitVec 3} {off : BitVec 11} {h : BitVec 16} :
    encCJ f3 off = h ↔ cFunct3 h = f3 ∧ cOffJ h = off ∧ cOp h = 1 := by
  conv_lhs => rw [← BitVec.extractLsb'_eq_self (x := h), encCJ]
  iterate 9 erw [append_eq_field_iff]
  conv_rhs => rw [← BitVec.extractLsb'_eq_self (x := off), cOffJ]
  iterate 7 erw [append_eq_field_iff]
  simp only [Nat.reduceAdd, cFunct3, cOp]
  grind

/-- C.ADDI16SP and C.LUI hold the same six bits in another order, so both exclude the same parcels. -/
theorem cImmAddi16sp_eq_zero_iff {h : BitVec 16} : cImmAddi16sp h = 0#6 ↔ cImm6 h = 0#6 := by
  have hrs2 : cRs2 h = h.extractLsb' 6 1 ++ h.extractLsb' 5 1 ++ h.extractLsb' 3 2 ++ h.extractLsb' 2 1 := by
    rw [extractLsb'_append_adjacent h 5 1 1, extractLsb'_append_adjacent h 3 2 2, extractLsb'_append_adjacent h 2 4 1]
    rfl
  rw [cImmAddi16sp, cImm6, hrs2, ← BitVec.extractLsb'_eq_self (x := 0#6)]
  iterate 8 erw [append_eq_field_iff]
  simp only [Nat.reduceAdd, BitVec.extractLsb'_zero, cBit12]
  tauto

/-- The low five bits of the I-immediate stand where rs2 does. -/
theorem fFunct12_low (w : BitVec 32) : (fFunct12 w).extractLsb' 0 5 = fRs2 w := by
  ext i hi
  have h : i < 12 := by omega
  simp [fFunct12, fRs2, h]

end Sys2Proof
end

section
/-! What the decoder reads: only instructions of the hart, from their encodings (30_encoding.md R139 to R142). A decoder
is a tree of tests. `Reads` of a choice is `Reads` of both branches under the test, and at a leaf the lemma of the
format leaves the tests passed on the way. -/

namespace Sys2Proof

/-- Whatever instruction the decoder answers, the hart has it and its encoding is `e`. -/
def Reads (c : Cfg) (e : Encoding) (o : Option Instr) : Prop :=
  ∀ i, o = some i → i.wellFormed c = true ∧ encodeBits i = e

section
variable {c : Cfg} {e : Encoding}

@[simp] theorem reads_none : Reads c e none := fun _ h => by cases h

@[simp] theorem reads_some {i : Instr} : Reads c e (some i) ↔ i.wellFormed c = true ∧ encodeBits i = e :=
  ⟨fun h => h i rfl, fun h _ hj => Option.some.inj hj ▸ h⟩

@[simp] theorem reads_whenHas {b : Bool} {i : Instr} :
    Reads c e (whenHas b i) ↔ (b = true → i.wellFormed c = true ∧ encodeBits i = e) := by
  cases b <;> simp [whenHas]

@[simp] theorem reads_ite {p : Prop} [Decidable p] {a b : Option Instr} :
    Reads c e (if p then a else b) ↔ (p → Reads c e a) ∧ (¬ p → Reads c e b) := by
  by_cases h : p <;> simp [h]

/-- A choice on a code point: the test fails as `Instr.wellFormed` says it. -/
theorem reads_ite_bool {b : Bool} {o p : Option Instr} :
    Reads c e (if b then o else p) ↔ (b = true → Reads c e o) ∧ ((!b) = true → Reads c e p) := by
  cases b <;> simp

end

/-! ### The MOPs by their number -/

theorem encodeBits_mopROf (n : BitVec 5) (rd rs1 : Reg) : encodeBits (mopROf n rd rs1) = .w32 (encMopR n rs1 rd) := by
  obtain ⟨⟨k, hk⟩⟩ := n
  interval_cases k <;> rfl

theorem encodeBits_mopRROf (n : BitVec 3) (rd rs1 rs2 : Reg) :
    encodeBits (mopRROf n rd rs1 rs2) = .w32 (encMopRR n rs2 rs1 rd) := by
  obtain ⟨⟨k, hk⟩⟩ := n
  interval_cases k <;> rfl

theorem wellFormed_mopROf (c : Cfg) (n : BitVec 5) (rd rs1 : Reg) :
    (mopROf n rd rs1).wellFormed c = (c.ext.zimop && !(c.ext.zicfiss && (n == 28 && isSsMopR28 rd rs1))) := by
  obtain ⟨⟨k, hk⟩⟩ := n
  interval_cases k <;> simp [mopROf, Instr.wellFormed]

theorem wellFormed_mopRROf (c : Cfg) (n : BitVec 3) (rd rs1 rs2 : Reg) :
    (mopRROf n rd rs1 rs2).wellFormed c = (c.ext.zimop && !(c.ext.zicfiss && (n == 7 && isSsMopRR7 rd rs1 rs2))) := by
  obtain ⟨⟨k, hk⟩⟩ := n
  interval_cases k <;> simp [mopRROf, Instr.wellFormed]

/-! ### The code points that two instructions share (30_encoding.md R139, 46_cfi.md R332) -/

theorem isNtlAdd_iff {rd rs1 rs2 : Reg} : isNtlAdd rd rs1 rs2 = true ↔
    rd = 0 ∧ rs1 = 0 ∧ (rs2 = 2 ∨ rs2 = 3 ∨ rs2 = 4 ∨ rs2 = 5) := by
  simp [isNtlAdd, and_assoc, or_assoc]

theorem isPrefetchOri_iff {w : BitVec 32} : isPrefetchOri (fRd w) (fFunct12 w) = true ↔
    fRd w = 0 ∧ (fRs2 w = 0 ∨ fRs2 w = 1 ∨ fRs2 w = 3) := by
  simp [isPrefetchOri, fFunct12_low, or_assoc]

theorem isSsMopR28_iff {rd rs1 : Reg} :
    isSsMopR28 rd rs1 = true ↔ (rd = 0 ∧ (rs1 = 1 ∨ rs1 = 5)) ∨ (rd ≠ 0 ∧ rs1 = 0) := by
  simp [isSsMopR28]

theorem isSsMopRR7_iff {rd rs1 rs2 : Reg} :
    isSsMopRR7 rd rs1 rs2 = true ↔ rd = 0 ∧ rs1 = 0 ∧ (rs2 = 1 ∨ rs2 = 5) := by
  simp [isSsMopRR7, and_assoc]

theorem funct3_cases (f : BitVec 3) : f = 0 ∨ f = 1 ∨ f = 2 ∨ f = 3 ∨ f = 4 ∨ f = 5 ∨ f = 6 ∨ f = 7 := by
  bv_omega

/-! ### What each decoder reads -/

section
variable {c : Cfg} {w : BitVec 32} {h : BitVec 16}

theorem decLoad_reads (h : fOpcode w = opLoad) : Reads c (.w32 w) (decLoad c w) := by
  simp +contextual [decLoad, Instr.wellFormed, encodeBits, encI_eq_iff, h]

theorem decStore_reads (h : fOpcode w = opStore) : Reads c (.w32 w) (decStore c w) := by
  simp +contextual [decStore, Instr.wellFormed, encodeBits, encS_eq_iff, h]

theorem decMiscMem_reads (h : fOpcode w = opMiscMem) : Reads c (.w32 w) (decMiscMem c w) := by
  simp +contextual [decMiscMem, Instr.wellFormed, encodeBits, encI_eq_iff, encFence_eq_iff, isPauseFence, h,
    -Bool.not_and]

theorem decOpImm_reads (h : fOpcode w = opOpImm) : Reads c (.w32 w) (decOpImm c w) := by
  unfold decOpImm
  refine reads_ite.mpr ⟨fun h3 => ?addi, fun _ => reads_ite.mpr ⟨fun h3 => reads_ite_bool.mpr
    ⟨fun hp => ?prefetch, fun hp => ?ori⟩, fun _ => reads_none⟩⟩
  case addi => simp [Instr.wellFormed, encodeBits, encI_eq_iff, h3, h]
  case ori => exact reads_some.mpr ⟨hp, by simp [encodeBits, encI_eq_iff, h3, h]⟩
  case prefetch =>
    rw [Bool.and_eq_true, isPrefetchOri_iff] at hp
    obtain ⟨hz, hrd, h2 | h2 | h2⟩ := hp <;>
    simp [Instr.wellFormed, encodeBits, encR_eq_iff, hz, hrd, h2, h3, h]

theorem decOp_reads (h : fOpcode w = opOp) : Reads c (.w32 w) (decOp c w) := by
  unfold decOp
  refine reads_ite.mpr ⟨fun h7 => reads_ite.mpr ⟨fun h3 => reads_ite_bool.mpr ⟨fun hn => ?ntl, fun hn => ?add⟩,
    ?logic⟩, fun _ => reads_ite.mpr ⟨fun h7 => ?sub, fun _ => reads_ite.mpr ⟨fun h7 => ?m, fun _ => ?zicond⟩⟩⟩
  case ntl =>
    rw [Bool.and_eq_true, isNtlAdd_iff] at hn
    obtain ⟨hz, hrd, hrs1, h2 | h2 | h2 | h2⟩ := hn <;>
    simp [Instr.wellFormed, encodeBits, encR_eq_iff, hz, hrd, hrs1, h2, h7, h3, h]
  case add => exact reads_some.mpr ⟨hn, by simp [encodeBits, encR_eq_iff, h7, h3, h]⟩
  case logic => simp +contextual [Instr.wellFormed, encodeBits, encR_eq_iff, h7, h]
  case sub => simp +contextual [Instr.wellFormed, encodeBits, encR_eq_iff, h7, h]
  case zicond => simp +contextual [Instr.wellFormed, encodeBits, encR_eq_iff, h]
  case m =>
    rcases funct3_cases (fFunct3 w) with h3 | h3 | h3 | h3 | h3 | h3 | h3 | h3 <;>
    simp [Instr.wellFormed, encodeBits, encR_eq_iff, h7, h3, h]

theorem decOp32_reads (h : fOpcode w = opOp32) : Reads c (.w32 w) (decOp32 c w) := by
  simp +contextual [decOp32, Instr.wellFormed, encodeBits, encR_eq_iff, h]

theorem decAmo_reads (h : fOpcode w = opAmo) : Reads c (.w32 w) (decAmo c w) := by
  simp +contextual [decAmo, Instr.wellFormed, encodeBits, encAmo_eq_iff, h]

theorem decMop_reads (h : fOpcode w = opSystem) (h3 : fFunct3 w = 4) : Reads c (.w32 w) (decMop c w) := by
  unfold decMop
  refine reads_ite.mpr ⟨fun h31 => reads_ite.mpr ⟨fun h28 => reads_ite.mpr
    ⟨fun h25 => reads_ite_bool.mpr ⟨fun hs => ?push, fun hs => ?mopRR⟩, fun h25 => reads_ite.mpr
    ⟨fun h22 => reads_ite_bool.mpr ⟨fun hs => ?ss, fun hs => ?mopR⟩, fun _ => reads_none⟩⟩,
    fun _ => reads_none⟩, fun _ => reads_none⟩
  case mopRR =>
    refine reads_whenHas.mpr fun hz => ⟨by rw [wellFormed_mopRROf, hz, hs]; rfl, ?_⟩
    simp [encodeBits_mopRROf, encMopRR_eq_iff, h31, h28, h25, h3, h]
  case mopR =>
    have h25 : w.extractLsb' 25 1 = 0 := by bv_omega
    refine reads_whenHas.mpr fun hz => ⟨by rw [wellFormed_mopROf, hz, hs]; rfl, ?_⟩
    simp [encodeBits_mopROf, encMopR_eq_iff, h31, h28, h25, h22, h3, h]
  case push =>
    rw [Bool.and_eq_true, Bool.and_eq_true, isSsMopRR7_iff] at hs
    obtain ⟨hz, hn, hrd, hrs1, h2 | h2⟩ := hs <;> rw [beq_iff_eq] at hn <;>
    simp [Instr.wellFormed, encodeBits, encMopRR_eq_iff, hz, hrd, hrs1, h2, hn, h31, h28, h25, h3, h]
  case ss =>
    have h25 : w.extractLsb' 25 1 = 0 := by bv_omega
    rw [Bool.and_eq_true, Bool.and_eq_true, isSsMopR28_iff] at hs
    obtain ⟨hz, hn, ⟨hrd, h1⟩ | ⟨hrd, h1⟩⟩ := hs <;> rw [beq_iff_eq] at hn
    · rcases h1 with h1 | h1 <;>
      simp [Instr.wellFormed, encodeBits, encMopR_eq_iff, hz, hrd, h1, hn, h31, h28, h25, h22, h3, h]
    · simpa [Instr.wellFormed, encodeBits, encMopR_eq_iff, hz, h1, hn, h31, h28, h25, h22, h3, h] using hrd

theorem decSystem_reads (h : fOpcode w = opSystem) : Reads c (.w32 w) (decSystem c w) := by
  rcases funct3_cases (fFunct3 w) with h3 | h3 | h3 | h3 | h3 | h3 | h3 | h3 <;>
  simp +contextual [decSystem, Instr.wellFormed, encodeBits, encI_eq_iff, decMop_reads, h3, h]

theorem decBranch_reads (h : fOpcode w = opBranch) : Reads c (.w32 w) (decBranch w) := by
  simp +contextual [decBranch, Instr.wellFormed, encodeBits, encB_eq_iff, h]

theorem decode32_reads (c : Cfg) (w : BitVec 32) : Reads c (.w32 w) (decode32 c w) := by
  have auipc (h : fOpcode w = opAuipc) : Reads c (.w32 w)
      (some (if c.ext.zicfilp && fRd w == 0 then .lpad (fImm20 w) else .auipc (fRd w) (fImm20 w))) := by
    rw [apply_ite some, reads_ite_bool]
    simp +contextual [Instr.wellFormed, encodeBits, encU_eq_iff, h, -Bool.not_and]
  have lui (h : fOpcode w = opLui) : Reads c (.w32 w) (some (.lui (fRd w) (fImm20 w))) := by
    simp [Instr.wellFormed, encodeBits, encU_eq_iff, h]
  have jalr (h : fOpcode w = opJalr) : Reads c (.w32 w)
      (if fFunct3 w = 0 then some (.jalr (fRd w) (fRs1 w) (fFunct12 w)) else none) := by
    simp +contextual [Instr.wellFormed, encodeBits, encI_eq_iff, h]
  have jal (h : fOpcode w = opJal) : Reads c (.w32 w) (some (.jal (fRd w) (fImmJ w))) := by
    simp [Instr.wellFormed, encodeBits, encJ_eq_iff, h]
  unfold decode32
  simp only [reads_ite (p := _ = _)]
  exact ⟨decLoad_reads, fun _ => ⟨decMiscMem_reads, fun _ => ⟨decOpImm_reads, fun _ => ⟨auipc, fun _ =>
    ⟨decStore_reads, fun _ => ⟨decAmo_reads, fun _ => ⟨decOp_reads, fun _ => ⟨lui, fun _ => ⟨decOp32_reads, fun _ =>
    ⟨decBranch_reads, fun _ => ⟨fun h => reads_ite.mp (jalr h), fun _ => ⟨jal, fun _ => ⟨decSystem_reads, fun _ =>
    reads_none⟩⟩⟩⟩⟩⟩⟩⟩⟩⟩⟩⟩⟩

theorem cMopOf_reads (hz : c.ext.zca = true) (hm : c.ext.zcmop = true) (n : Reg) :
    Reads c (.w16 (encCI 3 n 0 1)) (cMopOf c n) := by
  obtain ⟨⟨k, hk⟩⟩ := n
  cases hs : c.ext.zicfiss <;> interval_cases k <;> simp [cMopOf, Instr.wellFormed, encodeBits, hz, hm, hs]

theorem decC0_reads (hz : c.ext.zca = true) (ho : cOp h = 0) : Reads c (.w16 h) (decC0 c h) := by
  simp +contextual [decC0, Instr.wellFormed, encodeBits, encCMem_eq_iff, hz, ho]

theorem decC1_reads (hz : c.ext.zca = true) (ho : cOp h = 1) : Reads c (.w16 h) (decC1 c h) := by
  have mop (h3 : cFunct3 h = 3#3) (hi : cImm6 h = 0#6) (hm : c.ext.zcmop = true) :
      Reads c (.w16 h) (cMopOf c (cRd h)) := by
    have he : encCI 3 (cRd h) 0 1 = h := encCI_eq_iff.mpr ⟨h3, rfl, hi, ho⟩
    simpa only [he] using cMopOf_reads hz hm (cRd h)
  simp +contextual [decC1, Instr.wellFormed, encodeBits, encCI_eq_iff, encCJ_eq_iff, encCAddi16sp_eq_iff,
    cImmAddi16sp_eq_zero_iff, hz, ho, mop]

theorem decC2_reads (hz : c.ext.zca = true) (ho : cOp h = 2) : Reads c (.w16 h) (decC2 c h) := by
  unfold decC2
  refine reads_ite.mpr ⟨fun h3 => ?ldsp, fun _ => reads_ite.mpr ⟨fun h3 => ?sdsp, fun _ => reads_ite.mpr
    ⟨fun h3 => reads_ite.mpr ⟨fun hb => ?jr, fun hb => reads_ite.mpr ⟨fun h2 => ?jalr, fun h2 => reads_ite_bool.mpr
    ⟨fun hn => ?ntl, fun hn => ?add⟩⟩⟩, fun _ => reads_none⟩⟩⟩
  case ldsp => simp +contextual [Instr.wellFormed, encodeBits, encCLdsp_eq_iff, hz, h3, ho]
  case sdsp => simp +contextual [Instr.wellFormed, encodeBits, encCSdsp_eq_iff, hz, h3, ho]
  case jr => simp +contextual [Instr.wellFormed, encodeBits, encCR_eq_iff, hz, hb, h3, ho]
  all_goals have hb : cBit12 h = 1 := by bv_omega
  case jalr =>
    rw [apply_ite some]
    simp +contextual [Instr.wellFormed, encodeBits, encCR_eq_iff, hz, h2, hb, h3, ho]
  case ntl =>
    rw [Bool.and_eq_true, isNtlAdd_iff] at hn
    obtain ⟨hi, hrd, -, h2 | h2 | h2 | h2⟩ := hn <;>
    simp [Instr.wellFormed, encodeBits, encCR_eq_iff, hi, hz, hrd, h2, hb, h3, ho]
  case add =>
    refine reads_some.mpr ⟨?_, by simp [encodeBits, encCR_eq_iff, hb, h3, ho]⟩
    rw [Instr.wellFormed, hn, hz]
    simpa using h2

theorem decode16_reads (c : Cfg) (h : BitVec 16) : Reads c (.w16 h) (decode16 c h) := by
  simp only [decode16, reads_ite, reads_none]
  exact ⟨fun hz => ⟨decC0_reads hz, fun _ => ⟨decC1_reads hz, fun _ => ⟨decC2_reads hz, fun _ => trivial⟩⟩⟩,
    fun _ => trivial⟩

end

end Sys2Proof
end

section
/-! The decoder reads every instruction of the hart from its encoding, and the round trips on bytes. -/

namespace Sys2Proof

/-! ### Reading an encoding -/

/-- The decoder that the length of an encoding selects. -/
def Encoding.read (c : Cfg) : Encoding → Option Instr
  | .w16 h => decode16 c h
  | .w32 w => decode32 c w

@[simp] theorem Encoding.read_w16 (c : Cfg) (h : BitVec 16) : (Encoding.w16 h).read c = decode16 c h := rfl

@[simp] theorem Encoding.read_w32 (c : Cfg) (w : BitVec 32) : (Encoding.w32 w).read c = decode32 c w := rfl

@[simp] theorem whenHas_true (i : Instr) : whenHas true i = some i := rfl

section
variable {c : Cfg} {w : BitVec 32} {h : BitVec 16}

theorem decode32_load (ho : fOpcode w = opLoad) : decode32 c w = decLoad c w := by rw [decode32, ho]; rfl
theorem decode32_miscMem (ho : fOpcode w = opMiscMem) : decode32 c w = decMiscMem c w := by rw [decode32, ho]; rfl
theorem decode32_opImm (ho : fOpcode w = opOpImm) : decode32 c w = decOpImm c w := by rw [decode32, ho]; rfl
theorem decode32_auipc (ho : fOpcode w = opAuipc) : decode32 c w =
    some (if c.ext.zicfilp && fRd w == 0 then .lpad (fImm20 w) else .auipc (fRd w) (fImm20 w)) := by
  rw [decode32, ho]; rfl
theorem decode32_store (ho : fOpcode w = opStore) : decode32 c w = decStore c w := by rw [decode32, ho]; rfl
theorem decode32_amo (ho : fOpcode w = opAmo) : decode32 c w = decAmo c w := by rw [decode32, ho]; rfl
theorem decode32_op (ho : fOpcode w = opOp) : decode32 c w = decOp c w := by rw [decode32, ho]; rfl
theorem decode32_lui (ho : fOpcode w = opLui) : decode32 c w = some (.lui (fRd w) (fImm20 w)) := by
  rw [decode32, ho]; rfl
theorem decode32_op32 (ho : fOpcode w = opOp32) : decode32 c w = decOp32 c w := by rw [decode32, ho]; rfl
theorem decode32_branch (ho : fOpcode w = opBranch) : decode32 c w = decBranch w := by rw [decode32, ho]; rfl
theorem decode32_jalr (ho : fOpcode w = opJalr) (h3 : fFunct3 w = 0) :
    decode32 c w = some (.jalr (fRd w) (fRs1 w) (fFunct12 w)) := by rw [decode32, ho, h3]; rfl
theorem decode32_jal (ho : fOpcode w = opJal) : decode32 c w = some (.jal (fRd w) (fImmJ w)) := by
  rw [decode32, ho]; rfl
theorem decode32_system (ho : fOpcode w = opSystem) : decode32 c w = decSystem c w := by rw [decode32, ho]; rfl

theorem decode16_c0 (hz : c.ext.zca = true) (ho : cOp h = 0) : decode16 c h = decC0 c h := by simp [decode16, hz, ho]
theorem decode16_c1 (hz : c.ext.zca = true) (ho : cOp h = 1) : decode16 c h = decC1 c h := by simp [decode16, hz, ho]
theorem decode16_c2 (hz : c.ext.zca = true) (ho : cOp h = 2) : decode16 c h = decC2 c h := by simp [decode16, hz, ho]

end

/-- An instruction that the hart has is read from its encoding: by the major opcodes, then by the quadrants. -/
theorem read_encodeBits {c : Cfg} {i : Instr} (hw : i.wellFormed c = true) : (encodeBits i).read c = some i := by
  cases i
  case lw | ldRv64 | ldPair =>
    simp_all [Instr.wellFormed, encodeBits, decode32_load, decLoad]
  case sh | sw | sdRv64 | sdPair =>
    simp_all [Instr.wellFormed, encodeBits, decode32_store, decStore, encS_eq_iff.mp rfl]
  case fenceI | fence | pause | cboInval | cboClean | cboFlush | cboZero =>
    simp_all [Instr.wellFormed, encodeBits, decode32_miscMem, decMiscMem, encFence_eq_iff.mp rfl, isPauseFence,
      -Bool.not_and]
  case addi | ori | prefetchI | prefetchR | prefetchW =>
    simp_all [Instr.wellFormed, encodeBits, decode32_opImm, decOpImm, isPrefetchOri, fFunct12_low, -Bool.not_and]
  case auipc | lpad =>
    simp_all [Instr.wellFormed, encodeBits, decode32_auipc, -Bool.not_and]
  case lui => simp [encodeBits, decode32_lui]
  case jal => simp [encodeBits, decode32_jal, encJ_eq_iff.mp rfl]
  case jalr => simp [encodeBits, decode32_jalr]
  case beq | bne => simp [encodeBits, decode32_branch, decBranch, encB_eq_iff.mp rfl]
  case add | sub | and | or | xor | ntlP1 | ntlPall | ntlS1 | ntlAll | mul | mulh | mulhsu | mulhu | div | divu | rem |
      remu | czeroEqz | czeroNez =>
    simp_all [Instr.wellFormed, encodeBits, decode32_op, decOp, isNtlAdd, -Bool.not_and]
  case mulw | divw | divuw | remw | remuw =>
    simp_all [Instr.wellFormed, encodeBits, decode32_op32, decOp32]
  case ssamoswapW | ssamoswapD =>
    simp_all [Instr.wellFormed, encodeBits, decode32_amo, decAmo, encAmo_eq_iff.mp rfl]
  case ecall | ebreak | csrrw | csrrs | csrrc | csrrwi | csrrsi | csrrci =>
    simp_all [Instr.wellFormed, encodeBits, decode32_system, decSystem]
  case mopR0 | mopR1 | mopR2 | mopR3 | mopR4 | mopR5 | mopR6 | mopR7 | mopR8 | mopR9 | mopR10 | mopR11 | mopR12 |
      mopR13 | mopR14 | mopR15 | mopR16 | mopR17 | mopR18 | mopR19 | mopR20 | mopR21 | mopR22 | mopR23 | mopR24 |
      mopR25 | mopR26 | mopR27 | mopR28 | mopR29 | mopR30 | mopR31 | ssrdp | sspopchkX1 | sspopchkX5 =>
    simp_all [Instr.wellFormed, encodeBits, decode32_system, decSystem, decMop, mopROf, isSsMopR28,
      encMopR_eq_iff.mp rfl, -Bool.not_and]
  case mopRR0 | mopRR1 | mopRR2 | mopRR3 | mopRR4 | mopRR5 | mopRR6 | mopRR7 | sspushX1 | sspushX5 =>
    simp_all [Instr.wellFormed, encodeBits, decode32_system, decSystem, decMop, mopRROf, isSsMopRR7,
      encMopRR_eq_iff.mp rfl, -Bool.not_and]
  case cLdRv64 | cSdRv64 | cLdPair | cSdPair =>
    simp_all [Instr.wellFormed, encodeBits, decode16_c0, decC0, encCMem_eq_iff.mp rfl]
  case cMop1 | cMop3 | cMop5 | cMop7 | cMop9 | cMop11 | cMop13 | cMop15 | cSspushX1 | cSspopchkX5 =>
    simp_all [Instr.wellFormed, encodeBits, decode16_c1, decC1, cMopOf, encCI_eq_iff.mp rfl]
  case cAddi | cLi | cLui => simp_all [Instr.wellFormed, encodeBits, decode16_c1, decC1, encCI_eq_iff.mp rfl]
  case cAddi16sp =>
    simp_all [Instr.wellFormed, encodeBits, decode16_c1, decC1, encCAddi16sp_eq_iff.mp rfl,
      ← cImmAddi16sp_eq_zero_iff]
  case cJ | cJal => simp_all [Instr.wellFormed, encodeBits, decode16_c1, decC1, encCJ_eq_iff.mp rfl]
  case cLdspRv64 | cLdspPair =>
    simp_all [Instr.wellFormed, encodeBits, decode16_c2, decC2, encCLdsp_eq_iff.mp rfl, whenHas]
  case cSdspRv64 | cSdspPair =>
    simp_all [Instr.wellFormed, encodeBits, decode16_c2, decC2, encCSdsp_eq_iff.mp rfl]
  case cJr | cJalr | cEbreak | cAdd | cNtlP1 | cNtlPall | cNtlS1 | cNtlAll =>
    simp_all [Instr.wellFormed, encodeBits, decode16_c2, decC2, encCR_eq_iff.mp rfl, isNtlAdd, whenHas,
      -Bool.not_and]

theorem reads_encoding (c : Cfg) (e : Encoding) : Reads c e (e.read c) := by
  cases e with
  | w16 h => exact decode16_reads c h
  | w32 w => exact decode32_reads c w

/-- The decoder reads an encoding as an instruction exactly where the hart has it and it has that encoding. -/
theorem Encoding.read_eq_some_iff {c : Cfg} {e : Encoding} {i : Instr} :
    e.read c = some i ↔ i.wellFormed c = true ∧ encodeBits i = e :=
  ⟨reads_encoding c e i, fun ⟨hw, he⟩ => he ▸ read_encodeBits hw⟩

/-! ### Bytes -/

/-- A word that is an instruction has the length bits of a word. -/
theorem fOpcode_low_of_decode32 {c : Cfg} {w : BitVec 32} {i : Instr} (hd : decode32 c w = some i) :
    (fOpcode w).extractLsb' 0 2 = 3 := by
  have hlow : ∀ op ∈ [opLoad, opMiscMem, opOpImm, opAuipc, opStore, opAmo, opOp, opLui, opOp32, opBranch, opJalr,
      opJal, opSystem], op.extractLsb' 0 2 = 3 := by decide
  apply hlow
  by_contra hn
  simp only [List.mem_cons, List.not_mem_nil, not_or] at hn
  simp [decode32, hn] at hd

/-- A parcel that is an instruction has those of a parcel. -/
theorem cOp_ne_of_decode16 {c : Cfg} {h : BitVec 16} {i : Instr} (hd : decode16 c h = some i) : cOp h ≠ 3 := by
  intro ho
  simp [decode16, ho] at hd

theorem bytes_wordOf (b0 b1 b2 b3 : Byte) : (Encoding.w32 (wordOf b0 b1 b2 b3)).bytes = [b0, b1, b2, b3] := by
  have hw : b3 ++ b2 ++ b1 ++ b0 = (wordOf b0 b1 b2 b3).extractLsb' 0 32 := BitVec.extractLsb'_eq_self.symm
  iterate 3 erw [append_eq_field_iff] at hw
  obtain ⟨⟨⟨h3, h2⟩, h1⟩, h0⟩ := hw
  simp only [Encoding.bytes, List.cons.injEq, and_true]
  exact ⟨h0.symm, h1.symm, h2.symm, h3.symm⟩

theorem bytes_parcelOf (b0 b1 : Byte) : (Encoding.w16 (parcelOf b0 b1)).bytes = [b0, b1] := by
  have hw : b1 ++ b0 = (parcelOf b0 b1).extractLsb' 0 16 := BitVec.extractLsb'_eq_self.symm
  erw [append_eq_field_iff] at hw
  obtain ⟨h1, h0⟩ := hw
  simp only [Encoding.bytes, List.cons.injEq, and_true]
  exact ⟨h0.symm, h1.symm⟩

/-- The decoder reads an encoding from its bytes and leaves the bytes after it. -/
theorem decode_bytes_append {c : Cfg} {e : Encoding} {i : Instr} (he : e.read c = some i) (rest : List Byte) :
    decode c (e.bytes ++ rest) = .ok (i, rest) := by
  cases e with
  | w16 h =>
    have hl := isLongByte_of_cOp h (cOp_ne_of_decode16 he)
    rw [Encoding.read_w16] at he
    simp [decode, Encoding.bytes, hl, parcelOf_bytes, he]
  | w32 w =>
    have hl := isLongByte_of_op w (fOpcode_low_of_decode32 he)
    rw [Encoding.read_w32] at he
    simp [decode, Encoding.bytes, hl, wordOf_bytes, he]

/-- Bytes that decode begin with the encoding read. -/
theorem read_of_decode {c : Cfg} {i : Instr} {bytes rest : List Byte} (hd : decode c bytes = .ok (i, rest)) :
    ∃ e : Encoding, e.read c = some i ∧ bytes = e.bytes ++ rest := by
  unfold decode at hd
  split at hd
  case h_2 => cases hd
  case h_1 b0 b1 tail =>
    split at hd
    · split at hd
      case h_2 => cases hd
      case h_1 b2 b3 tail' =>
        split at hd
        case h_2 => cases hd
        case h_1 j hj =>
          cases hd
          exact ⟨.w32 (wordOf b0 b1 b2 b3), hj, by rw [bytes_wordOf]; rfl⟩
    · split at hd
      case h_2 => cases hd
      case h_1 j hj =>
        cases hd
        exact ⟨.w16 (parcelOf b0 b1), hj, by rw [bytes_parcelOf]; rfl⟩

/-! ### The round trips -/

/-- Settles O4: an instruction of the hart is read from its encoding, and an encoding from its bytes. -/
theorem decodeOfEncode : Obligations.DecodeOfEncode :=
  fun _ _ rest hw => decode_bytes_append (read_encodeBits hw) rest

/-- Settles O5: bytes that decode begin with an encoding, and every decoder reads only what encodes to it. -/
theorem encodeOfDecode : Obligations.EncodeOfDecode := by
  intro c i bytes rest hd
  obtain ⟨e, he, hb⟩ := read_of_decode hd
  obtain ⟨hw, rfl⟩ := Encoding.read_eq_some_iff.mp he
  exact ⟨hw, hb⟩

/-- Settles O3, by evaluation of the decoder. -/
theorem sampleWordsDecode : Obligations.SampleWordsDecode :=
  ⟨rfl, rfl, rfl, rfl, rfl, rfl, rfl, rfl, rfl⟩

end Sys2Proof
end

section
/-! The immediates as integers (30_encoding.md R124, 49_base_subset.md R410, R431, R434). -/

namespace Sys2Proof.Machine

/-- A field with `k` zeros below it, sign-extended, is its signed value times `2 ^ k`. -/
theorem wrap_signExtend_append_zero (x : Xlen) {n k : Nat} (v : BitVec n) :
    wrap x ((v ++ 0#k).signExtend 64) = truncTo x (2 ^ k * v.toInt) := by
  rw [truncTo, BitVec.signExtend, BitVec.toInt_append_zero]

/-- The same without a sign, where the cell holds every bit. -/
theorem toNat_setWidth_append_zero {n k : Nat} (v : BitVec n) (h : n + k ≤ 64) :
    ((v ++ 0#k).setWidth 64).toNat = 2 ^ k * v.toNat := by
  rw [BitVec.toNat_setWidth_of_le h, BitVec.toNat_append]
  simp [Nat.shiftLeft_eq, Nat.mul_comm]

/-- Settles O19: each form is its field sign- or zero-extended over the zeros that its format appends. -/
theorem immediateValues : Obligations.ImmediateValues := by
  intro x i12 i20 i11 i6 i5
  exact ⟨immI_eq x i12, wrap_signExtend_append_zero x i20, wrap_signExtend_append_zero x i12,
    wrap_signExtend_append_zero x i20, wrap_signExtend_append_zero x i11, immCI_eq x i6,
    wrap_signExtend_append_zero x i6, immCAddi16sp_eq x i6, toNat_setWidth_append_zero i6 (by decide),
    toNat_setWidth_append_zero i5 (by decide), BitVec.toNat_setWidth_of_le (by decide)⟩

end Sys2Proof.Machine
end

section
/-! The count of the instructions that retire (41_zicsr_counters.md R192). -/

namespace Sys2Proof.Machine

/-- `t` counts one instruction more than `s` exactly where no exception is recorded in it. -/
def CountsRetired (s t : State) : Prop := t.instret = if t.trap = none then s.instret + 1 else s.instret

/-- Retiring without a recorded exception counts the instruction. -/
theorem SameFlow.countsRetired_of_retired {s u t : State} {a : Word} (h : SameFlow s u) (r : Retired u t a)
    (hs : s.trap = none) : CountsRetired s t := by
  have c := h.completed r
  rw [CountsRetired, if_pos (c.trap.trans hs), c.instret]

/-- The record of an exception leaves the count. -/
theorem SameFlow.countsRetired_of_raised {s u t : State} {c : Cause} {v : Word} (h : SameFlow s u)
    (r : Raised u t c v) : CountsRetired s t := by
  have ht : t.trap ≠ none := r.record ▸ Option.some_ne_none _
  rw [CountsRetired, if_neg ht, r.instret, h.instret]

/-- Every instruction that runs before any trap is counted exactly where it completes. -/
theorem exec_countsRetired {i : Instr} {s t : State} (hs : s.trap = none) (h : exec i s = .next t) :
    CountsRetired s t := by
  obtain ⟨u, hu, ⟨_, _, r⟩ | ⟨_, _, _, r⟩⟩ := exec_next h
  · exact hu.sameFlow.countsRetired_of_retired r hs
  · exact hu.sameFlow.countsRetired_of_raised r

/-- Settles O10: a step takes an exception before any instruction, or is the instruction it decoded. -/
theorem instretCountsRetired : Obligations.InstretCountsRetired := by
  intro s t h
  obtain ⟨hs, ⟨_, _, r⟩ | ⟨_, _, _, _, _, he⟩⟩ := step_next h
  · exact (SameFlow.refl s).countsRetired_of_raised r
  · exact exec_countsRetired hs he

end Sys2Proof.Machine
end

section
/-! Multiplication and division (42_m_zmmul.md): each operation as the integer it computes modulo 2^w, then the thirteen
instructions at the width XLEN and, in the W forms, at 32 bits. -/

namespace Sys2Proof.Machine

/-! ### The operations at a width -/

section Operations

variable {w : Nat} (a b : BitVec w)

theorem mulLow_eq_ofInt : mulLow w a b = BitVec.ofInt w (a.toNat * b.toNat) := by
  rw [← Int.natCast_mul, BitVec.ofInt_natCast, mulLow]

theorem mulHighSS_eq_ofInt : mulHighSS w a b = BitVec.ofInt w (a.toInt * b.toInt / 2 ^ w) := by
  rw [mulHighSS, Nat.cast_pow, Nat.cast_ofNat]

theorem mulHighSU_eq_ofInt : mulHighSU w a b = BitVec.ofInt w (a.toInt * b.toNat / 2 ^ w) := by
  rw [mulHighSU, Nat.cast_pow, Nat.cast_ofNat]

theorem mulHighUU_eq_ofInt : mulHighUU w a b = BitVec.ofInt w (a.toNat * b.toNat / 2 ^ w) := by
  rw [mulHighUU, ← BitVec.ofInt_natCast]
  norm_cast

/-- A divisor is zero exactly where its unsigned value is. -/
theorem natCast_toNat_eq_zero_iff : (b.toNat : Int) = 0 ↔ b = 0 := by
  rw [Int.natCast_eq_zero, ← BitVec.toNat_inj]
  rfl

theorem allOnes_eq_ofInt : BitVec.allOnes w = BitVec.ofInt w (-1) := by
  rw [← BitVec.neg_one_eq_allOnes, BitVec.ofInt_neg]
  rfl

theorem divOverflows_iff : divOverflows w a b = true ↔ a.toInt = -((2 ^ (w - 1) : Nat) : Int) ∧ b.toInt = -1 := by
  rw [divOverflows, Bool.and_eq_true, beq_iff_eq, beq_iff_eq]

variable {a b}

/-- The most negative value is its own negation modulo 2^w. -/
theorem ofInt_neg_toInt (h : a.toInt = -((2 ^ (w - 1) : Nat) : Int)) : BitVec.ofInt w (-a.toInt) = a := by
  rcases Nat.eq_zero_or_pos w with rfl | hw
  · exact Subsingleton.elim _ _
  · have ha : a = BitVec.intMin w := BitVec.eq_of_toInt_eq (by rw [h, BitVec.toInt_intMin_of_pos hw]; norm_cast)
    rw [BitVec.ofInt_neg, BitVec.ofInt_toInt, ha, BitVec.neg_intMin]

/-- In the overflow case truncation to w bits turns the exact quotient into the dividend. -/
theorem ofInt_tdiv_of_overflow (h : divOverflows w a b = true) : BitVec.ofInt w (a.toInt.tdiv b.toInt) = a := by
  obtain ⟨ha, hb⟩ := (divOverflows_iff a b).mp h
  rw [hb, Int.tdiv_neg, Int.tdiv_one, ofInt_neg_toInt ha]

/-- In the overflow case the division is exact. -/
theorem ofInt_tmod_of_overflow (h : divOverflows w a b = true) : BitVec.ofInt w (a.toInt.tmod b.toInt) = 0 := by
  obtain ⟨_, hb⟩ := (divOverflows_iff a b).mp h
  rw [hb, Int.tmod_neg, Int.tmod_one]
  rfl

variable (a b)

theorem divSigned_eq_ofInt :
    divSigned w a b = BitVec.ofInt w (if (b.toNat : Int) = 0 then -1 else a.toInt.tdiv b.toInt) := by
  simp only [divSigned, natCast_toNat_eq_zero_iff]
  split_ifs with _ ho
  · exact allOnes_eq_ofInt
  · exact (ofInt_tdiv_of_overflow ho).symm
  · rfl

theorem remSigned_eq_ofInt :
    remSigned w a b = BitVec.ofInt w (if (b.toNat : Int) = 0 then a.toInt else a.toInt.tmod b.toInt) := by
  simp only [remSigned, natCast_toNat_eq_zero_iff]
  split_ifs with _ ho
  · exact BitVec.ofInt_toInt.symm
  · exact (ofInt_tmod_of_overflow ho).symm
  · rfl

theorem divUnsigned_eq_ofInt :
    divUnsigned w a b = BitVec.ofInt w (if (b.toNat : Int) = 0 then -1 else a.toNat / b.toNat) := by
  simp only [divUnsigned, natCast_toNat_eq_zero_iff]
  split_ifs
  · exact allOnes_eq_ofInt
  · rw [← Int.natCast_ediv, BitVec.ofInt_natCast]

theorem remUnsigned_eq_ofInt :
    remUnsigned w a b = BitVec.ofInt w (if (b.toNat : Int) = 0 then a.toNat else a.toNat % b.toNat) := by
  simp only [remUnsigned, natCast_toNat_eq_zero_iff]
  split_ifs
  · rw [BitVec.ofInt_natCast, BitVec.ofNat_toNat, BitVec.setWidth_eq]
  · rw [← Int.natCast_emod, BitVec.ofInt_natCast]

end Operations

/-! ### The operands -/

/-- The operand of an operation at the width XLEN. -/
def State.xlenOperand (s : State) (r : Reg) : BitVec s.xlen.bits := (s.x r).setWidth s.xlen.bits

/-- The operand of a W form. -/
def State.wordOperand (s : State) (r : Reg) : BitVec 32 := (s.x r).setWidth 32

/-- `signedVal` reads a bit vector as its signed value. -/
theorem signedVal_eq_toInt {w : Nat} (v : BitVec w) : signedVal w v.toNat = v.toInt := by
  rw [BitVec.toInt_eq_toNat_cond, signedVal]
  have hv := v.isLt
  cases w with
  | zero => rw [if_pos hv, if_pos (by omega)]
  | succ n => simp only [Nat.pow_succ, Nat.add_sub_cancel, Nat.mul_comm 2, Nat.mul_lt_mul_right Nat.two_pos]

theorem State.toNat_xlenOperand (s : State) (r : Reg) : (s.xlenOperand r).toNat = (s.x r).toNat := by
  rw [State.xlenOperand, BitVec.toNat_setWidth, Nat.mod_eq_of_lt (s.x_lt r)]

theorem State.ux_eq (s : State) (r : Reg) : s.ux r = (s.xlenOperand r).toNat := by
  rw [s.toNat_xlenOperand, State.ux]

theorem State.ix_eq (s : State) (r : Reg) : s.ix r = (s.xlenOperand r).toInt := by
  rw [← signedVal_eq_toInt, s.toNat_xlenOperand, State.ix]

theorem State.ux32_eq (s : State) (r : Reg) : s.ux32 r = (s.wordOperand r).toNat := by
  rw [State.wordOperand, BitVec.toNat_setWidth, State.ux32]
  norm_cast

theorem State.ix32_eq (s : State) (r : Reg) : s.ix32 r = (s.wordOperand r).toInt := by
  rw [← signedVal_eq_toInt, State.wordOperand, BitVec.toNat_setWidth, State.ix32]

/-! ### The two shapes of the instructions -/

/-- The operation is applied to the low XLEN bits of both cells and its result zero-extended to the cell. -/
theorem atXlen_eq_setWidth (f : (w : Nat) → BitVec w → BitVec w → BitVec w) (x : Xlen) (a b : Word) :
    atXlen f x a b = (f x.bits (a.setWidth x.bits) (b.setWidth x.bits)).setWidth 64 := by
  cases x with
  | rv32 => rfl
  | rv64 => simp only [atXlen, Xlen.bits, BitVec.setWidth_eq]

/-- `trunc_XLEN` of an integer is the XLEN-bit vector it stands for, zero-extended to the cell. -/
theorem truncTo_eq_setWidth (x : Xlen) (n : Int) : truncTo x n = (BitVec.ofInt x.bits n).setWidth 64 := by
  apply BitVec.eq_of_toNat_eq
  have ht := truncTo_toNat x n
  rw [BitVec.toNat_setWidth, BitVec.toNat_ofInt]
  cases x <;> simp only [Xlen.bits] at ht ⊢ <;> omega

/-- `sextW` reads the 32-bit vector that an integer stands for as its signed value. -/
theorem sextW_eq_toInt (n : Int) : sextW n = (BitVec.ofInt 32 n).toInt := by
  rw [← signedVal_eq_toInt, BitVec.toNat_ofInt, sextW]
  rfl

/-- The sign extension of a 32-bit integer. -/
theorem sext32_ofInt (x : Xlen) (n : Int) : sext32 x (BitVec.ofInt 32 n) = truncTo x (sextW n) := by
  rw [sext32_eq_truncTo, signedVal_eq_toInt, sextW_eq_toInt]

/-- An instruction that applies an operation at the width XLEN writes the integer the operation computes. -/
theorem wrote_of_atXlen {i : Instr} {s : State} {f : (w : Nat) → BitVec w → BitVec w → BitVec w} {rd rs1 rs2 : Reg}
    {n : Int} (h : exec i s = s.binary (atXlen f) rd rs1 rs2)
    (hf : f s.xlen.bits (s.xlenOperand rs1) (s.xlenOperand rs2) = BitVec.ofInt s.xlen.bits n) :
    ∃ t, exec i s = .next t ∧ WroteReg s t rd (truncTo s.xlen n) 4 :=
  wrote_of_exec h <| by
    rw [atXlen_eq_setWidth, truncTo_eq_setWidth]
    exact congrArg (BitVec.setWidth 64) hf

/-- A W form writes the sign extension of the integer its operation computes on the low words. -/
theorem wrote_of_atWord {i : Instr} {s : State} {f : (w : Nat) → BitVec w → BitVec w → BitVec w} {rd rs1 rs2 : Reg}
    {n : Int} (h : exec i s = s.binary (atWord f) rd rs1 rs2)
    (hf : f 32 (s.wordOperand rs1) (s.wordOperand rs2) = BitVec.ofInt 32 n) :
    ∃ t, exec i s = .next t ∧ WroteReg s t rd (truncTo s.xlen (sextW n)) 4 :=
  wrote_of_exec h ((congrArg (sext32 s.xlen) hf).trans (sext32_ofInt s.xlen n))

/-- Settles O23: each is a product of the operands' values, or its floor quotient by 2^XLEN. -/
theorem multiplyResults : Obligations.MultiplyResults := by
  intro s rd rs1 rs2
  simp only [State.ux_eq, State.ix_eq]
  exact ⟨wrote_of_atXlen rfl (mulLow_eq_ofInt ..), wrote_of_atXlen rfl (mulHighSS_eq_ofInt ..),
    wrote_of_atXlen rfl (mulHighSU_eq_ofInt ..), wrote_of_atXlen rfl (mulHighUU_eq_ofInt ..)⟩

/-- Settles O24, by the quotient and remainder of the operands' values at the width XLEN. -/
theorem divideResults : Obligations.DivideResults := by
  intro s rd rs1 rs2
  simp only [State.ux_eq, State.ix_eq]
  exact ⟨wrote_of_atXlen rfl (divSigned_eq_ofInt ..), wrote_of_atXlen rfl (divUnsigned_eq_ofInt ..),
    wrote_of_atXlen rfl (remSigned_eq_ofInt ..), wrote_of_atXlen rfl (remUnsigned_eq_ofInt ..)⟩

/-- Settles O25, by the same operations at 32 bits. -/
theorem wordFormResults : Obligations.WordFormResults := by
  intro s rd rs1 rs2
  simp only [State.ux32_eq, State.ix32_eq]
  exact ⟨wrote_of_atWord rfl (mulLow_eq_ofInt ..), wrote_of_atWord rfl (divSigned_eq_ofInt ..),
    wrote_of_atWord rfl (divUnsigned_eq_ofInt ..), wrote_of_atWord rfl (remSigned_eq_ofInt ..),
    wrote_of_atWord rfl (remUnsigned_eq_ofInt ..)⟩

/-! ### The special cases (42_m_zmmul.md R234) -/

/-- The instruction gives the value it wrote. -/
theorem gives_of_wrote {i : Instr} {s : State} {rd : Reg} {v v' : Word} {n : Nat}
    (h : ∃ t, exec i s = .next t ∧ WroteReg s t rd v n) (hv : v = v') : Gives s i rd v' := by
  obtain ⟨t, ht, w⟩ := h
  exact ⟨t, ht, hv ▸ w.value⟩

/-- All ones is -1 modulo 2^XLEN. -/
theorem truncTo_neg_one (x : Xlen) : truncTo x (-1) = truncTo x (2 ^ x.bits - 1) := by cases x <;> rfl

/-- The most negative XLEN-bit value is its own negation modulo 2^XLEN. -/
theorem truncTo_two_pow_pred (x : Xlen) : truncTo x (2 ^ (x.bits - 1)) = truncTo x (-2 ^ (x.bits - 1)) := by
  cases x <;> rfl

/-- A register is its unsigned value modulo 2^XLEN. -/
theorem State.truncTo_ux (s : State) (r : Reg) : truncTo s.xlen (s.ux r) = s.x r := by
  rw [State.ux, ← wrap_eq_truncTo, State.wrap_x]

/-- A register is its signed value modulo 2^XLEN. -/
theorem State.truncTo_ix (s : State) (r : Reg) : truncTo s.xlen (s.ix r) = s.x r := by
  rw [← s.truncTo_ux r, s.ix_eq, s.ux_eq]
  apply truncTo_congr
  rw [BitVec.toInt_eq_toNat_bmod]
  exact Int.bmod_emod

/-- The sign extension of the low word is its signed value. -/
theorem State.sextW_ux32 (s : State) (r : Reg) : sextW (s.ux32 r) = s.ix32 r := by
  rw [sextW_eq_toInt, s.ux32_eq, s.ix32_eq, BitVec.ofInt_natCast, BitVec.ofNat_toNat, BitVec.setWidth_eq]

/-- A signed 32-bit value is its own sign extension. -/
theorem State.sextW_ix32 (s : State) (r : Reg) : sextW (s.ix32 r) = s.ix32 r := by
  rw [sextW_eq_toInt, s.ix32_eq, BitVec.ofInt_toInt]

/-- A divisor of -1 is not zero. -/
theorem natCast_toNat_ne_zero_of_toInt {w : Nat} {b : BitVec w} (h : b.toInt = -1) : (b.toNat : Int) ≠ 0 := by
  rw [Ne, natCast_toNat_eq_zero_iff]
  rintro rfl
  exact absurd (BitVec.toInt_zero.symm.trans h) (by decide)

theorem State.ux_ne_zero_of_ix_eq_neg_one (s : State) {r : Reg} (h : s.ix r = -1) : s.ux r ≠ 0 := by
  rw [s.ix_eq] at h
  rw [s.ux_eq]
  exact natCast_toNat_ne_zero_of_toInt h

theorem State.ux32_ne_zero_of_ix32_eq_neg_one (s : State) {r : Reg} (h : s.ix32 r = -1) : s.ux32 r ≠ 0 := by
  rw [s.ix32_eq] at h
  rw [s.ux32_eq]
  exact natCast_toNat_ne_zero_of_toInt h

/-- Settles O26, by the values of the division instructions where the divisor is 0 or -1. -/
theorem divisionSpecialCases : Obligations.DivisionSpecialCases := by
  intro s rd rs1 rs2
  obtain ⟨div, divu, rem, remu⟩ := divideResults s rd rs1 rs2
  obtain ⟨_, divw, divuw, remw, remuw⟩ := wordFormResults s rd rs1 rs2
  refine ⟨fun h0 => ?_, fun ⟨hmin, hneg⟩ => ?_, fun h0 => ?_, fun ⟨hmin, hneg⟩ => ?_⟩
  · rw [if_pos h0] at div divu rem remu
    exact ⟨gives_of_wrote divu (truncTo_neg_one _), gives_of_wrote remu (s.truncTo_ux rs1),
      gives_of_wrote div rfl, gives_of_wrote rem (s.truncTo_ix rs1)⟩
  · rw [if_neg (s.ux_ne_zero_of_ix_eq_neg_one hneg), hneg, Int.tdiv_neg, Int.tdiv_one] at div
    rw [if_neg (s.ux_ne_zero_of_ix_eq_neg_one hneg), hneg, Int.tmod_neg, Int.tmod_one] at rem
    have self : truncTo s.xlen (-s.ix rs1) = s.x rs1 := by
      rw [← s.truncTo_ix rs1, hmin, neg_neg, truncTo_two_pow_pred]
    exact ⟨gives_of_wrote div self, gives_of_wrote rem (truncTo_zero _)⟩
  · rw [if_pos h0] at divw divuw remw remuw
    exact ⟨gives_of_wrote divuw rfl, gives_of_wrote remuw (congrArg _ (s.sextW_ux32 rs1)),
      gives_of_wrote divw rfl, gives_of_wrote remw (congrArg _ (s.sextW_ix32 rs1))⟩
  · rw [if_neg (s.ux32_ne_zero_of_ix32_eq_neg_one hneg), hneg, hmin] at divw
    rw [if_neg (s.ux32_ne_zero_of_ix32_eq_neg_one hneg), hneg, Int.tmod_neg, Int.tmod_one] at remw
    exact ⟨gives_of_wrote divw rfl, gives_of_wrote remw (truncTo_zero _)⟩

end Sys2Proof.Machine
end

section
/-! Zicond (43_zicond.md): each instruction writes one of two register values. -/

namespace Sys2Proof.Machine

/-- The condition of Zicond asks for the value zero. -/
theorem isZero_iff (v : Word) : isZero v = true ↔ v.toNat = 0 := by
  rw [isZero, beq_iff_eq, ← BitVec.toNat_inj]
  rfl

/-- Zero or a register's value has no bit above XLEN, whichever the condition selects. -/
theorem State.wrap_zero_or_x (s : State) (c : Prop) [Decidable c] (r : Reg) :
    wrap s.xlen (if c then 0 else s.x r) = if c then 0 else s.x r := by
  split
  · exact wrap_zero s.xlen
  · exact s.wrap_x r

/-- CZERO.EQZ selects as R251 states it. -/
theorem execCzeroEqz_eq (rd rs1 rs2 : Reg) (s : State) :
    execCzeroEqz rd rs1 rs2 s = (s.setX rd (if (s.x rs2).toNat = 0 then 0 else s.x rs1)).retire 4 := by
  simp only [execCzeroEqz, isZero_iff]

/-- CZERO.NEZ selects as R252 states it. -/
theorem execCzeroNez_eq (rd rs1 rs2 : Reg) (s : State) :
    execCzeroNez rd rs1 rs2 s = (s.setX rd (if (s.x rs2).toNat ≠ 0 then 0 else s.x rs1)).retire 4 := by
  simp only [execCzeroNez, isZero_iff, ite_not]

/-- Settles O27: each is a register write of zero or of x[rs1], which is kept whole. -/
theorem conditionalZeroResults : Obligations.ConditionalZeroResults := by
  intro s rd rs1 rs2
  constructor
  · obtain ⟨t, ht, wrote⟩ := s.setX_retire rd 4 (s.wrap_zero_or_x ((s.x rs2).toNat = 0) rs1)
    exact ⟨t, (execCzeroEqz_eq rd rs1 rs2 s).trans ht, wrote⟩
  · obtain ⟨t, ht, wrote⟩ := s.setX_retire rd 4 (s.wrap_zero_or_x ((s.x rs2).toNat ≠ 0) rs1)
    exact ⟨t, (execCzeroNez_eq rd rs1 rs2 s).trans ht, wrote⟩

end Sys2Proof.Machine
end

section
/-! Register pairs: a pair access that is permitted however it is cut completes. -/

namespace Sys2Proof.Machine

/-- A pair access that is permitted however it is cut is refused at none of its parts. -/
theorem State.pairPermits.runParts {s : State} {kind : AccessKind} {ea : Word} (h : s.pairPermits kind ea) :
    (s.runParts kind (s.pairParts ea)).2 = none := by
  obtain ⟨_, hstop⟩ := s.runParts_spec kind (s.pairParts ea)
  split at hstop
  · assumption
  · rename_i f _
    obtain ⟨p, rest, hsplit, hd, _⟩ := hstop
    obtain ⟨i, n, hpart, rfl⟩ := s.pairParts_part ea p (hsplit ▸ List.mem_append_right _ (List.mem_cons_self ..))
    rw [State.denial_eq_none.mpr (h i n hpart)] at hd
    cases hd

/-- A permitted pair load writes the pair and retires (44_zilsd_zclsd.md R264). -/
theorem State.loadPair_permitted {s : State} {ea : Word} (ha : s.alignmentOk ea 8) (hp : s.pairPermits .load ea)
    (len : Nat) (rd base : Reg) : s.loadPair len rd base ea = (s.setPair rd (s.loadValue ea 8)).retire len := by
  rw [State.loadPair, if_neg fun e => State.pairMisaligned_iff.mp e ha]
  simp only [hp.runParts]

/-- A permitted pair store stores its eight bytes and retires (44_zilsd_zclsd.md R265). -/
theorem State.storePair_permitted {s : State} {ea : Word} (ha : s.alignmentOk ea 8) (hp : s.pairPermits .store ea)
    (len : Nat) (v : Word) :
    s.storePair len ea v = (s.storePart ea ((s.addrs ea 8).zip (leBytes 8 v))).retire len := by
  rw [State.storePair, if_neg fun e => State.pairMisaligned_iff.mp e ha]
  simp only [hp.runParts]

/-- Retiring keeps ssp, ELP and the counters that a read draws. -/
theorem SpecialKept.retired {s u t : State} {a : Word} (h : SpecialKept s u) (r : Retired u t a) : SpecialKept s t :=
  ⟨r.sspv.trans h.ssp, r.elp.trans h.elp, r.cycle.trans h.cycle, r.time.trans h.time⟩

/-! ### The halves of the value loaded -/

/-- The value of eight bytes is that of the lower word and, above it, that of the upper one. -/
theorem leNat_halves {bs : List Byte} (h : bs.length = 8) :
    leNat bs = leNat (bs.take 4) + 2 ^ 32 * leNat (bs.drop 4) ∧
    leNat (bs.take 4) < 2 ^ 32 ∧ leNat (bs.drop 4) < 2 ^ 32 := by
  have htake : (bs.take 4).length = 4 := by simp [h]
  have hdrop : (bs.drop 4).length = 4 := by simp [h]
  have happend := leNat_append (bs.take 4) (bs.drop 4)
  have hlow := leNat_lt (bs.take 4)
  have hhigh := leNat_lt (bs.drop 4)
  rw [List.take_append_drop, htake] at happend
  rw [htake] at hlow
  rw [hdrop] at hhigh
  exact ⟨happend, hlow, hhigh⟩

/-- The even register of a pair takes the lower word of the bytes loaded (44_zilsd_zclsd.md R264). -/
theorem extractLsb'_leWord_low {bs : List Byte} (h : bs.length = 8) :
    ((leWord bs).extractLsb' 0 32).setWidth 64 = leWord (bs.take 4) := by
  obtain ⟨hsum, hlow, hhigh⟩ := leNat_halves h
  apply BitVec.eq_of_toNat_eq
  rw [BitVec.toNat_setWidth, BitVec.extractLsb'_toNat, leWord_toNat, leWord_toNat, Nat.shiftRight_zero]
  omega

/-- The odd register of a pair takes the upper word of the bytes loaded (44_zilsd_zclsd.md R264). -/
theorem extractLsb'_leWord_high {bs : List Byte} (h : bs.length = 8) :
    ((leWord bs).extractLsb' 32 32).setWidth 64 = leWord (bs.drop 4) := by
  obtain ⟨hsum, hlow, hhigh⟩ := leNat_halves h
  apply BitVec.eq_of_toNat_eq
  rw [BitVec.toNat_setWidth, BitVec.extractLsb'_toNat, leWord_toNat, leWord_toNat, Nat.shiftRight_eq_div_pow]
  omega

/-! ### Writing a pair -/

section

variable (s : State) {rd : Reg} (v : Word)

/-- The pair of x0 discards what is loaded (44_zilsd_zclsd.md R262). -/
theorem State.setPair_zero : s.setPair 0 v = s := rfl

theorem State.setPair_of_ne (h : rd ≠ 0) : s.setPair rd v =
    (s.setX rd ((v.extractLsb' 0 32).setWidth 64)).setX (rd + 1) ((v.extractLsb' 32 32).setWidth 64) := if_neg h

theorem State.setPair_regsOnly (rd : Reg) : RegsOnly s (s.setPair rd v) := by
  by_cases h : rd = 0
  · rw [h, s.setPair_zero]
    exact ⟨.refl s, .refl s, rfl, rfl, rfl⟩
  · rw [s.setPair_of_ne v h]
    exact ⟨⟨rfl, rfl, rfl, rfl, rfl⟩, ⟨rfl, rfl, rfl, rfl⟩, rfl, rfl, rfl⟩

/-- Only the registers of the pair are written, x1 not for the pair of x0 (44_zilsd_zclsd.md R262). -/
theorem State.setPair_regsKept (rd : Reg) : RegsKept s (s.setPair rd v) (pairRegs rd) := by
  intro q hq
  by_cases h : rd = 0
  · rw [h, s.setPair_zero]
  · simp only [pairRegs, if_neg h, List.mem_cons, List.not_mem_nil, or_false, not_or] at hq
    rw [s.setPair_of_ne v h, State.x_setX_ne _ _ _ _ hq.2, State.x_setX_ne _ _ _ _ hq.1]

variable {s} {bs : List Byte}

/-- The even register of a pair written with eight bytes holds the first four. -/
theorem State.x_setPair_low (heven : rd.toNat % 2 = 0) (h : rd ≠ 0) (hb : bs.length = 8) :
    (s.setPair rd (leWord bs)).x rd = BitVec.ofNat 64 (leNat (bs.take 4)) := by
  obtain ⟨_, hne⟩ := pair_regs_ne heven
  rw [s.setPair_of_ne _ h, State.x_setX_ne _ _ _ _ hne, State.x_setX_self, if_neg h, extractLsb'_leWord_low hb,
    wrap_leWord_word _ (by simp [hb])]

/-- The odd register of a pair written with eight bytes holds the last four. -/
theorem State.x_setPair_high (heven : rd.toNat % 2 = 0) (h : rd ≠ 0) (hb : bs.length = 8) :
    (s.setPair rd (leWord bs)).x (rd + 1) = BitVec.ofNat 64 (leNat (bs.drop 4)) := by
  obtain ⟨hne, _⟩ := pair_regs_ne heven
  rw [s.setPair_of_ne _ h, State.x_setX_self, if_neg hne, extractLsb'_leWord_high hb,
    wrap_leWord_word _ (by simp [hb])]

end

/-! ### Permitted pair loads -/

/-- An instruction that is a permitted pair load to an even register completes. -/
theorem State.loadPair_loaded {i : Instr} {s : State} {ea : Word} {rd base : Reg} {len : Nat}
    (h : exec i s = s.loadPair len rd base ea) (heven : rd.toNat % 2 = 0) (ha : s.alignmentOk ea 8)
    (hp : s.pairPermits .load ea) :
    ∃ t bs, exec i s = .next t ∧ s.mayLoadAll ea 8 bs ∧ PairLoaded s t rd bs len := by
  have hlen : ((s.addrs ea 8).map s.loadByte).length = 8 := by simp
  have only := s.setPair_regsOnly (s.loadValue ea 8) rd
  obtain ⟨t, ht, r, done⟩ := only.flow.retire len
  refine ⟨t, _, ?exec, s.mayLoadAll_loadBytes ea 8, fun h0 => ?low, fun h0 => ?high, done, fun q hq => ?regs,
    fun a _ => State.byteAt_congr (r.mem.trans only.mem) a, only.special.retired r,
    fun a _ => State.cacheAt_congr (r.mem.trans only.mem) (r.cache.trans only.cache) a,
    fun u _ _ => State.versionsAt_congr (r.mem.trans only.mem) (r.fetchView.trans only.fetchView) u⟩
  case exec => rw [h, State.loadPair_permitted ha hp, ht]
  case low => rw [r.x]; exact State.x_setPair_low heven h0 hlen
  case high => rw [r.x]; exact State.x_setPair_high heven h0 hlen
  case regs => rw [r.x]; exact s.setPair_regsKept _ rd q hq

/-- Settles O37: each instruction is a pair load once the test of its operands passes. -/
theorem pairLoadsComplete : Obligations.PairLoadsComplete := by
  intro s rd rs1 i12 rd' rs1' o5 o6
  simp only [List.forall_mem_append, List.forall_mem_cons, List.not_mem_nil, false_implies, implies_true, and_true]
  refine ⟨⟨fun h => State.loadPair_loaded (exec_of_test exec_ldPair (evenReg_iff.mpr h)) h,
    fun h => State.loadPair_loaded (exec_of_test exec_cLdPair (evenCReg_iff.mpr h)) h⟩, fun p hp h => ?_⟩
  split at hp
  · cases hp
  · rename_i h0
    rw [List.mem_singleton.mp hp] at h ⊢
    exact State.loadPair_loaded (exec_of_test exec_cLdspPair (evenReg_and_ne h h0)) h

/-! ### Permitted pair stores -/

/-- Storing all bytes of a pair access, and retiring. The store differs from the ordinary one of 8 bytes only in the
states between that a fetch may see, so what is known of memory after that one holds of it. -/
theorem State.storePart_retire (s : State) (ea v : Word) (len : Nat) :
    ∃ t, (s.storePart ea ((s.addrs ea 8).zip (leBytes 8 v))).retire len = .next t ∧ Stored s t ea 8 v len := by
  have hm := s.storePart_memOnly ea ((s.addrs ea 8).zip (leBytes 8 v))
  have hfst := map_fst_zip_leBytes s ea v 8
  have caches := s.writePart_cachesKept ((s.addrs ea 8).zip (leBytes 8 v)) (aligned ea 4)
  rw [hfst] at caches
  obtain ⟨t, ht, r, done⟩ := hm.sameFlow.retire len
  have hmem : t.mem = (s.storeValue ea 8 v).mem := r.mem
  refine ⟨t, ht, fun i hi => ?bytes, done, fun q _ => State.x_congr (r.cfg.trans hm.cfg) (r.regs.trans hm.regs) q,
    fun a ha => ?mem, hm.specialKept.retired r, caches.trans (r.cachesKept _), fun hinv => ?seen⟩
  case bytes => rw [State.byteAt_congr hmem]; exact s.storeValue_bytes ea v (Xlen.eight_le _) i hi
  case mem => rw [State.byteAt_congr hmem]; exact s.storeValue_memKept ea 8 v a ha
  case seen =>
    have hnodup := s.nodup_addrs ea (Xlen.eight_le _)
    exact (hinv.writePart_seen (aligned ea 4) (hfst.symm ▸ hnodup) fun c => mem_zip_leBytes).retired r

/-- An instruction that is a permitted pair store completes. -/
theorem State.storePair_stored {i : Instr} {s : State} {ea v : Word} {len : Nat}
    (h : exec i s = s.storePair len ea v) (ha : s.alignmentOk ea 8) (hp : s.pairPermits .store ea) :
    ∃ t, exec i s = .next t ∧ Stored s t ea 8 v len := by
  rw [h, State.storePair_permitted ha hp]
  exact s.storePart_retire ea v len

/-- Settles O38: each instruction is a pair store once the test of its operands passes. -/
theorem pairStoresComplete : Obligations.PairStoresComplete := by
  intro s rs2 rs1 i12 rs2' rs1' o5 o6
  simp only [List.forall_mem_cons, List.not_mem_nil, false_implies, implies_true, and_true, ← s.pairValue_eq]
  exact ⟨fun h => State.storePair_stored (exec_of_test exec_sdPair (evenReg_iff.mpr h)),
    fun h => State.storePair_stored (exec_of_test exec_cSdPair (evenCReg_iff.mpr h)),
    fun h => State.storePair_stored (exec_of_test exec_cSdspPair (evenReg_iff.mpr h))⟩

end Sys2Proof.Machine
end

section
/-! The instructions without a source (45_zimop_zcmop.md, 47_hints.md, 48_cmo.md, 49_base_subset.md): every MOP is the one
register write of zero, and every C.MOP, hint and prefetch, like FENCE, only retires. -/

namespace Sys2Proof.Machine

/-! ### Lists of instructions with one meaning -/

/-- Instructions listed together that all answer `o`, each then answers `o`. -/
theorem exec_eq_of_mem {l : List Instr} {s : State} {o : Out}
    (all : l.map (fun i => exec i s) = List.replicate l.length o) {i : Instr} (h : i ∈ l) : exec i s = o :=
  List.map_eq_replicate_iff.mp all i h

/-! ### MOPs -/

/-- The default MOP writes zero and goes on at the next instruction. -/
theorem State.mop_wroteZero (s : State) (rd : Reg) : ∃ t, s.mop rd = .next t ∧ WroteReg s t rd 0 4 :=
  s.setX_retire rd 4 (wrap_zero s.xlen)

/-- Every MOP.R.n is the default MOP, whatever rs1 (R292, R294). -/
theorem exec_of_mem_mopRForms {i : Instr} {rd rs1 : Reg} (h : i ∈ mopRForms rd rs1) (s : State) :
    exec i s = s.mop rd :=
  exec_eq_of_mem rfl h

/-- Every MOP.RR.n is the default MOP, whatever rs1 and rs2 (R293, R294). -/
theorem exec_of_mem_mopRRForms {i : Instr} {rd rs1 rs2 : Reg} (h : i ∈ mopRRForms rd rs1 rs2) (s : State) :
    exec i s = s.mop rd :=
  exec_eq_of_mem rfl h

/-- Settles O28: a MOP of either shape is the default MOP. -/
theorem mopsWriteZero : Obligations.MopsWriteZero := by
  intro s rd rs1 rs2 i hi
  have isMop : exec i s = s.mop rd := by
    rcases List.mem_append.mp hi with hR | hRR
    · exact exec_of_mem_mopRForms hR s
    · exact exec_of_mem_mopRRForms hRR s
  rw [isMop]
  exact s.mop_wroteZero rd

/-! ### C.MOPs, hints, prefetches and FENCE -/

/-- Every C.MOP and C.NTL retires and nothing else (R297, 47_hints.md R356 to R359). -/
theorem exec_of_mem_idleForms16 {i : Instr} (h : i ∈ idleForms16) (s : State) : exec i s = s.retire 2 :=
  exec_eq_of_mem rfl h

/-- Every NTL and PAUSE retires and nothing else (47_hints.md R352 to R355, R366). -/
theorem exec_of_mem_idleForms32 {i : Instr} (h : i ∈ idleForms32) (s : State) : exec i s = s.retire 4 :=
  exec_eq_of_mem rfl h

/-- Every prefetch retires and nothing else: it makes no access (48_cmo.md R389 to R391). -/
theorem exec_of_mem_prefetchForms {i : Instr} {rs1 : Reg} {imm : BitVec 7} (h : i ∈ prefetchForms rs1 imm) (s : State) :
    exec i s = s.retire 4 :=
  exec_eq_of_mem rfl h

/-- FENCE has nothing to order on the model's single hart (49_base_subset.md R429, log 31). -/
theorem exec_fence (fm pred succ : BitVec 4) (rs1 rd : Reg) (s : State) :
    exec (.fence fm pred succ rs1 rd) s = s.retire 4 := rfl

/-- An instruction that is only a retirement only advances. -/
theorem onlyAdvanced_of_exec {i : Instr} {s : State} {n : Nat} (h : exec i s = s.retire n) :
    ∃ t, exec i s = .next t ∧ OnlyAdvanced s t n := by
  rw [h]
  exact s.retire_onlyAdvanced n

/-- Settles O29: each of them only retires, past the 2 or 4 bytes of its encoding. -/
theorem hintsOnlyAdvance : Obligations.HintsOnlyAdvance := by
  intro s rs1 rd imm fm pred succ
  refine ⟨fun i hi => onlyAdvanced_of_exec (exec_of_mem_idleForms16 hi s), fun i hi => onlyAdvanced_of_exec ?_⟩
  rcases List.mem_cons.mp hi with rfl | hhint
  · exact exec_fence fm pred succ rs1 rd s
  · rcases List.mem_append.mp hhint with hidle | hprefetch
    · exact exec_of_mem_idleForms32 hidle s
    · exact exec_of_mem_prefetchForms hprefetch s

end Sys2Proof.Machine
end

section
/-! Jumps through a register, and landing pads (46_cfi.md R313 to R316). -/

namespace Sys2Proof.Machine

/-! ### Jumps through a register -/

/-- ELP after a jump through a register as the instructions compute it (46_cfi.md R313). -/
theorem State.elpAfterJump_eq_elpNext (s : State) (rs1 : Reg) : s.elpAfterJump rs1 = s.elpNext rs1 := by
  simp [State.elpAfterJump, State.elpNext, State.xLPE, isLpExpected, and_assoc]

/-- Clearing bit 0 rounds down to an even number. -/
theorem truncTo_and_not_one (x : Xlen) (n : Int) : truncTo x n &&& ~~~(1 : Word) = truncTo x (2 * (n / 2)) := by
  have hshift : truncTo x n &&& ~~~(1 : Word) = (truncTo x n >>> 1) <<< 1 :=
    (ushiftRight_shiftLeft_eq_and _ 1).symm
  have hn := truncTo_toNat x n
  have heven := truncTo_toNat x (2 * (n / 2))
  apply BitVec.eq_of_toNat_eq
  rw [hshift, BitVec.toNat_shiftLeft, BitVec.toNat_ushiftRight, Nat.shiftLeft_eq, Nat.shiftRight_eq_div_pow]
  cases x <;> simp only [Xlen.bits] at hn heven <;> omega

/-- The target of a jump through a register: the sum, rounded down to an even number (49_base_subset.md R422). -/
theorem State.indirectTarget_eq (s : State) (rs1 : Reg) (n : Int) :
    s.indirectTarget rs1 (truncTo s.xlen n) = truncTo s.xlen (2 * ((s.ux rs1 + n) / 2)) := by
  rw [State.indirectTarget, State.effAddr, wrap_add_truncTo, truncTo_and_not_one]
  rfl

/-- The target without an offset (49_base_subset.md R435, R436). -/
theorem State.indirectTarget_zero (s : State) (rs1 : Reg) :
    s.indirectTarget rs1 0 = truncTo s.xlen (2 * (s.ux rs1 / 2)) := by
  have h := s.indirectTarget_eq rs1 0
  rwa [show truncTo s.xlen 0 = 0 from wrap_zero _, add_zero] at h

/-- An instruction that is a jump through `rs1` to an aligned target. -/
theorem jumped_of_exec_indirect {i : Instr} {s : State} {rd rs1 : Reg} {link target : Word} {n : Int}
    (h : exec i s = s.jump rd link target (s.elpAfterJump rs1)) (hl : wrap s.xlen link = link)
    (ht : target = truncTo s.xlen n) (ha : s.targetOk (truncTo s.xlen n)) :
    ∃ t, exec i s = .next t ∧ Jumped s t (truncTo s.xlen n) rd link (s.elpNext rs1) := by
  rw [h, ht, s.elpAfterJump_eq_elpNext]
  exact s.jump_aligned rd _ hl (wrap_wrap _ _) ha

/-- Settles O31: each is a jump to its even target, with the link of its length. -/
theorem indirectJumpsComplete : Obligations.IndirectJumpsComplete := by
  intro s rd rs1 i12
  have link : ∀ n, wrap s.xlen (s.after n) = s.after n := fun _ => wrap_wrap _ _
  refine ⟨jumped_of_exec_indirect ?_ (link 4) (s.indirectTarget_eq rs1 i12.toInt), fun ha =>
    ⟨jumped_of_exec_indirect rfl (wrap_zero _) (s.indirectTarget_zero rs1) ha,
     jumped_of_exec_indirect ?_ (link 2) (s.indirectTarget_zero rs1) ha⟩⟩
  · rw [← s.pcPlus_eq_after]; rfl
  · rw [← s.pcPlus_eq_after]; rfl

/-! ### LPAD -/

/-- The label of an LPAD matches where it is zero or x7[31:12] (46_cfi.md R316). -/
theorem State.lpLabelOk_iff (s : State) (lpl : BitVec 20) :
    s.lpLabelOk lpl = true ↔ lpl.toNat = 0 ∨ lpl.toNat = (s.x 7).toNat / 2 ^ 12 % 2 ^ 20 := by
  rw [State.lpLabelOk, Bool.or_eq_true, beq_iff_eq, beq_iff_eq, ← BitVec.toNat_inj, ← BitVec.toNat_inj,
    BitVec.extractLsb'_toNat, Nat.shiftRight_eq_div_pow]
  rfl

section

variable {s : State} {lpl : BitVec 20}

theorem exec_lpad : exec (.lpad lpl) s = execLpad lpl s := rfl

/-- Where no landing pad is required LPAD only retires. -/
theorem exec_lpad_idle (h : s.lpRequired = false) : exec (.lpad lpl) s = s.retire 4 := by
  rw [exec_lpad, execLpad, if_neg (Bool.eq_false_iff.mp h)]

/-- Where a landing pad is required, LPAD at a misaligned pc or with another label is a landing-pad fault. -/
theorem exec_lpad_fault (h : s.lpRequired = true) (hbad : s.pcv.toNat % 4 ≠ 0 ∨ s.lpLabelOk lpl = false) :
    exec (.lpad lpl) s = s.raise .softwareCheck landingPadFault := by
  rw [exec_lpad, execLpad, if_pos h]
  by_cases hpc : s.pcv.toNat % 4 ≠ 0
  · rw [if_pos hpc]
  · rw [if_neg hpc, if_pos (hbad.resolve_left hpc)]

/-- Where a landing pad is required, an aligned LPAD with a matching label clears ELP. -/
theorem exec_lpad_pass (h : s.lpRequired = true) (hpc : s.pcv.toNat % 4 = 0) (hl : s.lpLabelOk lpl = true) :
    exec (.lpad lpl) s = (s.setElp .no).retire 4 := by
  rw [exec_lpad, execLpad, if_pos h, if_neg (not_not_intro hpc), if_neg (by simp [hl])]

end

/-- Setting ELP and retiring. -/
theorem State.setElp_retire (s : State) (e : Elp) (n : Nat) :
    ∃ t, (s.setElp e).retire n = .next t ∧ Jumped s t (s.after n) 0 0 e := by
  have flow : SameFlow s (s.setElp e) := ⟨rfl, rfl, rfl, rfl, rfl⟩
  obtain ⟨t, ht, r, done⟩ := flow.retire n
  exact ⟨t, ht, rfl, r.elp, done, fun q _ => r.x q, fun a _ => r.byteAt a, r.sspv, ⟨r.cycle, r.time⟩,
    fun a _ => r.cacheAt a, fun u _ _ => r.versionsAt u⟩

/-- Settles O44: without a requirement LPAD retires, with one its two checks decide. -/
theorem lpadChecksAndClears : Obligations.LpadChecksAndClears := by
  intro s lpl
  refine ⟨fun hidle => ?_, fun hz he => ?_⟩
  · exact onlyAdvanced_of_exec (exec_lpad_idle (Bool.eq_false_iff.mpr (mt s.lpRequired_iff.mp hidle)))
  · have hreq := s.lpRequired_iff.mpr ⟨hz, he⟩
    refine ⟨fun hbad => ?_, fun hpc hl => ?_⟩
    · rw [exec_lpad_fault hreq]
      · exact s.raise_tookTrap _ _
      · exact hbad.imp_right fun hl => Bool.eq_false_iff.mpr (mt (s.lpLabelOk_iff lpl).mp (not_or.mpr hl))
    · rw [exec_lpad_pass hreq hpc ((s.lpLabelOk_iff lpl).mpr hl)]
      exact s.setElp_retire .no 4

/-! ### The landing pad at every step -/

/-- The bytes of a word stand for it. -/
theorem leNat_bytes_w32 (w : BitVec 32) : leNat (Encoding.w32 w).bytes = w.toNat := by
  simp only [Encoding.bytes, leNat, BitVec.extractLsb'_toNat, Nat.shiftRight_eq_div_pow]
  omega

/-- Four bytes are those of a word. -/
theorem exists_w32_of_length {bytes : List Byte} (h : bytes.length = 4) : ∃ w, bytes = (Encoding.w32 w).bytes := by
  match bytes, h with
  | [b0, b1, b2, b3], _ => exact ⟨wordOf b0 b1 b2 b3, (bytes_wordOf b0 b1 b2 b3).symm⟩

/-- A word is the encoding of an LPAD where its low 12 bits are AUIPC's opcode with rd = x0; the label is the rest. -/
theorem encodeBits_lpad_iff {lpl : BitVec 20} {w : BitVec 32} :
    encodeBits (.lpad lpl) = .w32 w ↔ w.toNat % 2 ^ 12 = 0x017 ∧ lpl.toNat = w.toNat / 2 ^ 12 := by
  have hw := w.isLt
  have hx0 : (0 : Reg).toNat = 0 := rfl
  have hop : (0x17 : BitVec 7).toNat = 0x17 := rfl
  rw [encodeBits, Encoding.w32.injEq, encU_eq_iff, fImm20, fRd, fOpcode, opAuipc]
  simp only [← BitVec.toNat_inj, BitVec.extractLsb'_toNat, Nat.shiftRight_eq_div_pow]
  omega

/-- What the decoder reads as an LPAD and nothing after it, where Zicfilp is implemented. -/
theorem decode_lpad_iff {c : Cfg} {bytes : List Byte} {lpl : BitVec 20} (hz : c.ext.zicfilp = true) :
    decode c bytes = .ok (.lpad lpl, []) ↔
      bytes.length = 4 ∧ leNat bytes % 2 ^ 12 = 0x017 ∧ lpl.toNat = leNat bytes / 2 ^ 12 := by
  constructor
  · intro hd
    obtain ⟨e, hread, hb⟩ := read_of_decode hd
    obtain ⟨-, rfl⟩ := Encoding.read_eq_some_iff.mp hread
    rw [hb, List.append_nil]
    exact ⟨rfl, by rw [encodeBits, leNat_bytes_w32]; exact encodeBits_lpad_iff.mp rfl⟩
  · rintro ⟨hlen, hfields⟩
    obtain ⟨w, rfl⟩ := exists_w32_of_length hlen
    rw [leNat_bytes_w32, ← encodeBits_lpad_iff] at hfields
    have hwf : (Instr.lpad lpl).wellFormed c = true := hz
    have hd := decode_bytes_append (Encoding.read_eq_some_iff.mpr ⟨hwf, hfields⟩) []
    rwa [List.append_nil] at hd

/-- A fetch answers two bytes or four. -/
theorem State.length_of_fetch {s : State} {bytes : List Byte} (h : s.fetch = .ok bytes) :
    bytes.length = 2 ∨ bytes.length = 4 := by
  rcases s.fetch_cases with ⟨w, _, e⟩ | ⟨_, e⟩
  · cases h.symm.trans e
  split at e
  · rcases e with ⟨w, _, e⟩ | ⟨_, ⟨w, _, e⟩ | ⟨_, e⟩⟩
    · cases h.symm.trans e
    · cases h.symm.trans e
    · cases h.symm.trans e; exact .inr rfl
  · cases h.symm.trans e; exact .inl rfl

/-- An LPAD takes all bytes of its fetch. -/
theorem State.rest_nil_of_lpad {s : State} {c : Cfg} {bytes rest : List Byte} {lpl : BitVec 20}
    (hf : s.fetch = .ok bytes) (hd : decode c bytes = .ok (.lpad lpl, rest)) : rest = [] := by
  obtain ⟨-, hb⟩ := encodeOfDecode c _ _ _ hd
  have hlen : bytes.length = 4 + rest.length := by rw [hb, List.length_append]; rfl
  have := State.length_of_fetch hf
  exact List.eq_nil_of_length_eq_zero (by omega)

/-- Where a landing pad is required, bytes that do not decode to an LPAD are a landing-pad fault (46_cfi.md R315). -/
theorem State.runBytes_of_not_lpad {s : State} {bytes : List Byte} (hreq : s.lpRequired = true)
    (h : ∀ lpl rest, decode s.cfg bytes ≠ .ok (.lpad lpl, rest)) :
    s.runBytes bytes = s.raise .softwareCheck landingPadFault := by
  rw [State.runBytes]
  split
  · rename_i i rest hd
    have hi : isLpadInstr i = false := by
      unfold isLpadInstr
      split
      · exact absurd hd (h _ _)
      · rfl
    rw [hreq, hi]; rfl
  · rw [if_pos hreq]

/-- Settles O45: bytes that are an LPAD run as O44 says, all others fault before they run. -/
theorem landingPadIsRequired : Obligations.LandingPadIsRequired := by
  intro s bytes ht hf hz he
  rw [step_of_fetch ht hf]
  refine ⟨fun ⟨hpc, hlen, hop, hlabel⟩ => ?_, fun hbad => ?_⟩
  · have hlt := leNat_lt bytes
    rw [hlen] at hlt
    obtain ⟨lpl, hlpl⟩ : ∃ lpl : BitVec 20, lpl.toNat = leNat bytes / 2 ^ 12 :=
      ⟨BitVec.ofNat 20 (leNat bytes / 2 ^ 12), by rw [BitVec.toNat_ofNat]; omega⟩
    rw [← hlpl] at hlabel
    rw [State.runBytes_ok ((decode_lpad_iff hz.2).mpr ⟨hlen, hop, hlpl⟩) (.inr rfl)]
    exact ((lpadChecksAndClears s lpl).2 hz he).2 hpc hlabel
  · by_cases hd : ∃ lpl rest, decode s.cfg bytes = .ok (.lpad lpl, rest)
    · obtain ⟨lpl, rest, hd⟩ := hd
      obtain rfl := State.rest_nil_of_lpad hf hd
      obtain ⟨hlen, hop, hlpl⟩ := (decode_lpad_iff hz.2).mp hd
      rw [State.runBytes_ok hd (.inr rfl)]
      refine ((lpadChecksAndClears s lpl).2 hz he).1 ?_
      rw [hlpl]
      by_contra hok
      rw [not_or, not_not, not_and_or, not_not, not_not] at hok
      exact hbad ⟨hok.1, hlen, hop, hok.2⟩
    · rw [State.runBytes_of_not_lpad (s.lpRequired_iff.mpr ⟨hz, he⟩) fun lpl rest h => hd ⟨lpl, rest, h⟩]
      exact s.raise_tookTrap _ _

end Sys2Proof.Machine
end

section
/-! The enable of the shadow stack and the gate of SSAMOSWAP (46_cfi.md R320, R330). -/

namespace Sys2Proof.Machine

/-! ### The gate of SSAMOSWAP -/

/-- Without S-mode the chain of SSAMOSWAP ends in illegal-instruction (46_cfi.md R330). -/
theorem State.sseGate_noS {s : State} (h : s.cfg.sModeImplemented = false) :
    s.sseGate true = some .illegalInstruction := by
  unfold State.sseGate
  rw [if_pos (c := _ ∧ s.cfg.sModeImplemented = false) ⟨rfl, h⟩, ite_self]

/-- SSAMOSWAP takes the exception its gate answers. -/
theorem State.ssAmoSwap_refused {s : State} {c : Cause} (h : s.sseGate true = some c) (i : Instr) (n : Nat)
    (rd rs1 rs2 : Reg) (extend : Word → Word) : s.ssAmoSwap i n rd rs1 rs2 extend = s.raiseIllegal c i := by
  rw [State.ssAmoSwap, h]

/-- Settles O52: the chain answers the first of its lines that applies, for both widths. -/
theorem shadowStackSwapGate : Obligations.ShadowStackSwapGate := by
  intro s rd rs1 rs2 aq rl i hi
  have gated : ∀ c, s.sseGate true = some c → TookIllegal s (exec i s) c i := by
    intro c hc
    simp only [List.mem_cons, List.not_mem_nil, or_false] at hi
    rcases hi with rfl | rfl
    · rw [exec_ssamoswapW, State.ssAmoSwap_refused hc]; exact s.raiseIllegal_took c _
    · rw [exec_ssamoswapD, State.ssAmoSwap_refused hc]; exact s.raiseIllegal_took c _
  refine ⟨fun hill => gated _ ?_, fun hi hS hv => gated _ (State.sseGate_virtual hi hv fun _ => hS)⟩
  rcases hill with hill | hS
  · exact State.sseGate_illegal hill true
  · exact State.sseGate_noS hS

/-! ### The enable of the shadow stack -/

/-- The enable as the instructions compute it is that of 46_cfi.md R320. -/
theorem State.xSSE_iff {s : State} : s.xSSE = true ↔ s.sseActive := by
  refine ⟨fun h => ?_, State.sseActive.xSSE⟩
  simp only [State.xSSE, Bool.and_eq_true, bne_iff_ne, beq_iff_eq] at h
  obtain ⟨⟨⟨⟨henv, hext⟩, hS⟩, hm⟩, hgate⟩ := h
  have hi : ¬ s.sseIllegal := fun hi => by cases hgate.symm.trans (State.sseGate_illegal hi true)
  have hv : ¬ s.sseVirtual := fun hv => by cases hgate.symm.trans (State.sseGate_virtual hi hv fun _ => hS)
  exact ⟨henv, hext, hS, hm, hi, hv⟩

section

variable {s : State}

/-- A push of an inactive shadow stack only retires. -/
theorem State.ssPush_of_inactive (h : ¬ s.sseActive) (len : Nat) (src : Reg) : s.ssPush len src = s.retire len :=
  if_neg (mt State.xSSE_iff.mp h)

/-- A pop of an inactive shadow stack only retires. -/
theorem State.ssPopchk_of_inactive (h : ¬ s.sseActive) (len : Nat) (src : Reg) :
    s.ssPopchk len src = s.retire len :=
  if_neg (mt State.xSSE_iff.mp h)

theorem exec_ssrdp {rd : Reg} : exec (.ssrdp rd) s = (s.setX rd (if s.xSSE then s.sspv else 0)).retire 4 := rfl

end

/-- Settles O48: without the enable a push and a pop only retire, and SSRDP writes what the enable selects. -/
theorem inactiveShadowStackRevertsToMops : Obligations.InactiveShadowStackRevertsToMops := by
  intro s rd
  refine ⟨fun h => ?inactive, fun h => ?active⟩
  case inactive =>
    have push := State.ssPush_of_inactive h
    have pop := State.ssPopchk_of_inactive h
    simp only [List.forall_mem_cons, List.not_mem_nil, false_implies, implies_true, and_true]
    refine ⟨⟨onlyAdvanced_of_exec (push 4 1), onlyAdvanced_of_exec (push 4 5), onlyAdvanced_of_exec (push 2 1),
      onlyAdvanced_of_exec (pop 4 1), onlyAdvanced_of_exec (pop 4 5), onlyAdvanced_of_exec (pop 2 5)⟩, ?_⟩
    rw [exec_ssrdp, if_neg (mt State.xSSE_iff.mp h)]
    exact s.setX_retire rd 4 (wrap_zero _)
  case active =>
    rw [exec_ssrdp, if_pos h.xSSE]
    exact s.setX_retire rd 4 s.wrap_sspv

end Sys2Proof.Machine
end

section
/-! Pushes, pops and swaps of an active shadow stack (46_cfi.md R322 to R329, R337). -/

namespace Sys2Proof.Machine

/-! ### The values of ssp (10_state.md R45) -/

/-- The least step of ssp: its writable bits begin at bit 2, or at bit 3. -/
def sspStep (c : Cfg) : Nat := if c.sxlenMayBe32 then 4 else 8

/-- ssp holds the multiples of its least step. -/
theorem sspHolds_eq_self_iff {c : Cfg} {v : Word} : sspHolds c v = v ↔ v.toNat % sspStep c = 0 := by
  have hv := v.isLt
  rw [← BitVec.toNat_inj, sspHolds, sspStep]
  split <;> rw [BitVec.toNat_shiftLeft, BitVec.toNat_ushiftRight, Nat.shiftLeft_eq, Nat.shiftRight_eq_div_pow] <;> omega

/-- A well-formed configuration with XLEN = 32 has bit 2 of ssp writable (log 50). -/
theorem sspStep_of_wf {c : Cfg} (h : c.wf = true) : sspStep c = 4 ∨ (sspStep c = 8 ∧ c.xlen = .rv64) := by
  cases hm : c.sxlenMayBe32 with
  | true => exact .inl (if_pos hm)
  | false =>
    cases hx : c.xlen with
    | rv64 => exact .inr ⟨if_neg (Bool.eq_false_iff.mp hm), rfl⟩
    | rv32 => simp [Cfg.wf, Cfg.isRv64, hm, hx] at h

/-- ssp displaced by an entry, up or down, is a value that ssp holds. -/
theorem State.sspHolds_displaced {s : State} (hwf : s.cfg.wf = true) {n : Int}
    (hn : n = s.xlen.bytes ∨ n = -s.xlen.bytes) :
    sspHolds s.cfg (truncTo s.xlen ((s.sspv.toNat : Int) + n)) = truncTo s.xlen ((s.sspv.toNat : Int) + n) := by
  have hssp := sspHolds_eq_self_iff.mp s.sspHolds_sspv
  have ht := truncTo_toNat s.xlen ((s.sspv.toNat : Int) + n)
  rw [sspHolds_eq_self_iff]
  rcases sspStep_of_wf hwf with hstep | ⟨hstep, hx⟩ <;> rw [hstep] at hssp ⊢
  · cases hx : s.xlen <;> rw [hx] at ht hn <;> simp only [Xlen.bits, Xlen.bytes] at ht hn <;> omega
  · rw [State.xlen_eq, hx] at ht hn ⊢
    simp only [Xlen.bits, Xlen.bytes] at ht hn
    omega

/-- ssp holds the address below it. -/
theorem State.sspHolds_belowSsp {s : State} (hwf : s.cfg.wf = true) : sspHolds s.cfg s.belowSsp = s.belowSsp :=
  State.sspHolds_displaced hwf (.inr rfl)

/-- ssp holds the address above it. -/
theorem State.sspHolds_aboveSsp {s : State} (hwf : s.cfg.wf = true) : sspHolds s.cfg s.aboveSsp = s.aboveSsp :=
  State.sspHolds_displaced hwf (.inl rfl)

theorem Xlen.bytes_le (x : Xlen) : x.bytes ≤ 8 := by cases x <;> decide

theorem Xlen.bits_eq_bytes (x : Xlen) : x.bits = 8 * x.bytes := by cases x <;> rfl

/-- The address above the one below ssp is ssp. -/
theorem State.above_belowSsp (s : State) : truncTo s.xlen ((s.belowSsp.toNat : Int) + s.xlen.bytes) = s.sspv := by
  have hb := truncTo_toNat s.xlen ((s.sspv.toNat : Int) - s.xlen.bytes)
  have ht := truncTo_toNat s.xlen ((s.belowSsp.toNat : Int) + s.xlen.bytes)
  have hlt : s.sspv.toNat < 2 ^ s.xlen.bits := wrap_lt _ _
  apply BitVec.eq_of_toNat_eq
  rw [State.belowSsp] at ht ⊢
  cases he : s.xlen <;> rw [he] at hb ht hlt <;> simp only [Xlen.bits, Xlen.bytes] at hb ht hlt ⊢ <;> omega

/-! ### A store and an update beside memory -/

/-- What a store of the low `n` bytes of `v` at `ea` leaves in memory, in the copies and in the fetch view. -/
structure StoreLeft (s t : State) (ea : Word) (n : Nat) (v : Word) : Prop where
  bytes : ∀ i, i < n → t.byteAt (s.byteAddr ea i) = v.extractLsb' (8 * i) 8
  mem : MemKept s t (s.addrs ea n)
  caches : CachesKept s t (s.addrs ea n)
  seen : Inv s → StoreSeen s t (s.byteAddr ea) n fun i => v.extractLsb' (8 * i) 8

/-- A state with the memory, the copies and the fetch view of a store of at most 8 bytes. -/
theorem State.storeLeft_of_eq {s t : State} {ea v : Word} {n : Nat} (hn : n ≤ 8)
    (hm : t.mem = (s.storeValue ea n v).mem) (hc : t.cache = (s.storeValue ea n v).cache)
    (hf : t.fetchView = (s.storeValue ea n v).fetchView) : StoreLeft s t ea n v := by
  have byteAt := State.byteAt_congr hm
  have cacheAt := State.cacheAt_congr hm hc
  have versionsAt := State.versionsAt_congr hm hf
  have caches := s.storeValue_cachesKept ea n v
  refine ⟨fun i hi => ?_, fun a ha => ?_, ⟨fun a ha => ?_, fun u hu ho => ?_⟩, fun h => ?_⟩
  · rw [byteAt]; exact s.storeValue_bytes ea v (hn.trans (Xlen.eight_le _)) i hi
  · rw [byteAt]; exact s.storeValue_memKept ea n v a ha
  · rw [cacheAt]; exact caches.cache a ha
  · rw [versionsAt]; exact caches.fetch u hu ho
  · have seen := h.storeValue_seen ea hn v
    refine ⟨fun i hi => ?_, fun i c hi => ?_, fun a c => ?_⟩
    · rw [cacheAt]; exact seen.valid i hi
    · rw [cacheAt]; exact seen.may i c hi
    · rw [State.fetchSet, versionsAt]; exact seen.fetch a c

/-! ### Pushes -/

/-- A permitted push of an active shadow stack (46_cfi.md R322). -/
theorem State.sseActive.pushed {s : State} (h : s.sseActive) (hwf : s.cfg.wf = true)
    (ha : s.alignmentOk s.belowSsp s.xlen.bytes) (hp : s.permitsAccess [.ssStore] s.belowSsp s.xlen.bytes)
    (len : Nat) (src : Reg) : ∃ t, s.ssPush len src = .next t ∧ Pushed s t (s.x src) len := by
  rw [State.ssPush_of_active h, State.store_ok _ _ ha hp]
  have only := s.storeValue_memOnly s.belowSsp s.xlen.bytes (s.x src)
  have flow : SameFlow s ((s.storeValue s.belowSsp s.xlen.bytes (s.x src)).setSsp s.belowSsp) :=
    ⟨only.cfg, only.env, only.pc, only.instret, only.trap⟩
  obtain ⟨t, ht, r, done⟩ := flow.retire len
  have left : StoreLeft s t s.belowSsp s.xlen.bytes (s.x src) :=
    State.storeLeft_of_eq (Xlen.bytes_le s.xlen) r.mem r.cache r.fetchView
  refine ⟨t, ht, left.bytes, ?ssp, r.elp.trans only.elp, ⟨r.cycle.trans only.cycle, r.time.trans only.time⟩, done,
    fun q _ => (r.x q).trans (State.x_congr only.cfg only.regs q), left.mem, left.caches, left.seen⟩
  case ssp =>
    have hw : wrap s.xlen s.belowSsp = s.belowSsp := wrap_wrap _ _
    exact r.sspv.trans ((State.sspv_setSsp_of_wrap hw).trans (State.sspHolds_belowSsp hwf))

/-- Settles O46, push by push. -/
theorem shadowStackPushes : Obligations.ShadowStackPushes := by
  intro s hwf h ha hp
  have push := h.pushed hwf ha hp
  exact ⟨push 4 1, push 4 5, push 2 1⟩

/-! ### Pops -/

section

variable {s : State}

/-- A permitted pop compares the bytes loaded with the register (46_cfi.md R325). -/
theorem State.sseActive.ssPopchk_eq (h : s.sseActive) (ha : s.alignmentOk s.sspv s.xlen.bytes)
    (hp : s.permitsAccess [.ssLoad] s.sspv s.xlen.bytes) (len : Nat) (src : Reg) :
    s.ssPopchk len src =
      if leNat ((s.addrs s.sspv s.xlen.bytes).map s.loadByte) = (s.x src).toNat then
        (s.setSsp (s.sspv + BitVec.ofNat 64 s.xlen.bytes)).retire len
      else s.raise .softwareCheck shadowStackFault := by
  rw [State.ssPopchk_of_active h, State.load_ok _ ha hp]
  simp only [← s.loadValue_toNat s.sspv (Xlen.bytes_le s.xlen), BitVec.toNat_inj]

/-- Raising ssp by an entry and retiring. -/
theorem State.raiseSsp_retire (hwf : s.cfg.wf = true) (len : Nat) :
    ∃ t, (s.setSsp (s.sspv + BitVec.ofNat 64 s.xlen.bytes)).retire len = .next t ∧ Popped s t len := by
  obtain ⟨t, ht, r, done⟩ := (s.setSsp_specialOnly (s.sspv + BitVec.ofNat 64 s.xlen.bytes)).flow.retire len
  refine ⟨t, ht, r.sspv.trans ?_, r.elp, ⟨r.cycle, r.time⟩, done, fun q _ => r.x q, fun a _ => r.byteAt a,
    fun a _ => r.cacheAt a, fun u _ _ => r.versionsAt u⟩
  have hb : (BitVec.ofNat 64 s.xlen.bytes).toNat = s.xlen.bytes := by cases s.xlen <;> rfl
  rw [s.sspv_setSsp, wrap_and, wrap_add, hb, and_sspMask]
  exact State.sspHolds_aboveSsp hwf

end

/-- Settles O47: a pop is decided by the bytes loaded, which are some of those that a load may return. -/
theorem shadowStackPopsAreChecked : Obligations.ShadowStackPopsAreChecked := by
  intro s hwf h ha hp
  have may := s.mayLoadAll_loadBytes s.sspv s.xlen.bytes
  have pop : ∀ len src,
      ((∀ bs, s.mayLoadAll s.sspv s.xlen.bytes bs → leNat bs = (s.x src).toNat) →
        ∃ t, s.ssPopchk len src = .next t ∧ Popped s t len) ∧
      ((∀ bs, s.mayLoadAll s.sspv s.xlen.bytes bs → leNat bs ≠ (s.x src).toNat) →
        ∃ t, s.ssPopchk len src = .next t ∧ TookTrap s t .softwareCheck 3) := by
    refine fun len src => ⟨fun hall => ?_, fun hall => ?_⟩
    · rw [h.ssPopchk_eq ha hp, if_pos (hall _ may)]
      exact State.raiseSsp_retire hwf len
    · rw [h.ssPopchk_eq ha hp, if_neg (hall _ may)]
      exact s.raise_tookTrap _ _
  simp only [List.forall_mem_cons, List.not_mem_nil, false_implies, implies_true, and_true]
  exact ⟨pop 4 1, pop 4 5, pop 2 5⟩

/-! ### A push and the pop of the same register (46_cfi.md R337) -/

/-- What permits an access of several kinds permits it of fewer. -/
theorem State.permits_mono {s : State} {kinds fewer : List AccessKind} {addrs : List Nat} (hs : fewer ⊆ kinds)
    (h : s.permits kinds addrs) : s.permits fewer addrs :=
  fun d hd ⟨⟨k, hk, hm⟩, hc⟩ => h d hd ⟨⟨k, hs hk, hm⟩, hc⟩

/-- The same of an ordinary access, whole or byte by byte. -/
theorem State.permitsAccess_mono {s : State} {kinds fewer : List AccessKind} {ea : Word} {n : Nat}
    (hs : fewer ⊆ kinds) (h : s.permitsAccess kinds ea n) : s.permitsAccess fewer ea n := by
  unfold State.permitsAccess at h ⊢
  split at h
  · rename_i ha; rw [if_pos ha]; exact State.permits_mono hs h
  · rename_i ha; rw [if_neg ha]; exact fun i hi => State.permits_mono hs (h i hi)

/-- Permission is read from the configuration and the environment inputs alone. -/
theorem SetupKept.permitsAccess {s t : State} (h : SetupKept s t) {kinds : List AccessKind} {ea : Word} {n : Nat}
    (hp : s.permitsAccess kinds ea n) : t.permitsAccess kinds ea n := by
  unfold State.permitsAccess State.permits at hp ⊢
  simpa only [h.env, State.addrs_congr h.cfg, State.byteAddr_congr h.cfg] using hp

/-- So is whether a misaligned access is supported. -/
theorem SetupKept.alignmentOk {s t : State} (h : SetupKept s t) {ea : Word} {n : Nat} (ha : s.alignmentOk ea n) :
    t.alignmentOk ea n := by
  unfold State.alignmentOk at ha ⊢
  rwa [h.cfg]

/-- So is the enable of the shadow stack. -/
theorem SetupKept.sseActive {s t : State} (h : SetupKept s t) (ha : s.sseActive) : t.sseActive := by
  unfold State.sseActive State.sseIllegal State.sseVirtual at ha ⊢
  rwa [h.cfg, h.env]

/-- The bytes that a load may return where a push stored are those of the value pushed. -/
theorem Pushed.loaded {s t : State} {v : Word} {len : Nat} (h : Pushed s t v len) (hs : Inv s) {bs : List Byte}
    (hb : t.mayLoadAll s.belowSsp s.xlen.bytes bs) : bs = leBytes s.xlen.bytes v := by
  obtain ⟨hlen, hbyte⟩ := hb
  refine List.ext_getElem (by rw [hlen, length_leBytes]) fun i hi _ => ?_
  have hi' : i < s.xlen.bytes := hlen ▸ hi
  have hmay := hbyte i hi
  rw [State.byteAddr_congr h.done.setup.cfg] at hmay
  rcases hmay with hcur | ⟨hinvalid, -⟩
  · rw [hcur, h.bytes i hi']
    simp [leBytes]
  · rw [(h.seen hs).valid i hi'] at hinvalid
    cases hinvalid

/-- A push and the pop of the same register, of any lengths. -/
theorem State.sseActive.popped_of_pushed {s t : State} (h : s.sseActive) (hs : Inv s) (hwf : s.cfg.wf = true)
    (ha : s.alignmentOk s.belowSsp s.xlen.bytes) (hp : s.permitsAccess [.ssLoad] s.belowSsp s.xlen.bytes)
    {src : Reg} {len : Nat} (k : Pushed s t (s.x src) len) (len' : Nat) :
    ∃ u, t.ssPopchk len' src = .next u ∧ u.trap = s.trap ∧ u.sspv = s.sspv ∧ RegsKept s u [] := by
  have setup := k.done.setup
  have hx : t.xlen = s.xlen := congrArg Cfg.xlen setup.cfg
  have ha' : t.alignmentOk t.sspv t.xlen.bytes := by rw [k.ssp, hx]; exact setup.alignmentOk ha
  have hp' : t.permitsAccess [.ssLoad] t.sspv t.xlen.bytes := by rw [k.ssp, hx]; exact setup.permitsAccess hp
  have hreg : t.x src = s.x src := k.regs src List.not_mem_nil
  have may := t.mayLoadAll_loadBytes t.sspv t.xlen.bytes
  have hval : leNat ((t.addrs t.sspv t.xlen.bytes).map t.loadByte) = (t.x src).toNat := by
    rw [k.ssp, hx] at may ⊢
    rw [k.loaded hs may, leNat_leBytes, hreg, ← Xlen.bits_eq_bytes s.xlen, Nat.mod_eq_of_lt (s.x_lt src)]
  obtain ⟨u, hu, popped⟩ := t.raiseSsp_retire (setup.cfg ▸ hwf) len'
  refine ⟨u, ?exec, popped.done.trap.trans k.done.trap, popped.ssp.trans ?ssp,
    fun q hq => (popped.regs q hq).trans (k.regs q hq)⟩
  case exec => rw [(setup.sseActive h).ssPopchk_eq ha' hp', if_pos hval, hu]
  case ssp => rw [State.aboveSsp, k.ssp, hx, s.above_belowSsp]

/-- Settles O50: the pop loads what the push stored, so its check passes and ssp is raised to where it was. -/
theorem pushThenPopRestoresSsp : Obligations.PushThenPopRestoresSsp := by
  intro s hs hwf h ha hp
  have hstore := State.permitsAccess_mono (fewer := [.ssStore]) (by simp) hp
  have hload := State.permitsAccess_mono (fewer := [.ssLoad]) (by simp) hp
  have pair : ∀ len len' src, ∃ t u, s.ssPush len src = .next t ∧ t.ssPopchk len' src = .next u ∧
      u.trap = s.trap ∧ u.sspv = s.sspv ∧ RegsKept s u [] := by
    intro len len' src
    obtain ⟨t, ht, k⟩ := h.pushed hwf ha hstore len src
    obtain ⟨u, hu, kept⟩ := h.popped_of_pushed hs hwf ha hload k len'
    exact ⟨t, u, ht, hu, kept⟩
  simp only [List.forall_mem_cons, List.not_mem_nil, false_implies, implies_true, and_true]
  exact ⟨pair 4 4 1, pair 4 4 5, pair 4 2 5, pair 2 4 1⟩

/-! ### SSAMOSWAP (46_cfi.md R328, R329) -/

/-- A store, a write of a register and retiring leave what a swap does. -/
theorem State.storeValue_setX_retire (s : State) {a stored : Word} {n : Nat} (hn : n ≤ 8) (rd : Reg) {v : Word}
    (hv : wrap s.xlen v = v) :
    ∃ t, ((s.storeValue a n stored).setX rd v).retire 4 = .next t ∧ Swapped s t a n stored rd v := by
  have only := s.storeValue_memOnly a n stored
  have special := only.specialKept
  have hx : (s.storeValue a n stored).xlen = s.xlen := congrArg Cfg.xlen only.cfg
  have flow : SameFlow s ((s.storeValue a n stored).setX rd v) :=
    ⟨only.cfg, only.env, only.pc, only.instret, only.trap⟩
  obtain ⟨t, ht, r, done⟩ := flow.retire 4
  have left : StoreLeft s t a n stored := State.storeLeft_of_eq hn r.mem r.cache r.fetchView
  refine ⟨t, ht, ?value, left.bytes, done, fun q hq => ?regs, left.mem,
    ⟨r.sspv.trans special.ssp, r.elp.trans only.elp, r.cycle.trans only.cycle, r.time.trans only.time⟩, left.caches,
    left.seen⟩
  case value => rw [r.x, State.x_setX_self, hx, hv]
  case regs => rw [r.x, State.regsKept_setX _ rd v q hq]; exact State.x_congr only.cfg only.regs q

/-- SSAMOSWAP with its gate open, aligned and permitted, is a store with the value loaded before it to `rd`. -/
theorem State.swapOpen.ssAmoSwap_eq {s : State} (h : s.swapOpen) {n : Nat} {rs1 : Reg} (ha : (s.x rs1).toNat % n = 0)
    (hp : s.permits [.ssLoad, .ssStore] (s.addrs (s.x rs1) n)) (i : Instr) (rd rs2 : Reg) (extend : Word → Word) :
    s.ssAmoSwap i n rd rs1 rs2 extend =
      ((s.storeValue (s.x rs1) n (s.x rs2)).setX rd (extend (s.loadValue (s.x rs1) n))).retire 4 := by
  obtain ⟨hS, hi, hv⟩ := h
  rw [State.ssAmoSwap, State.sseGate_open hi hv fun _ => hS]
  simp only [aligned_iff.mpr ha, Bool.true_eq_false, if_false, State.denial_eq_none.mpr hp]

/-- Such an SSAMOSWAP swaps; `g` is what the register holds for the bytes loaded. -/
theorem State.swapOpen.swapped {s : State} (h : s.swapOpen) {i j : Instr} {n : Nat} {rd rs1 rs2 : Reg}
    {extend : Word → Word} {g : List Byte → Word} (he : exec i s = s.ssAmoSwap j n rd rs1 rs2 extend) (hn : n ≤ 8)
    (hg : ∀ bs : List Byte, bs.length = n → wrap s.xlen (extend (leWord bs)) = g bs)
    (ha : (s.x rs1).toNat % n = 0) (hp : s.permits [.ssLoad, .ssStore] (s.addrs (s.x rs1) n)) :
    ∃ t bs, exec i s = .next t ∧ s.mayLoadAll (s.x rs1) n bs ∧ Swapped s t (s.x rs1) n (s.x rs2) rd (g bs) := by
  have hv : wrap s.xlen (extend (s.loadValue (s.x rs1) n)) = g ((s.addrs (s.x rs1) n).map s.loadByte) :=
    hg _ (by simp)
  have hx : (s.storeValue (s.x rs1) n (s.x rs2)).xlen = s.xlen :=
    congrArg Cfg.xlen (s.storeValue_memOnly _ n _).cfg
  obtain ⟨t, ht, swapped⟩ := s.storeValue_setX_retire (a := s.x rs1) (stored := s.x rs2) hn rd
    (v := g ((s.addrs (s.x rs1) n).map s.loadByte)) (by rw [← hv, wrap_wrap])
  refine ⟨t, _, ?_, s.mayLoadAll_loadBytes _ n, swapped⟩
  rw [he, h.ssAmoSwap_eq ha hp, ← State.setX_wrap, hx, hv, ht]

/-- Settles O51: the word swapped out is sign-extended, the doubleword kept whole. -/
theorem shadowStackSwapsComplete : Obligations.ShadowStackSwapsComplete := by
  intro s rd rs1 rs2 aq rl h
  have word : ∀ bs : List Byte, bs.length = 4 →
      wrap s.xlen (sext32 s.xlen ((leWord bs).setWidth 32)) = truncTo s.xlen (signedVal 32 (leNat bs)) :=
    fun bs hb => by rw [sext32_leWord _ hb, truncTo, wrap_wrap]
  exact ⟨h.swapped exec_ssamoswapW (by decide) word,
    h.swapped exec_ssamoswapD (by decide) fun bs hb => wrap_leWord s.xlen hb.le⟩

end Sys2Proof.Machine
end

section
/-! Cache-block operations: the gates of the CBO instructions, the exception of a block that is refused, and what a
management CBO does to the copies of a block that is permitted. -/

namespace Sys2Proof.Machine

theorem exec_cboInval (rs1 : Reg) (s : State) : exec (.cboInval rs1) s =
    s.manageBlock (.cboInval rs1) s.invalGate (if s.invalIsFlush then State.flushByte else s.invalOp) rs1 := rfl

theorem exec_cboClean (rs1 : Reg) (s : State) :
    exec (.cboClean rs1) s = s.manageBlock (.cboClean rs1) s.cleanGate s.cleanOp rs1 := rfl

theorem exec_cboFlush (rs1 : Reg) (s : State) :
    exec (.cboFlush rs1) s = s.manageBlock (.cboFlush rs1) s.cleanGate State.flushByte rs1 := rfl

/-! ### The gates (48_cmo.md R373 to R376) -/

/-- The gate `g` answers by the test `illegal`, and where that fails by the test `virtual`. -/
structure GatedBy (illegal virtual : Prop) (g : Option Cause) : Prop where
  byIllegal : illegal → g = some .illegalInstruction
  byVirtual : ¬ illegal → virtual → g = some .virtualInstruction
  passes : ¬ illegal → ¬ virtual → g = none

theorem GatedBy.ite {p q p' q' : Prop} [Decidable p'] [Decidable q'] (hp : p' ↔ p) (hq : q' ↔ q) :
    GatedBy p q (if p' then some .illegalInstruction else if q' then some .virtualInstruction else none) where
  byIllegal h := if_pos (hp.mpr h)
  byVirtual hn h := by rw [if_neg (mt hp.mp hn), if_pos (hq.mpr h)]
  passes hn hn' := by rw [if_neg (mt hp.mp hn), if_neg (mt hq.mp hn')]

theorem State.cleanGate_gatedBy (s : State) :
    GatedBy (s.bitIllegal EnvCfg.cbcfe) (s.bitVirtual EnvCfg.cbcfe) s.cleanGate :=
  .ite (by simp [State.bitIllegal, State.senvOff]) (by simp [State.bitVirtual])

theorem State.zeroGate_gatedBy (s : State) :
    GatedBy (s.bitIllegal EnvCfg.cbze) (s.bitVirtual EnvCfg.cbze) s.zeroGate :=
  .ite (by simp [State.bitIllegal, State.senvOff]) (by simp [State.bitVirtual])

theorem State.invalGate_gatedBy (s : State) : GatedBy s.cbieIllegal s.cbieVirtual s.invalGate :=
  .ite (by simp [State.cbieIllegal, State.senvOff]) .rfl

/-- An instruction that raises what its gate answers takes the exceptions of the gate's tests. -/
theorem GatedBy.took {p q : Prop} {g : Option Cause} {s : State} {i : Instr} (h : GatedBy p q g)
    (he : ∀ c, g = some c → exec i s = s.raiseIllegal c i) :
    (p → TookIllegal s (exec i s) .illegalInstruction i) ∧
    (¬ p → q → TookIllegal s (exec i s) .virtualInstruction i) :=
  ⟨fun hp => he _ (h.byIllegal hp) ▸ s.raiseIllegal_took _ i,
    fun hn hq => he _ (h.byVirtual hn hq) ▸ s.raiseIllegal_took _ i⟩

theorem State.manageBlock_gated {s : State} {gate : Option Cause} {c : Cause} (h : gate = some c) (i : Instr)
    (op : State → Nat → State) (rs1 : Reg) : s.manageBlock i gate op rs1 = s.raiseIllegal c i := by
  subst h; rfl

theorem exec_cboZero_gated {s : State} {c : Cause} (h : s.zeroGate = some c) (rs1 : Reg) :
    exec (.cboZero rs1) s = s.raiseIllegal c (.cboZero rs1) := by
  change execCboZero rs1 s = _
  rw [execCboZero, h]

/-- Settles O54: each CBO instruction raises what its gate answers. -/
theorem cboGates : Obligations.CboGates := by
  intro s rs1
  obtain ⟨invalIllegal, invalVirtual⟩ := s.invalGate_gatedBy.took fun _ h =>
    (exec_cboInval rs1 s).trans (State.manageBlock_gated h _ _ rs1)
  refine ⟨invalIllegal, invalVirtual, ?_, s.zeroGate_gatedBy.took fun _ h => exec_cboZero_gated h rs1⟩
  simp only [List.forall_mem_cons, List.not_mem_nil, false_implies, implies_true, and_true]
  exact ⟨s.cleanGate_gatedBy.took fun _ h => (exec_cboClean rs1 s).trans (State.manageBlock_gated h _ _ rs1),
    s.cleanGate_gatedBy.took fun _ h => (exec_cboFlush rs1 s).trans (State.manageBlock_gated h _ _ rs1)⟩

/-! ### A refused block (48_cmo.md R377, R382, R385) -/

/-- The reason of a management CBO on a block that refuses loads for `l`, stores for `st` and fetches for `f`: of
translation where translation refuses all three, the first-stage one before the other (R382; log 16, log 36). -/
def managementReason (l st f : Why) : Why :=
  if l ≠ .access ∧ st ≠ .access ∧ f ≠ .access then
    if l = .page ∨ st = .page ∨ f = .page then .page else .guest
  else .access

/-- A reason common to the three is the reason of the CBO. -/
theorem managementReason_self (w : Why) : managementReason w w w = w := by cases w <;> rfl

theorem byTranslation_some (w : Why) : byTranslation (some w) = true ↔ w ≠ .access := by cases w <;> decide

theorem State.managementFault_eq {s : State} {addrs : List Nat} {l st f : Why} (hl : s.denial [.load] addrs = some l)
    (hs : s.denial [.store] addrs = some st) (hf : s.denial [.fetch] addrs = some f) :
    s.managementFault addrs = some (storeFault (managementReason l st f)) := by
  simp only [State.managementFault, hl, hs, hf, reduceCtorEq, or_self, false_and, if_false, Bool.and_eq_true,
    byTranslation_some, and_assoc, Option.some.injEq, managementReason]
  split
  · split <;> rfl
  · rfl

/-- Where the block permits a load or a store there is no exception. -/
theorem State.managementFault_permitted {s : State} {addrs : List Nat}
    (h : s.permits [.load] addrs ∨ s.permits [.store] addrs) : s.managementFault addrs = none := by
  rw [← State.denial_eq_none, ← State.denial_eq_none] at h
  exact if_pos h

/-- An access that is not permitted is refused for a reason. -/
theorem State.denial_of_not_permits {s : State} {kinds : List AccessKind} {addrs : List Nat}
    (h : ¬ s.permits kinds addrs) : ∃ w, s.denial kinds addrs = some w :=
  Option.ne_none_iff_exists'.mp (mt State.denial_eq_none.mp h)

/-- A block that refuses loads, stores and fetches raises a store/AMO exception, of the common reason if there is one. -/
theorem State.managementFault_refused {s : State} {addrs : List Nat}
    (h : ∀ k ∈ [AccessKind.load, .store, .fetch], ¬ s.permits [k] addrs) :
    ∃ w, s.managementFault addrs = some (storeFault w) ∧
      ∀ v, (∀ k ∈ [AccessKind.load, .store, .fetch], s.refuses [k] addrs v) → w = v := by
  simp only [List.forall_mem_cons, List.not_mem_nil, false_implies, implies_true, and_true] at h ⊢
  obtain ⟨hl, hs, hf⟩ := h
  obtain ⟨l, hl⟩ := State.denial_of_not_permits hl
  obtain ⟨st, hs⟩ := State.denial_of_not_permits hs
  obtain ⟨f, hf⟩ := State.denial_of_not_permits hf
  refine ⟨managementReason l st f, State.managementFault_eq hl hs hf, fun v hv => ?_⟩
  obtain ⟨kl, ks, kf⟩ := hv
  cases hl.symm.trans (State.denial_eq_some.mpr kl)
  cases hs.symm.trans (State.denial_eq_some.mpr ks)
  cases hf.symm.trans (State.denial_eq_some.mpr kf)
  exact managementReason_self _

/-- A management CBO whose gate is open stops on a block of non-uniform protection, and traps with x[rs1] on one that
is refused to loads, stores and fetches. -/
theorem State.manageBlock_refused {s : State} {i : Instr} {gate : Option Cause} {op : State → Nat → State}
    {rs1 : Reg} (hg : gate = none) :
    (s.blockUniform (s.blockAddrs (cbomBlock s.cfg) (s.x rs1)) = false →
      s.manageBlock i gate op rs1 = .fault .cboBlockNotUniform) ∧
    (s.blockUniform (s.blockAddrs (cbomBlock s.cfg) (s.x rs1)) = true →
      (∀ k ∈ [AccessKind.load, .store, .fetch], ¬ s.permits [k] (s.blockAddrs (cbomBlock s.cfg) (s.x rs1))) →
      ∃ t w, s.manageBlock i gate op rs1 = .next t ∧ TookTrap s t (storeFault w) (s.x rs1) ∧
        ∀ v, (∀ k ∈ [AccessKind.load, .store, .fetch],
          s.refuses [k] (s.blockAddrs (cbomBlock s.cfg) (s.x rs1)) v) → w = v) := by
  subst hg
  refine ⟨fun hu => ?_, fun hu hr => ?_⟩
  · simp only [State.manageBlock, hu, Bool.false_eq_true, if_false]
  · obtain ⟨w, hw, common⟩ := State.managementFault_refused hr
    obtain ⟨t, ht, took⟩ := s.raise_tookTrap (storeFault w) (s.x rs1)
    exact ⟨t, w, by simpa only [State.manageBlock, hu, if_true, hw] using ht, took, common⟩

/-- CBO.ZERO, its gate open, stops on a block of non-uniform protection, and traps with x[rs1] on a refused one. -/
theorem exec_cboZero_refused {s : State} {rs1 : Reg} (hg : s.zeroGate = none) :
    (s.blockUniform (s.blockAddrs (cbozBlock s.cfg) (s.x rs1)) = false →
      exec (.cboZero rs1) s = .fault .cboBlockNotUniform) ∧
    (∀ w, s.blockUniform (s.blockAddrs (cbozBlock s.cfg) (s.x rs1)) = true →
      s.refuses [.store, .cboZero] (s.blockAddrs (cbozBlock s.cfg) (s.x rs1)) w →
      ∃ t, exec (.cboZero rs1) s = .next t ∧ TookTrap s t (storeFault w) (s.x rs1)) := by
  change (_ → execCboZero rs1 s = _) ∧ ∀ w, _ → _ → ∃ t, execCboZero rs1 s = _ ∧ _
  rw [execCboZero, hg]
  refine ⟨fun hu => by simp only [hu, Bool.false_eq_true, if_false], fun w hu hr => ?_⟩
  simp only [hu, if_true, State.denial_eq_some.mpr hr, storeCause_eq]
  exact s.raise_tookTrap _ _

/-- Settles O59: past its gate, each CBO instruction stops or traps by the protection of the block. -/
theorem refusedCboTraps : Obligations.RefusedCboTraps := by
  intro s rs1
  refine ⟨?_, fun hi hv => exec_cboZero_refused (State.zeroGate_open hi hv)⟩
  intro p hp
  simp only [List.mem_cons, List.not_mem_nil, or_false] at hp
  rcases hp with rfl | rfl | rfl <;> rintro ⟨hi, hv⟩
  · rw [exec_cboInval]; exact State.manageBlock_refused (s.invalGate_gatedBy.passes hi hv)
  · rw [exec_cboClean]; exact State.manageBlock_refused (s.cleanGate_gatedBy.passes hi hv)
  · rw [exec_cboFlush]; exact State.manageBlock_refused (s.cleanGate_gatedBy.passes hi hv)

/-! ### The operation on a permitted block (48_cmo.md R380) -/

/-- The size of a management block divides the size of the address space. -/
theorem cbomBlock_dvd (c : Cfg) : cbomBlock c ∣ 2 ^ c.xlen.bits := by
  unfold cbomBlock
  split
  · cases c.xlen <;> decide
  · exact Nat.pow_dvd_pow 2 (Nat.min_le_right _ _)

/-- `t` is `s` but for the cached-data state of bytes, whose list stays sorted. -/
structure CopiesOnly (s t : State) : Prop where
  rest : MemOnly s t
  mem : t.mem = s.mem
  fetchView : t.fetchView = s.fetchView
  sorted : sparseSorted none t.cache = true

theorem Inv.copiesOnly_refl {s : State} (h : Inv s) : CopiesOnly s s := ⟨.refl s, rfl, rfl, h.cache.1⟩

theorem CopiesOnly.content {s t : State} (h : CopiesOnly s t) (a : Nat) : t.content a = s.content a := by
  rw [State.content, h.mem]; rfl

theorem CopiesOnly.setCache {s t : State} (h : CopiesOnly s t) (a : Nat) (c : CacheByte) :
    CopiesOnly s (t.setCache a c) :=
  ⟨h.rest.trans ⟨rfl, rfl, rfl, rfl, rfl, rfl, rfl, rfl, rfl, rfl, rfl⟩, h.mem, h.fetchView,
    State.sorted_putCache _ _ h.sorted⟩

/-- The operation `op`, on a byte whose copy is still that of `s`, leaves the copy in a state that meets `out` and
changes nothing else. -/
def OnCopies (s : State) (op : State → Nat → State) (out : Nat → CacheByte → Prop) : Prop :=
  ∀ u a, CopiesOnly s u → u.cacheAt a = s.cacheAt a →
    ∃ c, (op u a = u.setCache a c ∨ (op u a = u ∧ s.cacheAt a = c)) ∧ out a c

/-- The copies of the bytes of `l` are as `out` says, and nothing else changed since `s`. -/
structure CopiesDone (s t : State) (l : List Nat) (out : Nat → CacheByte → Prop) : Prop where
  only : CopiesOnly s t
  inside : ∀ a ∈ l, out a (t.cacheAt a)
  outside : ∀ a, a ∉ l → t.cacheAt a = s.cacheAt a

section

variable {s : State} {op : State → Nat → State} {out : Nat → CacheByte → Prop}

/-- The operation on one more byte. -/
theorem OnCopies.step (hop : OnCopies s op out) {u : State} {l : List Nat} {a : Nat} (h : CopiesDone s u l out)
    (ha : a ∉ l) : CopiesDone s (op u a) (l ++ [a]) out := by
  obtain ⟨c, e, hc⟩ := hop u a h.only (h.outside a ha)
  obtain ⟨only, self, other⟩ : CopiesOnly s (op u a) ∧ (op u a).cacheAt a = c ∧
      ∀ b, b ≠ a → (op u a).cacheAt b = u.cacheAt b := by
    rcases e with e | ⟨e, hca⟩ <;> rw [e]
    · exact ⟨h.only.setCache a c, u.cacheOf_putCache a c h.only.sorted, fun b => u.cacheAt_setCache_ne a b c⟩
    · exact ⟨h.only, (h.outside a ha).trans hca, fun _ _ => rfl⟩
  refine ⟨only, fun b hb => ?_, fun b hb => ?_⟩
  · by_cases hba : b = a
    · rw [hba, self]; exact hc
    · rw [other b hba]; exact h.inside b (by simpa [hba] using hb)
  · rw [List.mem_append, List.mem_singleton, not_or] at hb
    rw [other b hb.2]; exact h.outside b hb.1

/-- The operation on every byte of a list without repetitions. -/
theorem OnCopies.foldl (hop : OnCopies s op out) (hs : Inv s) {l : List Nat} (hn : l.Nodup) :
    CopiesDone s (l.foldl op s) l out := by
  induction l using List.reverseRecOn with
  | nil => exact ⟨hs.copiesOnly_refl, fun a ha => absurd ha List.not_mem_nil, fun _ _ => rfl⟩
  | append_singleton l a ih =>
    rw [List.foldl_append]
    obtain ⟨hl, _, hne⟩ := List.nodup_append.mp hn
    exact hop.step (ih hl) fun ha => hne a ha a (List.mem_singleton_self a) rfl

/-- A management CBO with its gate open, on a permitted block, performs its operation on the copies of the block and
changes nothing else but pc and instret. -/
theorem OnCopies.managed (hop : OnCopies s op out) (hs : Inv s) {rs1 : Reg} (hok : s.manageOk rs1)
    {gate : Option Cause} (hg : gate = none) (i : Instr) :
    ∃ t, s.manageBlock i gate op rs1 = .next t ∧ Managed s t rs1 ∧
      ∀ a, s.inBlock (cbomBlock s.cfg) rs1 a → out a (t.cacheAt a) := by
  obtain ⟨hu, hp⟩ := hok
  have hd := cbomBlock_dvd s.cfg
  have block := State.mem_blockAddrs (s := s) hd rs1
  have hn : (s.blockAddrs (cbomBlock s.cfg) (s.x rs1)).Nodup :=
    s.nodup_addrs _ (Nat.le_of_dvd (Nat.two_pow_pos _) hd)
  obtain ⟨only, inside, outside⟩ := hop.foldl hs hn
  have hk := only.rest.specialKept
  obtain ⟨t, ht, r, done⟩ := only.rest.sameFlow.retire 4
  have cache := r.cacheAt
  refine ⟨t, ?_, ⟨done, fun q _ => ?_, fun a _ => ?_, ?_, fun a ha => ?_, fun u => ?_⟩, fun a ha => ?_⟩
  · simpa only [State.manageBlock, hg, hu, if_true, State.managementFault_permitted hp] using ht
  · exact (r.x q).trans (State.x_congr only.rest.cfg only.rest.regs q)
  · exact (r.byteAt a).trans (State.byteAt_congr only.mem a)
  · exact ⟨r.sspv.trans hk.ssp, r.elp.trans hk.elp, r.cycle.trans hk.cycle, r.time.trans hk.time⟩
  · exact (cache a).trans (outside a (mt (block a).mp ha))
  · exact (r.versionsAt u).trans (State.versionsAt_congr only.mem only.fetchView u)
  · exact cache a ▸ inside a ((block a).mpr ha)

end

/-! ### The operations on one byte -/

theorem CopiesOnly.flushByte {s u : State} {a : Nat} (h : CopiesOnly s u) (hc : u.cacheAt a = s.cacheAt a) :
    u.flushByte a = u.setCache a { valid := false, may := s.cleanedMay a } := by
  rw [State.flushByte, State.cleanedMay, hc, h.content]

/-- A clean sets `may` where the copy is valid, and has nothing to do elsewhere. -/
theorem CopiesOnly.cleanByte {s u : State} {a : Nat} (h : CopiesOnly s u) (hc : u.cacheAt a = s.cacheAt a) :
    u.cleanByte a = u.setCache a { valid := (s.cacheAt a).valid, may := s.cleanedMay a } ∨
    (u.cleanByte a = u ∧ s.cacheAt a = { valid := (s.cacheAt a).valid, may := s.cleanedMay a }) := by
  rw [State.cleanByte_eq, State.cleanedMay, hc, h.content]
  by_cases hv : (s.cacheAt a).valid = true
  · rw [if_pos hv, if_pos hv, hv]; exact .inl rfl
  · rw [if_neg hv, if_neg hv]; exact .inr ⟨rfl, rfl⟩

theorem State.invalByte_eq {s u : State} {a : Nat} (hc : u.cacheAt a = s.cacheAt a) :
    u.invalByte a = u.setCache a { valid := false, may := (s.cacheAt a).may } := by rw [State.invalByte, hc]

theorem State.flushByte_onCopies (s : State) :
    OnCopies s State.flushByte fun a c => c = { valid := false, may := s.cleanedMay a } :=
  fun _ _ h hc => ⟨_, .inl (h.flushByte hc), rfl⟩

/-- A clean, or a flush where non-coherent agents could tell (R383, row 7). -/
theorem State.cleanOp_onCopies (s : State) : OnCopies s s.cleanOp fun a c => c.may = s.cleanedMay a ∧
    (c.valid = (s.cacheAt a).valid ∨ s.cfg.hasNonCoherentAgents = true ∧ c.valid = false) := by
  intro u a h hc
  unfold State.cleanOp
  split
  · rename_i hdraw
    rw [Bool.and_eq_true] at hdraw
    exact ⟨_, .inl (h.flushByte hc), rfl, .inr ⟨hdraw.1, rfl⟩⟩
  · exact ⟨_, h.cleanByte hc, rfl, .inl rfl⟩

/-- What CBO.INVAL does: a flush where CBIE selects it, else an invalidate or a flush (R373, R386). -/
theorem State.invalidate_onCopies (s : State) :
    OnCopies s (if s.invalIsFlush then State.flushByte else s.invalOp) fun a c => c.valid = false ∧
      (c.may = s.cleanedMay a ∨ ¬ s.cbieFlush ∧ c.may = (s.cacheAt a).may) := by
  intro u a h hc
  split
  · exact ⟨_, .inl (h.flushByte hc), rfl, .inl rfl⟩
  · rename_i hsel
    unfold State.invalOp
    split
    · exact ⟨_, .inl (h.flushByte hc), rfl, .inl rfl⟩
    · exact ⟨_, .inl (State.invalByte_eq hc), rfl, .inr ⟨mt s.invalIsFlush_iff.mpr hsel, rfl⟩⟩

/-- Settles O55: the flush and the clean, each on every byte of the block. -/
theorem cleanAndFlushComplete : Obligations.CleanAndFlushComplete := by
  intro s rs1 hs _ hi hv hok
  have hg := s.cleanGate_gatedBy.passes hi hv
  rw [exec_cboFlush, exec_cboClean]
  exact ⟨s.flushByte_onCopies.managed hs hok hg _, s.cleanOp_onCopies.managed hs hok hg _⟩

/-- Settles O56: the flush or the invalidate on every byte of the block. -/
theorem invalidateCompletes : Obligations.InvalidateCompletes := by
  intro s rs1 hs _ hi hv hok
  rw [exec_cboInval]
  exact s.invalidate_onCopies.managed hs hok (s.invalGate_gatedBy.passes hi hv) _

end Sys2Proof.Machine
end

section
/-! The base subset (49_base_subset.md): the logic operations, the upper immediates, the transfers relative to pc, and the
exceptions an instruction raises on purpose. -/

namespace Sys2Proof.Machine

/-! ### Logic (R413 to R415, R417) -/

theorem wrap_xor (x : Xlen) (v w : Word) : wrap x (v ^^^ w) = wrap x v ^^^ wrap x w := by
  cases x with
  | rv64 => rfl
  | rv32 =>
    apply BitVec.eq_of_getLsbD_eq
    intro k hk
    by_cases h : k < 32 <;> simp [wrap, h, hk]

/-- An instruction that writes an XLEN-bit value known bit by bit. -/
theorem wroteBits_of_exec {i : Instr} {s : State} {rd : Reg} {v : Word} {n : Nat} {bit : Nat → Bool}
    (h : exec i s = (s.setX rd v).retire n) (hv : wrap s.xlen v = v) (hbit : ∀ k, v.getLsbD k = bit k) :
    ∃ t v, exec i s = .next t ∧ WroteReg s t rd v n ∧ ∀ k, v.getLsbD k = bit k := by
  obtain ⟨t, ht, wrote⟩ := s.setX_retire rd n hv
  exact ⟨t, v, h.trans ht, wrote, hbit⟩

/-- Settles O21: each operation is bitwise, and keeps values of XLEN bits. -/
theorem logicResults : Obligations.LogicResults := by
  intro s rd rs1 rs2 i12
  refine ⟨wroteBits_of_exec rfl ?_ fun _ => BitVec.getLsbD_and, wroteBits_of_exec rfl ?_ fun _ => BitVec.getLsbD_or,
    wroteBits_of_exec rfl ?_ fun _ => BitVec.getLsbD_xor, wroteBits_of_exec rfl ?_ fun _ => BitVec.getLsbD_or⟩
  · rw [wrap_and, s.wrap_x]
  · rw [wrap_or, s.wrap_x, s.wrap_x]
  · rw [wrap_xor, s.wrap_x, s.wrap_x]
  · rw [wrap_or, s.wrap_x, immI_eq, truncTo, wrap_wrap]

/-! ### Upper immediates (R418, R419, R434) -/

/-- The U-immediate is 4096 times its signed value (30_encoding.md R124). -/
theorem immU_eq (x : Xlen) (imm : BitVec 20) : immU x imm = truncTo x (4096 * imm.toInt) :=
  wrap_signExtend_append_zero x imm

/-- The C.LUI immediate is 4096 times its signed value (R434). -/
theorem immCLui_eq (x : Xlen) (imm : BitVec 6) : immCLui x imm = truncTo x (4096 * imm.toInt) :=
  wrap_signExtend_append_zero x imm

/-- Settles O22: each writes its immediate, AUIPC after adding it to pc. -/
theorem upperImmediateResults : Obligations.UpperImmediateResults := by
  intro s rd i20 i6
  refine ⟨wrote_of_exec rfl (immU_eq ..), wrote_of_exec rfl ?_, wrote_of_exec rfl (immCLui_eq ..)⟩
  rw [immU_eq]
  exact wrap_add_truncTo ..

/-! ### Targets -/

/-- The target `n` halfwords from pc. -/
def State.relTarget (s : State) (n : Int) : Word := truncTo s.xlen ((s.pcv.toNat : Int) + 2 * n)

/-- The J-immediate is twice its signed value (30_encoding.md R124). -/
theorem immJ_eq (x : Xlen) (imm : BitVec 20) : immJ x imm = truncTo x (2 * imm.toInt) :=
  wrap_signExtend_append_zero x imm

/-- The B-immediate is twice its signed value (30_encoding.md R124). -/
theorem immB_eq (x : Xlen) (imm : BitVec 12) : immB x imm = truncTo x (2 * imm.toInt) :=
  wrap_signExtend_append_zero x imm

/-- The CJ offset is twice its signed value (R437, R438). -/
theorem immCJ_eq (x : Xlen) (off : BitVec 11) : immCJ x off = truncTo x (2 * off.toInt) :=
  wrap_signExtend_append_zero x off

theorem State.wrap_pcv_add_eq_relTarget {s : State} {offset : Word} {n : Int} (h : offset = truncTo s.xlen (2 * n)) :
    wrap s.xlen (s.pcv + offset) = s.relTarget n := by
  rw [h, wrap_add_truncTo, State.relTarget]

/-- With Zca every even target is aligned. -/
theorem State.targetOk_of_even {s : State} (hz : s.cfg.ext.zca = true) {n : Int} (hn : n % 2 = 0) :
    s.targetOk (truncTo s.xlen n) := by
  have htrunc := truncTo_toNat s.xlen n
  rw [State.targetOk, if_pos hz]
  cases hx : s.xlen <;> simp only [hx, Xlen.bits] at htrunc ⊢ <;> omega

/-- With Zca pc is even. -/
theorem Inv.pcv_even {s : State} (h : Inv s) (hz : s.cfg.ext.zca = true) : s.pcv.toNat % 2 = 0 := by
  have hpc := h.pcAligned
  rwa [if_pos hz, ← wrap_of_lt h.pc] at hpc

theorem Inv.relTarget_even {s : State} (h : Inv s) (hz : s.cfg.ext.zca = true) (n : Int) :
    ((s.pcv.toNat : Int) + 2 * n) % 2 = 0 := by
  have hpc := h.pcv_even hz
  omega

/-! ### The transfers as jumps -/

section

variable (s : State)

theorem exec_jal (rd : Reg) (imm : BitVec 20) :
    exec (.jal rd imm) s = s.jump rd (s.after 4) (s.relTarget imm.toInt) s.elp := by
  rw [← s.pcPlus_eq_after, ← State.wrap_pcv_add_eq_relTarget (immJ_eq s.xlen imm)]
  rfl

theorem exec_cJ (off : BitVec 11) : exec (.cJ off) s = s.jump 0 0 (s.relTarget off.toInt) s.elp := by
  rw [← State.wrap_pcv_add_eq_relTarget (immCJ_eq s.xlen off)]
  rfl

theorem exec_cJal (off : BitVec 11) :
    exec (.cJal off) s = s.jump 1 (s.after 2) (s.relTarget off.toInt) s.elp := by
  rw [← s.pcPlus_eq_after, ← State.wrap_pcv_add_eq_relTarget (immCJ_eq s.xlen off)]
  rfl

theorem exec_jalr (rd rs1 : Reg) (imm : BitVec 12) : exec (.jalr rd rs1 imm) s =
    s.jump rd (s.after 4) (truncTo s.xlen (2 * ((s.ux rs1 + imm.toInt) / 2))) (s.elpNext rs1) := by
  rw [← s.pcPlus_eq_after, ← s.indirectTarget_eq, ← s.elpAfterJump_eq_elpNext]
  rfl

theorem exec_cJr (rs1 : Reg) :
    exec (.cJr rs1) s = s.jump 0 0 (truncTo s.xlen (2 * (s.ux rs1 / 2))) (s.elpNext rs1) := by
  rw [← s.indirectTarget_zero, ← s.elpAfterJump_eq_elpNext]
  rfl

theorem exec_cJalr (rs1 : Reg) :
    exec (.cJalr rs1) s = s.jump 1 (s.after 2) (truncTo s.xlen (2 * (s.ux rs1 / 2))) (s.elpNext rs1) := by
  rw [← s.pcPlus_eq_after, ← s.indirectTarget_zero, ← s.elpAfterJump_eq_elpNext]
  rfl

/-- Two registers hold the same value where they read as the same unsigned integer. -/
theorem State.ux_eq_ux_iff (rs1 rs2 : Reg) : s.ux rs1 = s.ux rs2 ↔ s.x rs1 = s.x rs2 := by
  rw [State.ux, State.ux, Int.natCast_inj, BitVec.toNat_inj]

/-- A branch taken is a jump without a link. -/
theorem State.branch_taken (imm : BitVec 12) : s.branch true imm = s.jump 0 0 (s.relTarget imm.toInt) s.elp := by
  rw [← State.wrap_pcv_add_eq_relTarget (immB_eq s.xlen imm)]
  rfl

/-- A branch not taken retires (R420, R423). -/
theorem State.branch_untaken (imm : BitVec 12) : s.branch false imm = s.retire 4 := rfl

/-- BEQ where the registers are equal and BNE where they are not is the branch taken (R423, R424). -/
theorem exec_taken (rs1 rs2 : Reg) (imm : BitVec 12) :
    exec (if s.ux rs1 = s.ux rs2 then .beq rs1 rs2 imm else .bne rs1 rs2 imm) s =
      s.jump 0 0 (s.relTarget imm.toInt) s.elp := by
  rw [← s.branch_taken]
  split
  · next h => exact congrArg (s.branch · imm) (beq_iff_eq.mpr ((s.ux_eq_ux_iff _ _).mp h))
  · next h => exact congrArg (s.branch · imm) (bne_iff_ne.mpr (mt (s.ux_eq_ux_iff _ _).mpr h))

/-- The other of the two is the branch not taken. -/
theorem exec_untaken (rs1 rs2 : Reg) (imm : BitVec 12) :
    exec (if s.ux rs1 = s.ux rs2 then .bne rs1 rs2 imm else .beq rs1 rs2 imm) s = s.retire 4 := by
  rw [← s.branch_untaken imm]
  split
  · next h => exact congrArg (s.branch · imm) (bne_eq_false_iff_eq.mpr ((s.ux_eq_ux_iff _ _).mp h))
  · next h => exact congrArg (s.branch · imm) (beq_eq_false_iff_ne.mpr (mt (s.ux_eq_ux_iff _ _).mpr h))

end

/-! ### Aligned targets -/

/-- An instruction that is a jump to an aligned target. -/
theorem jumped_of_exec {i : Instr} {s : State} {rd : Reg} {link : Word} {n : Int} {e : Elp}
    (h : exec i s = s.jump rd link (truncTo s.xlen n) e) (hl : wrap s.xlen link = link)
    (ha : s.targetOk (truncTo s.xlen n)) :
    ∃ t, exec i s = .next t ∧ Jumped s t (truncTo s.xlen n) rd link e :=
  h ▸ s.jump_aligned rd e hl (wrap_wrap _ _) ha

/-- Settles O30: each is a jump relative to pc that leaves ELP. -/
theorem directJumpsComplete : Obligations.DirectJumpsComplete := by
  intro s rd i20 i11
  exact ⟨jumped_of_exec (exec_jal s rd i20) (wrap_wrap _ _), fun ha =>
    ⟨jumped_of_exec (exec_cJ s i11) (wrap_zero _) ha, jumped_of_exec (exec_cJal s i11) (wrap_wrap _ _) ha⟩⟩

/-- Settles O32: one of the two branches is taken, and the other only advances. -/
theorem branchesComplete : Obligations.BranchesComplete := by
  intro s rs1 rs2 i12
  have taken := exec_taken s rs1 rs2 i12
  have untaken := exec_untaken s rs1 rs2 i12
  refine ⟨fun heq => ?_, fun hne => ?_⟩
  · rw [if_pos heq] at taken untaken
    exact ⟨jumped_of_exec taken (wrap_zero _), onlyAdvanced_of_exec untaken⟩
  · rw [if_neg hne] at taken untaken
    exact ⟨jumped_of_exec taken (wrap_zero _), onlyAdvanced_of_exec untaken⟩

/-! ### Misaligned targets (R420) -/

/-- An instruction that is a jump traps at a misaligned target, which with Zca an even one never is. -/
theorem misalignedTraps_of_exec {i : Instr} {s : State} {rd : Reg} {link : Word} {n : Int} {e : Elp}
    (h : exec i s = s.jump rd link (truncTo s.xlen n) e) (heven : Inv s → s.cfg.ext.zca = true → n % 2 = 0) :
    (¬ s.targetOk (truncTo s.xlen n) →
      ∃ t, exec i s = .next t ∧ TookTrap s t .instrAddrMisaligned (truncTo s.xlen n)) ∧
    (Inv s → s.cfg.ext.zca = true → s.targetOk (truncTo s.xlen n)) :=
  ⟨fun ha => h ▸ s.jump_misaligned rd link _ e ha, fun hs hz => State.targetOk_of_even hz (heven hs hz)⟩

/-- Settles O33: a target relative to pc is even as pc is, one through a register has bit 0 cleared. -/
theorem misalignedTargetTraps : Obligations.MisalignedTargetTraps := by
  intro s rd rs1 rs2 i20 i12 i11
  have relative (n : Int) (hs : Inv s) (hz : s.cfg.ext.zca = true) := hs.relTarget_even hz n
  have indirect (n : Int) (_ : Inv s) (_ : s.cfg.ext.zca = true) : 2 * n % 2 = 0 := Int.mul_emod_right 2 n
  refine ⟨?_, onlyAdvanced_of_exec (exec_untaken s rs1 rs2 i12)⟩
  simp only [List.forall_mem_cons]
  exact ⟨misalignedTraps_of_exec (exec_jal s rd i20) (relative _),
    misalignedTraps_of_exec (exec_jalr s rd rs1 i12) (indirect _),
    misalignedTraps_of_exec (exec_taken s rs1 rs2 i12) (relative _),
    misalignedTraps_of_exec (exec_cJ s i11) (relative _), misalignedTraps_of_exec (exec_cJal s i11) (relative _),
    misalignedTraps_of_exec (exec_cJr s rs1) (indirect _), misalignedTraps_of_exec (exec_cJalr s rs1) (indirect _),
    List.forall_mem_nil _⟩

/-! ### Calls and breakpoints (R430, R439) -/

theorem exec_ecall (s : State) : exec .ecall s = s.raise (ecallCause s.env.priv) 0 := rfl

/-- EBREAK and C.EBREAK are the breakpoint. -/
theorem exec_of_mem_breakpoints {i : Instr} (h : i ∈ [Instr.ebreak, .cEbreak]) (s : State) : exec i s = s.breakpoint :=
  exec_eq_of_mem rfl h

/-- The trap value of a breakpoint is pc or 0 (60_exceptions.md R459). -/
theorem State.breakpoint_tookTrap (s : State) : ∃ t tval, s.breakpoint = .next t ∧ (tval = s.pcv ∨ tval = 0) ∧
    TookTrap s t .breakpoint tval := by
  obtain ⟨t, ht, took⟩ := s.raise_tookTrap .breakpoint (if s.draw .breakpointValue % 2 = 0 then s.pcv else 0)
  exact ⟨t, _, ht, ite_eq_or_eq _ _ _, took⟩

/-- Settles O60: each takes its exception, ECALL that of the current mode. -/
theorem callsAndBreakpointsTrap : Obligations.CallsAndBreakpointsTrap := by
  intro s
  constructor
  · rw [exec_ecall]
    cases s.env.priv <;> exact s.raise_tookTrap _ 0
  · intro i hi
    rw [exec_of_mem_breakpoints hi]
    exact s.breakpoint_tookTrap

end Sys2Proof.Machine
end

section
/-! The trap record (60_exceptions.md R460, R464): what an exception records, and that a trapped hart has no move. -/

namespace Sys2Proof.Machine

/-- An instruction that completes leaves the running hart without a record; one that traps records its own pc, mode and
ELP, for it takes its exception after updates that left them. -/
theorem exec_trapRecorded {i : Instr} {s t : State} (hs : s.trap = none) (ht : t.trap ≠ none)
    (h : exec i s = .next t) : ∃ c v, TrapRecorded s t c v := by
  obtain ⟨u, hu, ⟨_, _, r⟩ | ⟨hk, c, v, r⟩⟩ := exec_next h
  · have running : t.trap = none := (hu.sameFlow.completed r).trap.trans hs
    exact absurd running ht
  · exact ⟨c, v, r.recorded hu.sameFlow hk⟩

/-- Settles O11: a step takes an exception before any instruction, or is the instruction it decoded. -/
theorem everyTrapIsRecordedExactly : Obligations.EveryTrapIsRecordedExactly := by
  rintro s t hs ht (hstep | ⟨i, hexec⟩)
  · obtain ⟨_, ⟨c, v, r⟩ | ⟨_, _, _, _, _, hexec⟩⟩ := step_next hstep
    · exact ⟨c, v, r.recorded (.refl s) (.refl s)⟩
    · exact exec_trapRecorded hs ht hexec
  · exact exec_trapRecorded hs ht hexec

theorem step_of_trapped {s : State} {r : TrapRecord} (h : s.trap = some r) : step s = .fault .trapped := by
  rw [step, h]

/-- Settles O12: `step` looks at the record before it fetches. -/
theorem trappedStateHasNoSuccessor : Obligations.TrappedStateHasNoSuccessor := by
  intro s h
  obtain ⟨r, hr⟩ := Option.ne_none_iff_exists'.mp h
  exact step_of_trapped hr

end Sys2Proof.Machine
end
